-- ==== Sys2Proof/Syntax.lean ====
section
/-! DEFINITION. The instruction set as syntax: the operand types and Instr, one constructor per row of
spec/opcode_table.json. The first 210 constructors are instruction words (03 R43); each carries its boundary bit `y`
(03 R32) and its operand fields. The last 70 are the device's events (95_what_each_step_holds.md), with the operands
that say where they happen. -/

namespace Sys2Proof

/-- The order modifier of a memory word (03 R32). -/
inductive Order where
  | none | acq | rel | acqrel
  deriving DecidableEq, Repr

/-- The two bits of an order (03 R32). -/
def Order.num : Order → BitVec 2
  | .none => 0 | .acq => 1 | .rel => 2 | .acqrel => 3

/-- An ordering point with this order has an acquire half (12 R224). -/
def Order.acquires : Order → Bool
  | .acq | .acqrel => true
  | .none | .rel => false

/-- An ordering point with this order has a release half (12 R224). -/
def Order.releases : Order → Bool
  | .rel | .acqrel => true
  | .none | .acq => false

/-- The scopes of 12 R223, in ascending order. -/
inductive Scope where
  | grp | team | core | clu | die | part | pkg | host | fab | sys
  deriving DecidableEq, Repr

/-- The scope code (03 R32). -/
def Scope.num : Scope → BitVec 4
  | .grp => 0 | .team => 1 | .core => 2 | .clu => 3 | .die => 4 | .part => 5 | .pkg => 6 | .host => 7 | .fab => 8
  | .sys => 9

/-- The scope needs the cross-die action (12 R223). -/
def Scope.crossDie (p : Scope) : Bool := decide (5 ≤ p.num.toNat)

/-- The scope needs the fabric action (12 R223, 17 R308). -/
def Scope.fabric (p : Scope) : Bool := decide (8 ≤ p.num.toNat)

/-- The barrier levels (12 R247). -/
inductive Level where
  | team | clu | die | grid
  deriving DecidableEq, Repr

def Level.num : Level → BitVec 2
  | .team => 0 | .clu => 1 | .die => 2 | .grid => 3

/-- Barriers of each level (12 R247). -/
def Level.count : Level → Nat
  | .team => 16 | .clu => 8 | .die => 4 | .grid => 4

/-- Format tags (03 R41). -/
inductive Tag where
  | raw | i32 | n32 | f32 | i16x2 | n16x2 | f16x2 | b16x2 | i8x4 | n8x4 | e4x4 | e5x4 | ps8x4 | i4x8 | rix
  deriving DecidableEq, Repr

def Tag.num : Tag → BitVec 4
  | .raw => 0 | .i32 => 1 | .n32 => 2 | .f32 => 3 | .i16x2 => 4 | .n16x2 => 5 | .f16x2 => 6 | .b16x2 => 7
  | .i8x4 => 8 | .n8x4 => 9 | .e4x4 => 10 | .e5x4 => 11 | .ps8x4 => 12 | .i4x8 => 13 | .rix => 14

/-- Conditions of SCMP (05 R76). -/
inductive SCond where
  | eq | ne | lt | le | ltn | len
  deriving DecidableEq, Repr

def SCond.code : SCond → BitVec 6
  | .eq => 0 | .ne => 1 | .lt => 2 | .le => 3 | .ltn => 4 | .len => 5

/-- Conditions of VCMP (06 R104). -/
inductive VCond where
  | eq | ne | lt | le | gt | ge
  deriving DecidableEq, Repr

def VCond.code : VCond → BitVec 6
  | .eq => 0 | .ne => 1 | .lt => 2 | .le => 3 | .gt => 4 | .ge => 5

/-- Conditions of FCMP (07 R125). -/
inductive FCond where
  | eq | ne | lt | le | un | ord
  deriving DecidableEq, Repr

def FCond.code : FCond → BitVec 6
  | .eq => 0 | .ne => 1 | .lt => 2 | .le => 3 | .un => 4 | .ord => 5

/-- Operations of VRED and VSCAN (06 R108). -/
inductive RedOp where
  | add | min | max | minn | maxn | and | or | xor
  deriving DecidableEq, Repr

def RedOp.num : RedOp → BitVec 4
  | .add => 0 | .min => 1 | .max => 2 | .minn => 3 | .maxn => 4 | .and => 5 | .or => 6 | .xor => 7

/-- Atomic operations (03 R44, 11 R203). -/
inductive AtomOp where
  | add | min | max | minn | maxn | and | or | xor | xchg | incw | decw | cas | fadd | fmin | fmax
  deriving DecidableEq, Repr

def AtomOp.num : AtomOp → BitVec 4
  | .add => 0 | .min => 1 | .max => 2 | .minn => 3 | .maxn => 4 | .and => 5 | .or => 6 | .xor => 7
  | .xchg => 8 | .incw => 9 | .decw => 10 | .cas => 11 | .fadd => 12 | .fmin => 13 | .fmax => 14

/-- The in-flight counters (08 R150, R164). -/
inductive Path where
  | g | t | k | e
  deriving DecidableEq, Repr

def Path.code : Path → BitVec 6
  | .g => 0 | .t => 1 | .k => 2 | .e => 3

/-- Target windows of CVTA (08 R165). -/
inductive Window where
  | priv | team | glob | const
  deriving DecidableEq, Repr

def Window.code : Window → BitVec 6
  | .priv => 0 | .team => 1 | .glob => 2 | .const => 3

/-- Special registers (03 R38). -/
inductive SReg where
  | lane | width | group | team | cluster | die | ndie | grid | core | pcore | part | clk | time | lpt | fstat
  | handler | tcause | tpc | tword | topa | topb | topc | tlanes | taddr | tstack | gstat
  | hmap (d : Fin 12)
  deriving DecidableEq, Repr

def SReg.num : SReg → BitVec 8
  | .lane => 0x00 | .width => 0x01 | .group => 0x02 | .team => 0x03 | .cluster => 0x04 | .die => 0x05
  | .ndie => 0x06 | .grid => 0x07 | .core => 0x08 | .pcore => 0x09 | .part => 0x0A | .clk => 0x0B | .time => 0x0C
  | .lpt => 0x0D | .fstat => 0x0E | .handler => 0x0F | .tcause => 0x10 | .tpc => 0x11 | .tword => 0x12
  | .topa => 0x13 | .topb => 0x14 | .topc => 0x15 | .tlanes => 0x16 | .taddr => 0x17 | .tstack => 0x18
  | .gstat => 0x19 | .hmap d => 0x20 + BitVec.ofNat 8 d.val

/-- The register is 64 bits wide and is read into a pair (03 R38). -/
def SReg.wide : SReg → Bool
  | .clk | .time | .handler | .tpc | .tlanes | .taddr | .hmap _ => true
  | _ => false

/-- System registers of SYSRD and SYSWR (09 R185). -/
inductive SysReg where
  | sr (n : SReg) | tbase | codebase | pstore
  deriving DecidableEq, Repr

def SysReg.num : SysReg → BitVec 12
  | .sr n => n.num.setWidth 12
  | .tbase => 0x40 | .codebase => 0x41 | .pstore => 0x42

def SysReg.wide : SysReg → Bool
  | .sr n => n.wide
  | .tbase | .codebase | .pstore => true

/-- A core of the package: its die and physical index (01 R12). -/
structure CoreRef where
  die : Fin 12
  core : Fin 36
  deriving DecidableEq, Repr

/-- A resident group: its core and resident slot. Slot 16·p + i is place i of scheduler partition p. -/
structure GroupRef where
  die : Fin 12
  core : Fin 36
  slot : Fin 64
  deriving DecidableEq, Repr, Inhabited

def GroupRef.at (r : GroupRef) : CoreRef := ⟨r.die, r.core⟩

/-- A barrier of a grid: its level, the unit of that level (team number, cluster number, die or 0), its number. -/
structure BarRef where
  grid : Nat
  lvl : Level
  unit : Nat
  n : Nat
  deriving DecidableEq, Repr

/-- What a lost flit carried (09 R195). -/
inductive LostFlit where
  | load (r : GroupRef) (n l : Nat)
  | line (a : Nat)
  | team (c : CoreRef) (o : Nat)
  /-- Unit u of the k-th job of a core: data of a copy or a collective. -/
  | unit (c : CoreRef) (k u : Nat)
  /-- The k-th message queued at a core. -/
  | message (c : CoreRef) (k : Nat)
  | fatal (d : Fin 12) (parts : BitVec 12)
  deriving DecidableEq, Repr

/-- Where an uncorrectable error lies (09 R196). -/
inductive EccPlace where
  | line (a : Nat)
  | team (c : CoreRef) (o : Nat)
  | group (r : GroupRef)
  | acc (c : CoreRef) (row col : Nat)
  /-- The array cell of a row and column. -/
  | array (c : CoreRef) (row col : Nat)
  /-- The scale of a column. -/
  | scale (c : CoreRef) (col : Nat)
  | table (c : CoreRef)
  | fatal (d : Fin 12) (parts : BitVec 12)
  deriving DecidableEq, Repr

/-- The windows the host writes (19 R312, R314). -/
inductive WinSpace where
  | mgmt
  | win (p : Fin 12)
  deriving DecidableEq, Repr

/-- An access of a peer device at this member (17 R296 to R302). -/
inductive FabAccess where
  | read
  | write (v : BitVec 32)
  | atomic (k : AtomOp) (v w : BitVec 32)
  deriving DecidableEq, Repr

/-- One row of the opcode table. `y` is the boundary bit B of a word. -/
inductive Instr where
  /-- NOP (R69): no operation. -/
  | nop (y : Bool)
  /-- BRA (R60): branch always. -/
  | bra (y : Bool) (o : BitVec 18)
  /-- BZ (R60): branch when s_a is zero. -/
  | bz (y : Bool) (a : BitVec 6) (o : BitVec 18)
  /-- BNZ (R60): branch when s_a is not zero. -/
  | bnz (y : Bool) (a : BitVec 6) (o : BitVec 18)
  /-- BRP (R61): divergent branch on a predicate, inverted when n. -/
  | brp (y : Bool) (n : Bool) (p : BitVec 3) (o : BitVec 18)
  /-- SETJ (R62): set the join point. -/
  | setj (y : Bool) (o : BitVec 18)
  /-- JOIN (R63): join point. -/
  | join (y : Bool)
  /-- CALL (R64): call with a uniform target. -/
  | call (y : Bool) (o : BitVec 18)
  /-- CALLI (R64): call through s_a. -/
  | calli (y : Bool) (a : BitVec 6)
  /-- CALLV (R66): call with per-lane targets. -/
  | callv (y : Bool) (d : BitVec 6) (a : BitVec 6)
  /-- RET (R65): return. -/
  | ret (y : Bool)
  /-- RETV (R67): return to per-lane links. -/
  | retv (y : Bool) (a : BitVec 6)
  /-- EXIT (R55): end the active lanes. -/
  | exit (y : Bool)
  /-- LOOP (R60): decrement s_a and branch when it is not zero. -/
  | loop (y : Bool) (a : BitVec 6) (o : BitVec 18)
  /-- ELECT (R70): predicate of the lowest active lane. -/
  | elect (y : Bool) (d : BitVec 3)
  /-- BALLOT (R70): mask of active lanes whose v_a is not zero. -/
  | ballot (y : Bool) (d : BitVec 6) (a : BitVec 6)
  /-- VOTE_ANY (R70): some active lane of p_a. -/
  | voteAny (y : Bool) (d : BitVec 6) (a : BitVec 3)
  /-- VOTE_ALL (R70): every active lane of p_a. -/
  | voteAll (y : Bool) (d : BitVec 6) (a : BitVec 3)
  /-- ACTIVE (R70): predicate of the active lanes. -/
  | active (y : Bool) (d : BitVec 3)
  /-- PMOVS (R70): predicate to uniform pair. -/
  | pmovs (y : Bool) (d : BitVec 6) (a : BitVec 3)
  /-- SMOVP (R70): uniform pair to predicate. -/
  | smovp (y : Bool) (d : BitVec 3) (a : BitVec 6)
  /-- PAND (R70): predicate logic on the active lanes. -/
  | pand (y : Bool) (d : BitVec 3) (a : BitVec 3) (b : BitVec 3)
  /-- POR (R70): predicate logic on the active lanes. -/
  | por (y : Bool) (d : BitVec 3) (a : BitVec 3) (b : BitVec 3)
  /-- PXOR (R70): predicate logic on the active lanes. -/
  | pxor (y : Bool) (d : BitVec 3) (a : BitVec 3) (b : BitVec 3)
  /-- PNOT (R70): predicate complement on the active lanes. -/
  | pnot (y : Bool) (d : BitVec 3) (a : BitVec 3)
  /-- PANDN (R70): predicate and-not on the active lanes. -/
  | pandn (y : Bool) (d : BitVec 3) (a : BitVec 3) (b : BitVec 3)
  /-- MATCH (R71): masks of lanes with equal keys. -/
  | matchK (y : Bool) (d : BitVec 6) (a : BitVec 6)
  /-- SADD (R75): uniform two-source operation. -/
  | sadd (y : Bool) (d : BitVec 6) (a : BitVec 6) (b : BitVec 6)
  /-- SSUB (R75): uniform two-source operation. -/
  | ssub (y : Bool) (d : BitVec 6) (a : BitVec 6) (b : BitVec 6)
  /-- SAND (R75): uniform two-source operation. -/
  | sand (y : Bool) (d : BitVec 6) (a : BitVec 6) (b : BitVec 6)
  /-- SOR (R75): uniform two-source operation. -/
  | sor (y : Bool) (d : BitVec 6) (a : BitVec 6) (b : BitVec 6)
  /-- SXOR (R75): uniform two-source operation. -/
  | sxor (y : Bool) (d : BitVec 6) (a : BitVec 6) (b : BitVec 6)
  /-- SANDN (R75): uniform two-source operation. -/
  | sandn (y : Bool) (d : BitVec 6) (a : BitVec 6) (b : BitVec 6)
  /-- SSHL (R75): uniform two-source operation. -/
  | sshl (y : Bool) (d : BitVec 6) (a : BitVec 6) (b : BitVec 6)
  /-- SSHR (R75): uniform two-source operation. -/
  | sshr (y : Bool) (d : BitVec 6) (a : BitVec 6) (b : BitVec 6)
  /-- SSRA (R75): uniform two-source operation. -/
  | ssra (y : Bool) (d : BitVec 6) (a : BitVec 6) (b : BitVec 6)
  /-- SMIN (R75): uniform two-source operation. -/
  | smin (y : Bool) (d : BitVec 6) (a : BitVec 6) (b : BitVec 6)
  /-- SMAX (R75): uniform two-source operation. -/
  | smax (y : Bool) (d : BitVec 6) (a : BitVec 6) (b : BitVec 6)
  /-- SMINN (R75): uniform two-source operation. -/
  | sminn (y : Bool) (d : BitVec 6) (a : BitVec 6) (b : BitVec 6)
  /-- SMAXN (R75): uniform two-source operation. -/
  | smaxn (y : Bool) (d : BitVec 6) (a : BitVec 6) (b : BitVec 6)
  /-- SMUL (R75): uniform two-source operation. -/
  | smul (y : Bool) (d : BitVec 6) (a : BitVec 6) (b : BitVec 6)
  /-- SMULH (R75): uniform two-source operation. -/
  | smulh (y : Bool) (d : BitVec 6) (a : BitVec 6) (b : BitVec 6)
  /-- SMULHN (R75): uniform two-source operation. -/
  | smulhn (y : Bool) (d : BitVec 6) (a : BitVec 6) (b : BitVec 6)
  /-- SCMP (R76): uniform compare. -/
  | scmp (y : Bool) (k : SCond) (d : BitVec 6) (a : BitVec 6) (b : BitVec 6)
  /-- SSEL (R77): uniform select. -/
  | ssel (y : Bool) (d : BitVec 6) (a : BitVec 6) (b : BitVec 6) (c : BitVec 6)
  /-- SSETI (R30): set from a signed immediate. -/
  | sseti (y : Bool) (d : BitVec 6) (i : BitVec 18)
  /-- SSETH (R78): set bits 31:14. -/
  | sseth (y : Bool) (d : BitVec 6) (i : BitVec 18)
  /-- SADDI (R30): add a signed immediate. -/
  | saddi (y : Bool) (d : BitVec 6) (i : BitVec 18)
  /-- SADD64 (R79): 64-bit pair arithmetic. -/
  | sadd64 (y : Bool) (d : BitVec 6) (a : BitVec 6) (b : BitVec 6)
  /-- SSUB64 (R79): 64-bit pair arithmetic. -/
  | ssub64 (y : Bool) (d : BitVec 6) (a : BitVec 6) (b : BitVec 6)
  /-- SLEA (R79): scaled address. -/
  | slea (y : Bool) (k : BitVec 3) (d : BitVec 6) (a : BitVec 6) (b : BitVec 6)
  /-- SDIV (R80): uniform division. -/
  | sdiv (y : Bool) (d : BitVec 6) (a : BitVec 6) (b : BitVec 6)
  /-- SDIVN (R80): uniform division. -/
  | sdivn (y : Bool) (d : BitVec 6) (a : BitVec 6) (b : BitVec 6)
  /-- SREM (R80): uniform division. -/
  | srem (y : Bool) (d : BitVec 6) (a : BitVec 6) (b : BitVec 6)
  /-- SREMN (R80): uniform division. -/
  | sremn (y : Bool) (d : BitVec 6) (a : BitVec 6) (b : BitVec 6)
  /-- SPOPC (R81): uniform bit operation. -/
  | spopc (y : Bool) (d : BitVec 6) (a : BitVec 6)
  /-- SCLZ (R81): uniform bit operation. -/
  | sclz (y : Bool) (d : BitVec 6) (a : BitVec 6)
  /-- SBREV (R81): uniform bit operation. -/
  | sbrev (y : Bool) (d : BitVec 6) (a : BitVec 6)
  /-- SBFX (R82): uniform field extract. -/
  | sbfx (y : Bool) (d : BitVec 6) (a : BitVec 6) (b : BitVec 6)
  /-- SBFXN (R82): uniform field extract. -/
  | sbfxn (y : Bool) (d : BitVec 6) (a : BitVec 6) (b : BitVec 6)
  /-- SBFI (R83): uniform field insert. -/
  | sbfi (y : Bool) (d : BitVec 6) (a : BitVec 6) (b : BitVec 6) (c : BitVec 6)
  /-- SMOV (R84): uniform move. -/
  | smov (y : Bool) (d : BitVec 6) (a : BitVec 6)
  /-- SMOVV (R84): one lane of a vector to a uniform. -/
  | smovv (y : Bool) (d : BitVec 6) (a : BitVec 6) (b : BitVec 6)
  /-- SRDSR (R85): read a special register. -/
  | srdsr (y : Bool) (d : BitVec 6) (j : BitVec 10) (n : SReg)
  /-- VADD (R95): vector element arithmetic. -/
  | vadd (y : Bool) (d : BitVec 6) (a : BitVec 6) (b : BitVec 6)
  /-- VSUB (R95): vector element arithmetic. -/
  | vsub (y : Bool) (d : BitVec 6) (a : BitVec 6) (b : BitVec 6)
  /-- VMUL (R95): vector element arithmetic. -/
  | vmul (y : Bool) (d : BitVec 6) (a : BitVec 6) (b : BitVec 6)
  /-- VMULH (R95): vector element arithmetic. -/
  | vmulh (y : Bool) (d : BitVec 6) (a : BitVec 6) (b : BitVec 6)
  /-- VMULHN (R95): vector element arithmetic. -/
  | vmulhn (y : Bool) (d : BitVec 6) (a : BitVec 6) (b : BitVec 6)
  /-- VMIN (R95): vector element arithmetic. -/
  | vmin (y : Bool) (d : BitVec 6) (a : BitVec 6) (b : BitVec 6)
  /-- VMAX (R95): vector element arithmetic. -/
  | vmax (y : Bool) (d : BitVec 6) (a : BitVec 6) (b : BitVec 6)
  /-- VMINN (R95): vector element arithmetic. -/
  | vminn (y : Bool) (d : BitVec 6) (a : BitVec 6) (b : BitVec 6)
  /-- VMAXN (R95): vector element arithmetic. -/
  | vmaxn (y : Bool) (d : BitVec 6) (a : BitVec 6) (b : BitVec 6)
  /-- VAND (R97): vector bitwise operation. -/
  | vand (y : Bool) (d : BitVec 6) (a : BitVec 6) (b : BitVec 6)
  /-- VOR (R97): vector bitwise operation. -/
  | vor (y : Bool) (d : BitVec 6) (a : BitVec 6) (b : BitVec 6)
  /-- VXOR (R97): vector bitwise operation. -/
  | vxor (y : Bool) (d : BitVec 6) (a : BitVec 6) (b : BitVec 6)
  /-- VANDN (R97): vector bitwise operation. -/
  | vandn (y : Bool) (d : BitVec 6) (a : BitVec 6) (b : BitVec 6)
  /-- VSHL (R96): vector shift. -/
  | vshl (y : Bool) (d : BitVec 6) (a : BitVec 6) (b : BitVec 6)
  /-- VSHR (R96): vector shift. -/
  | vshr (y : Bool) (d : BitVec 6) (a : BitVec 6) (b : BitVec 6)
  /-- VSRA (R96): vector shift. -/
  | vsra (y : Bool) (d : BitVec 6) (a : BitVec 6) (b : BitVec 6)
  /-- VABS (R95): vector absolute value. -/
  | vabs (y : Bool) (d : BitVec 6) (a : BitVec 6)
  /-- VNEG (R95): vector negation. -/
  | vneg (y : Bool) (d : BitVec 6) (a : BitVec 6)
  /-- VNOT (R97): vector complement. -/
  | vnot (y : Bool) (d : BitVec 6) (a : BitVec 6)
  /-- VMAD (R98): vector multiply-add. -/
  | vmad (y : Bool) (d : BitVec 6) (a : BitVec 6) (b : BitVec 6) (c : BitVec 6)
  /-- VDOT4 (R99): four-element dot product. -/
  | vdot4 (y : Bool) (d : BitVec 6) (a : BitVec 6) (b : BitVec 6) (c : BitVec 6)
  /-- LOG3 (R100): three-input logic by truth table s_c. -/
  | log3 (y : Bool) (d : BitVec 6) (a : BitVec 6) (b : BitVec 6) (c : BitVec 6)
  /-- VBFX (R101): vector signed field extract. -/
  | vbfx (y : Bool) (d : BitVec 6) (a : BitVec 6) (b : BitVec 6)
  /-- VBFXN (R101): vector unsigned field extract. -/
  | vbfxn (y : Bool) (d : BitVec 6) (a : BitVec 6) (b : BitVec 6)
  /-- VBFI (R101): vector field insert. -/
  | vbfi (y : Bool) (d : BitVec 6) (a : BitVec 6) (b : BitVec 6) (c : BitVec 6)
  /-- VFSH (R102): funnel shift right. -/
  | vfsh (y : Bool) (d : BitVec 6) (a : BitVec 6) (b : BitVec 6) (c : BitVec 6)
  /-- VFSHL (R102): funnel shift left. -/
  | vfshl (y : Bool) (d : BitVec 6) (a : BitVec 6) (b : BitVec 6) (c : BitVec 6)
  /-- VPOPC (R103): vector bit count. -/
  | vpopc (y : Bool) (d : BitVec 6) (a : BitVec 6)
  /-- VCLZ (R103): vector bit count. -/
  | vclz (y : Bool) (d : BitVec 6) (a : BitVec 6)
  /-- VCTZ (R103): vector bit count. -/
  | vctz (y : Bool) (d : BitVec 6) (a : BitVec 6)
  /-- VBREV (R103): vector bit count. -/
  | vbrev (y : Bool) (d : BitVec 6) (a : BitVec 6)
  /-- VCMP (R104): vector compare. -/
  | vcmp (y : Bool) (k : VCond) (d : BitVec 3) (a : BitVec 6) (b : BitVec 6)
  /-- VSEL (R105): vector select by predicate. -/
  | vsel (y : Bool) (d : BitVec 6) (a : BitVec 6) (b : BitVec 6) (c : BitVec 3)
  /-- VMOV (R106): vector move. -/
  | vmov (y : Bool) (d : BitVec 6) (a : BitVec 6)
  /-- VBCAST (R106): broadcast a uniform. -/
  | vbcast (y : Bool) (d : BitVec 6) (a : BitVec 6) (t : Tag)
  /-- VLANE (R106): broadcast one lane. -/
  | vlane (y : Bool) (d : BitVec 6) (a : BitVec 6) (b : BitVec 6)
  /-- VSHF_IDX (R107): lane shuffle. -/
  | vshfIdx (y : Bool) (d : BitVec 6) (a : BitVec 6) (b : BitVec 6)
  /-- VSHF_UP (R107): lane shuffle. -/
  | vshfUp (y : Bool) (d : BitVec 6) (a : BitVec 6) (b : BitVec 6)
  /-- VSHF_DN (R107): lane shuffle. -/
  | vshfDn (y : Bool) (d : BitVec 6) (a : BitVec 6) (b : BitVec 6)
  /-- VSHF_XOR (R107): lane shuffle. -/
  | vshfXor (y : Bool) (d : BitVec 6) (a : BitVec 6) (b : BitVec 6)
  /-- VRED (R108): fold of the active lanes to a uniform. -/
  | vred (y : Bool) (k : RedOp) (d : BitVec 6) (a : BitVec 6)
  /-- VSCAN (R108): prefix fold, exclusive when e. -/
  | vscan (y : Bool) (e : Bool) (k : RedOp) (d : BitVec 6) (a : BitVec 6)
  /-- FADD (R120): floating two-source operation. -/
  | fadd (y : Bool) (d : BitVec 6) (a : BitVec 6) (b : BitVec 6)
  /-- FSUB (R120): floating two-source operation. -/
  | fsub (y : Bool) (d : BitVec 6) (a : BitVec 6) (b : BitVec 6)
  /-- FMUL (R120): floating two-source operation. -/
  | fmul (y : Bool) (d : BitVec 6) (a : BitVec 6) (b : BitVec 6)
  /-- FMIN (R120): floating two-source operation. -/
  | fmin (y : Bool) (d : BitVec 6) (a : BitVec 6) (b : BitVec 6)
  /-- FMAX (R120): floating two-source operation. -/
  | fmax (y : Bool) (d : BitVec 6) (a : BitVec 6) (b : BitVec 6)
  /-- FABS (R120): clear the sign. -/
  | fabs (y : Bool) (d : BitVec 6) (a : BitVec 6)
  /-- FNEG (R120): invert the sign. -/
  | fneg (y : Bool) (d : BitVec 6) (a : BitVec 6)
  /-- FCPSGN (R120): copy the sign. -/
  | fcpsgn (y : Bool) (d : BitVec 6) (a : BitVec 6) (b : BitVec 6)
  /-- FMA (R121): fused multiply-add. -/
  | fma (y : Bool) (d : BitVec 6) (a : BitVec 6) (b : BitVec 6) (c : BitVec 6)
  /-- FMS (R121): fused multiply-add. -/
  | fms (y : Bool) (d : BitVec 6) (a : BitVec 6) (b : BitVec 6) (c : BitVec 6)
  /-- FNMA (R121): fused multiply-add. -/
  | fnma (y : Bool) (d : BitVec 6) (a : BitVec 6) (b : BitVec 6) (c : BitVec 6)
  /-- FCMP (R125): floating compare. -/
  | fcmp (y : Bool) (k : FCond) (d : BitVec 3) (a : BitVec 6) (b : BitVec 6)
  /-- FRCP (R124): function unit. -/
  | frcp (y : Bool) (d : BitVec 6) (a : BitVec 6)
  /-- FRSQ (R124): function unit. -/
  | frsq (y : Bool) (d : BitVec 6) (a : BitVec 6)
  /-- FSQRT (R124): function unit. -/
  | fsqrt (y : Bool) (d : BitVec 6) (a : BitVec 6)
  /-- FEXP2 (R124): function unit. -/
  | fexp2 (y : Bool) (d : BitVec 6) (a : BitVec 6)
  /-- FLOG2 (R124): function unit. -/
  | flog2 (y : Bool) (d : BitVec 6) (a : BitVec 6)
  /-- FSIN (R124): function unit. -/
  | fsin (y : Bool) (d : BitVec 6) (a : BitVec 6)
  /-- FCOS (R124): function unit. -/
  | fcos (y : Bool) (d : BitVec 6) (a : BitVec 6)
  /-- FTANH (R124): function unit. -/
  | ftanh (y : Bool) (d : BitVec 6) (a : BitVec 6)
  /-- FSIGM (R124): function unit. -/
  | fsigm (y : Bool) (d : BitVec 6) (a : BitVec 6)
  /-- FDIV (R123): division. -/
  | fdiv (y : Bool) (d : BitVec 6) (a : BitVec 6) (b : BitVec 6)
  /-- FCLASS (R126): class code. -/
  | fclass (y : Bool) (d : BitVec 6) (a : BitVec 6)
  /-- FSCALE (R127): scale by a power of two. -/
  | fscale (y : Bool) (d : BitVec 6) (a : BitVec 6) (b : BitVec 6)
  /-- FRINT (R128): round to integral. -/
  | frint (y : Bool) (d : BitVec 6) (a : BitVec 6)
  /-- FFRAC (R128): fraction part. -/
  | ffrac (y : Bool) (d : BitVec 6) (a : BitVec 6)
  /-- FDOT2 (R122): two-element dot product. -/
  | fdot2 (y : Bool) (d : BitVec 6) (a : BitVec 6) (b : BitVec 6) (c : BitVec 6)
  /-- CVT (R129): conversion to tag t, part p. -/
  | cvt (y : Bool) (d : BitVec 6) (a : BitVec 6) (p : BitVec 3) (t : Tag)
  /-- CVTN (R131): conversion to tag t, part p. -/
  | cvtn (y : Bool) (d : BitVec 6) (a : BitVec 6) (p : BitVec 3) (t : Tag)
  /-- CVTPS (R132): conversion to PS8. -/
  | cvtps (y : Bool) (d : BitVec 6) (a : BitVec 6) (b : BitVec 6) (p : BitVec 2)
  /-- PACK (R133): pack half-words. -/
  | pack (y : Bool) (d : BitVec 6) (a : BitVec 6) (b : BitVec 6) (t : Tag)
  /-- UNPK (R134): widen one element. -/
  | unpk (y : Bool) (d : BitVec 6) (a : BitVec 6) (j : BitVec 3)
  /-- TAGSET (R135): set a tag. -/
  | tagset (y : Bool) (d : BitVec 6) (t : Tag)
  /-- TAGRD (R135): read a tag. -/
  | tagrd (y : Bool) (d : BitVec 6) (a : BitVec 6)
  /-- LDG (R159): memory access. -/
  | ldg (y : Bool) (d : BitVec 6) (s : BitVec 6) (j : BitVec 6) (q : Order) (p : Scope)
  /-- STG (R159): memory access. -/
  | stg (y : Bool) (d : BitVec 6) (s : BitVec 6) (j : BitVec 6) (q : Order) (p : Scope)
  /-- LDT (R160): memory access. -/
  | ldt (y : Bool) (d : BitVec 6) (s : BitVec 6) (j : BitVec 6) (q : Order) (p : Scope)
  /-- STT (R160): memory access. -/
  | stt (y : Bool) (d : BitVec 6) (s : BitVec 6) (j : BitVec 6) (q : Order) (p : Scope)
  /-- LDK (R161): memory access. -/
  | ldk (y : Bool) (d : BitVec 6) (s : BitVec 6) (j : BitVec 6) (q : Order) (p : Scope)
  /-- STK (R161): memory access. -/
  | stk (y : Bool) (d : BitVec 6) (s : BitVec 6) (j : BitVec 6) (q : Order) (p : Scope)
  /-- LDGW (R159): memory access. -/
  | ldgw (y : Bool) (d : BitVec 6) (s : BitVec 6) (j : BitVec 6) (q : Order) (p : Scope)
  /-- STGW (R159): memory access. -/
  | stgw (y : Bool) (d : BitVec 6) (s : BitVec 6) (j : BitVec 6) (q : Order) (p : Scope)
  /-- PREF (R162): prefetch, into the slice only when l. -/
  | pref (y : Bool) (l : Bool) (s : BitVec 6) (j : BitVec 6)
  /-- WAITC (R164): wait on an in-flight counter. -/
  | waitc (y : Bool) (a : BitVec 6) (k : Path)
  /-- CVTA (R165): convert a generic pointer. -/
  | cvta (y : Bool) (d : BitVec 6) (a : BitVec 6) (t : Window)
  /-- SPACE (R166): window of a pointer. -/
  | space (y : Bool) (d : BitVec 6) (a : BitVec 6)
  /-- FLUSHL (R163): flush lines, invalidating when m. -/
  | flushl (y : Bool) (m : Bool) (s : BitVec 6) (j : BitVec 6) (p : Scope)
  /-- ATOM (R204): per-lane atomic. -/
  | atom (y : Bool) (d : BitVec 6) (s : BitVec 6) (j : BitVec 6) (k : AtomOp) (q : Order)
  /-- ATOMU (R205): uniform atomic. -/
  | atomu (y : Bool) (d : BitVec 6) (s : BitVec 6) (j : BitVec 6) (k : AtomOp) (q : Order)
  /-- RED (R205): reduction without a result. -/
  | red (y : Bool) (d : BitVec 6) (s : BitVec 6) (j : BitVec 6) (k : AtomOp) (q : Order)
  /-- LCK (R220): line lock. -/
  | lck (y : Bool) (d : BitVec 6) (s : BitVec 6) (j : BitVec 6) (q : Order)
  /-- ULCK (R222): line lock. -/
  | ulck (y : Bool) (d : BitVec 6) (s : BitVec 6) (j : BitVec 6) (q : Order)
  /-- LCKQ (R221): line lock. -/
  | lckq (y : Bool) (d : BitVec 6) (s : BitVec 6) (j : BitVec 6) (q : Order)
  /-- FENCE (R246): fence. -/
  | fence (y : Bool) (q : Order) (p : Scope)
  /-- BARA (R249): barrier arrival. -/
  | bara (y : Bool) (d : BitVec 6) (a : BitVec 6) (l : Level)
  /-- BARW (R250): barrier wait. -/
  | barw (y : Bool) (d : BitVec 6) (a : BitVec 6) (b : BitVec 6) (l : Level)
  /-- BAR (R250): barrier arrival and wait. -/
  | bar (y : Bool) (d : BitVec 6) (a : BitVec 6) (l : Level)
  /-- BARQ (R251): barrier query. -/
  | barq (y : Bool) (d : BitVec 6) (a : BitVec 6) (l : Level)
  /-- SVDECL (R253): declare a sync variable. -/
  | svdecl (y : Bool) (d : BitVec 6) (a : BitVec 6) (b : BitVec 6)
  /-- SVDROP (R253): drop a sync variable. -/
  | svdrop (y : Bool) (d : BitVec 6) (a : BitVec 6)
  /-- GRFL (R254): granule flush. -/
  | grfl (y : Bool) (s : BitVec 6) (j : BitVec 6) (p : Scope)
  /-- BLOAD (R271): load the array, the partner when n. -/
  | bload (y : Bool) (d : BitVec 6) (a : BitVec 6) (b : BitVec 6) (n : Bool)
  /-- MMA (R272): matrix multiply. -/
  | mma (y : Bool) (d : BitVec 6) (a : BitVec 6) (b : BitVec 6) (z : Bool) (t : Tag)
  /-- MMAP (R273): matrix multiply. -/
  | mmap (y : Bool) (d : BitVec 6) (a : BitVec 6) (b : BitVec 6) (z : Bool) (t : Tag)
  /-- ACCZ (R276): clear accumulator entries. -/
  | accz (y : Bool) (a : BitVec 6)
  /-- ACCRD (R277): read accumulator entries, unscaled when n. -/
  | accrd (y : Bool) (d : BitVec 6) (a : BitVec 6) (n : Bool) (t : Tag)
  /-- ACCWR (R277): write accumulator entries. -/
  | accwr (y : Bool) (d : BitVec 6) (a : BitVec 6)
  /-- ACCSCL (R278): scale accumulator rows. -/
  | accscl (y : Bool) (a : BitVec 6) (b : BitVec 6)
  /-- RANK (R280): rank a vector. -/
  | rank (y : Bool) (d : BitVec 6) (a : BitVec 6) (b : BitVec 6)
  /-- RKLD (R281): load the attenuation table. -/
  | rkld (y : Bool) (a : BitVec 6)
  /-- MMAR (R282): matrix multiply from rank lists. -/
  | mmar (y : Bool) (d : BitVec 6) (a : BitVec 6) (b : BitVec 6) (p : Bool)
  /-- RKVAL (R283): rebuild a dense vector. -/
  | rkval (y : Bool) (d : BitVec 6) (a : BitVec 6) (b : BitVec 6)
  /-- CPKICK (R292): post copy requests. -/
  | cpkick (y : Bool) (d : BitVec 6) (a : BitVec 6)
  /-- WAITA (R293): wait on an arrival object. -/
  | waita (y : Bool) (d : BitVec 6) (a : BitVec 6) (b : BitVec 6)
  /-- BLEND (R306): post a collective. -/
  | blend (y : Bool) (d : BitVec 6) (a : BitVec 6)
  /-- AMSEND (R310): send an active message. -/
  | amsend (y : Bool) (d : BitVec 6) (a : BitVec 6) (b : BitVec 6) (n : BitVec 5)
  /-- STMC (R299): multicast store. -/
  | stmc (y : Bool) (d : BitVec 6) (s : BitVec 6) (j : BitVec 6) (q : Order) (p : Scope)
  /-- LDRED (R300): reducing load. -/
  | ldred (y : Bool) (d : BitVec 6) (s : BitVec 6) (j : BitVec 6) (q : Order) (p : Scope)
  /-- FATOM (R302): switch atomic. -/
  | fatom (y : Bool) (d : BitVec 6) (s : BitVec 6) (j : BitVec 6) (k : AtomOp) (q : Order)
  /-- SEAL (R307): seal a page. -/
  | sealPage (y : Bool) (d : BitVec 6) (a : BitVec 6)
  /-- SEAL_OPEN (R307): open a page. -/
  | sealOpen (y : Bool) (d : BitVec 6) (a : BitVec 6)
  /-- VINTRD (R309): read a vintage. -/
  | vintrd (y : Bool) (d : BitVec 6) (a : BitVec 6)
  /-- LAUNCH (R335): launch a child grid. -/
  | launch (y : Bool) (d : BitVec 6) (a : BitVec 6) (b : BitVec 6)
  /-- TILESIG (R332): signal a tile. -/
  | tilesig (y : Bool) (d : BitVec 6) (a : BitVec 6) (b : BitVec 6) (p : Scope)
  /-- TILEW (R333): wait for a tile. -/
  | tilew (y : Bool) (d : BitVec 6) (a : BitVec 6) (b : BitVec 6) (p : Scope)
  /-- SETMODE (R176): write MODE. -/
  | setmode (y : Bool) (a : BitVec 6)
  /-- MODEF (R178): read and clear FSTAT, write MODE. -/
  | modef (y : Bool) (d : BitVec 6) (a : BitVec 6) (b : BitVec 6)
  /-- GETMODE (R176): read MODE. -/
  | getmode (y : Bool) (d : BitVec 6)
  /-- SYSRD (R185): read a system register. -/
  | sysrd (y : Bool) (d : BitVec 6) (n : SysReg)
  /-- SYSWR (R185): write a system register. -/
  | syswr (y : Bool) (d : BitVec 6) (n : SysReg)
  /-- TLBINV (R186): drop translations of a page. -/
  | tlbinv (y : Bool) (a : BitVec 6)
  /-- TLBINV_ALL (R186): drop every translation. -/
  | tlbinvAll (y : Bool)
  /-- CTXSV (R187): save the group image. -/
  | ctxsv (y : Bool) (d : BitVec 6) (a : BitVec 6)
  /-- CTXLD (R188): load a group image. -/
  | ctxld (y : Bool) (a : BitVec 6)
  /-- HALT (R189): halt the group. -/
  | halt (y : Bool)
  /-- SLEEP (R190): wait until TIME. -/
  | sleep (y : Bool) (a : BitVec 6)
  /-- TRAP (R180): raise TRAP. -/
  | trap (y : Bool) (n : BitVec 6)
  /-- RETT (R183): end service, resume at TPC. -/
  | rett (y : Bool)
  /-- RETT_NEXT (R183): end service, resume after TPC. -/
  | rettNext (y : Bool)
  /-- RETT_KILL (R183): end service, exit the lane. -/
  | rettKill (y : Bool)
  /-- YIELD (R182): yield the slot. -/
  | yield (y : Bool)
  /-- BRKPT (R181): breakpoint. -/
  | brkpt (y : Bool) (n : BitVec 6)
  /-- EMU (R48): emulation trap. -/
  | emu (y : Bool) (d : BitVec 6) (a : BitVec 6) (b : BitVec 6) (c : BitVec 6)
  /-- ILL (R49): permanent illegal instruction. -/
  | ill (y : Bool) (i : BitVec 24)
  /-- Event ISSUE_SLOT_GRANT (R352): issue slot k of scheduler partition p is granted. -/
  | issueSlotGrant (c : CoreRef) (p : Fin 4) (k : Fin 2)
  /-- Event DIVERGENCE_FILL (R57): the fills of the live entries complete. -/
  | divergenceFill (r : GroupRef)
  /-- Event TRANSLATION_WALK (R144): one page of a stalled instruction is walked. -/
  | translationWalk (r : GroupRef)
  /-- Event LOAD_DATA_LANDING (R154): data of lane l of access n lands. -/
  | loadDataLanding (r : GroupRef) (n : Nat) (l : Nat)
  /-- Event ACCESS_COMPLETION (R151): lane l of access n is performed, and complete accesses leave their counter. -/
  | accessCompletion (r : GroupRef) (n : Nat) (l : Nat)
  /-- Event ATOMIC_EXECUTE (R200): the word of lane l of atomic n is performed. -/
  | atomicExecute (r : GroupRef) (n : Nat) (l : Nat)
  /-- Event WAIT_CONDITION_MET (R164): a WAITC ends. -/
  | waitConditionMet (r : GroupRef)
  /-- Event SLEEP_EXPIRY (R190): a SLEEP ends. -/
  | sleepExpiry (r : GroupRef)
  /-- Event YIELD_EXPIRY (R182): a YIELD ends. -/
  | yieldExpiry (r : GroupRef)
  /-- Event GROUP_RETIRE (R55): an ended group releases its slot. -/
  | groupRetire (r : GroupRef)
  /-- Event LOCK_REQUEST_ARRIVAL (R209): the k-th lock request in flight arrives. -/
  | lockRequestArrival (k : Nat)
  /-- Event LOCK_GRANT (R211): the free lock of line a goes to its first present waiter. -/
  | lockGrant (a : Nat)
  /-- Event LOCK_TIMEOUT (R213): the timeout of a waiting LCK runs out. -/
  | lockTimeout (r : GroupRef)
  /-- Event DIFF_RECORD_APPLY (R236): the k-th record in flight is applied. -/
  | diffRecordApply (k : Nat)
  /-- Event STALE_NOTICE (R236): the k-th stale notice in flight arrives. -/
  | staleNotice (k : Nat)
  /-- Event BARRIER_PHASE_COMPLETE (R247): a barrier phase completes. -/
  | barrierPhaseComplete (b : BarRef)
  /-- Event REPLICA_PUSH (R148): line a is replicated to helper slices h. -/
  | replicaPush (a : Nat) (h : BitVec 16)
  /-- Event PAGE_MIGRATION (R149): the 64 KiB block a moves to block b. -/
  | pageMigration (a : Nat) (b : Nat)
  /-- Event POWER_GATE (R245): core u, or slice u - 36, of a die is gated. -/
  | powerGate (d : Fin 12) (u : Fin 52)
  /-- Event HOST_SNOOP (R243): the host snoops line a. -/
  | hostSnoop (a : Nat)
  /-- Event HOST_MEMORY_ACCESS (R29): the host reads or writes a word. -/
  | hostMemoryAccess (p : Fin 12) (a : BitVec 64) (w : Option (BitVec 32))
  /-- Event MATRIX_START (R264): a waiting matrix instruction starts. -/
  | matrixStart (r : GroupRef)
  /-- Event MATRIX_COMPLETE (R266): the k-th started matrix instruction completes. -/
  | matrixComplete (c : CoreRef) (k : Nat)
  /-- Event COPY_REQUEST_ACCEPT (R288): the next request of post n is accepted or rejected. -/
  | copyRequestAccept (r : GroupRef) (n : Nat)
  /-- Event ARRIVAL_UNIT_COUNT (R291): unit u of job k of a core lands. -/
  | arrivalUnitCount (c : CoreRef) (k : Nat) (u : Nat)
  /-- Event WAITA_SATISFIED (R293): a WAITA ends. -/
  | waitaSatisfied (r : GroupRef)
  /-- Event BLEND_INSTANCE (R304): the oldest blend instance of an entry runs. -/
  | blendInstance (p : Fin 12) (g : Fin 64)
  /-- Event FABRIC_REFUSAL (R296): a member refuses lane l of access n, for a sealed vintage when w. -/
  | fabricRefusal (r : GroupRef) (n : Nat) (l : Nat) (w : Bool)
  /-- Event MESSAGE_ENQUEUE (R311): the message of post n enters its queue. -/
  | messageEnqueue (r : GroupRef) (n : Nat)
  /-- Event SERVICE_GROUP_START (R311): the next message starts in the reserve of scheduler partition p. -/
  | serviceGroupStart (c : CoreRef) (p : Fin 4)
  /-- Event TILEW_SATISFIED (R333): a TILEW ends. -/
  | tilewSatisfied (r : GroupRef)
  /-- Event PREEMPT_REQUEST (R192): pre-emption of a partition is requested. -/
  | preemptRequest (p : Fin 12)
  /-- Event PREEMPT_SAVE (R193): a halted partition is saved. -/
  | preemptSave (p : Fin 12)
  /-- Event PREEMPT_RESTORE (R193): a saved partition is restored. -/
  | preemptRestore (p : Fin 12)
  /-- Event RESUME_HALTED (R316): halted groups resume. -/
  | resumeHalted (p : Fin 12)
  /-- Event TIME_SLICE_EXPIRY (R324): the slice of a queue expires. -/
  | timeSliceExpiry (p : Fin 12) (q : Fin 64)
  /-- Event STARVATION_SWAP (R329): the earliest waiting group of grid g is swapped out. -/
  | starvationSwap (c : CoreRef) (g : Nat)
  /-- Event SWAP_RETURN (R329): a swapped-out group returns. -/
  | swapReturn (c : CoreRef)
  /-- Event THROTTLE_WINDOW (R23): a power window begins, throttled when t. -/
  | throttleWindow (t : Bool)
  /-- Event LINK_STEP_UP (R337): a die-link steps up. -/
  | linkStepUp (k : Fin 46)
  /-- Event LINK_STEP_DOWN (R337): a die-link steps down. -/
  | linkStepDown (k : Fin 46)
  /-- Event FLIT_ERROR_RETRY (R195): a flit error is retried. -/
  | flitErrorRetry (k : Fin 46)
  /-- Event FLIT_LOST (R195): a flit is lost. -/
  | flitLost (f : LostFlit)
  /-- Event ECC_CORRECTED (R196): a single-bit error is corrected. -/
  | eccCorrected
  /-- Event ECC_UNCORRECTABLE (R196): an uncorrectable error is found. -/
  | eccUncorrectable (w : EccPlace)
  /-- Event AGENT_REJOIN (R198): a recovered die rejoins. -/
  | agentRejoin (d : Fin 12)
  /-- Event RESET (R26): reset. -/
  | reset
  /-- Event SELFTEST_PASS (R26): die u, or io u - 12, passes self-test. -/
  | selftestPass (u : Fin 14)
  /-- Event SELFTEST_TIMEOUT (R26): 500 ms pass. -/
  | selftestTimeout
  /-- Event LINK_TRAINED (R26): a die-link trains. -/
  | linkTrained (k : Fin 46)
  /-- Event LINK_TRAIN_FAIL (R26): a die-link fails training. -/
  | linkTrainFail (k : Fin 46)
  /-- Event FIRMWARE_VERIFIED (R339): firmware verification ends, accepted when k. -/
  | firmwareVerified (k : Bool)
  /-- Event PARTITION_ENABLE (R312): a PMAP write with EN 1. -/
  | partitionEnable (p : Fin 12) (v : BitVec 12)
  /-- Event PARTITION_TEARDOWN (R313): a PMAP write with EN 0. -/
  | partitionTeardown (p : Fin 12) (v : BitVec 12)
  /-- Event PLIMIT_WRITE (R147): a PLIMIT write. -/
  | plimitWrite (p : Fin 12) (v : BitVec 32)
  /-- Event TBASE_WRITE (R314): a TBASE write. -/
  | tbaseWrite (p : Fin 12) (v : BitVec 64)
  /-- Event QCTL_WRITE (R317): a QCTL write. -/
  | qctlWrite (p : Fin 12) (q : Fin 64) (v : BitVec 32)
  /-- Event PSTAT_RECOV_CLEAR (R316): RECOV is cleared. -/
  | pstatRecovClear (p : Fin 12)
  /-- Event REGISTER_WRITE (R314): a 32-bit write to a window register or slot word. -/
  | registerWrite (w : WinSpace) (a : Nat) (v : BitVec 32)
  /-- Event LAUNCH_COMMAND (R320): a command of its type is taken from its slot. -/
  | launchCommand (p : Fin 12) (q : Fin 64)
  /-- Event MARKER (R320): a command of its type is taken from its slot. -/
  | marker (p : Fin 12) (q : Fin 64)
  /-- Event ENUM (R339): a command of its type is taken, or runs. -/
  | enumCmd (p : Fin 12) (q : Fin 64)
  /-- Event ATTEST (R339): a command of its type is taken, or runs. -/
  | attest (p : Fin 12) (q : Fin 64)
  /-- Event FWLOAD (R339): a command of its type is taken, or runs. -/
  | fwload (p : Fin 12) (q : Fin 64)
  /-- Event DEPENDENCE_MET (R322): the dependences of a command are met. -/
  | dependenceMet (p : Fin 12) (q : Fin 64)
  /-- Event COMMAND_SELECT (R323): the distributor selects a command. -/
  | commandSelect (p : Fin 12)
  /-- Event CLUSTER_PLACE (R327): the next cluster of grid g on a die is placed. -/
  | clusterPlace (g : Nat) (d : Fin 12)
  /-- Event GRID_COMPLETE (R320): a grid completes. -/
  | gridComplete (g : Nat)
  /-- Event FABRIC_ACCESS_ARRIVAL (R296): a fabric access of a peer arrives at this member. -/
  | fabricAccessArrival (p : Fin 12) (g : Fin 64) (a : Nat) (w : FabAccess)
  /-- Event RETRAINING_COMPLETE (R337): retraining ends, well when t. -/
  | retrainingComplete (k : Fin 46) (t : Bool)
  deriving DecidableEq, Repr

/-- The row is an event of the device, not an instruction word. -/
def Instr.isEvent : Instr → Bool
  | .issueSlotGrant _ _ _ => true
  | .divergenceFill _ => true
  | .translationWalk _ => true
  | .loadDataLanding _ _ _ => true
  | .accessCompletion _ _ _ => true
  | .atomicExecute _ _ _ => true
  | .waitConditionMet _ => true
  | .sleepExpiry _ => true
  | .yieldExpiry _ => true
  | .groupRetire _ => true
  | .lockRequestArrival _ => true
  | .lockGrant _ => true
  | .lockTimeout _ => true
  | .diffRecordApply _ => true
  | .staleNotice _ => true
  | .barrierPhaseComplete _ => true
  | .replicaPush _ _ => true
  | .pageMigration _ _ => true
  | .powerGate _ _ => true
  | .hostSnoop _ => true
  | .hostMemoryAccess _ _ _ => true
  | .matrixStart _ => true
  | .matrixComplete _ _ => true
  | .copyRequestAccept _ _ => true
  | .arrivalUnitCount _ _ _ => true
  | .waitaSatisfied _ => true
  | .blendInstance _ _ => true
  | .fabricRefusal _ _ _ _ => true
  | .messageEnqueue _ _ => true
  | .serviceGroupStart _ _ => true
  | .tilewSatisfied _ => true
  | .preemptRequest _ => true
  | .preemptSave _ => true
  | .preemptRestore _ => true
  | .resumeHalted _ => true
  | .timeSliceExpiry _ _ => true
  | .starvationSwap _ _ => true
  | .swapReturn _ => true
  | .throttleWindow _ => true
  | .linkStepUp _ => true
  | .linkStepDown _ => true
  | .flitErrorRetry _ => true
  | .flitLost _ => true
  | .eccCorrected => true
  | .eccUncorrectable _ => true
  | .agentRejoin _ => true
  | .reset => true
  | .selftestPass _ => true
  | .selftestTimeout => true
  | .linkTrained _ => true
  | .linkTrainFail _ => true
  | .firmwareVerified _ => true
  | .partitionEnable _ _ => true
  | .partitionTeardown _ _ => true
  | .plimitWrite _ _ => true
  | .tbaseWrite _ _ => true
  | .qctlWrite _ _ _ => true
  | .pstatRecovClear _ => true
  | .registerWrite _ _ _ => true
  | .launchCommand _ _ => true
  | .marker _ _ => true
  | .enumCmd _ _ => true
  | .attest _ _ => true
  | .fwload _ _ => true
  | .dependenceMet _ _ => true
  | .commandSelect _ => true
  | .clusterPlace _ _ => true
  | .gridComplete _ => true
  | .fabricAccessArrival _ _ _ _ => true
  | .retrainingComplete _ _ => true
  | _ => false

end Sys2Proof
end

