-- ==== Sys2Proof/Word.lean ====
section
/-! DEFINITION. The word types of the machine (00 R3, R6) and their plainest arithmetic. -/

namespace Sys2Proof

/-- A 32-bit word: a uniform register, one lane of a vector register, an instruction (00 R6). -/
abbrev Word := BitVec 32

/-- A 64-bit value: an address, a clock, a mask held in a register pair (03 R36). -/
abbrev Addr := BitVec 64

/-- A set of lanes, bit l for lane l (03 R37). -/
abbrev Mask := BitVec 64

/-- A register number (03 R33). -/
abbrev Reg := BitVec 6

/-- The number a bit stands for. -/
def bit (b : Bool) : Nat := if b then 1 else 0

/-- A word of value 0 or 1. -/
def flagWord (b : Bool) : Word := if b then 1 else 0

end Sys2Proof
end

