-- ==== Sys2Proof/Config.lean ====
section
/-! DEFINITION. What one run of one device fixes and the manual leaves open: the free values. Every one is an opaque
constant without a body, so nothing can be proved about its value, and a claim holds whatever it is (assumption 1). The
first argument is the plain counter State.tick, so that every step meets fresh values. -/

namespace Sys2Proof

/-- What happens next: one issued instruction of a group, or one event of the device. -/
inductive Turn where
  /-- The group issues the next instruction of its run, when it has a run in progress (03 R34, 04 R51). -/
  | issue (r : GroupRef)
  /-- The event `i` happens, when its conditions hold. An instruction word in this place does nothing. -/
  | event (i : Instr)
  deriving DecidableEq, Repr, Inhabited

/-- The agent that moves at each step. The manual fixes no order among agents (assumption 2). -/
opaque Config.nextTurn : Nat → Turn

/-- How many clk pass at each step (assumption 3). -/
opaque Config.clkAdvance : Nat → Nat

/-- Whether a free choice between two allowed outcomes is taken, for the `i`-th choice of a step. -/
opaque Config.freeBit : (tick i : Nat) → Bool

/-- The `i`-th word a step receives from outside the machine or leaves open. -/
opaque Config.freeWord : (tick i : Nat) → Word

/-- The `i`-th number a step leaves open; the model brings it into the bounds the manual gives. -/
opaque Config.freeNat : (tick i : Nat) → Nat

/-- The result bits of a function-unit operation that are not architectural (07 R124): a fixed function of the
operation, the element format, the input element and MODE.FTZ. The machine takes it where it lies within the error bound. -/
opaque Config.fsf : (op : Nat) → (fmt : Tag) → (x : Word) → (ftz : Bool) → Word

/-- What a byte of memory reads as after its die was re-keyed for the `epoch`-th time and before it is written
(19 R313). -/
opaque Config.rekeyedByte : (epoch address : Nat) → BitVec 8

/-- What a byte of a partition's save area reads as after the device wrote the area at a tick, in a layout of its own
(09 R193, 19 R315). -/
opaque Config.ownByte : (tick address : Nat) → BitVec 8

/-- Byte `i` of the device's identity public key, which fuses fix (01 R29, 19 R339). -/
opaque Config.identityKey : (i : Nat) → BitVec 8

/-- Byte `i` of the digest of the security processor's own firmware (19 R339). -/
opaque Config.processorDigest : (i : Nat) → BitVec 8

/-- Whether a firmware image bears a good ML-DSA-44 signature (01 R28). -/
opaque Config.imageVerifies : (image : List (BitVec 8)) → Bool

/-- Byte `i` of a signature the security processor makes over a digest (01 R29, 19 R339). -/
opaque Config.signatureByte : (tick : Nat) → (digest : List (BitVec 8)) → (i : Nat) → BitVec 8

end Sys2Proof
end

