-- ==== Sys2Proof/WellFormed.lean ====
section
/-! DEFINITION. Well-formed instructions: the reserved field values that no context makes legal (03 R33, R43, R44 and the
entries), and the limits that depend on the issuing group (03 R45 detail 3). Decode refuses what these refuse. -/

namespace Sys2Proof

/-- Why a word raises ILLEGAL (03 R45). -/
inductive Illegal where
  /-- The opcode is unassigned. -/
  | opcode
  /-- A reserved value in the x field of an S-format word. -/
  | sub
  /-- A reserved value in another field. -/
  | field
  /-- A vector register at or above V, or an odd register in a pair field. -/
  | limit
  /-- Opcode 0x7C outside serial mode. -/
  | priv
  /-- The instruction is unavailable in reduced service. -/
  | reduced
  /-- EMU. -/
  | emu
  /-- ILL. -/
  | ill
  deriving DecidableEq, Repr

/-- The detail code (03 R45). -/
def Illegal.detail : Illegal → Nat
  | .opcode => 0 | .sub => 1 | .field => 2 | .limit => 3 | .priv => 4 | .reduced => 5 | .emu => 6 | .ill => 7

/-- Destination tags of CVT and CVTN (07 R129). -/
def Tag.converts (t : Tag) : Bool := t != .raw && t != .ps8x4 && t != .rix

/-- Destination tags of PACK (07 R133). -/
def Tag.packs (t : Tag) : Bool := t.num.toNat ≥ 4

/-- A tags of MMA and MMAP (16 R272). -/
def Tag.multiplies : Tag → Bool
  | .f16x2 | .b16x2 | .i8x4 | .n8x4 | .e4x4 | .e5x4 | .i4x8 => true
  | .raw | .i32 | .n32 | .f32 | .i16x2 | .n16x2 | .ps8x4 | .rix => false

/-- Destination tags of ACCRD (16 R275). -/
def Tag.accumulates : Tag → Bool
  | .i32 | .f32 | .f16x2 | .b16x2 => true
  | .raw | .n32 | .i16x2 | .n16x2 | .i8x4 | .n8x4 | .e4x4 | .e5x4 | .ps8x4 | .i4x8 | .rix => false

/-- Orders a load accepts, with the scope an order needs (08 R158). -/
def loadOrder (q : Order) (p : Scope) : Bool := (q == .none && p == .grp) || q == .acq

/-- Orders a store accepts, with the scope an order needs (08 R158). -/
def storeOrder (q : Order) (p : Scope) : Bool := (q == .none && p == .grp) || q == .rel

/-- The immediate index of LPT (05 R87): die 12 to 14 is reserved, and die 15 stands only in 0x3FF. -/
def lptIndex (j : BitVec 10) : Bool := decide (j.toNat / 64 < 12) || j == 0x3FF

/-- Registers SYSWR writes (09 R185). -/
def SysReg.writable : SysReg → Bool
  | .sr .handler | .sr .tcause | .sr .tpc | .sr .taddr | .sr .gstat => true
  | _ => false

/-- The instruction holds no reserved field value (03 R33, R43, R44). -/
def Instr.wf : Instr → Bool
  | .ldg _ _ _ _ q p | .ldt _ _ _ _ q p | .ldk _ _ _ _ q p | .ldgw _ _ _ _ q p | .ldred _ _ _ _ q p => loadOrder q p
  | .stg _ _ _ _ q p | .stt _ _ _ _ q p | .stk _ _ _ _ q p | .stgw _ _ _ _ q p | .stmc _ _ _ _ q p => storeOrder q p
  | .red _ _ _ _ k q => k != .xchg && k != .cas && (q == .none || q == .rel)
  | .lck _ _ _ _ q | .lckq _ _ _ _ q => q == .none || q == .acq
  | .ulck _ _ _ _ q => q == .none || q == .rel
  | .fence _ q _ => q != .none
  | .bara _ _ n l | .barw _ _ n _ l | .bar _ _ n l | .barq _ _ n l => decide (n.toNat < l.count)
  | .cvt _ _ _ _ t | .cvtn _ _ _ _ t => t.converts
  | .pack _ _ _ _ t => t.packs
  | .mma _ _ _ _ _ t | .mmap _ _ _ _ _ t => t.multiplies
  | .accrd _ _ _ _ t => t.accumulates
  | .amsend _ _ _ _ n => decide (n.toNat ≤ 16)
  | .srdsr _ _ j n => if n = .lpt then lptIndex j else j == 0
  | .sysrd _ _ n => n != .sr .lpt
  | .syswr _ _ n => n.writable
  | _ => true

/-- What decoding takes from the issuing group (03 R45, 01 R27): V, whether W is 64, serial mode, reduced service. -/
structure DecCtx where
  nv : Nat
  wide : Bool
  serial : Bool
  reduced : Bool
  deriving DecidableEq, Repr

/-- The index register of a format-M word, when there is one (03 R33). -/
def indexReg (j : Reg) : List Nat := if j = 0x3F then [] else [j.toNat]

/-- The vector registers the fields of a word name, whatever its context (03 R33). MATCH and SRDSR of LANE are in
`Instr.fits`. CVTA and SPACE use v_a and v_(a+1); their entries name only an odd a, and of the pair of d only d + 1 at or above
V: an even a whose a + 1 is not below V counts as a vector field at or above V here (assumption 70). -/
def Instr.vectors : Instr → List Nat
  | .callv _ d a | .vabs _ d a | .vneg _ d a | .vnot _ d a | .vpopc _ d a | .vclz _ d a | .vctz _ d a
    | .vbrev _ d a | .vmov _ d a | .vlane _ d a _ | .vshfUp _ d a _ | .vshfDn _ d a _ | .vshfXor _ d a _
    | .vscan _ _ _ d a | .fabs _ d a | .fneg _ d a | .frcp _ d a | .frsq _ d a | .fsqrt _ d a | .fexp2 _ d a
    | .flog2 _ d a | .fsin _ d a | .fcos _ d a | .ftanh _ d a | .fsigm _ d a | .fclass _ d a | .frint _ d a
    | .ffrac _ d a | .cvt _ d a _ _ | .cvtn _ d a _ _ | .unpk _ d a _ => [d.toNat, a.toNat]
  | .retv _ a | .ballot _ _ a | .smovv _ _ a _ | .vred _ _ _ a | .tagrd _ _ a => [a.toNat]
  | .vadd _ d a b | .vsub _ d a b | .vmul _ d a b | .vmulh _ d a b | .vmulhn _ d a b | .vmin _ d a b
    | .vmax _ d a b | .vminn _ d a b | .vmaxn _ d a b | .vand _ d a b | .vor _ d a b | .vxor _ d a b
    | .vandn _ d a b | .vshl _ d a b | .vshr _ d a b | .vsra _ d a b | .log3 _ d a b _ | .vbfx _ d a b
    | .vbfxn _ d a b | .vsel _ d a b _ | .vshfIdx _ d a b | .fadd _ d a b | .fsub _ d a b | .fmul _ d a b
    | .fmin _ d a b | .fmax _ d a b | .fcpsgn _ d a b | .fdiv _ d a b | .fscale _ d a b | .cvtps _ d a b _
    | .pack _ d a b _ => [d.toNat, a.toNat, b.toNat]
  | .vmad _ d a b c | .vdot4 _ d a b c | .vbfi _ d a b c | .vfsh _ d a b c | .vfshl _ d a b c | .fma _ d a b c
    | .fms _ d a b c | .fnma _ d a b c | .fdot2 _ d a b c => [d.toNat, a.toNat, b.toNat, c.toNat]
  | .vcmp _ _ _ a b | .fcmp _ _ _ a b => [a.toNat, b.toNat]
  | .vbcast _ d _ _ | .tagset _ d _ | .accrd _ d _ _ _ | .accwr _ d _ => [d.toNat]
  | .ldg _ d _ j _ _ | .stg _ d _ j _ _ | .ldt _ d _ j _ _ | .stt _ d _ j _ _ | .red _ d _ j _ _
    | .stmc _ d _ j _ _ | .ldred _ d _ j _ _ => [d.toNat] ++ indexReg j
  | .ldgw _ d _ j _ _ | .stgw _ d _ j _ _ => [d.toNat, d.toNat + 1, d.toNat + 2, d.toNat + 3] ++ indexReg j
  | .pref _ _ _ j | .flushl _ _ _ j _ | .grfl _ _ j _ => indexReg j
  | .cvta _ d a t => [a.toNat, a.toNat + 1, d.toNat] ++ (if t = .glob then [d.toNat + 1] else [])
  | .space _ d a => [d.toNat, a.toNat, a.toNat + 1]
  | .atom _ d _ j k _ | .fatom _ d _ j k _ => d.toNat :: (if k = .cas then [d.toNat + 1] else []) ++ indexReg j
  | _ => []

/-- The fields that name the even register of a pair (03 R33). -/
def Instr.evens : Instr → List Reg
  | .ballot _ d _ | .pmovs _ d _ => [d]
  | .smovp _ _ a | .space _ _ a | .svdecl _ _ a _ | .svdrop _ _ a | .sealPage _ _ a | .sealOpen _ _ a | .vintrd _ _ a
    | .tilesig _ _ a _ _ | .tilew _ _ a _ _ | .tlbinv _ a | .ctxsv _ _ a | .ctxld _ a | .sleep _ a => [a]
  | .sadd64 _ d a b | .ssub64 _ d a b => [d, a, b]
  | .slea _ _ d a _ => [d, a]
  | .srdsr _ d _ n | .sysrd _ d n | .syswr _ d n => if n.wide then [d] else []
  | .ldg _ _ s _ _ _ | .stg _ _ s _ _ _ | .ldk _ _ s _ _ _ | .stk _ _ s _ _ _ | .ldgw _ _ s _ _ _
    | .stgw _ _ s _ _ _ | .pref _ _ s _ | .flushl _ _ s _ _ | .red _ _ s _ _ _ | .lck _ _ s _ _ | .ulck _ _ s _ _
    | .lckq _ _ s _ _ | .grfl _ s _ _ | .stmc _ _ s _ _ _ | .ldred _ _ s _ _ _ => [s]
  | .cvta _ d a t => a :: (if t = .glob then [d] else [])
  | .atom _ d s _ k _ | .atomu _ d s _ k _ | .fatom _ d s _ k _ => s :: (if k = .cas then [d] else [])
  | .launch _ _ a b => [a, b]
  | _ => []

/-- The limits of 03 R45 detail 3: vector registers below V, even pairs, and the entries' own (04 R71, 05 R85, 08 R158). -/
def Instr.fits (k : DecCtx) (i : Instr) : Bool :=
  i.vectors.all (fun v => decide (v < k.nv)) && i.evens.all (fun r => r.toNat % 2 == 0) &&
  match i with
  | .ldgw _ d _ _ _ _ | .stgw _ d _ _ _ _ => d.toNat % 4 == 0
  | .matchK _ d a =>
    decide (a.toNat < k.nv) && decide (d.toNat < k.nv) &&
      (!k.wide || (d.toNat % 2 == 0 && decide (d.toNat + 1 < k.nv)))
  | .srdsr _ d _ n => n != .lane || k.serial || decide (d.toNat < k.nv)
  | _ => true

/-- RETT is decoded only in serial mode (09 R183). -/
def Instr.serialOnly : Instr → Bool
  | .rett _ | .rettNext _ | .rettKill _ => true
  | _ => false

end Sys2Proof
end

