-- ==== Sys2Proof/Decode.lean ====
section
/-! DEFINITION. Decoding (03 R32 to R49), total on words and on bytes, every rejection by its ILLEGAL detail; then the
encoder, from the same tables. -/

namespace Sys2Proof

/-! ### The fields of a word (03 R32) -/

def fldB31 (w : Word) : Bool := w.getLsbD 31
def fldOp (w : Word) : BitVec 7 := w.extractLsb' 24 7
def fldD (w : Word) : Reg := w.extractLsb' 18 6
def fldA (w : Word) : Reg := w.extractLsb' 12 6
def fldB (w : Word) : Reg := w.extractLsb' 6 6
def fldC (w : Word) : Reg := w.extractLsb' 0 6
def fldImm (w : Word) : BitVec 18 := w.extractLsb' 0 18
def fldNum (w : Word) : BitVec 12 := w.extractLsb' 6 12
def fld24 (w : Word) : BitVec 24 := w.extractLsb' 0 24

/-- Bits 2:0 of a field. -/
def lo3 (f : BitVec 6) : BitVec 3 := f.extractLsb' 0 3
/-- Bits 3:0 of a field. -/
def lo4 (f : BitVec 6) : BitVec 4 := f.extractLsb' 0 4
/-- Bits 5:4 of a field. -/
def hi2 (f : BitVec 6) : BitVec 2 := f.extractLsb' 4 2

/-- The first entry of a list with a given code. -/
def byCode {α : Type} {n : Nat} (all : List α) (code : α → BitVec n) (x : BitVec n) : Option α :=
  all.find? fun a => code a == x

def Order.ofNum (x : BitVec 2) : Option Order := byCode [.none, .acq, .rel, .acqrel] Order.num x
def Scope.ofNum (x : BitVec 4) : Option Scope :=
  byCode [.grp, .team, .core, .clu, .die, .part, .pkg, .host, .fab, .sys] Scope.num x
def Level.ofNum (x : BitVec 2) : Option Level := byCode [.team, .clu, .die, .grid] Level.num x
def Tag.ofNum (x : BitVec 4) : Option Tag :=
  byCode [.raw, .i32, .n32, .f32, .i16x2, .n16x2, .f16x2, .b16x2, .i8x4, .n8x4, .e4x4, .e5x4, .ps8x4, .i4x8, .rix]
    Tag.num x
def SCond.ofCode (x : BitVec 6) : Option SCond := byCode [.eq, .ne, .lt, .le, .ltn, .len] SCond.code x
def VCond.ofCode (x : BitVec 6) : Option VCond := byCode [.eq, .ne, .lt, .le, .gt, .ge] VCond.code x
def FCond.ofCode (x : BitVec 6) : Option FCond := byCode [.eq, .ne, .lt, .le, .un, .ord] FCond.code x
def RedOp.ofNum (x : BitVec 4) : Option RedOp :=
  byCode [.add, .min, .max, .minn, .maxn, .and, .or, .xor] RedOp.num x
def AtomOp.ofNum (x : BitVec 4) : Option AtomOp :=
  byCode [.add, .min, .max, .minn, .maxn, .and, .or, .xor, .xchg, .incw, .decw, .cas, .fadd, .fmin, .fmax]
    AtomOp.num x
def Path.ofCode (x : BitVec 6) : Option Path := byCode [.g, .t, .k, .e] Path.code x
def Window.ofCode (x : BitVec 6) : Option Window := byCode [.priv, .team, .glob, .const] Window.code x
def SReg.ofNum (x : BitVec 8) : Option SReg :=
  byCode ([.lane, .width, .group, .team, .cluster, .die, .ndie, .grid, .core, .pcore, .part, .clk, .time, .lpt, .fstat,
    .handler, .tcause, .tpc, .tword, .topa, .topb, .topc, .tlanes, .taddr, .tstack, .gstat,
    .hmap 0, .hmap 1, .hmap 2, .hmap 3, .hmap 4, .hmap 5, .hmap 6, .hmap 7, .hmap 8, .hmap 9, .hmap 10, .hmap 11])
    SReg.num x
def SysReg.ofNum (x : BitVec 12) : Option SysReg :=
  if x = 0x40 then some .tbase else if x = 0x41 then some .codebase else if x = 0x42 then some .pstore
  else if x.extractLsb' 8 4 = 0 then (SReg.ofNum (x.extractLsb' 0 8)).map .sr else none

/-! ### Parsing: details 0, 1 and 2 of 03 R45 -/

abbrev Parsed := Except Illegal Instr

/-- The field must be zero. -/
def zero (f : BitVec 6) (k : Parsed) : Parsed := if f = 0 then k else .error .field

/-- A predicate or part field: bits 5:3 must be zero. -/
def three (f : BitVec 6) (k : BitVec 3 → Parsed) : Parsed :=
  if f.extractLsb' 3 3 = 0 then k (lo3 f) else .error .field

/-- A field with named values. -/
def named {α : Type} (e : Illegal) (o : Option α) (k : α → Parsed) : Parsed :=
  match o with
  | some a => k a
  | none => .error e

/-- A condition on a field. -/
def need (e : Illegal) (b : Bool) (k : Parsed) : Parsed := if b then k else .error e

/-- The last check of an entry's reserved values. -/
def checked (i : Instr) : Parsed := if i.wf then .ok i else .error .field

/-- Order and scope of a format-M word (03 R32). -/
def ordered (x : BitVec 6) (k : Order → Scope → Parsed) : Parsed :=
  named .field (Order.ofNum (hi2 x)) fun q => named .field (Scope.ofNum (lo4 x)) fun p => k q p

/-- Operation and order of an atomic word (03 R44). -/
def atomic (x : BitVec 6) (k : AtomOp → Order → Parsed) : Parsed :=
  named .field (AtomOp.ofNum (x.extractLsb' 2 4)) fun o => named .field (Order.ofNum (x.extractLsb' 0 2)) fun q => k o q

/-- Opcodes 0x00 to 0x0F: control and lane sets. -/
def parseControl (w : Word) : Parsed :=
  let y := fldB31 w; let d := fldD w; let a := fldA w; let b := fldB w; let x := fldC w; let o := fldImm w
  let blank (i : Instr) : Parsed := if fld24 w = 0 then .ok i else .error .field
  match (fldOp w).toNat with
  | 0x00 => blank (.nop y)
  | 0x01 => zero d <| .ok (.bra y o)
  | 0x02 => .ok (.bz y d o)
  | 0x03 => .ok (.bnz y d o)
  | 0x04 => need .field (d.extractLsb' 4 2 == 0) <| .ok (.brp y (d.getLsbD 3) (lo3 d) o)
  | 0x05 => zero d <| .ok (.setj y o)
  | 0x06 => blank (.join y)
  | 0x07 => zero d <| .ok (.call y o)
  | 0x08 => need .sub (x == 0) <| zero d <| zero b <| .ok (.calli y a)
  | 0x09 => need .sub (x == 0) <| zero b <| .ok (.callv y d a)
  | 0x0A => blank (.ret y)
  | 0x0B => need .sub (x == 0) <| zero d <| zero b <| .ok (.retv y a)
  | 0x0C => blank (.exit y)
  | 0x0D => .ok (.loop y d o)
  | 0x0E =>
    match x.toNat with
    | 0 => three d fun d => zero a <| zero b <| .ok (.elect y d)
    | 1 => zero b <| .ok (.ballot y d a)
    | 2 => three a fun a => zero b <| .ok (.voteAny y d a)
    | 3 => three a fun a => zero b <| .ok (.voteAll y d a)
    | 4 => three d fun d => zero a <| zero b <| .ok (.active y d)
    | 5 => three a fun a => zero b <| .ok (.pmovs y d a)
    | 6 => three d fun d => zero b <| .ok (.smovp y d a)
    | 7 => three d fun d => three a fun a => three b fun b => .ok (.pand y d a b)
    | 8 => three d fun d => three a fun a => three b fun b => .ok (.por y d a b)
    | 9 => three d fun d => three a fun a => three b fun b => .ok (.pxor y d a b)
    | 10 => three d fun d => three a fun a => zero b <| .ok (.pnot y d a)
    | 11 => three d fun d => three a fun a => three b fun b => .ok (.pandn y d a b)
    | _ => .error .sub
  | 0x0F => need .sub (x == 0) <| zero b <| .ok (.matchK y d a)
  | _ => .error .opcode

/-- Opcodes 0x10 to 0x1F: uniform integer. -/
def parseUniform (w : Word) : Parsed :=
  let y := fldB31 w; let d := fldD w; let a := fldA w; let b := fldB w; let x := fldC w; let i := fldImm w
  match (fldOp w).toNat with
  | 0x10 =>
    match x.toNat with
    | 0 => .ok (.sadd y d a b)
    | 1 => .ok (.ssub y d a b)
    | 2 => .ok (.sand y d a b)
    | 3 => .ok (.sor y d a b)
    | 4 => .ok (.sxor y d a b)
    | 5 => .ok (.sandn y d a b)
    | 6 => .ok (.sshl y d a b)
    | 7 => .ok (.sshr y d a b)
    | 8 => .ok (.ssra y d a b)
    | 9 => .ok (.smin y d a b)
    | 10 => .ok (.smax y d a b)
    | 11 => .ok (.sminn y d a b)
    | 12 => .ok (.smaxn y d a b)
    | 13 => .ok (.smul y d a b)
    | 14 => .ok (.smulh y d a b)
    | 15 => .ok (.smulhn y d a b)
    | _ => .error .sub
  | 0x11 => named .sub (SCond.ofCode x) fun k => .ok (.scmp y k d a b)
  | 0x12 => .ok (.ssel y d a b x)
  | 0x13 => .ok (.sseti y d i)
  | 0x14 => .ok (.sseth y d i)
  | 0x15 => .ok (.saddi y d i)
  | 0x16 =>
    if x = 0 then .ok (.sadd64 y d a b) else if x = 1 then .ok (.ssub64 y d a b)
    else need .sub (x.extractLsb' 3 3 == 2) <| .ok (.slea y (lo3 x) d a b)
  | 0x17 =>
    match x.toNat with
    | 0 => .ok (.sdiv y d a b)
    | 1 => .ok (.sdivn y d a b)
    | 2 => .ok (.srem y d a b)
    | 3 => .ok (.sremn y d a b)
    | _ => .error .sub
  | 0x18 =>
    match x.toNat with
    | 0 => zero b <| .ok (.spopc y d a)
    | 1 => zero b <| .ok (.sclz y d a)
    | 2 => zero b <| .ok (.sbrev y d a)
    | 3 => .ok (.sbfx y d a b)
    | 4 => .ok (.sbfxn y d a b)
    | _ => .error .sub
  | 0x19 => .ok (.sbfi y d a b x)
  | 0x1A =>
    match x.toNat with
    | 0 => zero b <| .ok (.smov y d a)
    | 1 => .ok (.smovv y d a b)
    | _ => .error .sub
  | 0x1B => named .field (SReg.ofNum (i.extractLsb' 0 8)) fun n => checked (.srdsr y d (i.extractLsb' 8 10) n)
  | _ => .error .opcode

/-- Opcodes 0x20 to 0x2F: vector integer. -/
def parseVector (w : Word) : Parsed :=
  let y := fldB31 w; let d := fldD w; let a := fldA w; let b := fldB w; let x := fldC w
  match (fldOp w).toNat with
  | 0x20 =>
    match x.toNat with
    | 0 => .ok (.vadd y d a b)
    | 1 => .ok (.vsub y d a b)
    | 2 => .ok (.vmul y d a b)
    | 3 => .ok (.vmulh y d a b)
    | 4 => .ok (.vmulhn y d a b)
    | 5 => .ok (.vmin y d a b)
    | 6 => .ok (.vmax y d a b)
    | 7 => .ok (.vminn y d a b)
    | 8 => .ok (.vmaxn y d a b)
    | 9 => .ok (.vand y d a b)
    | 10 => .ok (.vor y d a b)
    | 11 => .ok (.vxor y d a b)
    | 12 => .ok (.vandn y d a b)
    | 13 => .ok (.vshl y d a b)
    | 14 => .ok (.vshr y d a b)
    | 15 => .ok (.vsra y d a b)
    | 16 => zero b <| .ok (.vabs y d a)
    | 17 => zero b <| .ok (.vneg y d a)
    | 18 => zero b <| .ok (.vnot y d a)
    | _ => .error .sub
  | 0x21 => .ok (.vmad y d a b x)
  | 0x22 => .ok (.vdot4 y d a b x)
  | 0x23 => .ok (.log3 y d a b x)
  | 0x24 => zero x <| .ok (.vbfx y d a b)
  | 0x25 => zero x <| .ok (.vbfxn y d a b)
  | 0x26 => .ok (.vbfi y d a b x)
  | 0x27 => .ok (.vfsh y d a b x)
  | 0x28 => .ok (.vfshl y d a b x)
  | 0x29 =>
    match x.toNat with
    | 0 => zero b <| .ok (.vpopc y d a)
    | 1 => zero b <| .ok (.vclz y d a)
    | 2 => zero b <| .ok (.vctz y d a)
    | 3 => zero b <| .ok (.vbrev y d a)
    | _ => .error .sub
  | 0x2A => named .sub (VCond.ofCode x) fun k => three d fun d => .ok (.vcmp y k d a b)
  | 0x2B => three x fun c => .ok (.vsel y d a b c)
  | 0x2C =>
    match x.toNat with
    | 0 => zero b <| .ok (.vmov y d a)
    | 1 => need .field (hi2 b == 0) <| named .field (Tag.ofNum (lo4 b)) fun t => .ok (.vbcast y d a t)
    | 2 => .ok (.vlane y d a b)
    | _ => .error .sub
  | 0x2D =>
    match x.toNat with
    | 0 => .ok (.vshfIdx y d a b)
    | 1 => .ok (.vshfUp y d a b)
    | 2 => .ok (.vshfDn y d a b)
    | 3 => .ok (.vshfXor y d a b)
    | _ => .error .sub
  | 0x2E => need .sub (hi2 x == 0) <| named .sub (RedOp.ofNum (lo4 x)) fun k => zero b <| .ok (.vred y k d a)
  | 0x2F =>
    need .sub (!x.getLsbD 5) <| named .sub (RedOp.ofNum (lo4 x)) fun k => zero b <| .ok (.vscan y (x.getLsbD 4) k d a)
  | _ => .error .opcode

/-- Opcodes 0x30 to 0x47: floating point and conversion. -/
def parseFloat (w : Word) : Parsed :=
  let y := fldB31 w; let d := fldD w; let a := fldA w; let b := fldB w; let x := fldC w
  match (fldOp w).toNat with
  | 0x30 =>
    match x.toNat with
    | 0 => .ok (.fadd y d a b)
    | 1 => .ok (.fsub y d a b)
    | 2 => .ok (.fmul y d a b)
    | 3 => .ok (.fmin y d a b)
    | 4 => .ok (.fmax y d a b)
    | 5 => zero b <| .ok (.fabs y d a)
    | 6 => zero b <| .ok (.fneg y d a)
    | 7 => .ok (.fcpsgn y d a b)
    | _ => .error .sub
  | 0x31 => .ok (.fma y d a b x)
  | 0x32 => .ok (.fms y d a b x)
  | 0x33 => .ok (.fnma y d a b x)
  | 0x34 => named .sub (FCond.ofCode x) fun k => three d fun d => .ok (.fcmp y k d a b)
  | 0x35 =>
    match x.toNat with
    | 0 => zero b <| .ok (.frcp y d a)
    | 1 => zero b <| .ok (.frsq y d a)
    | 2 => zero b <| .ok (.fsqrt y d a)
    | 3 => zero b <| .ok (.fexp2 y d a)
    | 4 => zero b <| .ok (.flog2 y d a)
    | 5 => zero b <| .ok (.fsin y d a)
    | 6 => zero b <| .ok (.fcos y d a)
    | 7 => zero b <| .ok (.ftanh y d a)
    | 8 => zero b <| .ok (.fsigm y d a)
    | _ => .error .sub
  | 0x36 => zero x <| .ok (.fdiv y d a b)
  | 0x37 => zero b <| zero x <| .ok (.fclass y d a)
  | 0x38 => zero x <| .ok (.fscale y d a b)
  | 0x39 =>
    match x.toNat with
    | 0 => zero b <| .ok (.frint y d a)
    | 1 => zero b <| .ok (.ffrac y d a)
    | _ => .error .sub
  | 0x3A => .ok (.fdot2 y d a b x)
  | 0x40 =>
    need .sub (hi2 x == 0) <| named .sub (Tag.ofNum (lo4 x)) fun t =>
      need .sub t.converts <| three b fun p => .ok (.cvt y d a p t)
  | 0x41 =>
    need .sub (hi2 x == 0) <| named .sub (Tag.ofNum (lo4 x)) fun t =>
      need .sub t.converts <| three b fun p => .ok (.cvtn y d a p t)
  | 0x42 => need .field (x.extractLsb' 2 4 == 0) <| .ok (.cvtps y d a b (x.extractLsb' 0 2))
  | 0x43 =>
    need .sub (hi2 x == 0) <| named .sub (Tag.ofNum (lo4 x)) fun t => need .sub t.packs <| .ok (.pack y d a b t)
  | 0x44 => need .sub (x.extractLsb' 3 3 == 0) <| zero b <| .ok (.unpk y d a (lo3 x))
  | 0x45 =>
    if hi2 x = 0 then named .sub (Tag.ofNum (lo4 x)) fun t => zero a <| zero b <| .ok (.tagset y d t)
    else need .sub (x == 16) <| zero b <| .ok (.tagrd y d a)
  | _ => .error .opcode

/-- Opcodes 0x48 to 0x57: memory access. -/
def parseMemory (w : Word) : Parsed :=
  let y := fldB31 w; let d := fldD w; let a := fldA w; let b := fldB w; let x := fldC w
  match (fldOp w).toNat with
  | 0x48 => ordered x fun q p => checked (.ldg y d a b q p)
  | 0x49 => ordered x fun q p => checked (.stg y d a b q p)
  | 0x4A => ordered x fun q p => checked (.ldt y d a b q p)
  | 0x4B => ordered x fun q p => checked (.stt y d a b q p)
  | 0x4C => ordered x fun q p => checked (.ldk y d a b q p)
  | 0x4D => ordered x fun q p => checked (.stk y d a b q p)
  | 0x4E => ordered x fun q p => checked (.ldgw y d a b q p)
  | 0x4F => ordered x fun q p => checked (.stgw y d a b q p)
  | 0x50 => need .field (d.extractLsb' 1 5 == 0) <| zero x <| .ok (.pref y (d.getLsbD 0) a b)
  | 0x51 => named .sub (Path.ofCode x) fun k => zero d <| zero b <| .ok (.waitc y a k)
  | 0x52 => named .sub (Window.ofCode x) fun t => zero b <| .ok (.cvta y d a t)
  | 0x53 => need .sub (x == 0) <| zero b <| .ok (.space y d a)
  | 0x54 =>
    need .field (d.extractLsb' 1 5 == 0) <| need .field (hi2 x == 0) <| named .field (Scope.ofNum (lo4 x)) fun p =>
      .ok (.flushl y (d.getLsbD 0) a b p)
  | _ => .error .opcode

/-- Opcodes 0x58 to 0x67: atomics, locks and ordering. -/
def parseSync (w : Word) : Parsed :=
  let y := fldB31 w; let d := fldD w; let a := fldA w; let b := fldB w; let x := fldC w
  match (fldOp w).toNat with
  | 0x58 => atomic x fun k q => .ok (.atom y d a b k q)
  | 0x59 => atomic x fun k q => .ok (.atomu y d a b k q)
  | 0x5A => atomic x fun k q => checked (.red y d a b k q)
  | 0x5B => need .field (lo4 x == 0) <| named .field (Order.ofNum (hi2 x)) fun q => checked (.lck y d a b q)
  | 0x5C => need .field (lo4 x == 0) <| named .field (Order.ofNum (hi2 x)) fun q => checked (.ulck y d a b q)
  | 0x5D => need .field (lo4 x == 0) <| named .field (Order.ofNum (hi2 x)) fun q => checked (.lckq y d a b q)
  | 0x60 => ordered x fun q p => zero d <| zero a <| zero b <| checked (.fence y q p)
  | 0x61 =>
    need .sub (x.extractLsb' 0 2 == 0) <| named .sub (Level.ofNum (x.extractLsb' 2 2)) fun l =>
      if hi2 x = 0 then zero b <| checked (.bara y d a l) else if hi2 x = 1 then checked (.barw y d a b l)
      else if hi2 x = 2 then zero b <| checked (.bar y d a l) else zero b <| checked (.barq y d a l)
  | 0x62 =>
    match x.toNat with
    | 0 => .ok (.svdecl y d a b)
    | 1 => zero b <| .ok (.svdrop y d a)
    | _ => .error .sub
  | 0x63 =>
    zero d <| need .field (hi2 x == 0) <| named .field (Scope.ofNum (lo4 x)) fun p => .ok (.grfl y a b p)
  | _ => .error .opcode

/-- Opcodes 0x68 to 0x6F: the matrix array and rank coding. -/
def parseMatrix (w : Word) : Parsed :=
  let y := fldB31 w; let d := fldD w; let a := fldA w; let b := fldB w; let x := fldC w
  match (fldOp w).toNat with
  | 0x68 => need .sub (x.extractLsb' 1 5 == 0) <| .ok (.bload y d a b (x.getLsbD 0))
  | 0x69 =>
    need .sub (!x.getLsbD 5) <| named .sub (Tag.ofNum (lo4 x)) fun t =>
      need .sub t.multiplies <| .ok (.mma y d a b (x.getLsbD 4) t)
  | 0x6A =>
    need .sub (!x.getLsbD 5) <| named .sub (Tag.ofNum (lo4 x)) fun t =>
      need .sub t.multiplies <| .ok (.mmap y d a b (x.getLsbD 4) t)
  | 0x6B =>
    match x.toNat with
    | 0 => zero d <| zero b <| .ok (.accz y a)
    | 1 => need .field (!b.getLsbD 5) <| named .field (Tag.ofNum (lo4 b)) fun t => checked (.accrd y d a (b.getLsbD 4) t)
    | 2 => zero b <| .ok (.accwr y d a)
    | 3 => zero d <| .ok (.accscl y a b)
    | _ => .error .sub
  | 0x6C => need .sub (x == 0) <| .ok (.rank y d a b)
  | 0x6D => need .sub (x == 0) <| zero d <| zero b <| .ok (.rkld y a)
  | 0x6E => need .sub (x.extractLsb' 1 5 == 0) <| .ok (.mmar y d a b (x.getLsbD 0))
  | 0x6F => need .sub (x == 0) <| .ok (.rkval y d a b)
  | _ => .error .opcode

/-- Opcodes 0x70 to 0x7F: engines, fabric, launch, mode, privileged and trap instructions. -/
def parseUnits (w : Word) : Parsed :=
  let y := fldB31 w; let d := fldD w; let a := fldA w; let b := fldB w; let x := fldC w
  match (fldOp w).toNat with
  | 0x70 => need .sub (x == 0) <| zero b <| .ok (.cpkick y d a)
  | 0x71 => need .sub (x == 0) <| .ok (.waita y d a b)
  | 0x72 => need .sub (x == 0) <| zero b <| .ok (.blend y d a)
  | 0x73 =>
    need .sub (!x.getLsbD 5) <| need .sub (decide ((x.extractLsb' 0 5).toNat ≤ 16)) <|
      .ok (.amsend y d a b (x.extractLsb' 0 5))
  | 0x74 => ordered x fun q p => checked (.stmc y d a b q p)
  | 0x75 => ordered x fun q p => checked (.ldred y d a b q p)
  | 0x76 => atomic x fun k q => .ok (.fatom y d a b k q)
  | 0x77 =>
    match x.toNat with
    | 0 => if b = 0 then .ok (.sealPage y d a) else if b = 1 then .ok (.sealOpen y d a) else .error .field
    | 1 => zero b <| .ok (.vintrd y d a)
    | _ => .error .sub
  | 0x78 => need .sub (x == 0) <| .ok (.launch y d a b)
  | 0x79 => need .sub (hi2 x == 0) <| named .sub (Scope.ofNum (lo4 x)) fun p => .ok (.tilesig y d a b p)
  | 0x7A => need .sub (hi2 x == 0) <| named .sub (Scope.ofNum (lo4 x)) fun p => .ok (.tilew y d a b p)
  | 0x7B =>
    match x.toNat with
    | 0 => zero d <| zero b <| .ok (.setmode y a)
    | 1 => .ok (.modef y d a b)
    | 2 => zero a <| zero b <| .ok (.getmode y d)
    | _ => .error .sub
  | 0x7C =>
    match x.toNat with
    | 0 => named .field (SysReg.ofNum (fldNum w)) fun n => checked (.sysrd y d n)
    | 1 => named .field (SysReg.ofNum (fldNum w)) fun n => checked (.syswr y d n)
    | 2 =>
      if d = 0 then zero b <| .ok (.tlbinv y a) else if d = 1 then zero a <| zero b <| .ok (.tlbinvAll y)
      else .error .field
    | 3 => zero b <| .ok (.ctxsv y d a)
    | 4 => zero d <| zero b <| .ok (.ctxld y a)
    | 5 => zero d <| zero a <| zero b <| .ok (.halt y)
    | 6 => zero d <| zero b <| .ok (.sleep y a)
    | _ => .error .sub
  | 0x7D =>
    match x.toNat with
    | 0 => zero a <| zero b <| .ok (.trap y d)
    | 1 =>
      zero a <| zero b <|
        if d = 0 then .ok (.rett y) else if d = 1 then .ok (.rettNext y) else if d = 2 then .ok (.rettKill y)
        else .error .field
    | 2 => zero d <| zero a <| zero b <| .ok (.yield y)
    | 3 => zero a <| zero b <| .ok (.brkpt y d)
    | _ => .error .sub
  | 0x7E => .ok (.emu y d a b x)
  | 0x7F => .ok (.ill y (fld24 w))
  | _ => .error .opcode

/-- A word by its primary opcode (03 R43). -/
def parse (w : Word) : Parsed :=
  match (fldOp w).toNat / 8 with
  | 0 | 1 => parseControl w
  | 2 | 3 => parseUniform w
  | 4 | 5 => parseVector w
  | 6 | 7 | 8 => parseFloat w
  | 9 | 10 => parseMemory w
  | 11 | 12 => parseSync w
  | 13 => parseMatrix w
  | 14 | 15 => parseUnits w
  | _ => .error .opcode

/-- Instructions that reduced service does not offer (01 R27). -/
def absentReduced (op : BitVec 7) : Bool :=
  (0x68 ≤ op.toNat && op.toNat ≤ 0x6F) || (0x5B ≤ op.toNat && op.toNat ≤ 0x5D) ||
    (0x70 ≤ op.toNat && op.toNat ≤ 0x77)

/-- The instruction of a word, or the lowest detail for which it is none (03 R45, R46). EMU and ILL are instructions whose
meaning raises details 6 and 7. -/
def decode (k : DecCtx) (w : Word) : Parsed :=
  if fldOp w = 0x7C ∧ k.serial = false then .error .priv
  else
    match parse w with
    | .error e => .error e
    | .ok i =>
      if i.serialOnly && !k.serial then .error .field
      else if !i.fits k then .error .limit
      else if k.reduced && absentReduced (fldOp w) then .error .reduced
      else .ok i

/-- The word four bytes hold, the first the least significant (00 R3). -/
def wordOfBytes (b0 b1 b2 b3 : BitVec 8) : Word := b3 ++ b2 ++ b1 ++ b0

/-- The first instruction of a list of bytes and the rest of the list; none when fewer than four bytes are left. -/
def decodeBytes (k : DecCtx) : List (BitVec 8) → Option (Parsed × List (BitVec 8))
  | b0 :: b1 :: b2 :: b3 :: rest => some (decode k (wordOfBytes b0 b1 b2 b3), rest)
  | _ => none

/-! ### Operand fields of a trap (03 R47) -/

/-- The formats of 03 R32 as the trap registers need them. -/
inductive Format where
  | three | imm | jump
  deriving DecidableEq, Repr

/-- The format of an opcode (03 R43). An unassigned one is read as format A (03 R47). R43 gives ILL no format, and R47 does not
say what its operand fields are: they are read as format A here (assumption 84). -/
def formatOf (op : BitVec 7) : Format :=
  match op.toNat with
  | 0x01 | 0x02 | 0x03 | 0x04 | 0x05 | 0x07 | 0x0D => .jump
  | 0x00 | 0x06 | 0x0A | 0x0C | 0x13 | 0x14 | 0x15 | 0x1B => .imm
  | _ => .three

/-- TOPA, TOPB and TOPC of a word (03 R47). -/
def trapOperands (w : Word) : Word × Word × Word :=
  match formatOf (fldOp w) with
  | .three => ((fldD w).setWidth 32, (fldA w).setWidth 32, ((fldB w).setWidth 32 <<< 8) ||| (fldC w).setWidth 32)
  | .imm | .jump => ((fldD w).setWidth 32, 0, (fldImm w).signExtend 32)

/-- The word ends its run whatever its boundary bit (03 R34 case 2). -/
def runEnding (w : Word) : Bool :=
  match (fldOp w).toNat with
  | 0x01 | 0x02 | 0x03 | 0x04 | 0x06 | 0x07 | 0x08 | 0x09 | 0x0A | 0x0B | 0x0C | 0x0D => true
  | 0x51 | 0x71 | 0x7A | 0x5B | 0x5D | 0x7D | 0x7E | 0x7F => true
  | 0x61 => hi2 (fldC w) == 1 || hi2 (fldC w) == 2
  | 0x7C => fldC w == 3 || fldC w == 4 || fldC w == 5 || fldC w == 6
  | _ => false

/-! ### Encoding -/

/-- Formats A, S and M (03 R32). -/
def fmtA (y : Bool) (op : BitVec 7) (d a b c : BitVec 6) : Word := BitVec.ofBool y ++ op ++ d ++ a ++ b ++ c
/-- Formats I and J (03 R32). -/
def fmtI (y : Bool) (op : BitVec 7) (d : BitVec 6) (i : BitVec 18) : Word := BitVec.ofBool y ++ op ++ d ++ i
/-- Format S with a 12-bit register number (09 R184). -/
def fmtN (y : Bool) (op : BitVec 7) (d : BitVec 6) (n : BitVec 12) (c : BitVec 6) : Word :=
  BitVec.ofBool y ++ op ++ d ++ n ++ c
/-- A word of which only the opcode is read (03 R49). -/
def fmt24 (y : Bool) (op : BitVec 7) (i : BitVec 24) : Word := BitVec.ofBool y ++ op ++ i

/-- The word of an instruction, from the encoding tables of 03 R32, R43 and R44. An event has no word. -/
def encodeWord : Instr → Word
  | .nop y => fmtI y 0x0 0#6 0#18
  | .bra y o => fmtI y 0x1 0#6 o
  | .bz y a o => fmtI y 0x2 a o
  | .bnz y a o => fmtI y 0x3 a o
  | .brp y n p o => fmtI y 0x4 (0#2 ++ BitVec.ofBool n ++ p) o
  | .setj y o => fmtI y 0x5 0#6 o
  | .join y => fmtI y 0x6 0#6 0#18
  | .call y o => fmtI y 0x7 0#6 o
  | .calli y a => fmtA y 0x8 0#6 a 0#6 0#6
  | .callv y d a => fmtA y 0x9 d a 0#6 0#6
  | .ret y => fmtI y 0xa 0#6 0#18
  | .retv y a => fmtA y 0xb 0#6 a 0#6 0#6
  | .exit y => fmtI y 0xc 0#6 0#18
  | .loop y a o => fmtI y 0xd a o
  | .elect y d => fmtA y 0xe (0#3 ++ d) 0#6 0#6 0#6
  | .ballot y d a => fmtA y 0xe d a 0#6 1#6
  | .voteAny y d a => fmtA y 0xe d (0#3 ++ a) 0#6 2#6
  | .voteAll y d a => fmtA y 0xe d (0#3 ++ a) 0#6 3#6
  | .active y d => fmtA y 0xe (0#3 ++ d) 0#6 0#6 4#6
  | .pmovs y d a => fmtA y 0xe d (0#3 ++ a) 0#6 5#6
  | .smovp y d a => fmtA y 0xe (0#3 ++ d) a 0#6 6#6
  | .pand y d a b => fmtA y 0xe (0#3 ++ d) (0#3 ++ a) (0#3 ++ b) 7#6
  | .por y d a b => fmtA y 0xe (0#3 ++ d) (0#3 ++ a) (0#3 ++ b) 8#6
  | .pxor y d a b => fmtA y 0xe (0#3 ++ d) (0#3 ++ a) (0#3 ++ b) 9#6
  | .pnot y d a => fmtA y 0xe (0#3 ++ d) (0#3 ++ a) 0#6 10#6
  | .pandn y d a b => fmtA y 0xe (0#3 ++ d) (0#3 ++ a) (0#3 ++ b) 11#6
  | .matchK y d a => fmtA y 0xf d a 0#6 0#6
  | .sadd y d a b => fmtA y 0x10 d a b 0#6
  | .ssub y d a b => fmtA y 0x10 d a b 1#6
  | .sand y d a b => fmtA y 0x10 d a b 2#6
  | .sor y d a b => fmtA y 0x10 d a b 3#6
  | .sxor y d a b => fmtA y 0x10 d a b 4#6
  | .sandn y d a b => fmtA y 0x10 d a b 5#6
  | .sshl y d a b => fmtA y 0x10 d a b 6#6
  | .sshr y d a b => fmtA y 0x10 d a b 7#6
  | .ssra y d a b => fmtA y 0x10 d a b 8#6
  | .smin y d a b => fmtA y 0x10 d a b 9#6
  | .smax y d a b => fmtA y 0x10 d a b 10#6
  | .sminn y d a b => fmtA y 0x10 d a b 11#6
  | .smaxn y d a b => fmtA y 0x10 d a b 12#6
  | .smul y d a b => fmtA y 0x10 d a b 13#6
  | .smulh y d a b => fmtA y 0x10 d a b 14#6
  | .smulhn y d a b => fmtA y 0x10 d a b 15#6
  | .scmp y k d a b => fmtA y 0x11 d a b k.code
  | .ssel y d a b c => fmtA y 0x12 d a b c
  | .sseti y d i => fmtI y 0x13 d i
  | .sseth y d i => fmtI y 0x14 d i
  | .saddi y d i => fmtI y 0x15 d i
  | .sadd64 y d a b => fmtA y 0x16 d a b 0#6
  | .ssub64 y d a b => fmtA y 0x16 d a b 1#6
  | .slea y k d a b => fmtA y 0x16 d a b (0b010#3 ++ k)
  | .sdiv y d a b => fmtA y 0x17 d a b 0#6
  | .sdivn y d a b => fmtA y 0x17 d a b 1#6
  | .srem y d a b => fmtA y 0x17 d a b 2#6
  | .sremn y d a b => fmtA y 0x17 d a b 3#6
  | .spopc y d a => fmtA y 0x18 d a 0#6 0#6
  | .sclz y d a => fmtA y 0x18 d a 0#6 1#6
  | .sbrev y d a => fmtA y 0x18 d a 0#6 2#6
  | .sbfx y d a b => fmtA y 0x18 d a b 3#6
  | .sbfxn y d a b => fmtA y 0x18 d a b 4#6
  | .sbfi y d a b c => fmtA y 0x19 d a b c
  | .smov y d a => fmtA y 0x1a d a 0#6 0#6
  | .smovv y d a b => fmtA y 0x1a d a b 1#6
  | .srdsr y d j n => fmtI y 0x1b d (j ++ n.num)
  | .vadd y d a b => fmtA y 0x20 d a b 0#6
  | .vsub y d a b => fmtA y 0x20 d a b 1#6
  | .vmul y d a b => fmtA y 0x20 d a b 2#6
  | .vmulh y d a b => fmtA y 0x20 d a b 3#6
  | .vmulhn y d a b => fmtA y 0x20 d a b 4#6
  | .vmin y d a b => fmtA y 0x20 d a b 5#6
  | .vmax y d a b => fmtA y 0x20 d a b 6#6
  | .vminn y d a b => fmtA y 0x20 d a b 7#6
  | .vmaxn y d a b => fmtA y 0x20 d a b 8#6
  | .vand y d a b => fmtA y 0x20 d a b 9#6
  | .vor y d a b => fmtA y 0x20 d a b 10#6
  | .vxor y d a b => fmtA y 0x20 d a b 11#6
  | .vandn y d a b => fmtA y 0x20 d a b 12#6
  | .vshl y d a b => fmtA y 0x20 d a b 13#6
  | .vshr y d a b => fmtA y 0x20 d a b 14#6
  | .vsra y d a b => fmtA y 0x20 d a b 15#6
  | .vabs y d a => fmtA y 0x20 d a 0#6 16#6
  | .vneg y d a => fmtA y 0x20 d a 0#6 17#6
  | .vnot y d a => fmtA y 0x20 d a 0#6 18#6
  | .vmad y d a b c => fmtA y 0x21 d a b c
  | .vdot4 y d a b c => fmtA y 0x22 d a b c
  | .log3 y d a b c => fmtA y 0x23 d a b c
  | .vbfx y d a b => fmtA y 0x24 d a b 0#6
  | .vbfxn y d a b => fmtA y 0x25 d a b 0#6
  | .vbfi y d a b c => fmtA y 0x26 d a b c
  | .vfsh y d a b c => fmtA y 0x27 d a b c
  | .vfshl y d a b c => fmtA y 0x28 d a b c
  | .vpopc y d a => fmtA y 0x29 d a 0#6 0#6
  | .vclz y d a => fmtA y 0x29 d a 0#6 1#6
  | .vctz y d a => fmtA y 0x29 d a 0#6 2#6
  | .vbrev y d a => fmtA y 0x29 d a 0#6 3#6
  | .vcmp y k d a b => fmtA y 0x2a (0#3 ++ d) a b k.code
  | .vsel y d a b c => fmtA y 0x2b d a b (0#3 ++ c)
  | .vmov y d a => fmtA y 0x2c d a 0#6 0#6
  | .vbcast y d a t => fmtA y 0x2c d a (0#2 ++ t.num) 1#6
  | .vlane y d a b => fmtA y 0x2c d a b 2#6
  | .vshfIdx y d a b => fmtA y 0x2d d a b 0#6
  | .vshfUp y d a b => fmtA y 0x2d d a b 1#6
  | .vshfDn y d a b => fmtA y 0x2d d a b 2#6
  | .vshfXor y d a b => fmtA y 0x2d d a b 3#6
  | .vred y k d a => fmtA y 0x2e d a 0#6 (0#2 ++ k.num)
  | .vscan y e k d a => fmtA y 0x2f d a 0#6 (0#1 ++ BitVec.ofBool e ++ k.num)
  | .fadd y d a b => fmtA y 0x30 d a b 0#6
  | .fsub y d a b => fmtA y 0x30 d a b 1#6
  | .fmul y d a b => fmtA y 0x30 d a b 2#6
  | .fmin y d a b => fmtA y 0x30 d a b 3#6
  | .fmax y d a b => fmtA y 0x30 d a b 4#6
  | .fabs y d a => fmtA y 0x30 d a 0#6 5#6
  | .fneg y d a => fmtA y 0x30 d a 0#6 6#6
  | .fcpsgn y d a b => fmtA y 0x30 d a b 7#6
  | .fma y d a b c => fmtA y 0x31 d a b c
  | .fms y d a b c => fmtA y 0x32 d a b c
  | .fnma y d a b c => fmtA y 0x33 d a b c
  | .fcmp y k d a b => fmtA y 0x34 (0#3 ++ d) a b k.code
  | .frcp y d a => fmtA y 0x35 d a 0#6 0#6
  | .frsq y d a => fmtA y 0x35 d a 0#6 1#6
  | .fsqrt y d a => fmtA y 0x35 d a 0#6 2#6
  | .fexp2 y d a => fmtA y 0x35 d a 0#6 3#6
  | .flog2 y d a => fmtA y 0x35 d a 0#6 4#6
  | .fsin y d a => fmtA y 0x35 d a 0#6 5#6
  | .fcos y d a => fmtA y 0x35 d a 0#6 6#6
  | .ftanh y d a => fmtA y 0x35 d a 0#6 7#6
  | .fsigm y d a => fmtA y 0x35 d a 0#6 8#6
  | .fdiv y d a b => fmtA y 0x36 d a b 0#6
  | .fclass y d a => fmtA y 0x37 d a 0#6 0#6
  | .fscale y d a b => fmtA y 0x38 d a b 0#6
  | .frint y d a => fmtA y 0x39 d a 0#6 0#6
  | .ffrac y d a => fmtA y 0x39 d a 0#6 1#6
  | .fdot2 y d a b c => fmtA y 0x3a d a b c
  | .cvt y d a p t => fmtA y 0x40 d a (0#3 ++ p) (0#2 ++ t.num)
  | .cvtn y d a p t => fmtA y 0x41 d a (0#3 ++ p) (0#2 ++ t.num)
  | .cvtps y d a b p => fmtA y 0x42 d a b (0#4 ++ p)
  | .pack y d a b t => fmtA y 0x43 d a b (0#2 ++ t.num)
  | .unpk y d a j => fmtA y 0x44 d a 0#6 (0#3 ++ j)
  | .tagset y d t => fmtA y 0x45 d 0#6 0#6 (0#2 ++ t.num)
  | .tagrd y d a => fmtA y 0x45 d a 0#6 16#6
  | .ldg y d s j q p => fmtA y 0x48 d s j (q.num ++ p.num)
  | .stg y d s j q p => fmtA y 0x49 d s j (q.num ++ p.num)
  | .ldt y d s j q p => fmtA y 0x4a d s j (q.num ++ p.num)
  | .stt y d s j q p => fmtA y 0x4b d s j (q.num ++ p.num)
  | .ldk y d s j q p => fmtA y 0x4c d s j (q.num ++ p.num)
  | .stk y d s j q p => fmtA y 0x4d d s j (q.num ++ p.num)
  | .ldgw y d s j q p => fmtA y 0x4e d s j (q.num ++ p.num)
  | .stgw y d s j q p => fmtA y 0x4f d s j (q.num ++ p.num)
  | .pref y l s j => fmtA y 0x50 (0#5 ++ BitVec.ofBool l) s j 0#6
  | .waitc y a k => fmtA y 0x51 0#6 a 0#6 k.code
  | .cvta y d a t => fmtA y 0x52 d a 0#6 t.code
  | .space y d a => fmtA y 0x53 d a 0#6 0#6
  | .flushl y m s j p => fmtA y 0x54 (0#5 ++ BitVec.ofBool m) s j (0#2 ++ p.num)
  | .atom y d s j k q => fmtA y 0x58 d s j (k.num ++ q.num)
  | .atomu y d s j k q => fmtA y 0x59 d s j (k.num ++ q.num)
  | .red y d s j k q => fmtA y 0x5a d s j (k.num ++ q.num)
  | .lck y d s j q => fmtA y 0x5b d s j (q.num ++ 0#4)
  | .ulck y d s j q => fmtA y 0x5c d s j (q.num ++ 0#4)
  | .lckq y d s j q => fmtA y 0x5d d s j (q.num ++ 0#4)
  | .fence y q p => fmtA y 0x60 0#6 0#6 0#6 (q.num ++ p.num)
  | .bara y d a l => fmtA y 0x61 d a 0#6 (0b00#2 ++ l.num ++ 0#2)
  | .barw y d a b l => fmtA y 0x61 d a b (0b01#2 ++ l.num ++ 0#2)
  | .bar y d a l => fmtA y 0x61 d a 0#6 (0b10#2 ++ l.num ++ 0#2)
  | .barq y d a l => fmtA y 0x61 d a 0#6 (0b11#2 ++ l.num ++ 0#2)
  | .svdecl y d a b => fmtA y 0x62 d a b 0#6
  | .svdrop y d a => fmtA y 0x62 d a 0#6 1#6
  | .grfl y s j p => fmtA y 0x63 0#6 s j (0#2 ++ p.num)
  | .bload y d a b n => fmtA y 0x68 d a b (0#5 ++ BitVec.ofBool n)
  | .mma y d a b z t => fmtA y 0x69 d a b (0#1 ++ BitVec.ofBool z ++ t.num)
  | .mmap y d a b z t => fmtA y 0x6a d a b (0#1 ++ BitVec.ofBool z ++ t.num)
  | .accz y a => fmtA y 0x6b 0#6 a 0#6 0#6
  | .accrd y d a n t => fmtA y 0x6b d a (0#1 ++ BitVec.ofBool n ++ t.num) 1#6
  | .accwr y d a => fmtA y 0x6b d a 0#6 2#6
  | .accscl y a b => fmtA y 0x6b 0#6 a b 3#6
  | .rank y d a b => fmtA y 0x6c d a b 0#6
  | .rkld y a => fmtA y 0x6d 0#6 a 0#6 0#6
  | .mmar y d a b p => fmtA y 0x6e d a b (0#5 ++ BitVec.ofBool p)
  | .rkval y d a b => fmtA y 0x6f d a b 0#6
  | .cpkick y d a => fmtA y 0x70 d a 0#6 0#6
  | .waita y d a b => fmtA y 0x71 d a b 0#6
  | .blend y d a => fmtA y 0x72 d a 0#6 0#6
  | .amsend y d a b n => fmtA y 0x73 d a b (0#1 ++ n)
  | .stmc y d s j q p => fmtA y 0x74 d s j (q.num ++ p.num)
  | .ldred y d s j q p => fmtA y 0x75 d s j (q.num ++ p.num)
  | .fatom y d s j k q => fmtA y 0x76 d s j (k.num ++ q.num)
  | .sealPage y d a => fmtA y 0x77 d a 0#6 0#6
  | .sealOpen y d a => fmtA y 0x77 d a 1#6 0#6
  | .vintrd y d a => fmtA y 0x77 d a 0#6 1#6
  | .launch y d a b => fmtA y 0x78 d a b 0#6
  | .tilesig y d a b p => fmtA y 0x79 d a b (0#2 ++ p.num)
  | .tilew y d a b p => fmtA y 0x7a d a b (0#2 ++ p.num)
  | .setmode y a => fmtA y 0x7b 0#6 a 0#6 0#6
  | .modef y d a b => fmtA y 0x7b d a b 1#6
  | .getmode y d => fmtA y 0x7b d 0#6 0#6 2#6
  | .sysrd y d n => fmtN y 0x7c d n.num 0#6
  | .syswr y d n => fmtN y 0x7c d n.num 1#6
  | .tlbinv y a => fmtA y 0x7c 0#6 a 0#6 2#6
  | .tlbinvAll y => fmtA y 0x7c 1#6 0#6 0#6 2#6
  | .ctxsv y d a => fmtA y 0x7c d a 0#6 3#6
  | .ctxld y a => fmtA y 0x7c 0#6 a 0#6 4#6
  | .halt y => fmtA y 0x7c 0#6 0#6 0#6 5#6
  | .sleep y a => fmtA y 0x7c 0#6 a 0#6 6#6
  | .trap y n => fmtA y 0x7d n 0#6 0#6 0#6
  | .rett y => fmtA y 0x7d 0#6 0#6 0#6 1#6
  | .rettNext y => fmtA y 0x7d 1#6 0#6 0#6 1#6
  | .rettKill y => fmtA y 0x7d 2#6 0#6 0#6 1#6
  | .yield y => fmtA y 0x7d 0#6 0#6 0#6 2#6
  | .brkpt y n => fmtA y 0x7d n 0#6 0#6 3#6
  | .emu y d a b c => fmtA y 0x7e d a b c
  | .ill y i => fmt24 y 0x7f i
  | .issueSlotGrant _ _ _ | .divergenceFill _ | .translationWalk _ | .loadDataLanding _ _ _
  | .accessCompletion _ _ _ | .atomicExecute _ _ _ | .waitConditionMet _ | .sleepExpiry _ | .yieldExpiry _
  | .groupRetire _ | .lockRequestArrival _ | .lockGrant _ | .lockTimeout _ | .diffRecordApply _ | .staleNotice _
  | .barrierPhaseComplete _ | .replicaPush _ _ | .pageMigration _ _ | .powerGate _ _ | .hostSnoop _
  | .hostMemoryAccess _ _ _ | .matrixStart _ | .matrixComplete _ _ | .copyRequestAccept _ _
  | .arrivalUnitCount _ _ _ | .waitaSatisfied _ | .blendInstance _ _ | .fabricRefusal _ _ _ _
  | .messageEnqueue _ _ | .serviceGroupStart _ _ | .tilewSatisfied _ | .preemptRequest _ | .preemptSave _
  | .preemptRestore _ | .resumeHalted _ | .timeSliceExpiry _ _ | .starvationSwap _ _ | .swapReturn _
  | .throttleWindow _ | .linkStepUp _ | .linkStepDown _ | .flitErrorRetry _ | .flitLost _ | .eccCorrected
  | .eccUncorrectable _ | .agentRejoin _ | .reset | .selftestPass _ | .selftestTimeout | .linkTrained _
  | .linkTrainFail _ | .firmwareVerified _ | .partitionEnable _ _ | .partitionTeardown _ _ | .plimitWrite _ _
  | .tbaseWrite _ _ | .qctlWrite _ _ _ | .pstatRecovClear _ | .registerWrite _ _ _ | .launchCommand _ _
  | .marker _ _ | .enumCmd _ _ | .attest _ _ | .fwload _ _ | .dependenceMet _ _ | .commandSelect _
  | .clusterPlace _ _ | .gridComplete _ | .fabricAccessArrival _ _ _ _ | .retrainingComplete _ _ => 0

/-- The words of an instruction: one for every instruction word, none for an event. -/
def encode (i : Instr) : List Word := if i.isEvent then [] else [encodeWord i]

/-- The context that admits the most: V 64 and, for the words only serial mode decodes, serial mode. -/
def openCtx (w : Word) : DecCtx :=
  ⟨64, true, fldOp w == 0x7C || (fldOp w == 0x7D && fldC w == 1), false⟩

/-- The host's question: the instruction of a word as the opcode table numbers its bits. -/
def decodeTableWord (nbits w : Nat) : Option Instr :=
  let v := BitVec.ofNat 32 (w % 2 ^ nbits)
  match decodeBytes (openCtx v) [v.extractLsb' 0 8, v.extractLsb' 8 8, v.extractLsb' 16 8, v.extractLsb' 24 8] with
  | some (.ok i, _) => some i
  | _ => none

end Sys2Proof
end

