-- ==== Sys2Proof/Machine/State.lean ====
section
/-! DEFINITION. The state of the device as plain data: every piece of state the manual names, and the state after reset.
Tables that are empty at reset are association lists with at most one entry per key. -/

namespace Sys2Proof.Machine

/-- Reasons a step stops with a fault. -/
inductive Fault where
  /-- Raised by `exec` of an instruction word when no group is issuing it: `exec` was asked to run an instruction outside
  a step. No step of the machine meets it. Safe. -/
  | noIssuer
  deriving DecidableEq, Repr

/-- Reasons a step is refused. -/
inductive Refusal where
  /-- Raised by an arm of `exec` whose instruction has no meaning yet. Safe. -/
  | notModelled (mnemonic : String)
  deriving DecidableEq, Repr

/-- A finite table: at most one entry per key. -/
abbrev Tbl (κ α : Type) := List (κ × α)

/-! ### Groups -/

/-- Trap causes (09 R173). -/
inductive Cause where
  | illegal | format | stackOvf | retEmpty | retDiv | range | align | page | perm | space | poison | notAll | trap
  | brkpt | lock | desc
  deriving DecidableEq, Repr

/-- A vector register: its tag and its lanes (03 R35, R41). -/
structure VReg where
  tag : Tag
  lanes : Vector Word 64
  deriving DecidableEq, Repr

/-- Kinds of reconvergence entries (04 R52). -/
inductive EntryKind where
  | path | cont | handler
  deriving DecidableEq, Repr

/-- A reconvergence entry (04 R52). `held` is the hold of 09 R167 step 3; `filled` is false while a fill from the
divergence area is outstanding (04 R53). -/
structure Entry where
  kind : EntryKind
  pc : Word
  mask : Mask
  join : Option Word
  arrived : Bool
  held : Bool
  filled : Bool
  deriving DecidableEq, Repr

/-- A return entry (04 R56). -/
structure RetEntry where
  off : Word
  depth : Nat
  deriving DecidableEq, Repr

/-- The lane trap record of 09 R191: TCAUSE, state (0 not in H, 1 awaiting service, 2 resumed, 3 killed), resume offset,
TADDR. -/
structure LaneTrap where
  cause : Word
  state : BitVec 2
  resume : Word
  addr : Addr
  deriving DecidableEq, Repr

/-- The trap registers (03 R38, 09 R173, R174). -/
structure TrapRegs where
  tcause : Word
  tpc : Addr
  tword : Word
  topa : Word
  topb : Word
  topc : Word
  tlanes : Mask
  taddr : Addr
  tstack : Word
  deriving DecidableEq, Repr

/-- One lane's part of a vector write: the lane, the bits written and their value. -/
structure LaneWrite where
  lane : Nat
  bits : Word
  val : Word
  deriving DecidableEq, Repr

/-- What a fixed-latency result writes (02 R31). -/
inductive Write where
  | uni (r : Reg) (v : Word)
  | pred (p : BitVec 3) (lanes : Mask) (v : Mask)
  | vec (r : Reg) (tag : Option Tag) (ws : List LaneWrite)
  | mode (v : Word)
  | flags (f : BitVec 6)
  deriving DecidableEq, Repr

/-- What completed work writes to registers: a uniform register, or lanes of a vector register with its tag (16 R266). -/
inductive RegWrite where
  | uni (r : Reg) (v : Word)
  | vec (r : Reg) (tag : Option Tag) (ws : List LaneWrite)
  deriving DecidableEq, Repr

/-- A fixed-latency result not yet written: issue number, issue positions left, write (02 R31). -/
structure Pending where
  seq : Nat
  left : Nat
  what : Write
  deriving DecidableEq, Repr

/-- A team memory: the grid, the cluster's number in the grid, the core that holds it (08 R138). -/
structure TeamKey where
  grid : Nat
  clu : Nat
  core : CoreRef
  deriving DecidableEq, Repr

/-- The attributes of a leaf that decide how an access is performed (08 R142). -/
structure Attr where
  vint : Bool
  hs : Bool
  big : Bool
  d : Bool
  home : BitVec 2
  deriving DecidableEq, Repr

/-- A fabric group table entry (17 R295): VALID, NMBR, SELF, aperture base, and aperture size in MiB. -/
structure Fgt where
  valid : Bool
  nmbr : Nat
  self : Nat
  base : Nat
  size : Nat
  deriving DecidableEq, Repr

/-- Where a word of an access lies. -/
inductive Place where
  /-- Device memory at a physical address, on a page with these attributes. -/
  | mem (pa : Nat) (at_ : Attr)
  /-- Team memory. -/
  | team (k : TeamKey) (off : Nat)
  /-- A fabric page (17 R296): the table entry's content when the access issued (19 R314) and its number, member, offset. -/
  | fab (f : Fgt) (fg mbr off : Nat)
  deriving DecidableEq, Repr

/-- How far one lane's access has come (08 R151, R154, R157, 17 R296). -/
inductive LaneSt where
  | waiting
  | done (ws : List Word)
  | poisoned
  | refused (c : Cause)
  | landed
  deriving DecidableEq, Repr

/-- One lane's access: the address the lane used, where each of its words lies, the words it stores or its operands, how far
it is, and
the destination registers for which its data is discarded (06 R92). -/
structure LaneAcc where
  lane : Nat
  ea : Addr
  places : List Place
  data : List Word
  st : LaneSt
  drop : BitVec 4
  deriving DecidableEq, Repr

/-- Where a result lands. `vec r tags` is one register from r upward for each tag; a register with no tag keeps its own. -/
inductive Dest where
  | none
  | uni (r : Reg)
  | vec (r : Reg) (tags : List (Option Tag))
  deriving DecidableEq, Repr

/-- What an outstanding access does (08, 11, 12, 17, 19). -/
inductive AccKind where
  | load
  | store
  | atomic (op : AtomOp) (fmt : Tag)
  | flush (inv : Bool) (p : Scope)
  | granules
  | dropTlb (cid : BitVec 12) (va : Option Nat)
  | declare (mask : BitVec 12)
  | undeclare
  | unlock (line : Nat)
  | sealing (open_ : Bool)
  | vintRead
  | launch (status : Word)
  | copyPost (tab : Vector (BitVec 128) 64) (off : Word) (count next accepted : Nat) (rej : Option (Nat × Nat))
  | blendPost (tab : Vector (BitVec 128) 64) (off : Word)
  | message (target off : Word) (n : Nat)
  | multicast
  | reduce (fmt : Tag)
  | switchAtomic (op : AtomOp) (fmt : Tag)
  /-- A word that a load waiting for its acquire half reads; unused otherwise. -/
  | nothing
  deriving DecidableEq, Repr

/-- An acquire half that an access still owes (12 R230, R231): its named scope, and whether the access found the entries of
its lines holding only its own die as it issued. -/
structure Acq where
  named : Scope
  near : Bool
  deriving DecidableEq, Repr

/-- An outstanding access of a group, in issue order (08 R151). -/
structure Access where
  id : Nat
  path : Path
  kind : AccKind
  dest : Dest
  word : Word
  pc : Addr
  act : Mask
  lanes : List LaneAcc
  acq : Option Acq
  mode : Word
  flags : BitVec 6
  done : Bool
  deriving DecidableEq, Repr

/-- A lane marked by a load whose data came poisoned or refused (08 R157, 17 R296). `after` counts the accesses issued
on the path after that load. -/
structure Mark where
  lane : Nat
  acc : Nat
  path : Path
  after : Nat
  cause : Cause
  word : Word
  pc : Addr
  ea : Addr
  deriving DecidableEq, Repr

/-- What a group waits for (08 R164, 17 R293, 12 R247, R250, 11 R220, 19 R328, R333, 09 R182, R189, R190). `ahead` is an
arrival that would put its group two phases ahead: its run is not over, and its word is issued again. `pool` is the wait of
a group that has not started because its part of the private pool is full. A lock's `acq` is its acquire half as it was
when the request issued. -/
inductive Wait where
  | pool
  | ahead (b : BarRef)
  | counter (k : Path) (threshold : Nat)
  | arrival (d : Reg) (k : TeamKey) (off : Nat) (threshold : Word)
  | barrier (d : Reg) (b : BarRef) (phase : BitVec 16)
  | lock (d : Reg) (line : Nat) (ea : Addr) (acq : Option Acq) (timeout : Nat)
  | tile (d : Reg) (place : Place) (gen : Word) (p : Scope)
  | sleep (until_ : Nat)
  | halted
  deriving DecidableEq, Repr

/-- An instruction held at issue behind its release half or a widening recall (12 R229, R232): the records and notices it
waits for, the dies that released for it, and its acquire half as it found the entries of its lines. -/
structure Hold where
  ids : List Nat
  told : List (Fin 12)
  acq : Acq
  deriving DecidableEq, Repr

/-- What a group that waited in LCK keeps of its wait (11 R216): the line, its virtual address, and the timeout left in
µs. -/
structure LockLeft where
  line : Nat
  ea : Addr
  left : Nat
  deriving DecidableEq, Repr

/-- The result of a page-table walk for a stalled instruction (08 R144): the 64 KiB block of the virtual address, and the
leaf, its page size in blocks and its entry's address, or none when the walk ends without a well-formed leaf. -/
structure Walk where
  block : Nat
  leaf : Option (BitVec 64 × Nat × Nat)
  deriving DecidableEq, Repr

/-- The run in progress (03 R34): which live entry issues it, 0 the top, and the instructions issued. -/
structure Run where
  live : Nat
  pos : Nat
  deriving DecidableEq, Repr

/-- Service groups (17 R311, 09 R171). -/
inductive Service where
  | none | message | trapService
  deriving DecidableEq, Repr

/-- An issued matrix instruction that waits to start: the instruction, its uniform operands, MODE, and the source registers
of ACCWR, as read at issue (16 R263). -/
structure MxReq where
  instr : Instr
  d : Word
  a : Word
  b : Word
  mode : Word
  src : List VReg
  deriving DecidableEq, Repr

/-- A group: its identity and launch constants, its registers, its stacks, its outstanding work. `hstart` and `htpc` are
the first word and the trapping word of the handler entry (09 R169); `seq` numbers its instructions; `lockLeft` is what an
abandoned LCK keeps; `stalled` tells that its next instruction was tried and is held at issue (09 R192); `area` is what the
slots of its divergence area hold by the device's last write (04 R57); `arrivals` are the arrivals it issued at barriers that
are not recorded yet, the oldest first, each with its instruction's number (12 R249); `killed` tells that it was terminated
(09 R170). -/
structure Group where
  uid : Nat
  grid : Nat
  part : Fin 12
  clu : Nat
  team : Nat
  idx : Nat
  gidx : Nat
  svc : Service
  w : Nat
  nv : Nat
  depth : Nat
  priv : Nat
  exposePriv : Bool
  debug : Bool
  reduced : Bool
  codeBase : Addr
  cbase : Addr
  csize : Nat
  store : Addr
  s : Vector Word 64
  v : Vector VReg 64
  p : Vector Mask 8
  mode : Word
  fstat : BitVec 6
  forcedB : Bool
  resumed : Bool
  handler : Addr
  hstart : Word
  htpc : Addr
  trap : TrapRegs
  laneTraps : Vector LaneTrap 64
  stack : List Entry
  rets : List RetEntry
  run : Option Run
  topFirst : Bool
  seq : Nat
  pend : List Pending
  acc : List Access
  marks : List Mark
  endMark : Option Mark
  wait : Option Wait
  waitFrom : Nat
  arrived : Option (BarRef × BitVec 16)
  arrivals : List (Nat × BarRef)
  lockLeft : Option LockLeft
  stalled : Bool
  area : List (Nat × BitVec 128)
  hold : Option Hold
  xlate : List Nat
  walks : List Walk
  mxWait : Option MxReq
  yieldUntil : Nat
  locks : List Nat
  killed : Bool
  ended : Bool
  deriving DecidableEq, Repr

/-- A group out of its core: after a pre-emption or after a swap at the given TIME (09 R193, 19 R329). -/
structure Parked where
  place : GroupRef
  grp : Group
  swapped : Option Nat
  deriving DecidableEq, Repr

/-! ### The matrix unit -/

/-- The three units of 16 R264. -/
inductive MxUnit where
  | array | port | rank
  deriving DecidableEq, Repr

/-- The B tile of an array (16 R256, R258, R259): cells by row then column, one exponent per segment and column, scales; and
the damaged array cells, by row and column, and scales (16 R269). -/
structure Tile where
  cfmt : Tag
  kb : Nat
  nb : Nat
  cells : List (List Int)
  exps : List (List Int)
  scales : List (BitVec 16)
  badCells : List (Nat × Nat)
  badScales : List Nat
  deriving DecidableEq, Repr

/-- An accumulator entry (16 R256). -/
structure AccEntry where
  val : BitVec 48
  bad : Bool
  deriving DecidableEq, Repr

/-- A rectangle of accumulator entries on a core. -/
structure AccSpan where
  core : CoreRef
  row : Nat
  rows : Nat
  col : Nat
  cols : Nat
  deriving DecidableEq, Repr

/-- Bytes of a team memory. -/
structure TeamSpan where
  key : TeamKey
  off : Nat
  len : Nat
  deriving DecidableEq, Repr

/-- What a started matrix instruction will write at its completion, and what it reads and writes (16 R264, R266). -/
structure MxWork where
  unit : MxUnit
  pair : Bool
  usesTable : Bool
  loadsTable : Bool
  readsAcc : List AccSpan
  writesAcc : List AccSpan
  readsTeam : List TeamSpan
  writesTeam : List TeamSpan
  regs : List RegWrite
  team : List (TeamKey × Nat × Word)
  acc : List (CoreRef × Nat × Nat × AccEntry)
  tiles : List (CoreRef × Tile)
  banks : List (CoreRef × Fin 2 × List Int)
  table : Option (List (BitVec 8) × Word)
  flags : BitVec 6
  deriving DecidableEq, Repr

/-- A started, unfinished matrix instruction of a group. -/
structure Started where
  who : GroupRef
  uid : Nat
  work : MxWork
  deriving DecidableEq, Repr

/-- The matrix unit of a core (16 R256) with its started instructions, the group that started last and the clk from which
the ranking network accepts (16 R264). `owner` is the partition whose context it holds; `banks` are the rows of A that the
two banks of the row buffer took last. -/
structure Matrix where
  owner : Option (Fin 12)
  tile : Tile
  banks : Vector (List Int) 2
  acc : Tbl (Nat × Nat) AccEntry
  table : List (BitVec 8)
  tscale : Word
  tableBad : Bool
  started : List Started
  last : Option (Fin 64)
  rankFrom : Nat
  deriving DecidableEq, Repr

/-! ### Memory and coherence -/

/-- A range of memory that the device last wrote in a layout of its own, at a tick (09 R193). -/
structure Scramble where
  lo : Nat
  len : Nat
  tick : Nat
  deriving DecidableEq, Repr

/-- The memory of the twelve stacks: listed bytes in rising order, how often each die was re-keyed, and the ranges that the
device wrote in a layout of its own, the latest first. -/
structure Memory where
  cells : List Host.Cell
  epochs : Vector Nat 12
  own : List Scramble
  deriving DecidableEq, Repr

/-- A cached translation (08 R144): the core that holds it or the die's own cache, the CID, the base and size of the page
in 64 KiB blocks, the leaf, and the physical address of its entry. -/
structure TlbEntry where
  die : Fin 12
  core : Option (Fin 36)
  cid : BitVec 12
  block : Nat
  blocks : Nat
  leaf : BitVec 64
  pte : Nat
  deriving DecidableEq, Repr

/-- A die's copy of a granule of a D page (12 R233, R236, R237), with the CID that filled it (08 R145). -/
structure Copy where
  words : List Word
  twin : Option (List Word)
  stale : Bool
  part : Fin 12
  cid : BitVec 12
  deriving DecidableEq, Repr

/-- A difference record in flight (12 R234, R235): `runs` holds the first word and the data of each run. -/
structure Rec where
  id : Nat
  part : Fin 12
  die : Fin 12
  inc : BitVec 16
  seq : BitVec 16
  evict : Bool
  granule : Nat
  big : Bool
  runs : List (Nat × List Word)
  deriving DecidableEq, Repr

/-- A stale notice in flight (12 R236): the die that caused it and its incarnation, the record it follows, its target. -/
structure Notice where
  id : Nat
  cause : Nat
  src : Fin 12
  inc : BitVec 16
  die : Fin 12
  granule : Nat
  deriving DecidableEq, Repr

/-- A sync-variable entry (12 R231); `adding` holds the dies for which a widening recall has begun (12 R232). -/
structure Sync where
  line : Nat
  dmask : BitVec 12
  adding : BitVec 12
  declared : Bool
  part : Fin 12
  deriving DecidableEq, Repr

/-- A waiter record (11 R208, R216): its number in the slice's pool, the waiting group. -/
structure Waiter where
  num : Nat
  uid : Nat
  deriving DecidableEq, Repr

/-- A lock entry (11 R208); `since` is the clk from which it has had no holder. -/
structure Lock where
  line : Nat
  holder : Option Nat
  since : Nat
  queue : List Waiter
  poisoned : Bool
  part : Fin 12
  deriving DecidableEq, Repr

/-- Lock requests in flight (11 R209). -/
inductive LockReqKind where
  | take | try_ | release
  deriving DecidableEq, Repr

/-- A lock request on its way: the core that sent it and its die's incarnation (09 R198). -/
structure LockReq where
  kind : LockReqKind
  uid : Nat
  src : CoreRef
  inc : BitVec 16
  line : Nat
  ea : Addr
  part : Fin 12
  deriving DecidableEq, Repr

/-- A vintage record (17 R307), keyed by the first 64 KiB block of the page; `blocks` is the page's size. -/
structure Vint where
  blocks : Nat
  sealed_ : Bool
  num : BitVec 16
  deriving DecidableEq, Repr

/-- A host copy of a line of an HS page, as the home directory's snoop filter holds it (12 R243). -/
inductive HostLine where
  | modified | owned | exclusive | shared
  deriving DecidableEq, Repr

/-- A cached page of a peer (17 R308): its words read so far, by offset; with the CID that filled it (08 R145). -/
structure VCopy where
  part : Fin 12
  cid : BitVec 12
  fg : Nat
  mbr : Nat
  page : Nat
  vint : BitVec 16
  verified : Bool
  words : Tbl Nat Word
  deriving DecidableEq, Repr

/-! ### Engines -/

/-- An arrival object (17 R290). -/
structure ObjRef where
  key : TeamKey
  off : Nat
  deriving DecidableEq, Repr

/-- An arrival unit whose bytes are written and not yet counted: its number, its code, and the causes of the stale notices
that its write sent (17 R291, 12 R236); for one whose decrement is held, the tick at which it became due (17 R294). -/
structure Landed where
  unit : Nat
  code : Nat
  ids : List Nat
  since : Nat
  deriving DecidableEq, Repr

/-- Work of an engine with the units counted so far: an accepted copy request (17 R289), or, with `data` (the result's
words) and `err` (0 or the code of a failed instance), a collective's result on its way to this member (17 R304, R305).
`landed` are the units whose bytes are written but not yet performed, `due` those whose decrement is held while their object's
core is saved, in order (17 R294). `cbase` and `csize` are the posting group's constant bank, `tab` the fabric group table
when the post issued. -/
structure Job where
  id : Nat
  core : CoreRef
  part : Fin 12
  grid : Nat
  key : TeamKey
  src : Addr
  dst : Addr
  len : Nat
  rows : Nat
  sstr : Int
  dstr : Int
  obj : ObjRef
  cbase : Addr
  csize : Nat
  tab : Vector (BitVec 128) 64
  data : Option (List Word)
  err : Nat
  landed : List Landed
  due : List Landed
  counted : List Nat
  deriving DecidableEq, Repr

/-- A blend descriptor (17 R303). -/
structure BlendDesc where
  op : Nat
  red : Nat
  etype : Tag
  rnd : Nat
  sat : Bool
  fg : Nat
  count : Nat
  src : Addr
  dst : Addr
  deriving DecidableEq, Repr

/-- An accepted collective that has not run (17 R305). -/
structure Blend where
  part : Fin 12
  core : CoreRef
  grid : Nat
  desc : BlendDesc
  obj : ObjRef
  tab : Vector (BitVec 128) 64
  deriving DecidableEq, Repr

/-- A queued message (17 R310, R311): its target core, the sending group, its payload and sender words; for a trap service
message, the records its release waits for once they are sent (09 R171). `lost` tells that its data was lost (09 R195). -/
structure Msg where
  part : Fin 12
  grid : Nat
  core : CoreRef
  hidx : Nat
  uid : Nat
  payload : List Word
  sender : Word
  trapService : Bool
  rel : Option (List Nat)
  lost : Bool
  deriving DecidableEq, Repr

/-! ### Launch -/

/-- A launch descriptor (19 R325). -/
structure Desc where
  w : Nat
  nv : Nat
  teamMax : Nat
  exposePriv : Bool
  liveMx : Bool
  nclu : Nat
  gpc : Nat
  pw : Nat
  ph : Nat
  pn : Nat
  fw : Nat
  fh : Nat
  fn : Nat
  dieMask : BitVec 12
  depth : Nat
  starve : Nat
  tmem : Nat
  priv : Nat
  entry : Word
  hoff : Word
  codeBase : Addr
  cbase : Addr
  csize : Nat
  hcount : Nat
  thidx : Nat
  ppool : Addr
  ppsz : Nat
  htab : Addr
  args : Vector Word 16
  deriving DecidableEq, Repr

/-- The first termination of a grid (19 R321): its clk, its place. -/
structure Termination where
  cause : Nat
  detail : Nat
  clk : Nat
  die : Nat
  pcore : Nat
  slot : Nat
  gidx : Nat
  clu : Nat
  tpc : Addr
  deriving DecidableEq, Repr

/-- A barrier (12 R247): the open phase, the members that arrived in it and in the next one, and whether it failed. -/
structure Barrier where
  cur : BitVec 16
  now : List Nat
  ahead : List Nat
  failed : Bool
  deriving DecidableEq, Repr

/-- A placed cluster: its number, its die, its cores in logical order (19 R327). -/
structure Cluster where
  num : Nat
  die : Fin 12
  cores : List (Fin 36)
  deriving DecidableEq, Repr

/-- Tile dependence of a launch (19 R334). -/
structure TileDep where
  ttab : Addr
  tdiv : Nat
  tfirst : Nat
  tgen : Word
  deriving DecidableEq, Repr

/-- How a pre-emption stands for a grid (09 R192, R193, 19 R324): running; to be saved at its partition's halt; out of its
cores since a clk, back at the head of its queue; selected again and on its way back. -/
inductive GridPre where
  | running | marked
  | out (since : Nat)
  | selected
  deriving DecidableEq, Repr

/-- A grid that was selected and is not complete. `queue` is none for a child; `prioQueue` is the host queue whose PRIO and
SLICE it takes part with; `order` is its place among selected grids; `tmax` is PLIMIT.TMEM when the launch was accepted;
`savedMx` is the matrix state a pre-emption saved, `outFrom` the clk of the last one; `rel` holds the records that its end waits for, once they were sent. -/
structure Grid where
  id : Nat
  part : Fin 12
  queue : Option (Fin 64)
  prioQueue : Fin 64
  order : Nat
  tmax : Nat
  desc : Desc
  crec : Addr
  debug : Bool
  reduced : Bool
  tdep : Option TileDep
  dies : List (Fin 12)
  placed : List Nat
  clusters : List Cluster
  gone : Tbl (Level × Nat) Nat
  bars : Tbl BarRef Barrier
  term : Option Termination
  pre : GridPre
  outFrom : Nat
  savedMx : Tbl CoreRef Matrix
  rel : Option (List Nat)
  deriving DecidableEq, Repr

/-- The types of commands (19 R318). -/
inductive CmdType where
  | launch | marker | enum | attest | fwload
  deriving DecidableEq, Repr

/-- What a completion record reports (19 R321). -/
inductive CStatus where
  | complete | terminated | discarded | notavail | badcmd | depfail
  deriving DecidableEq, Repr

/-- How a command ends, once its own work is done: the status and detail its record takes, and the records and notices that
its release half waits for (19 R320). -/
structure CmdEnd where
  st : CStatus
  detail : Nat
  ids : List Nat
  deriving DecidableEq, Repr

/-- A command taken from its slot and not yet started or completed (19 R318, R319). `ready` is the TIME at which its
dependences were met. -/
structure Cmd where
  typ : CmdType
  debug : Bool
  strict : Bool
  ndep : Nat
  tdep : Bool
  seq : BitVec 16
  len : Nat
  arg : Addr
  crec : Addr
  dep0 : Addr
  dep1 : Addr
  ttab : Addr
  tdiv : Nat
  tfirst : Nat
  tgen : Word
  tmax : Nat
  ready : Option Nat
  running : Bool
  reduced : Bool
  fin : Option CmdEnd
  deriving DecidableEq, Repr

/-- A host queue (19 R317): its control and head, its command in hand, the grids that returned to its head, the TIME at
which its slice began. -/
structure Queue where
  en : Bool
  prio : BitVec 2
  slice : BitVec 16
  qhead : BitVec 16
  hand : Option Cmd
  sliceFrom : Option Nat
  deriving DecidableEq, Repr

/-- A child waiting in the device-side queue (19 R335). -/
structure Child where
  desc : Desc
  crec : Addr
  parentQueue : Fin 64
  tmax : Nat
  reduced : Bool
  deriving DecidableEq, Repr

/-- A tenant partition (19 R312 to R317, 08 R146, R147). `halting` is a pre-emption in progress (09 R192), `childSel` the
selected child that has not started, `won` the queue that won last at each priority, `posted` the BLENDs accepted on each
fabric entry (17 R305). -/
structure Partition where
  en : Bool
  dies : BitVec 12
  plimit : Word
  pwin : BitVec 64
  gen : BitVec 8
  tbase : BitVec 64
  psave : BitVec 64
  fgt : Vector (BitVec 128) 64
  queues : Vector Queue 64
  slots : Tbl Nat Word
  events : Tbl Nat Word
  evhead : BitVec 7
  recov : Bool
  halting : Bool
  children : List Child
  childSel : Option Nat
  won : Vector (Fin 64) 4
  posted : Tbl (Fin 64) Nat
  deriving DecidableEq, Repr

/-- A die-link (01 R26, 19 R337): trained, its clock level in quarters minus one, retraining. -/
structure Link where
  trained : Bool
  level : BitVec 2
  retraining : Bool
  deriving DecidableEq, Repr

/-- The firmware image being verified or loaded (01 R28): the queue whose FWLOAD named it, its bytes. -/
structure Firmware where
  queue : Fin 64
  image : List (BitVec 8)
  deriving DecidableEq, Repr

/-- The last lock request that reached a slice: its slice clock, two to a clk, and its crossbar port (11 R209). -/
structure PortUse where
  sclk : Nat
  port : Nat
  deriving DecidableEq, Repr

/-- A team memory and its poison marks (08 R138, R157). -/
structure Team where
  key : TeamKey
  team : Nat
  size : Nat
  cells : List Host.Cell
  poison : Tbl Nat (BitVec 32)
  deriving DecidableEq, Repr

/-! ### The device -/

/-- The whole device. `tick` and `turn` are the model's own: the argument of the free values, and the agent that moves
next. `bdieAt` is the clk at which the bring-up die became it. -/
structure State where
  tick : Nat
  turn : Turn
  clk : Nat
  phase : BitVec 4
  bdie : BitVec 4
  bdieAt : Option Nat
  dieok : BitVec 12
  iook : BitVec 2
  fwst : BitVec 2
  links : Vector Link 46
  ecnt : BitVec 64
  throttled : Bool
  harvest : Vector (BitVec 36) 12
  incs : Vector (BitVec 16) 12
  gated : List (Fin 12 × Fin 52)
  firmware : Option Firmware
  mem : Memory
  poison : Tbl Nat (BitVec 32)
  tlb : List TlbEntry
  replicas : Tbl Nat (BitVec 16)
  copies : Tbl (Fin 12 × Nat) Copy
  twins : List (Fin 12 × Nat)
  versions : Tbl Nat (BitVec 32)
  relSeq : Vector (BitVec 16) 12
  records : List Rec
  notices : List Notice
  syncs : List Sync
  lockTab : List Lock
  lockReqs : List LockReq
  ports : Tbl (Fin 12 × Nat) PortUse
  hostLines : Tbl Nat HostLine
  vints : Tbl Nat Vint
  vcache : List VCopy
  nextId : Nat
  parts : Vector Partition 12
  grids : List Grid
  nextGrid : Nat
  teams : List Team
  matrix : Tbl CoreRef Matrix
  slotOf : Tbl (CoreRef × Fin 4 × Fin 2) (Fin 64)
  lastGrant : Tbl (CoreRef × Fin 4) (Fin 64)
  groups : Tbl GroupRef Group
  parked : List Parked
  jobs : List Job
  blends : List Blend
  msgs : List Msg
  deriving DecidableEq, Repr

/-! ### Reset -/

/-- A queue at reset (19 R317). -/
def Queue.reset : Queue :=
  { en := false, prio := 0, slice := 0, qhead := 0, hand := none, sliceFrom := none }

/-- A partition at reset (19 R312 to R317). -/
def Partition.reset : Partition :=
  { en := false, dies := 0, plimit := 0, pwin := 0, gen := 0, tbase := 0, psave := 0, fgt := Vector.replicate 64 0,
    queues := Vector.replicate 64 Queue.reset, slots := [], events := [], evhead := 0, recov := false, halting := false,
    children := [], childSel := none, won := Vector.replicate 4 63, posted := [] }

/-- The state right after reset: every register at the value the manual states. The manual states none for the fuses behind
HMAP0 to HMAP11 (R13, R38, 05 R86): on every die the model exposes physical cores 0 to 31 and fuses cores 32 to 35
(assumption 4). It states none for the clock level of a die-link: 3, the full rate (assumption 4). -/
def State.reset : State :=
  { tick := 0
    turn := .event .reset
    clk := 0
    phase := 0
    bdie := 0
    bdieAt := none
    dieok := 0
    iook := 0
    fwst := 0
    links := Vector.replicate 46 ⟨false, 3, false⟩
    ecnt := 0
    throttled := false
    harvest := Vector.replicate 12 0x0FFFFFFFF
    incs := Vector.replicate 12 0
    gated := []
    firmware := none
    mem := ⟨[], Vector.replicate 12 0, []⟩
    poison := []
    tlb := []
    replicas := []
    copies := []
    twins := []
    versions := []
    relSeq := Vector.replicate 12 0
    records := []
    notices := []
    syncs := []
    lockTab := []
    lockReqs := []
    ports := []
    hostLines := []
    vints := []
    vcache := []
    nextId := 1
    parts := Vector.replicate 12 Partition.reset
    grids := []
    nextGrid := 1
    teams := []
    matrix := []
    slotOf := []
    lastGrant := []
    groups := []
    parked := []
    jobs := []
    blends := []
    msgs := [] }

end Sys2Proof.Machine
end

