-- ==== Sys2Proof/Machine/Bits.lean ====
section
/-! DEFINITION. Tables, bit fields, lane sets and the fields of MODE. -/

namespace Sys2Proof.Machine

/-! ### Tables -/

def Tbl.find {κ α : Type} [DecidableEq κ] (t : Tbl κ α) (k : κ) : Option α :=
  match t with
  | [] => none
  | (x, a) :: rest => if x = k then some a else Tbl.find rest k

def Tbl.drop {κ α : Type} [DecidableEq κ] (t : Tbl κ α) (k : κ) : Tbl κ α :=
  match t with
  | [] => []
  | (x, a) :: rest => if x = k then Tbl.drop rest k else (x, a) :: Tbl.drop rest k

/-- The table with `a` at `k`, in the place of the entry it replaces, or last. -/
def Tbl.put {κ α : Type} [DecidableEq κ] (t : Tbl κ α) (k : κ) (a : α) : Tbl κ α :=
  match t with
  | [] => [(k, a)]
  | (x, b) :: rest => if x = k then (k, a) :: rest else (x, b) :: Tbl.put rest k a

def Tbl.findD {κ α : Type} [DecidableEq κ] (t : Tbl κ α) (k : κ) (d : α) : α := (Tbl.find t k).getD d

/-- The element of a list at a position. -/
def nth {α : Type} (l : List α) (i : Nat) : Option α := l[i]?

/-! ### Bit fields -/

/-- Bits h:l of a natural number (00 R3). -/
def field (x h l : Nat) : Nat := x / 2 ^ l % 2 ^ (h + 1 - l)

/-- Bits h:l of a word. -/
def wfield {n : Nat} (x : BitVec n) (h l : Nat) : Nat := field x.toNat h l

/-- One bit of a natural number. -/
def nbit (x i : Nat) : Bool := x / 2 ^ i % 2 == 1

/-- A 32-bit word from an integer, modulo 2^32. -/
def ofInt (z : Int) : Word := BitVec.ofInt 32 z

def imax (a b : Int) : Int := if a ≤ b then b else a
def imin (a b : Int) : Int := if a ≤ b then a else b

/-- z limited to lo..hi. -/
def clampInt (lo hi z : Int) : Int := imin (imax z lo) hi

/-- The low and high words of a 64-bit value (03 R36). -/
def loWord (a : Addr) : Word := a.extractLsb' 0 32
def hiWord (a : Addr) : Word := a.extractLsb' 32 32
def joinWords (lo hi : Word) : Addr := hi ++ lo

/-- The four bytes of a word, the least significant first (00 R3). -/
def bytesOf (w : Word) : List (BitVec 8) :=
  [w.extractLsb' 0 8, w.extractLsb' 8 8, w.extractLsb' 16 8, w.extractLsb' 24 8]

/-- The word of four bytes, the least significant first. -/
def wordOf : List (BitVec 8) → Word
  | [b0, b1, b2, b3] => wordOfBytes b0 b1 b2 b3
  | _ => 0

/-- The bytes of a list of words. -/
def bytesOfWords (ws : List Word) : List (BitVec 8) := ws.flatMap bytesOf

/-! ### Lane sets -/

/-- Lanes of a mask among the first `w`, in ascending order. -/
def lanesOf (w : Nat) (m : Mask) : List Nat := (List.range w).filter fun l => m.getLsbD l

/-- The mask of one lane. -/
def laneBit (l : Nat) : Mask := BitVec.ofNat 64 (2 ^ l)

/-- The mask of a list of lanes. -/
def maskOf (ls : List Nat) : Mask := ls.foldl (fun m l => m ||| laneBit l) 0

/-- Lanes 0 to w − 1. -/
def fullMask (w : Nat) : Mask := BitVec.ofNat 64 (2 ^ w - 1)

/-- The lowest lane of a mask. -/
def lowest (m : Mask) : Nat := ((List.range 64).find? fun l => m.getLsbD l).getD 0

/-! ### MODE (03 R39) -/

def modeGuard (m : Word) : Nat := wfield m 3 0
def modeGinv (m : Word) : Bool := m.getLsbD 4
def modeRnd (m : Word) : Nat := wfield m 7 5
def modeSat (m : Word) : Bool := m.getLsbD 8
def modeFtz (m : Word) : Bool := m.getLsbD 9
def modeLdfmt (m : Word) : Tag := (Tag.ofNum (m.extractLsb' 10 4)).getD .raw
def modeRawas (m : Word) : Nat := wfield m 17 14
def modeScope (m : Word) : Scope := (Scope.ofNum (m.extractLsb' 18 4)).getD .grp
/-- ACCT: I48 when true, A48 when false. -/
def modeI48 (m : Word) : Bool := wfield m 23 22 == 1

/-- MODE holds no reserved value (03 R40). -/
def modeLegal (m : Word) : Bool :=
  wfield m 31 24 == 0 && decide (wfield m 23 22 ≤ 1) && decide (wfield m 21 18 ≤ 9) && decide (wfield m 17 14 ≤ 14) &&
    decide (wfield m 13 10 ≤ 14) && decide (modeRnd m ≤ 4) && decide (modeGuard m ≤ 8)

/-- The effective tag of a source (03 R42 rule 1). -/
def effTag (mode : Word) (t : Tag) : Tag :=
  if t = .raw then (if modeRawas mode = 0 then .raw else (Tag.ofNum (mode.extractLsb' 14 4)).getD .raw) else t

/-- The code of a cause (09 R173). -/
def Cause.code : Cause → Nat
  | .illegal => 1 | .format => 2 | .stackOvf => 3 | .retEmpty => 4 | .retDiv => 5 | .range => 6 | .align => 7
  | .page => 8 | .perm => 9 | .space => 10 | .poison => 11 | .notAll => 12 | .trap => 13 | .brkpt => 14 | .lock => 15
  | .desc => 16

/-- TCAUSE (09 R173). -/
def tcauseWord (lane detail : Nat) (c : Nat) : Word := BitVec.ofNat 32 (lane * 65536 + detail % 256 * 256 + c)

end Sys2Proof.Machine
end

