-- ==== Sys2Proof/Machine/Mem.lean ====
section
/-! DEFINITION. Memory as a canonical list of cells (00 R3), the map of physical addresses (01 R353, R354), team memory
(08 R138) and poison marks (08 R157). -/

namespace Sys2Proof.Machine

/-! ### Cells -/

/-- The byte at an address of a list of cells, where unlisted addresses read as `d` says. -/
def cellRead (d : Nat → BitVec 8) (l : List Host.Cell) (a : Nat) : BitVec 8 :=
  match l with
  | [] => d a
  | (x, b) :: rest => if x = a then b else cellRead d rest a

/-- A byte written into a list of cells, keeping it rising and without entries equal to the default. -/
def cellWrite (d : Nat → BitVec 8) (l : List Host.Cell) (a : Nat) (b : BitVec 8) : List Host.Cell :=
  match l with
  | [] => if b = d a then [] else [(a, b)]
  | (x, c) :: rest =>
    if a < x then (if b = d a then (x, c) :: rest else (a, b) :: (x, c) :: rest)
    else if a = x then (if b = d a then rest else (a, b) :: rest)
    else (x, c) :: cellWrite d rest a b

/-- The canonical form from an address on: rising, no entry equal to the default. -/
def cellsWf (d : Nat → BitVec 8) (lo : Nat) (l : List Host.Cell) : Bool :=
  match l with
  | [] => true
  | (a, b) :: rest => decide (lo ≤ a) && decide (b ≠ d a) && cellsWf d (a + 1) rest

/-- Bytes written from an address upward. -/
def cellsWrite (d : Nat → BitVec 8) (l : List Host.Cell) (a : Nat) (bs : List (BitVec 8)) : List Host.Cell :=
  match bs with
  | [] => l
  | b :: rest => cellsWrite d (cellWrite d l a b) (a + 1) rest

/-! ### Physical addresses -/

/-- The die whose stack holds a physical byte address (01 R353). -/
def stackOf (pa : Nat) : Option (Fin 12) :=
  if h : pa / 2 ^ 36 < 12 then (if pa % 2 ^ 36 < 0xC00000000 then some ⟨pa / 2 ^ 36, h⟩ else none) else none

/-- The home die of a physical address; die 0 where no memory is named. -/
def homeOf (pa : Nat) : Fin 12 := (stackOf pa).getD 0

/-- The slice that caches a line on every die (01 R354). -/
def sliceOf (pa : Nat) : Nat := (pa / 2 ^ 16 % 16) ^^^ (pa / 2 ^ 20 % 16)

/-- The 128-byte line of an address (00 R6). -/
def lineOf (pa : Nat) : Nat := pa / 128 * 128

/-- The byte lies in the range, which lies in one die's stack. -/
def Scramble.holds (x : Scramble) (a : Nat) : Bool := decide (x.lo ≤ a ∧ a < x.lo + x.len ∧ stackOf a = stackOf x.lo)

/-- Every byte of the range lies in another. -/
def Scramble.within (y x : Scramble) : Bool :=
  decide (x.lo ≤ y.lo ∧ y.lo + y.len ≤ x.lo + x.len ∧ stackOf y.lo = stackOf x.lo)

/-- What an unlisted byte reads as: a free byte where the device wrote in a layout of its own (assumption 37); else 0 until
its die is re-keyed, then a free byte (assumption 7, 19 R313). -/
def Memory.blank (m : Memory) (a : Nat) : BitVec 8 :=
  match m.own.find? fun x => x.holds a with
  | some x => Config.ownByte x.tick a
  | none =>
    match stackOf a with
    | some d => if m.epochs[d] = 0 then 0 else Config.rekeyedByte m.epochs[d] a
    | none => 0

def Memory.read (m : Memory) (a : Nat) : BitVec 8 := cellRead m.blank m.cells a

def Memory.write (m : Memory) (a : Nat) (b : BitVec 8) : Memory := { m with cells := cellWrite m.blank m.cells a b }

/-- The canonical form of the memory. -/
def Memory.wf (m : Memory) : Bool := cellsWf m.blank 0 m.cells

/-- A little-endian word (00 R3). -/
def Memory.readWord (m : Memory) (a : Nat) : Word :=
  wordOfBytes (m.read a) (m.read (a + 1)) (m.read (a + 2)) (m.read (a + 3))

def Memory.writeWord (m : Memory) (a : Nat) (w : Word) : Memory :=
  (((m.write a (w.extractLsb' 0 8)).write (a + 1) (w.extractLsb' 8 8)).write (a + 2) (w.extractLsb' 16 8)).write (a + 3)
    (w.extractLsb' 24 8)

/-- A little-endian 64-bit value. -/
def Memory.read64 (m : Memory) (a : Nat) : BitVec 64 := m.readWord (a + 4) ++ m.readWord a

def Memory.write64 (m : Memory) (a : Nat) (x : BitVec 64) : Memory :=
  (m.writeWord a (loWord x)).writeWord (a + 4) (hiWord x)

/-- Bytes from an address upward. -/
def Memory.readBytes (m : Memory) (a n : Nat) : List (BitVec 8) := (List.range n).map fun i => m.read (a + i)

def Memory.writeBytes (m : Memory) (a : Nat) (bs : List (BitVec 8)) : Memory :=
  match bs with
  | [] => m
  | b :: rest => (m.write a b).writeBytes (a + 1) rest

/-- The memory of a die after its keys change: no byte of it is known (19 R312, R313). -/
def Memory.rekey (m : Memory) (d : Fin 12) : Memory :=
  { cells := m.cells.filter fun c => decide (stackOf c.1 ≠ some d)
    epochs := m.epochs.set d (m.epochs[d] + 1)
    own := m.own.filter fun x => decide (stackOf x.lo ≠ some d) }

/-- A range written in a layout of the device's own: no byte of it is known (09 R193). -/
def Memory.scramble (m : Memory) (x : Scramble) : Memory :=
  { m with
    cells := m.cells.filter fun c => !x.holds c.1
    own := x :: m.own.filter fun y => !y.within x }

/-! ### Poison (08 R157, 09 R196) -/

/-- A line is poisoned. -/
def poisoned (t : Tbl Nat (BitVec 32)) (a : Nat) : Bool := (Tbl.find t (lineOf a)).isSome

/-- A line marked poisoned, no word of it overwritten yet. -/
def markPoison (t : Tbl Nat (BitVec 32)) (a : Nat) : Tbl Nat (BitVec 32) := Tbl.put t (lineOf a) 0

/-- A word of a line is overwritten; the mark goes when every word of the line has been. -/
def cleanPoison (t : Tbl Nat (BitVec 32)) (a : Nat) : Tbl Nat (BitVec 32) :=
  match Tbl.find t (lineOf a) with
  | none => t
  | some m =>
    let m' := m ||| BitVec.ofNat 32 (2 ^ (a % 128 / 4))
    if m' = BitVec.allOnes 32 then Tbl.drop t (lineOf a) else Tbl.put t (lineOf a) m'

/-- A plain word write at the point of coherence: the bytes, and the poison of its line. -/
def State.putWord (s : State) (pa : Nat) (w : Word) : State :=
  { s with mem := s.mem.writeWord pa w, poison := cleanPoison s.poison pa }

/-- Words written from an address upward. -/
def State.putWords (s : State) (pa : Nat) (ws : List Word) : State :=
  match ws with
  | [] => s
  | w :: rest => (s.putWord pa w).putWords (pa + 4) rest

/-! ### Team memory (08 R138) -/

/-- Team memory nothing has written reads as 0. -/
def teamBlank : Nat → BitVec 8 := fun _ => 0

def Team.readWord (t : Team) (o : Nat) : Word :=
  wordOfBytes (cellRead teamBlank t.cells o) (cellRead teamBlank t.cells (o + 1)) (cellRead teamBlank t.cells (o + 2))
    (cellRead teamBlank t.cells (o + 3))

def Team.readByte (t : Team) (o : Nat) : BitVec 8 := cellRead teamBlank t.cells o

def Team.writeWord (t : Team) (o : Nat) (w : Word) : Team :=
  { t with cells := cellsWrite teamBlank t.cells o (bytesOf w), poison := cleanPoison t.poison o }

def Team.writeByte (t : Team) (o : Nat) (b : BitVec 8) : Team := { t with cells := cellWrite teamBlank t.cells o b }

def State.team (s : State) (k : TeamKey) : Option Team := s.teams.find? fun t => t.key == k

def State.setTeam (s : State) (t : Team) : State :=
  { s with teams := s.teams.map fun x => if x.key = t.key then t else x }

def State.teamWord (s : State) (k : TeamKey) (o : Nat) : Word := ((s.team k).map fun t => t.readWord o).getD 0

def State.teamByte (s : State) (k : TeamKey) (o : Nat) : BitVec 8 := ((s.team k).map fun t => t.readByte o).getD 0

def State.putTeamWord (s : State) (k : TeamKey) (o : Nat) (w : Word) : State :=
  match s.team k with
  | some t => s.setTeam (t.writeWord o w)
  | none => s

def State.putTeamByte (s : State) (k : TeamKey) (o : Nat) (b : BitVec 8) : State :=
  match s.team k with
  | some t => s.setTeam (t.writeByte o b)
  | none => s

/-- A team-memory write of bytes. -/
def State.putTeamBytes (s : State) (k : TeamKey) (bs : List (Nat × BitVec 8)) : State :=
  match bs with
  | [] => s
  | (o, b) :: rest => (s.putTeamByte k o b).putTeamBytes k rest

end Sys2Proof.Machine
end

