-- ==== Sys2Proof/Machine/Area.lean ====
section
/-! DEFINITION. Page tables (08 R141 to R143) and the divergence area, which the device reads and writes through them (04
R57). -/

namespace Sys2Proof.Machine

/-! ### Page-table entries (08 R142) -/

def pteP (e : BitVec 64) : Bool := e.getLsbD 0
def pteRd (e : BitVec 64) : Bool := e.getLsbD 2
def pteW (e : BitVec 64) : Bool := e.getLsbD 3
def pteX (e : BitVec 64) : Bool := e.getLsbD 4
def pteM (e : BitVec 64) : Bool := e.getLsbD 5
def pteA (e : BitVec 64) : Bool := e.getLsbD 6
def pteLeaf (e : BitVec 64) : Bool := e.getLsbD 7
/-- The frame as a physical address. -/
def pteFrame (e : BitVec 64) : Nat := wfield e 51 16 * 65536
def pteHome (e : BitVec 64) : BitVec 2 := e.extractLsb' 54 2
def pteD (e : BitVec 64) : Bool := e.getLsbD 56
def pteG (e : BitVec 64) : Bool := e.getLsbD 57
def pteHs (e : BitVec 64) : Bool := e.getLsbD 58
def pteV (e : BitVec 64) : Bool := e.getLsbD 59

/-- A physical address of the fabric (17 R296). -/
def fabricPa (pa : Nat) : Bool := nbit pa 51

/-- Bytes lo to lo + n - 1 lie in one die's stack (01 R353). -/
def inStack (lo n : Nat) : Bool := (stackOf lo).isSome && stackOf lo == stackOf (lo + n - 1)

/-- The attributes of a leaf. D has no effect in reduced service (01 R27). -/
def attrOf (reduced : Bool) (e : BitVec 64) : Attr :=
  { vint := pteV e, hs := pteHs e, big := pteG e, d := pteD e && !reduced, home := pteHome e }

/-- A leaf of a page of `blocks` 64 KiB blocks is well formed (08 R141, R143, 17 R296). -/
def leafGood (e : BitVec 64) (blocks : Nat) : Bool :=
  wfield e 63 60 == 0 && wfield e 53 52 == 0 && wfield e 15 8 == 0 && !e.getLsbD 1 &&
  !(pteD e && pteHs e) && !(pteD e && pteHome e != 0) && !(pteHs e && pteHome e != 0) && !(pteW e && !pteRd e) &&
  pteFrame e % (blocks * 65536) == 0 &&
  (if fabricPa (pteFrame e) then !(pteD e) && !(pteHs e) else inStack (pteFrame e) (blocks * 65536))

/-- A non-leaf entry leads on (08 R141, R142). R142 says that its other fields must be 0 and not what happens when one is not:
here the walk ends without a leaf, as at a malformed leaf (assumption 80). -/
def tableGood (e : BitVec 64) : Bool :=
  wfield e 63 52 == 0 && wfield e 15 8 == 0 && wfield e 6 1 == 0 && !fabricPa (pteFrame e) && inStack (pteFrame e) 65536

/-- The levels of a walk from level 1: low address bit and index bits of each, and the blocks a leaf there maps (0 where no
leaf may stand). -/
def walkLevels : List (Nat × Nat × Nat) := [(48, 9, 0), (39, 9, 0), (30, 9, 16384), (21, 9, 32), (16, 5, 1)]

/-! ### The memory of a partition (01 R25, R27, R29) -/

/-- The memory homed on the partition's dies is the partition's; an address homed on another die is foreign to it. -/
def State.foreign (s : State) (p : Fin 12) (pa : Nat) : Bool :=
  match stackOf pa with
  | some d => !(s.parts[p]).dies.getLsbD d.val
  | none => false

/-- A page-table entry as a partition's walk reads it: what stands in a table that lies in memory foreign to it is free (01
R25, R27, R29; assumption 66). -/
def State.tableEntry (s : State) (p : Fin 12) (pa : Nat) : BitVec 64 :=
  if s.foreign p pa then Config.freeWord s.tick (pa + 4) ++ Config.freeWord s.tick pa else s.mem.read64 pa

/-! ### Walks -/

/-- The walk (08 R141) over the entries that `entry` reads: the leaf, its page size in blocks, and the address of its
entry. -/
def walkFrom (entry : Nat → BitVec 64) (va : Nat) (table : Nat) : List (Nat × Nat × Nat) → Option (BitVec 64 × Nat × Nat)
  | [] => none
  | (lo, n, blocks) :: rest =>
    let pa := table + 8 * (va / 2 ^ lo % 2 ^ n)
    let e := entry pa
    if !pteP e then none
    else if pteLeaf e then (if blocks ≠ 0 ∧ leafGood e blocks then some (e, blocks, pa) else none)
    else if rest.isEmpty then none
    else if tableGood e then walkFrom entry va (pteFrame e) rest else none

/-- The root table of a partition: bits 63:12 of TBASE. The manual says that the base is 4 KiB aligned and not what bits 11:0
do: they are ignored here (08 R141, assumption 80). -/
def State.rootTable (s : State) (p : Fin 12) : Nat := (s.parts[p]).tbase.toNat / 4096 * 4096

/-- The walk of a partition's tables (08 R141, 09 R185). -/
def State.walk (s : State) (p : Fin 12) (va : Nat) : Option (BitVec 64 × Nat × Nat) :=
  walkFrom (s.tableEntry p) va (s.rootTable p) walkLevels

/-- The byte's physical address under a leaf of `blocks` blocks. -/
def leafPa (leaf : BitVec 64) (blocks va : Nat) : Nat := pteFrame leaf + va % (blocks * 65536)

/-- A translation of a partition: the leaf, its entry's address, and the physical address of the byte. -/
structure Trans where
  part : Fin 12
  leaf : BitVec 64
  pte : Nat
  pa : Nat
  deriving DecidableEq, Repr

/-- The device sets A on any access through a leaf and M on any store (08 R142), in the entry and in the caches. -/
def State.touch (s : State) (pte : Nat) (store : Bool) : State :=
  let add : BitVec 64 := if store then 0x60 else 0x40
  { s with
    mem := s.mem.write64 pte (s.mem.read64 pte ||| add)
    tlb := s.tlb.map fun e => if e.pte = pte then { e with leaf := e.leaf ||| add } else e }

/-- Every entry of a table and of the tables below it, where they lie in memory that `own` accepts: its address, its value, the
blocks a leaf there maps. -/
def tableEntries (own : Nat → Bool) (m : Memory) (table : Nat) : List (Nat × Nat × Nat) → List (Nat × BitVec 64 × Nat)
  | [] => []
  | (_, n, blocks) :: rest =>
    (List.range (2 ^ n)).flatMap fun i =>
      let pa := table + 8 * i
      let e := m.read64 pa
      if !own pa || !pteP e then []
      else if pteLeaf e then (if blocks ≠ 0 ∧ leafGood e blocks then [(pa, e, blocks)] else [])
      else if !rest.isEmpty && tableGood e then (pa, e, 0) :: tableEntries own m (pteFrame e) rest
      else []

/-- Every entry of the tables of a partition that lie in its memory. -/
def State.entriesOf (s : State) (p : Fin 12) : List (Nat × BitVec 64 × Nat) :=
  tableEntries (fun pa => !s.foreign p pa) s.mem (s.rootTable p) walkLevels

/-- A leaf of an enabled partition, whose memory it is, that maps a physical address. -/
def State.leafOver (s : State) (pa : Nat) : Option (BitVec 64) :=
  (List.finRange 12).findSome? fun q =>
    if (s.parts[q]).en && !s.foreign q pa then
      (s.entriesOf q).findSome? fun x =>
        if x.2.2 ≠ 0 ∧ pteFrame x.2.1 ≤ pa ∧ pa < pteFrame x.2.1 + 65536 * x.2.2 then some x.2.1 else none
    else none


/-- An enabled partition maps the address, which is its own, as an HS page. -/
def State.hsPage (s : State) (pa : Nat) : Bool :=
  (List.finRange 12).any fun q => (s.parts[q]).en && !s.foreign q pa && (s.entriesOf q).any fun x =>
    decide (x.2.2 ≠ 0) && pteHs x.2.1 && decide (pteFrame x.2.1 ≤ pa ∧ pa < pteFrame x.2.1 + 65536 * x.2.2)

/-- A store of a partition to a word that is foreign to it: no other partition reaches an HS page (R29); elsewhere the keys
differ, and whether the store reaches the stack, and what it then leaves, is free (assumption 66). -/
def State.strayStore (s : State) (pa : Nat) : State :=
  if s.hsPage pa || !Config.freeBit s.tick pa then s else s.putWord pa (Config.freeWord s.tick pa)

/-- Stores to `n` words that are foreign. -/
def State.strayStores (s : State) (pa n : Nat) : State :=
  (List.range n).foldl (fun s i => s.strayStore (pa + 4 * i)) s

/-- A and M are set when the leaf used does not show them; in an entry that lies in foreign memory as a store there is
(assumption 66). -/
def State.touched (s : State) (t : Trans) (store : Bool) : State :=
  if pteA t.leaf && (pteM t.leaf || !store) then s
  else if s.foreign t.part t.pte then s.strayStore t.pte
  else s.touch t.pte store

/-! ### The divergence area (04 R57) -/

/-- A slot of the divergence area or of an image. -/
def slotWord (joff : Word) (kind : Nat) (poff : Word) (nj arr : Bool) (mask : Mask) : BitVec 128 :=
  BitVec.ofNat 128 (joff.toNat / 4 * 2 ^ 98 + kind * 2 ^ 96 + poff.toNat / 4 * 2 ^ 66 + bit nj * 2 ^ 65 +
    bit arr * 2 ^ 64 + mask.toNat)

def EntryKind.code : EntryKind → Nat
  | .path => 0 | .cont => 1 | .handler => 2

/-- A reconvergence entry's slot. The manual gives JOFF no value where the join pc is none: 0 (assumption 63). -/
def Entry.slot (e : Entry) : BitVec 128 := slotWord (e.join.getD 0) e.kind.code e.pc e.join.isNone e.arrived e.mask

/-- A return entry's slot. The manual gives NJ and ARR no value there: 0 (assumption 63). -/
def RetEntry.slot (t : RetEntry) : BitVec 128 := slotWord 0 3 t.off false false (BitVec.ofNat 64 (t.depth % 65536))

/-- Offset of slot i in the group's backing store (08 R137). -/
def slotVa (g : Group) (i : Nat) : Nat := g.store.toNat + g.w * g.priv + 16 * i

/-- The four words of a slot. -/
def words128 (x : BitVec 128) : List Word :=
  [x.extractLsb' 0 32, x.extractLsb' 32 32, x.extractLsb' 64 32, x.extractLsb' 96 32]

/-- A slot from its four words. -/
def joinSlot (ws : List Word) : BitVec 128 :=
  joinWords (ws.getD 2 0) (ws.getD 3 0) ++ joinWords (ws.getD 0 0) (ws.getD 1 0)

/-- A 128-bit value written through the partition's page tables, with A and M set (08 R142); nothing where no page is mapped.
In memory foreign to the partition it goes the way of every store there. -/
def State.putSlot (s : State) (p : Fin 12) (va : Nat) (x : BitVec 128) : State :=
  match s.walk p va with
  | none => s
  | some (leaf, blocks, pte) =>
    let pa := leafPa leaf blocks va
    let s1 := s.touched ⟨p, leaf, pte, pa⟩ true
    if s.foreign p pa then s1.strayStores pa 4 else s1.putWords pa (words128 x)

/-- A 128-bit value read through the partition's page tables, with A set; 0 where no page is mapped, and free in memory foreign
to the partition. -/
def State.readSlot (s : State) (p : Fin 12) (va : Nat) : State × BitVec 128 :=
  match s.walk p va with
  | none => (s, 0)
  | some (leaf, blocks, pte) =>
    let pa := leafPa leaf blocks va
    let word (i : Nat) : Word := if s.foreign p pa then Config.freeWord s.tick (pa + 4 * i) else s.mem.readWord (pa + 4 * i)
    (s.touched ⟨p, leaf, pte, pa⟩ false, joinSlot ((List.range 4).map word))

/-- Slots read one after the other. -/
def State.readSlots (s : State) (p : Fin 12) : List Nat → State × List (BitVec 128)
  | [] => (s, [])
  | va :: rest =>
    let (s1, x) := s.readSlot p va
    let (s2, xs) := s1.readSlots p rest
    (s2, x :: xs)

/-- Slots of the divergence area in use: reconvergence entries from slot 0 up, return entries from slot D − 1 down. -/
def Group.areaSlots (g : Group) : List (Nat × BitVec 128) :=
  ((g.stack.drop 2).zipIdx.map fun x => (x.2, x.1.slot)) ++
    ((g.rets.drop 8).reverse.zipIdx.map fun x => (g.depth - 1 - x.2, x.1.slot))

/-- The slots whose content is not what the device last wrote are written. The device does so when a handler is entered or
left, at a halt and before CTXSV and CTXLD: no one may read them at any other moment (04 R57, assumption 22). -/
def State.writeArea (s : State) (g : Group) : State :=
  (g.areaSlots.filter fun x => !g.area.contains x).foldl (fun s x => s.putSlot g.part (slotVa g x.1) x.2) s

/-- The group with its area written. -/
def Group.areaDone (g : Group) : Group := { g with area := g.areaSlots }

end Sys2Proof.Machine
end

