-- ==== Sys2Proof/Machine/Ops.lean ====
section
/-! DEFINITION. The named operations over a group and the device: registers and fixed-latency results (02 R31, 06 R92), the
reconvergence and return stacks (04 R52 to R57), the end of an instruction and of its run (03 R34), taking a trap and
returning from one (09 R167 to R171, R183), the end of a group (04 R55, 09 R170). -/

namespace Sys2Proof.Machine

abbrev Out := Host.Outcome State Fault Refusal

/-! ### Groups of the device -/

def State.group (s : State) (r : GroupRef) : Option Group := Tbl.find s.groups r

def State.setGroup (s : State) (r : GroupRef) (g : Group) : State := { s with groups := Tbl.put s.groups r g }

/-- The resident group with an identity. -/
def State.byUid (s : State) (u : Nat) : Option (GroupRef × Group) := s.groups.find? fun x => x.2.uid == u

def State.grid (s : State) (n : Nat) : Option Grid := s.grids.find? fun g => g.id == n

def State.setGrid (s : State) (g : Grid) : State :=
  { s with grids := s.grids.map fun x => if x.id = g.id then g else x }

/-- TIME in nanoseconds (01 R14). -/
def State.time (s : State) : Nat := s.clk * 20 / 17

/-- The CID of a partition (08 R146). -/
def State.cid (s : State) (p : Fin 12) : BitVec 12 := BitVec.ofNat 12 (256 * p.val + (s.parts[p]).gen.toNat)

/-! ### Registers -/

def Group.uni (g : Group) (r : Reg) : Word := g.s[r.toNat]

/-- The 64-bit value of an even-odd pair (03 R36). -/
def Group.pair (g : Group) (r : Reg) : Addr := joinWords (g.uni r) (g.uni (r + 1))

def Group.vreg (g : Group) (r : Reg) : VReg := g.v[r.toNat]

def Group.lane (g : Group) (r : Reg) (l : Nat) : Word := (g.vreg r).lanes[l]?.getD 0

/-- Predicate bits below W; the others read as 0 (03 R37). -/
def Group.predicate (g : Group) (p : BitVec 3) : Mask := g.p[p.toNat] &&& fullMask g.w

/-- Bits of a lane replaced. -/
def mergeBits (old bits val : Word) : Word := (old &&& ~~~bits) ||| (val &&& bits)

/-- The lanes of a vector write laid over a register. -/
def writeLanes (v : Vector Word 64) (ws : List LaneWrite) : Vector Word 64 :=
  ws.foldl (fun v w => v.setIfInBounds w.lane (mergeBits (v[w.lane]?.getD 0) w.bits w.val)) v

/-- A write applied to the registers alone. -/
def Group.write (g : Group) : Write → Group
  | .uni r v => { g with s := g.s.set r.toNat v }
  | .pred p lanes v =>
    { g with p := g.p.set p.toNat (((g.p[p.toNat] &&& ~~~lanes) ||| (v &&& lanes)) &&& fullMask g.w) }
  | .vec r tag ws =>
    { g with v := g.v.set r.toNat ⟨tag.getD (g.vreg r).tag, writeLanes (g.vreg r).lanes ws⟩ }
  | .mode v => { g with mode := v }
  | .flags f => { g with fstat := g.fstat ||| f }

/-- What is left of an earlier-issued write once a later-issued one stands (06 R92). -/
def Write.without (old new : Write) : Option Write :=
  match old, new with
  | .uni r v, .uni r' _ => if r = r' then none else some (.uni r v)
  | .pred p m v, .pred p' m' _ => if p = p' then some (.pred p (m &&& ~~~m') v) else some (.pred p m v)
  | .vec r t ws, .vec r' _ ws' =>
    if r = r' then
      some (.vec r none (ws.map fun w =>
        { w with bits := w.bits &&& ~~~(((ws'.find? fun x => x.lane == w.lane).map (·.bits)).getD 0) }))
    else some (.vec r t ws)
  | .mode _, .mode _ => none
  | w, _ => some w

/-- Lane data that a later-issued write to one of the destination registers discards (06 R92). -/
def Access.without (a : Access) (new : Write) : Access :=
  match a.dest, new with
  | .uni r, .uni r' _ => if r = r' then { a with dest := .none } else a
  | .vec r tags, .vec r' _ ws =>
    let k := (r' - r).toNat
    if k < tags.length then
      { a with
        dest := .vec r (tags.set k none)
        lanes := a.lanes.map fun l =>
          if ws.any (fun w => w.lane == l.lane) then { l with drop := l.drop ||| BitVec.ofNat 4 (2 ^ k) } else l }
    else a
  | _, _ => a

/-- A result of the instruction numbered `n` lands: it is written, and supersedes what issued earlier (06 R92). -/
def Group.land (g : Group) (n : Nat) (w : Write) : Group :=
  let g1 := g.write w
  { g1 with
    pend := g1.pend.filterMap fun p =>
      if p.seq < n then (p.what.without w).map fun x => { p with what := x } else some p
    acc := g1.acc.map fun a => if a.id < n then a.without w else a }

/-- A fixed-latency result of the instruction numbered `n`, to be written after `lat` issue positions (02 R31). -/
def Group.later (g : Group) (n lat : Nat) (w : Write) : Group := { g with pend := g.pend ++ [⟨n, lat, w⟩] }

def Group.laters (g : Group) (n : Nat) (ws : List (Nat × Write)) : Group :=
  { g with pend := g.pend ++ ws.map fun x => ⟨n, x.1, x.2⟩ }

/-- Write every pending result that `due` selects, in issue order. The fuel is the number of pending results. -/
def Group.landDue (due : Pending → Bool) : Nat → Group → Group
  | 0, g => g
  | k + 1, g =>
    match g.pend.find? due with
    | none => g
    | some p => Group.landDue due k (({ g with pend := g.pend.erase p } : Group).land p.seq p.what)

/-- One issue position passes (02 R31). -/
def Group.age (g : Group) : Group :=
  let g1 := { g with pend := g.pend.map fun p => { p with left := p.left - 1 } }
  Group.landDue (fun p => p.left == 0) g1.pend.length g1

/-- Every fixed-latency result is written: at a run end (02 R31). -/
def Group.flush (g : Group) : Group := Group.landDue (fun _ => true) g.pend.length g

/-- The registers as a matrix instruction reads them: every earlier result written (02 R31, 16 R263). -/
def Group.settled (g : Group) : Group := g.flush

/-! ### The reconvergence stack (04 R52 to R57), its top first -/

/-- Depth of the entry at a position: the entries below it. -/
def depthAt (stack : List Entry) (i : Nat) : Nat := stack.length - 1 - i

/-- A return entry holds the entry at a position (04 R56). -/
def Group.retHeld (g : Group) (i : Nat) : Bool :=
  match g.rets with
  | [] => false
  | r :: _ => decide (depthAt g.stack i < r.depth)

/-- The entry at a position is eligible (04 R53). -/
def Group.eligible (g : Group) (i : Nat) : Bool :=
  match g.stack[i]? with
  | none => false
  | some e => decide (i < 2) && e.kind != .cont && !e.arrived && !e.held && e.filled && !g.retHeld i

/-- The live entry whose run comes next (04 R51), if any is eligible. -/
def Group.nextLive (g : Group) : Option Nat :=
  let a := if g.topFirst then 0 else 1
  if g.eligible a then some a else if g.eligible (1 - a) then some (1 - a) else none

/-- Divergence slots in use (04 R57). -/
def slotsUsed (entries rets : Nat) : Nat := (entries - 2) + (rets - 8)

/-- The stacks fit in hardware and the divergence area (04 R57). -/
def Group.fits (g : Group) (entries rets : Nat) : Bool := decide (slotsUsed entries rets ≤ g.depth)

/-- A path entry at its join pc is arrived (04 R53). -/
def Entry.mark (e : Entry) : Entry :=
  if e.kind = .path ∧ e.join = some e.pc then { e with arrived := true } else e

/-- Arrived entries go below their unarrived siblings; only entries above a continuation are siblings (04 R53). -/
def sink : List Entry → List Entry → List Entry
  | seg, [] => seg
  | seg, e :: rest =>
    if e.kind = .cont then
      (seg.filter fun x => !x.arrived) ++ (seg.filter fun x => x.arrived) ++ e :: sink [] rest
    else sink (seg ++ [e]) rest

/-- Arrivals marked and sunk (04 R53). -/
def arrive (st : List Entry) : List Entry := sink [] (st.map Entry.mark)

/-- One merge at the topmost continuation, when every sibling is arrived (04 R53). -/
def mergeOnce : List Entry → Option (List Entry)
  | [] => none
  | e :: rest =>
    if e.kind = .cont then some ({ e with kind := .path } :: rest)
    else if e.arrived && e.kind == .path then mergeOnce rest else none

/-- Empty entries removed, arrivals marked and sunk, merges made, until nothing changes. -/
def settleStack : Nat → List Entry → List Entry
  | 0, st => st
  | k + 1, st =>
    let st1 := arrive (st.filter fun e => e.mask != 0)
    match mergeOnce st1 with
    | none => st1
    | some st2 => settleStack k st2

/-- Entries below the top two are in the divergence area (04 R57). -/
def spill : Nat → List Entry → List Entry
  | _, [] => []
  | i, e :: rest => (if i < 2 then e else { e with filled := false }) :: spill (i + 1) rest

/-- Return entries whose callee is gone are discarded (04 R56). -/
def discard (n : Nat) : List RetEntry → List RetEntry
  | [] => []
  | r :: rest => if n ≤ r.depth then discard n rest else r :: rest

/-- The stacks of a group brought to rest after an instruction changed them. -/
def Group.settle (g : Group) : Group :=
  let st := spill 0 (settleStack (g.stack.length + 1) g.stack)
  { g with stack := st, rets := discard st.length g.rets }

/-- A new path entry. -/
def pathEntry (pc : Word) (mask : Mask) (join : Option Word) : Entry :=
  { kind := .path, pc := pc, mask := mask, join := join, arrived := false, held := false, filled := true }

/-- One element put before the first that does not come before it. -/
def insertBy {α : Type} (le : α → α → Bool) (x : α) : List α → List α
  | [] => [x]
  | y :: rest => if le x y then x :: y :: rest else y :: insertBy le x rest

/-- A list in order; elements of one place keep the order they stood in. -/
def sortBy {α : Type} (le : α → α → Bool) (xs : List α) : List α := xs.foldr (insertBy le) []

/-- The distinct destinations of a set of lanes, ascending. -/
def destinations (lanes : List Nat) (dest : Nat → Word) : List Word :=
  sortBy (fun a b => decide (a.toNat ≤ b.toNat)) (lanes.map dest).eraseDups

/-- The entries a split makes, the lowest destination on top (04 R54). -/
def splitEntries (w : Nat) (mask : Mask) (join : Option Word) (dest : Nat → Word) : List Entry :=
  let lanes := lanesOf w mask
  (destinations lanes dest).map fun d => pathEntry d (maskOf (lanes.filter fun l => dest l == d)) join

/-- Lanes leave every entry (04 R55). -/
def exitLanes (m : Mask) (st : List Entry) : List Entry := st.map fun e => { e with mask := e.mask &&& ~~~m }

/-- The lanes that have not exited: the union of the entries' masks and of the lanes in service. -/
def Group.alive (g : Group) : Mask :=
  let inH := maskOf ((List.range g.w).filter fun l => ((g.laneTraps[l]?.map (·.state)).getD 0) == 2)
  g.stack.foldl (fun m e => m ||| e.mask) inH

/-- The handler entry of the group, wherever it stands (09 R167). -/
def Group.handlerEntry (g : Group) : Option Entry := g.stack.find? fun e => e.kind == .handler

/-- A held trap entry exists (09 R175). -/
def Group.hasHeld (g : Group) : Bool := g.stack.any fun e => e.held

/-- TSTACK with the handler entry on top (09 R174). -/
def Group.tstackWord (g : Group) : Word :=
  let spilled := g.stack.length - 2
  let rdepth := if g.rets.length ≤ 255 then g.rets.length else 255
  let low := match g.stack[1]? with
    | none => 24
    | some e => (if e.kind = .cont then 8 else 0) + 4 * bit e.arrived + 2 * bit (e.held || g.retHeld 1)
  BitVec.ofNat 32 (spilled * 65536 + rdepth * 256 + low)

/-! ### Faults of lanes and the trap registers -/

/-- One lane's fault. -/
structure LFault where
  lane : Nat
  cause : Cause
  detail : Nat
  addr : Addr
  deriving DecidableEq, Repr

/-- The same fault in every lane of a mask. -/
def faultAll (w : Nat) (m : Mask) (c : Cause) (detail : Nat) (addr : Addr) : List LFault :=
  (lanesOf w m).map fun l => ⟨l, c, detail, addr⟩

/-- The word a trap describes: its address, the word as fetched (0 for a fetch fault). -/
structure TrapWord where
  pc : Addr
  word : Option Word
  deriving DecidableEq, Repr

/-- The trap registers for one lane (03 R47, 09 R169). -/
def Group.loadTrap (g : Group) (t : TrapWord) (lanes : Mask) (f : LFault) : Group :=
  let ops := match t.word with
    | some w => trapOperands w
    | none => (0, 0, 0)
  { g with trap := { g.trap with
      tcause := tcauseWord f.lane f.detail f.cause.code
      tpc := t.pc
      tword := t.word.getD 0
      topa := ops.1
      topb := ops.2.1
      topc := ops.2.2
      tlanes := lanes
      taddr := f.addr } }

/-- TSTACK as a delivery with these entries, the handler's own apart, leaves it (09 R174). -/
def Group.stackAt (g : Group) (st : List Entry) : Word :=
  ({ g with
    stack := arrive ({ pathEntry 0 0 none with kind := .handler } :: st.filter fun e => e.kind != .handler) } : Group).tstackWord

/-- The trap registers of a group that a trap terminates: for its lowest lane, TSTACK with the entries `st` (09 R169 to
R171; assumption 64). -/
def Group.dying (g : Group) (t : TrapWord) (lanes : Mask) (f : LFault) (st : List Entry) : Group :=
  let g1 := g.loadTrap t lanes f
  { g1 with trap := { g1.trap with tstack := g.stackAt st } }

/-! ### The end of a group -/

/-- A member leaves a barrier: its arrivals in phases not complete are withdrawn (12 R247). -/
def Barrier.leave (b : Barrier) (u : Nat) : Barrier := { b with now := b.now.filter (· != u), ahead := b.ahead.filter (· != u) }

/-- The unit of a group at a barrier level (12 R247): its team, its cluster, its die, its grid. -/
def barUnit (r : GroupRef) (g : Group) : Level → Nat
  | .team => g.clu * 64 + g.team
  | .clu => g.clu
  | .die => r.die.val
  | .grid => 0

/-- The group leaves the barriers of its grid. Service groups are no members. -/
def leaveBarriers (r : GroupRef) (g : Group) (gr : Grid) : Grid :=
  if g.svc ≠ .none then gr
  else
    { gr with
      bars := gr.bars.map fun x => (x.1, x.2.leave g.uid)
      gone := [Level.team, .clu, .die, .grid].foldl
        (fun t l => Tbl.put t (l, barUnit r g l) (Tbl.findD t (l, barUnit r g l) 0 + 1)) gr.gone }

/-- The locks a group holds when it ends at a clk are released with the poison mark set, and its waiter records go (11
R212). -/
def dropLocks (clk u : Nat) (held : List Nat) (t : List Lock) : List Lock :=
  t.map fun k =>
    let k1 := { k with queue := k.queue.filter fun w => w.uid != u }
    if k.holder = some u ∧ k.line ∈ held then { k1 with holder := none, since := clk, poisoned := true } else k1

/-- A lock entry exists while it is held, waited for or marked (11 R208). -/
def liveLocks (t : List Lock) : List Lock := t.filter fun k => k.holder.isSome || !k.queue.isEmpty || k.poisoned

/-- The mark of the earliest-issued load. -/
def firstMark : List Mark → Option Mark
  | [] => none
  | m :: rest =>
    match firstMark rest with
    | none => some m
    | some n => if n.acc < m.acc then some n else some m

/-- An earlier terminating event: by clk, then die, core and slot (19 R321). -/
def Termination.before (a b : Termination) : Bool :=
  decide (a.clk < b.clk ∨ a.clk = b.clk ∧ (a.die < b.die ∨ a.die = b.die ∧ (a.pcore < b.pcore ∨
    a.pcore = b.pcore ∧ a.slot < b.slot)))

/-- The first termination of a grid stands (19 R321). -/
def noteTermination (t : Termination) (gr : Grid) : Grid :=
  match gr.term with
  | none => { gr with term := some t }
  | some u => if t.before u then { gr with term := some t } else gr

/-- The trap service message of a terminated group (09 R171). -/
def trapServiceMsg (r : GroupRef) (g : Group) (thidx : Nat) : Msg :=
  { part := g.part, grid := g.grid, core := r.at, hidx := thidx - 1, uid := g.uid
    payload := [g.trap.tcause, BitVec.ofNat 32 (g.clu * 65536 + g.idx), loWord g.trap.tpc, hiWord g.trap.tpc,
      loWord g.trap.taddr, hiWord g.trap.taddr, loWord g.trap.tlanes, hiWord g.trap.tlanes, g.trap.tstack]
    sender := BitVec.ofNat 32 (r.die.val * 2 ^ 24 + r.core.val * 65536 + r.slot.val)
    trapService := true, rel := none, lost := false }

/-- What the termination of a group with these trap registers reports: its grid's first termination, and the trap service
message (09 R170, R171, 19 R321). -/
def State.reportEnd (s : State) (r : GroupRef) (g : Group) (cause detail : Nat) : State :=
  let t : Termination := { cause := cause, detail := detail, clk := s.clk, die := r.die.val, pcore := r.core.val
                           slot := r.slot.val, gidx := g.gidx, clu := g.clu, tpc := g.trap.tpc }
  let thidx := ((s.grid g.grid).map fun x => x.desc.thidx).getD 0
  { s with
    grids := s.grids.map fun x => if x.id = g.grid then noteTermination t x else x
    msgs := if thidx = 0 ∨ g.svc = .trapService then s.msgs else s.msgs ++ [trapServiceMsg r g thidx] }

/-- The trap registers that a mark never delivered leaves (08 R157). -/
def Group.loadMark (g : Group) (m : Mark) : Group :=
  g.dying ⟨m.pc, some m.word⟩ (laneBit m.lane) ⟨m.lane, m.cause, 0, m.ea⟩ g.stack

/-- A group without lanes whose mark was never delivered is terminated by it (08 R157, 09 R170). -/
def State.endByMark (s : State) (r : GroupRef) (g : Group) : State × Group :=
  match g.killed, g.endMark with
  | false, some m => (s.reportEnd r (g.loadMark m) m.cause.code 0, { g.loadMark m with killed := true })
  | _, _ => (s, g)

/-- The last lane of a group has left (04 R55, 11 R212, 12 R247): at that moment a mark not delivered terminates it
(08 R157). -/
def State.groupEnds (s : State) (r : GroupRef) (g : Group) : State :=
  let s1 : State := { s with
    lockTab := liveLocks (dropLocks s.clk g.uid g.locks s.lockTab)
    lockReqs := s.lockReqs.filter fun q => q.uid != g.uid || q.kind == .release
    grids := s.grids.map fun x => if x.id = g.grid then leaveBarriers r g x else x }
  let (s2, g1) := s1.endByMark r { g with endMark := firstMark (g.endMark.toList ++ g.marks) }
  s2.setGroup r { g1 with ended := true, locks := [], wait := none, arrivals := [], hold := none, xlate := []
                          walks := [], run := none, mxWait := none, stalled := false, stack := [], rets := [], pend := [], marks := [] }

/-- A group is terminated with the cause and detail its trap registers hold (09 R170, R171). -/
def State.terminate (s : State) (r : GroupRef) (g : Group) (cause detail : Nat) : State :=
  (s.reportEnd r g cause detail).groupEnds r { g with
    acc := g.acc.map fun a => { a with dest := .none }
    marks := []
    endMark := none
    killed := true }

/-! ### Traps -/

/-- The lane trap records of the lanes of a handler entry: each awaits service with its own cause and address. -/
def noteLanes (v : Vector LaneTrap 64) (fs : List LFault) : Vector LaneTrap 64 :=
  fs.foldl (fun v f => v.setIfInBounds f.lane ⟨tcauseWord f.lane f.detail f.cause.code, 1, 0, f.addr⟩) v

/-- How a trap is delivered: the group goes on, or it is terminated with a cause and detail. -/
inductive Delivery where
  | goesOn (g : Group)
  | dies (g : Group) (cause detail : Nat)

/-- TAKING A TRAP (09 R167, R169, R172, 08 R157). `live` is the position of the issuing entry, `at_` the word it issues,
`fs` the faults of its lanes, `t` the word the trap describes, `later` lanes that leave the entry for a held entry of their
own because a later load marked them. The entry is expected at the trapping word. -/
def Group.deliver (g : Group) (live : Nat) (at_ : Word) (t : TrapWord) (fs : List LFault) (later : Mask) : Delivery :=
  match g.stack[live]?, fs with
  | some e, f :: _ =>
    let lanes := maskOf (fs.map (·.lane))
    if e.kind = .handler then .dies (g.dying t lanes f g.stack) f.cause.code f.detail
    else
      let rest := { e with mask := e.mask &&& ~~~(lanes ||| later), pc := at_ + 4 }
      let st := (if rest.mask = 0 then g.stack.eraseIdx live else g.stack.set live rest)
      if g.handler = 0 then .dies (g.dying t lanes f st) f.cause.code f.detail
      else
        let had := g.handlerEntry.isSome
        let extra := if had then lanes ||| later else later
        let st1 := if extra = 0 then st else { pathEntry at_ extra e.join with held := true } :: st
        let start := (loWord (g.handler - g.codeBase)) &&& 0xFFFFFFFC
        let h : Entry := { pathEntry start lanes e.join with kind := .handler }
        let st2 := if had then st1 else h :: st1
        if g.fits st2.length g.rets.length then
          if had then .goesOn { g with stack := st2, topFirst := true }
          else
            let g1 := ({ g with stack := st2, topFirst := true, hstart := start, htpc := t.pc,
                                laneTraps := noteLanes g.laneTraps fs } : Group).loadTrap t lanes f
            let g2 : Group := { g1 with stack := arrive st2 }
            .goesOn { g1 with trap := { g1.trap with tstack := g2.tstackWord } }
        else .dies (g.dying t lanes ⟨f.lane, .stackOvf, 1, f.addr⟩ st1) Cause.stackOvf.code 1
  | _, _ => .goesOn g

/-- The handler entry after service of its current lane ended with a record (09 R169, R183): the next lane's registers,
or the entry is removed and the resumed lanes are split by resume offset. -/
def Group.endService (g : Group) (live : Nat) (state : BitVec 2) (resume : Word) : Delivery :=
  match g.stack[live]? with
  | none => .goesOn g
  | some h =>
    let l := lowest h.mask
    let old := g.laneTraps[l]?.getD ⟨0, 0, 0, 0⟩
    let traps := g.laneTraps.setIfInBounds l { old with state := state, resume := resume }
    let h1 := { h with mask := h.mask &&& ~~~laneBit l, pc := g.hstart }
    if h1.mask ≠ 0 then
      let n := lowest h1.mask
      let rec_ := traps[n]?.getD ⟨0, 0, 0, 0⟩
      .goesOn { g with
        laneTraps := traps
        stack := g.stack.set live h1
        topFirst := live != 0
        trap := { g.trap with tcause := rec_.cause, taddr := rec_.addr, tpc := g.htpc } }
    else
      let resumed := maskOf ((List.range g.w).filter fun i => ((traps[i]?.map (·.state)).getD 0) == 2)
      let news := splitEntries g.w resumed h.join fun i => (traps[i]?.map (·.resume)).getD 0
      let below := (g.stack.eraseIdx live).map fun e => { e with held := false }
      let clear := traps.map fun x => { x with state := 0 }
      if g.fits (below.length + news.length) g.rets.length then
        .goesOn { g with stack := news ++ below, laneTraps := clear, topFirst := true }
      else
        .dies { g with stack := below, laneTraps := clear,
                       trap := { g.trap with tcause := tcauseWord l 1 Cause.stackOvf.code } } Cause.stackOvf.code 1

/-- The group after a delivery, with what a termination or its end does; the divergence area holds its deeper entries
(04 R57). -/
def State.afterDelivery (s : State) (r : GroupRef) : Delivery → State
  | .dies g cause detail => s.terminate r g cause detail
  | .goesOn g =>
    let g1 := g.settle
    if g1.stack.isEmpty then s.groupEnds r g1 else (s.writeArea g1).setGroup r g1.areaDone

/-! ### Issuing one instruction -/

/-- What an instruction sees as it issues: the group, the issuing entry and its position, the lanes active after the guard,
serial mode, its number, its word. -/
structure Ctx where
  r : GroupRef
  g : Group
  run : Run
  e : Entry
  act : Mask
  serial : Bool
  word : Word
  deriving DecidableEq, Repr

/-- The lanes active after the guard (03 R40); in serial mode the lane under service (09 R172). -/
def activeLanes (g : Group) (e : Entry) : Mask :=
  if e.kind = .handler then laneBit (lowest e.mask) &&& e.mask
  else if modeGuard g.mode = 0 then e.mask
  else
    let p := g.predicate (BitVec.ofNat 3 (modeGuard g.mode - 1))
    e.mask &&& (if modeGinv g.mode then ~~~p else p)

/-- The context of the instruction the machine is issuing. -/
def State.ctx (s : State) (i : Instr) : Option Ctx :=
  match s.turn with
  | .event _ => none
  | .issue r =>
    match s.group r with
    | none => none
    | some g =>
      match g.run with
      | none => none
      | some run =>
        match g.stack[run.live]? with
        | none => none
        | some e =>
          some { r := r, g := g, run := run, e := e, act := activeLanes g e, serial := e.kind == .handler,
                 word := encodeWord i }

/-- An instruction word outside an issue step is a fault of the caller. -/
def State.withCtx (s : State) (i : Instr) (k : Ctx → State) : Out :=
  match s.ctx i with
  | some c => .next (k c)
  | none => .fault .noIssuer

/-- The number the issuing instruction has in its group. -/
def Ctx.seq (c : Ctx) : Nat := c.g.seq

/-- The address of the issuing word. -/
def Ctx.pcAddr (c : Ctx) : Addr := c.g.codeBase + c.e.pc.setWidth 64

/-- The decoding context of a group (03 R45, 01 R27). -/
def decCtxOf (g : Group) (e : Entry) : DecCtx := ⟨g.nv, g.w == 64, e.kind == .handler, g.reduced⟩

/-- How the issuing instruction leaves the stacks. -/
inductive Flow where
  /-- The issuing entry goes on at the next word. -/
  | falls
  /-- The issuing entry goes on at this offset. -/
  | goes (pc : Word)
  /-- The group's stacks were replaced; the run may go on from the top entry when `cont`. -/
  | restacked (cont : Bool)
  deriving DecidableEq, Repr

/-- The instruction ends the run, FORCEDB set when it should have carried its boundary bit (03 R34). R34 and R46 leave open
whether a word that fails decoding but bears a run-ending opcode sets FORCEDB: here it does not, while a rejected 24th word
does (assumption 65). -/
def endsRun (word : Word) (pos : Nat) : Bool := fldB31 word || runEnding word || pos == 24

def forcesB (word : Word) (valid : Bool) (pos : Nat) : Bool :=
  !fldB31 word && ((valid && runEnding word) || pos == 24)

/-- The run is over: the slot is free, every fixed-latency result is written. -/
def Group.stopRun (g : Group) : Group := ({ g with run := none }).flush

/-- The issuing instruction is held at issue: it is tried again at the group's next turn (08 R151, R153, 12 R229, 09 R192). -/
def State.stall (s : State) (c : Ctx) : State := s.setGroup c.r { c.g with stalled := true }

/-- Free the issue slots of a group. -/
def State.freeSlots (s : State) (r : GroupRef) : State :=
  { s with slotOf := s.slotOf.filter fun x => !(x.1.1 == r.at && x.2 == r.slot) }

/-- Which live entry comes first in the next run (04 R51): the top one when it is new there or did not issue. -/
def nextTop (before : Entry) (live : Nat) (after : List Entry) : Bool :=
  live != 0 || (match after with
    | e :: _ => e.mask != before.mask || e.join != before.join || e.kind != before.kind
    | [] => true)

/-- The group after one more issued instruction: its number, its latencies, FORCEDB (02 R31, 03 R34). -/
def Group.issued (g : Group) (c : Ctx) (valid : Bool) : Group :=
  let g0 := ({ g with seq := g.seq + 1, stalled := false, hold := none, xlate := [], walks := [] } : Group).age
  { g0 with forcedB := g0.forcedB || forcesB c.word valid (c.run.pos + 1) }

/-- The run of a group is over (03 R34). Its issue slot is free from then on, whether the group waits or not (03 R351). -/
def State.runEnds (s : State) (r : GroupRef) (g : Group) (top : Bool) : State :=
  let g1 := ({ g with topFirst := top } : Group).stopRun
  if g.stack.isEmpty then (s.freeSlots r).groupEnds r g1 else (s.freeSlots r).setGroup r g1

/-- An instruction held at issue is withdrawn with the rest of its run; the entry stays at its word (09 R192). -/
def State.withdraw (s : State) (r : GroupRef) (g : Group) : State :=
  match g.run with
  | none => s
  | some run =>
    match g.stack[run.live]? with
    | none => s
    | some e =>
      s.runEnds r { g with stalled := false, hold := none, xlate := [], walks := [], mxWait := none } (nextTop e run.live g.stack)

/-- The run ends with a trap described by `t` (09 R167). -/
def State.trapOut (s : State) (c : Ctx) (g : Group) (t : TrapWord) (fs : List LFault) (later : Mask) : State :=
  (s.freeSlots c.r).afterDelivery c.r (g.stopRun.deliver c.run.live c.e.pc t fs later)

/-- The group with the issuing entry at the place the flow gives it. -/
def Flow.move (f : Flow) (c : Ctx) (g : Group) : Group :=
  match f with
  | .falls => { g with stack := g.stack.set c.run.live { c.e with pc := c.e.pc + 4 } }
  | .goes pc => { g with stack := g.stack.set c.run.live { c.e with pc := pc } }
  | .restacked _ => g

/-- The issuing entry, once moved, stands at its join pc (04 R53). -/
def Flow.arrives (f : Flow) (c : Ctx) (moved : Group) : Bool :=
  match f with
  | .restacked _ => false
  | .falls | .goes _ => (moved.stack[c.run.live]?.map fun e => decide (e.kind = .path ∧ e.join = some e.pc)).getD true

/-- The live entry that goes on with the run. -/
def Flow.live (f : Flow) (c : Ctx) : Nat :=
  match f with
  | .restacked _ => 0
  | .falls | .goes _ => c.run.live

/-- The flow lets the run go on. -/
def Flow.runs : Flow → Bool
  | .restacked cont => cont
  | .falls | .goes _ => true

/-- Whether the top entry comes first in the next run. -/
def Flow.top (f : Flow) (c : Ctx) (after : List Entry) : Bool :=
  match f with
  | .restacked _ => true
  | .falls | .goes _ => nextTop c.e c.run.live after

/-- The end of an issued instruction that trapped in no lane: the pc moves, the run goes on or ends (03 R34, 04 R53). -/
def State.goOn (s : State) (c : Ctx) (g : Group) (flow : Flow) : State :=
  let moved := flow.move c g
  let g2 := moved.settle
  if !endsRun c.word (c.run.pos + 1) && !flow.arrives c moved && g2.eligible (flow.live c) && flow.runs then
    s.setGroup c.r { g2 with run := some ⟨flow.live c, c.run.pos + 1⟩ }
  else s.runEnds c.r g2 (flow.top c g2.stack)

/-- The end of an issued instruction: latencies age, the pc moves, the run goes on or ends, faults are delivered (03 R34,
02 R31, 04 R53, 09 R167). -/
def State.finish (s : State) (c : Ctx) (g : Group) (flow : Flow) (fs : List LFault) (valid : Bool := true) : State :=
  let g1 := g.issued c valid
  match fs with
  | _ :: _ => s.trapOut c g1 ⟨c.pcAddr, some c.word⟩ fs 0
  | [] => s.goOn c g1 flow

/-- Service of the current lane ends: it is resumed at an offset (state 2), or it exits from every entry (state 3)
(09 R183, 04 R68). -/
def State.endLane (s : State) (c : Ctx) (state : BitVec 2) (resume : Word) : State :=
  let l := laneBit (lowest c.e.mask)
  let g := c.g.issued c true
  let g1 := if state = 3 then
      { g with stack := g.stack.map fun e => if e.kind = .handler then e else { e with mask := e.mask &&& ~~~l } }
    else g
  (s.freeSlots c.r).afterDelivery c.r (g1.stopRun.endService c.run.live state resume)

/-! ### Waiting (08 R164, 19 R329) -/

/-- A wait begins: its word stays the entry's next, the slot is free (03 R351), every earlier result is written. -/
def State.beginWait (s : State) (c : Ctx) (g : Group) (w : Wait) : State :=
  (s.freeSlots c.r).setGroup c.r { (g.issued c true).flush with wait := some w, waitFrom := s.clk }

/-- The waiting entry of a group. -/
def Group.waiting (g : Group) : Option (Run × Entry) :=
  match g.run with
  | none => none
  | some run => (g.stack[run.live]?).map fun e => (run, e)

/-- A wait ends: the entry moves to the next word and the run is over. -/
def State.endWait (s : State) (r : GroupRef) (g : Group) : State :=
  match g.waiting with
  | none => s
  | some (run, e) =>
    let g1 := ({ g with wait := none, stack := g.stack.set run.live { e with pc := e.pc + 4 } } : Group).settle
    s.runEnds r g1 (nextTop e run.live g1.stack)

/-- The marks of the earliest of the loads that marked some of the lanes: that load's marks, and the other marked lanes
(08 R157). -/
def firstLoad (ms : List Mark) : Option (Mark × List Mark × Mask) :=
  match firstMark ms with
  | none => none
  | some m =>
    let mine := ms.filter fun x => x.acc == m.acc
    let lanes := maskOf (mine.map (·.lane))
    some (m, mine, maskOf (ms.map (·.lane)) &&& ~~~lanes)

/-- POISON and the refusals that are raised as it is: the trap of the earliest-issued load among the marks `ms`, delivered
at the entry's word (08 R157). Marks of the lanes that enter the handler are used up. -/
def State.deliverMarks (s : State) (r : GroupRef) (run : Run) (e : Entry) (g : Group) (ms : List Mark) : State :=
  match firstLoad ms with
  | none => s.setGroup r g
  | some (m, mine, later) =>
    let fs := sortBy (fun a b => decide (a.lane ≤ b.lane)) (mine.map fun x => (⟨x.lane, x.cause, 0, x.ea⟩ : LFault))
    let g1 := if g.handlerEntry.isSome then g else { g with marks := g.marks.filter fun x => !mine.contains x }
    (s.freeSlots r).afterDelivery r (g1.stopRun.deliver run.live e.pc ⟨m.pc, some m.word⟩ fs later)

/-- A trap in every active lane, the instruction having no other effect. -/
def State.trapAll (s : State) (c : Ctx) (cause : Cause) (detail : Nat) (addr : Addr := 0) : State :=
  s.finish c c.g .falls (faultAll c.g.w c.act cause detail addr)

/-- ILLEGAL is raised before the guard, in every lane of the issuing entry (03 R46, R47); in serial mode in the lane under
service. -/
def State.trapIllegal (s : State) (c : Ctx) (e : Illegal) (valid : Bool) : State :=
  let m := if c.serial then laneBit (lowest c.e.mask) else c.e.mask
  s.finish c c.g .falls (faultAll c.g.w m .illegal e.detail 0) valid

/-- A word that fails decoding (03 R45 to R47). -/
def State.rejectWord (s : State) (r : GroupRef) (g : Group) (run : Run) (e : Entry) (w : Word) (x : Illegal) : State :=
  s.trapIllegal { r := r, g := g, run := run, e := e, act := activeLanes g e, serial := e.kind == .handler, word := w } x
    false

/-- What an instruction that only computes registers does: results with their latencies, or one trap in every lane. -/
abbrev Result := Except (Cause × Nat) (List (Nat × Write))

/-- An instruction that only computes registers (05 R72, 06 R90, 07 R118): nothing without an active lane. -/
def issueRegs (i : Instr) (f : Ctx → Result) (s : State) : Out :=
  s.withCtx i fun c =>
    if c.act = 0 then s.finish c c.g .falls []
    else
      match f c with
      | .error (cause, detail) => s.trapAll c cause detail
      | .ok ws => s.finish c (c.g.laters c.seq ws) .falls []

end Sys2Proof.Machine
end

