-- ==== Sys2Proof/Machine/Operands.lean ====
section
/-! DEFINITION. Operand forms: packed elements and tags (03 R41, R42, 06 R91), field descriptors (05 R82), jump targets
(03 R33), addresses of memory words (08 R158). -/

namespace Sys2Proof.Machine

/-! ### Packed elements (06 R91) -/

/-- Elements of a lane. -/
def tagCount : Tag → Nat
  | .raw | .i32 | .n32 | .f32 => 1
  | .i16x2 | .n16x2 | .f16x2 | .b16x2 | .rix => 2
  | .i8x4 | .n8x4 | .e4x4 | .e5x4 | .ps8x4 => 4
  | .i4x8 => 8

/-- Bits of an element. -/
def tagWidth (t : Tag) : Nat := 32 / tagCount t

/-- INT of 06 R91. -/
def tagInt : Tag → Bool
  | .i32 | .n32 | .i16x2 | .n16x2 | .i8x4 | .n8x4 | .i4x8 => true
  | .raw | .f32 | .f16x2 | .b16x2 | .e4x4 | .e5x4 | .ps8x4 | .rix => false

/-- FLT of 06 R91. -/
def tagFlt : Tag → Bool
  | .f32 | .f16x2 | .b16x2 => true
  | .raw | .i32 | .n32 | .i16x2 | .n16x2 | .i8x4 | .n8x4 | .i4x8 | .e4x4 | .e5x4 | .ps8x4 | .rix => false

/-- The integer elements of the tag are signed. -/
def tagSigned : Tag → Bool
  | .i32 | .i16x2 | .i8x4 | .i4x8 => true
  | .raw | .n32 | .f32 | .n16x2 | .f16x2 | .b16x2 | .n8x4 | .e4x4 | .e5x4 | .ps8x4 | .rix => false

/-- Element i of a word cut into elements of w bits. -/
def elemBits (w : Nat) (x : Word) (i : Nat) : Nat := x.toNat / 2 ^ (w * i) % 2 ^ w

/-- w bits read as two's complement. -/
def signedOf (w n : Nat) : Int := if n < 2 ^ (w - 1) then (n : Int) else (n : Int) - 2 ^ w

/-- Element i as its tag reads it. -/
def elemInt (t : Tag) (x : Word) (i : Nat) : Int :=
  let n := elemBits (tagWidth t) x i
  if tagSigned t then signedOf (tagWidth t) n else n

/-- A word from its elements of w bits, element 0 lowest. -/
def packBits (w : Nat) : List Nat → Nat
  | [] => 0
  | n :: rest => n % 2 ^ w + 2 ^ w * packBits w rest

def packWord (w : Nat) (ns : List Nat) : Word := BitVec.ofNat 32 (packBits w ns)

/-- An integer modulo 2^w. -/
def wrapNat (w : Nat) (z : Int) : Nat := (z % 2 ^ w).toNat

/-- clamp(z, t) of 06 R91. -/
def clampTag (t : Tag) (z : Int) : Int :=
  let w := tagWidth t
  if tagSigned t then clampInt (-2 ^ (w - 1)) (2 ^ (w - 1) - 1) z else clampInt 0 (2 ^ w - 1) z

/-- A lane computed element by element. -/
def mapElems (w : Nat) (f : Nat → Nat) : Word := packWord w ((List.range (32 / w)).map f)

/-! ### Tags of sources (03 R42) -/

/-- The effective tag of a vector register. -/
def Ctx.tag (c : Ctx) (r : Reg) : Tag := effTag c.g.mode (c.g.vreg r).tag

/-- One effective tag for every typed operand, inside the accepted set (03 R42 rule 3). -/
def Ctx.oneTag (c : Ctx) (accept : Tag → Bool) : List Reg → Except (Cause × Nat) Tag
  | [] => .error (.format, 0)
  | r :: rest =>
    let t := c.tag r
    if accept t && rest.all (fun q => c.tag q == t) then .ok t else .error (.format, 0)

/-- The lanes active after the guard, ascending. -/
def Ctx.lanes (c : Ctx) : List Nat := lanesOf c.g.w c.act

/-- A whole-lane write to each active lane. -/
def Ctx.write (c : Ctx) (d : Reg) (tag : Tag) (f : Nat → Word) : Write :=
  .vec d (some tag) (c.lanes.map fun l => ⟨l, BitVec.allOnes 32, f l⟩)

/-- Bits of a predicate written in each active lane. -/
def Ctx.writePred (c : Ctx) (p : BitVec 3) (f : Nat → Bool) : Write := .pred p c.act (maskOf (c.lanes.filter f))

/-- The two results of a pair (03 R36). -/
def pairWrites (lat : Nat) (d : Reg) (x : Addr) : List (Nat × Write) :=
  [(lat, .uni d (loWord x)), (lat, .uni (d + 1) (hiWord x))]

/-! ### Field descriptors (05 R82) -/

def descPos (x : Word) : Nat := wfield x 4 0
def descLen (x : Word) : Nat := min (min (wfield x 13 8) 32) (32 - descPos x)

/-- Unsigned field extract. -/
def extractN (a desc : Word) : Word := BitVec.ofNat 32 (a.toNat / 2 ^ descPos desc % 2 ^ descLen desc)

/-- Signed field extract. -/
def extractS (a desc : Word) : Word :=
  if descLen desc = 0 then 0 else ofInt (signedOf (descLen desc) (a.toNat / 2 ^ descPos desc % 2 ^ descLen desc))

/-- Field insert (05 R83, 06 R101). -/
def insertField (a b desc : Word) : Word :=
  let m := BitVec.ofNat 32 ((2 ^ descLen desc - 1) * 2 ^ descPos desc)
  (a &&& ~~~m) ||| ((b <<< descPos desc) &&& m)

/-! ### Jumps and addresses -/

/-- A J-format target (03 R33, 04 R50). -/
def jumpTarget (pc : Word) (o : BitVec 18) : Word := pc + 4 + (o.signExtend 32 <<< 2)

/-- Bits 1:0 of a code offset are ignored (04 R50). -/
def alignCode (x : Word) : Word := x &&& 0xFFFFFFFC

/-- The address of a lane (08 R158). -/
def Ctx.laneAddr (c : Ctx) (s j : Reg) (l : Nat) : Addr :=
  c.g.pair s + (if j = 0x3F then 0 else (c.g.lane j l).signExtend 64)

/-- The address of an access made once for the group (08 R161). -/
def Ctx.groupAddr (c : Ctx) (s j : Reg) : Addr :=
  c.g.pair s + (if j = 0x3F then 0 else (c.g.uni j).signExtend 64)

/-- The team offset of a lane (08 R158). -/
def Ctx.teamOffset (c : Ctx) (s j : Reg) (l : Nat) : Word :=
  c.g.uni s + (if j = 0x3F then 0 else c.g.lane j l)

end Sys2Proof.Machine
end

