-- ==== Sys2Proof/Machine/Flags.lean ====
section
/-! DEFINITION. The floating-point status flags (07 R117) and how instructions raise them. -/

namespace Sys2Proof.Machine

/-- The six flags of FSTAT. -/
abbrev FFlags := BitVec 6

def fNone : FFlags := 0
def fNV : FFlags := 1
def fDZ : FFlags := 2
def fOF : FFlags := 4
def fUF : FFlags := 8
def fNX : FFlags := 16
def fFZ : FFlags := 32

/-- A flag when a condition holds. -/
def flagIf (b : Bool) (f : FFlags) : FFlags := if b then f else 0

/-- Flags of several elements or lanes together. -/
def orFlags (fs : List FFlags) : FFlags := fs.foldl (· ||| ·) 0

/-- A register result with the flags its elements raised, both at the result latency (07 R117). -/
def withFlags (lat : Nat) (w : Write) (f : FFlags) : List (Nat × Write) :=
  if f = 0 then [(lat, w)] else [(lat, w), (lat, .flags f)]

/-- FSTAT as SRDSR and MODEF give it. -/
def fstatWord (f : FFlags) : Word := f.setWidth 32

/-- Flags raised by results not yet written (09 R178). -/
def Group.pendingFlags (g : Group) : FFlags :=
  orFlags (g.pend.map fun p => match p.what with
    | .flags f => f
    | _ => 0)

/-- GSTAT (09 R175), read by a run in serial mode or not. -/
def Group.gstatWord (g : Group) (serial : Bool) : Word :=
  BitVec.ofNat 32 (8 * bit g.resumed + 4 * bit g.hasHeld + 2 * bit serial + bit g.forcedB)

end Sys2Proof.Machine
end

