-- ==== Sys2Proof/Machine/Xlate.lean ====
section
/-! DEFINITION. Translation caches (08 R144), windows (08 R136 to R139), the per-lane checks of an access (08 R155, 11 R206,
17 R296). -/

namespace Sys2Proof.Machine

/-! ### Translation caches (08 R144) -/

/-- The outcome of looking up an address. -/
inductive Looked where
  | miss
  | absent
  | hit (t : Trans)
  deriving DecidableEq, Repr

def TlbEntry.covers (e : TlbEntry) (die : Fin 12) (cid : BitVec 12) (block : Nat) : Bool :=
  e.die == die && e.cid == cid && decide (e.block ≤ block ∧ block < e.block + e.blocks)

/-- A virtual address looked up for a group: the walks made for the stalled instruction, the core's cache, the die's. -/
def State.look (s : State) (r : GroupRef) (g : Group) (va : Nat) : Looked :=
  let block := va / 65536
  match g.walks.find? (fun w => w.block == block) with
  | some w =>
    match w.leaf with
    | some (leaf, blocks, pte) => .hit ⟨g.part, leaf, pte, leafPa leaf blocks va⟩
    | none => .absent
  | none =>
    let cid := s.cid g.part
    match s.tlb.find? (fun e => e.covers r.die cid block && e.core == some r.core) with
    | some e => .hit ⟨g.part, e.leaf, e.pte, leafPa e.leaf e.blocks va⟩
    | none =>
      match s.tlb.find? (fun e => e.covers r.die cid block && e.core == none) with
      | some e => .hit ⟨g.part, e.leaf, e.pte, leafPa e.leaf e.blocks va⟩
      | none => .miss

/-! ### Windows (08 R136) -/

inductive Win where
  | glob (va : Nat)
  | priv (o : Nat)
  | team (o : Nat)
  | const (o : Nat)
  | none
  deriving DecidableEq, Repr

/-- The window of a generic address. -/
def windowOf (a : Addr) : Win :=
  let x := a.toNat
  let top := x / 2 ^ 56
  if top ≤ 1 then .glob x
  else if field x 55 32 ≠ 0 then .none
  else if top = 0xFC then .priv (x % 2 ^ 32)
  else if top = 0xFD then .team (x % 2 ^ 32)
  else if top = 0xFE then .const (x % 2 ^ 32)
  else .none

/-- The null-trap address (08 R136). -/
def nullTrap : Addr := 0xFF00000000000000

/-- The global address behind a byte of a lane's private memory (08 R137). -/
def privBacking (g : Group) (lane o : Nat) : Nat := g.store.toNat + o / 4 * (4 * g.w) + 4 * lane + o % 4

/-- The cluster a group's team offsets refer to: its own; for a service group the one on its core (19 R336). -/
def State.clusterOf (s : State) (r : GroupRef) (g : Group) : Option Cluster :=
  match s.grid g.grid with
  | none => none
  | some gr =>
    if g.svc = .none then gr.clusters.find? fun c => c.num == g.clu
    else gr.clusters.find? fun c => c.die == r.die && c.cores.contains r.core

/-- The team memory a team offset names (08 R138). -/
def State.teamKeyOf (s : State) (r : GroupRef) (g : Group) (mem : Nat) : Option TeamKey :=
  match s.clusterOf r g with
  | none => none
  | some c =>
    if mem = 15 then some ⟨g.grid, c.num, r.at⟩
    else (c.cores[mem]?).map fun k => ⟨g.grid, c.num, ⟨c.die, k⟩⟩

/-- A team offset of n bytes is valid (08 R138): the memory and the byte offset. -/
def State.teamPlace (s : State) (r : GroupRef) (g : Group) (o n : Nat) : Option (TeamKey × Nat) :=
  if field o 31 28 ≠ 0 ∨ field o 23 20 ≠ 0 then none
  else
    match s.teamKeyOf r g (field o 27 24) with
    | none => none
    | some k =>
      match s.team k with
      | none => none
      | some t => if field o 19 0 + n ≤ t.size then some (k, field o 19 0) else none

/-! ### The checks of an access (08 R155) -/

/-- An instruction of fabric pages alone: on another page it raises SPACE (17 R296). -/
def fabricOnly (n : Nat) : Bool := n == 2 || n == 3

/-- What an access needs of a page, beyond its being there. -/
structure Need where
  store : Bool
  /-- The instruction is an atomic: HS raises SPACE (11 R206). -/
  atomic : Bool
  /-- Fabric pages: 0 single member, 1 refused with SPACE, 2 all members, 3 a switch atomic, 4 nothing happens on one. -/
  fabric : Nat
  deriving DecidableEq, Repr

/-- The result of checking one lane. -/
inductive Checked where
  | fault (c : Cause)
  | miss (block : Nat)
  | ok (ps : List (Place × Option Trans))
  deriving DecidableEq, Repr

/-- The vintage record of the page that holds a physical address (17 R307). -/
def State.vint (s : State) (pa : Nat) : Option (Nat × Vint) :=
  s.vints.find? fun x => decide (x.1 ≤ pa / 65536 ∧ pa / 65536 < x.1 + x.2.blocks)

/-- The address lies in a sealed vintage page. -/
def State.isSealed (s : State) (pa : Nat) : Bool := ((s.vint pa).map (·.2.sealed_)).getD false

/-- A fabric group table entry from its bits. -/
def fgtOf (e : BitVec 128) : Fgt :=
  { valid := e.getLsbD 63, nmbr := wfield e 51 42, self := wfield e 41 32, base := wfield e 115 80 * 65536
    size := wfield e 79 64 }

/-- A table's entry by its number. -/
def fgtIn (tab : Vector (BitVec 128) 64) (fg : Nat) : Fgt := fgtOf (tab[fg]?.getD 0)

/-- The fabric group table of a partition as it stands. -/
def State.fgt (s : State) (p : Fin 12) (fg : Nat) : Fgt := fgtIn (s.parts[p]).fgt fg

/-- The physical address of an offset in this device's aperture; none when the offset is not below its size or names no
memory (17 R296). -/
def apertureOf (f : Fgt) (off : Nat) : Option Nat :=
  if off / 2 ^ 20 < f.size ∧ (stackOf (f.base + off)).isSome then some (f.base + off) else none

/-- Where a place lies in this device's memory: a fabric page of its own member, or of all members, reaches its aperture (17
R296, R299). None for team memory, for a peer, and beyond the aperture. -/
def Place.local_ : Place → Option Nat
  | .mem pa _ => some pa
  | .fab f _ mbr off => if mbr = f.self ∨ mbr = 1023 then apertureOf f off else none
  | .team _ _ => none

/-- Where a translated physical address lies in this device's memory, fabric pages by a table (17 R296). -/
def localPa (tab : Nat → Fgt) (pa : Nat) : Option Nat :=
  if !fabricPa pa then some pa
  else
    let f := tab (field pa 50 45)
    if f.valid ∧ field pa 44 35 = f.self then apertureOf f (field pa 34 0) else none

/-- The place of a fabric address under a table (17 R296): RANGE for an entry that is not valid and for a member that is
reserved or not below NMBR, then SPACE for an instruction that may not use the page. -/
def fabricPlace (tab : Nat → Fgt) (n : Need) (pa : Nat) : Except Cause Place :=
  let fg := field pa 50 45
  let mbr := field pa 44 35
  let f := tab fg
  if !f.valid || mbr == 1021 || mbr == 1022 || (mbr != 1023 && decide (f.nmbr ≤ mbr)) then .error .range
  else if n.fabric = 1 ∨ (mbr = 1023 ∧ n.fabric ≠ 2) ∨ (mbr ≠ 1023 ∧ n.fabric = 2) then .error .space
  else .ok (.fab f fg mbr (field pa 34 0))

/-- One word at a global address: PAGE, PERM, then the additions of 11 R206 and 17 R296. `readOnly` is the constant
window. -/
def State.checkPage (s : State) (r : GroupRef) (g : Group) (n : Need) (readOnly : Bool) (va : Nat) : Checked :=
  match s.look r g va with
  | .miss => .miss (va / 65536)
  | .absent => .fault .page
  | .hit t =>
    if readOnly && n.store then .fault .perm
    else if n.store && (!pteW t.leaf || s.isSealed t.pa) then .fault .perm
    else if !n.store && !pteRd t.leaf then .fault .perm
    else if fabricPa t.pa && n.fabric == 4 then .ok []
    else if fabricPa t.pa then
      match fabricPlace (s.fgt g.part) n t.pa with
      | .error c => .fault c
      | .ok p => .ok [(p, some t)]
    else if fabricOnly n.fabric then .fault .space
    else if n.atomic && pteHs t.leaf then .fault .space
    else .ok [(.mem t.pa (attrOf g.reduced t.leaf), some t)]

def Checked.isMiss : Checked → Bool
  | .miss _ => true
  | .fault _ | .ok _ => false

def Checked.isFault : Checked → Bool
  | .fault _ => true
  | .miss _ | .ok _ => false

def Checked.places : Checked → List (Place × Option Trans)
  | .ok ps => ps
  | .fault _ | .miss _ => []

/-- The checks of several words of one access: a word not yet translated stalls it; PAGE on any word comes before PERM on
any (08 R155). -/
def gather (cs : List Checked) : Checked :=
  match cs.find? Checked.isMiss with
  | some x => x
  | none =>
    if cs.contains (.fault .page) then .fault .page
    else
      match cs.find? Checked.isFault with
      | some x => x
      | none => .ok (cs.flatMap Checked.places)

/-- A generic access of `words` words by a lane (08 R155), aligned to `align` bytes. The manual does not say what a constant or
private offset does whose base puts it beyond the 57-bit global space: its address is translated modulo 2^57 here (assumption
80). -/
def State.checkGeneric (s : State) (r : GroupRef) (g : Group) (n : Need) (lane : Nat) (ea : Addr) (words align : Nat)
    (bytes : Nat) : Checked :=
  let step (k : Nat) : Nat := 4 * k
  match windowOf ea with
  | .none => .fault .range
  | .glob va =>
    if 2 ^ 57 < va + bytes then .fault .range
    else if va % align ≠ 0 then .fault .align
    else gather ((List.range words).map fun k => s.checkPage r g n false (va + step k))
  | .priv o =>
    if g.priv < o + bytes then .fault .range
    else if o % align ≠ 0 then .fault .align
    else gather ((List.range words).map fun k => s.checkPage r g n false (privBacking g lane (o + step k)))
  | .const o =>
    if g.csize < o + bytes then .fault .range
    else if o % align ≠ 0 then .fault .align
    else gather ((List.range words).map fun k => s.checkPage r g n true (g.cbase.toNat + o + step k))
  | .team o =>
    match s.teamPlace r g o bytes with
    | none => .fault .range
    | some (k, b) =>
      if b % align ≠ 0 then .fault .align
      else if fabricOnly n.fabric then .fault .space
      else .ok ((List.range words).map fun i => (.team k (b + step i), none))

/-- A team-offset access (08 R160). -/
def State.checkTeam (s : State) (r : GroupRef) (g : Group) (o : Word) (align bytes : Nat) : Checked :=
  match s.teamPlace r g o.toNat bytes with
  | none => .fault .range
  | some (k, b) => if b % align ≠ 0 then .fault .align else .ok [(.team k b, none)]

end Sys2Proof.Machine
end

