-- ==== Sys2Proof/Machine/Coherence.lean ====
section
/-! DEFINITION. The twin-and-difference protocol: copies, twins and difference records (12 R233 to R239), die releases and
stale sets (12 R229, R237), sync-variable entries and scope inference (12 R231, R232), words as a die, the home and an
engine read and write them (12 R227, R242). -/

namespace Sys2Proof.Machine

/-! ### Granules -/

/-- The granule of a physical address on a page with these attributes (12 R233). -/
def granuleOf (at_ : Attr) (pa : Nat) : Nat := if at_.big then pa / 128 * 128 else pa / 64 * 64

/-- Words of a granule. -/
def granuleWords (big : Bool) : Nat := if big then 32 else 16

/-- A granule of a D page that a die caches by copy: one homed on another die (12 R233). -/
def remoteD (die : Fin 12) (at_ : Attr) (pa : Nat) : Bool := at_.d && homeOf pa != die

/-- The words of a granule at its home. -/
def State.homeWords (s : State) (ga n : Nat) : List Word := (List.range n).map fun i => s.mem.readWord (ga + 4 * i)

/-- Words laid over a list from a position on. -/
def overlay (ws : List Word) (at_ : Nat) (new : List Word) : List Word :=
  ws.zipIdx.map fun x => if at_ ≤ x.2 then (new[x.2 - at_]?).getD x.1 else x.1

/-- A record's runs laid over a granule's words. -/
def overlayRuns (ws : List Word) (runs : List (Nat × List Word)) : List Word :=
  runs.foldl (fun w run => overlay w run.1 run.2) ws

/-- The home's words as a fetch by a die finds them: behind the records that the die has sent and that are still in
flight (12 R236, assumption 23). -/
def State.homeView (s : State) (die : Fin 12) (ga n : Nat) : List Word :=
  (s.records.filter fun r => r.die == die && r.granule == ga).foldl (fun ws r => overlayRuns ws r.runs) (s.homeWords ga n)

/-- The copy of a granule that a die returns to an access of a partition: one filled under the partition's CID (08 R145). -/
def State.copyFor (s : State) (die part : Fin 12) (ga : Nat) : Option Copy :=
  (Tbl.find s.copies (die, ga)).filter fun c => c.cid == s.cid part

/-- The word a die reads for a partition at a physical address without making a copy. What a partition reads of memory that
is not its own is free (01 R25, R29; assumption 66). -/
def State.dieWord (s : State) (die part : Fin 12) (at_ : Attr) (pa : Nat) : Word :=
  if s.foreign part pa then Config.freeWord s.tick pa
  else if remoteD die at_ pa then
    let ga := granuleOf at_ pa
    let i := (pa - ga) / 4
    match s.copyFor die part ga with
    | some c => c.words[i]?.getD 0
    | none => (s.homeView die ga (granuleWords at_.big))[i]?.getD 0
  else s.mem.readWord pa

/-! ### Difference records (12 R234, R235) -/

/-- A run closed. -/
def closeRun : Option (Nat × List Word) → List (Nat × List Word)
  | none => []
  | some run => [run]

/-- The maximal runs of words in which copy and twin differ, from position i on. -/
def diffRuns (i : Nat) (open_ : Option (Nat × List Word)) : List Word → List Word → List (Nat × List Word)
  | c :: cs, t :: ts =>
    if c = t then closeRun open_ ++ diffRuns (i + 1) none cs ts
    else
      match open_ with
      | none => diffRuns (i + 1) (some (i, [c])) cs ts
      | some (at_, ws) => diffRuns (i + 1) (some (at_, ws ++ [c])) cs ts
  | _, _ => closeRun open_

/-- The run words of R234 with their data: SKIP in bits 15:11, LENM1 in bits 10:6. `from_` is the end of the run before. -/
def runWords (from_ : Nat) : List (Nat × List Word) → List Word
  | [] => []
  | (at_, ws) :: rest =>
    BitVec.ofNat 32 ((at_ - from_) * 2048 + (ws.length - 1) * 64) :: (ws ++ runWords (at_ + ws.length) rest)

/-- The header of a record (R235). -/
def Rec.header (r : Rec) : BitVec 128 :=
  BitVec.ofNat 128 (r.inc.toNat * 2 ^ 112 + r.seq.toNat * 2 ^ 96 + r.die.val * 2 ^ 92 + bit r.evict * 2 ^ 90 +
    r.runs.length * 2 ^ 80 + r.granule / 64 * 64 + bit r.big * 32)

/-- A record as it travels (R235). -/
def Rec.words (r : Rec) : List Word :=
  [r.header.extractLsb' 0 32, r.header.extractLsb' 32 32, r.header.extractLsb' 64 32, r.header.extractLsb' 96 32] ++
    runWords 0 r.runs

/-- A record sent; none for an empty difference (R234). -/
def State.sendRuns (s : State) (die part : Fin 12) (ga : Nat) (big evict : Bool) (runs : List (Nat × List Word)) : State :=
  if runs.isEmpty then s
  else
    { s with
      records := s.records ++ [{ id := s.nextId, part := part, die := die, inc := s.incs[die], seq := s.relSeq[die],
                                 evict := evict, granule := ga, big := big, runs := runs }]
      nextId := s.nextId + 1 }

/-- The die's difference for a granule is sent and its twin refreshed to its copy (12 R229, 11 R201). -/
def State.sendDiff (s : State) (die : Fin 12) (ga : Nat) (evict : Bool) : State :=
  match Tbl.find s.copies (die, ga) with
  | none => s
  | some c =>
    match c.twin with
    | none => s
    | some t =>
      let s1 := s.sendRuns die c.part ga (c.words.length == 32) evict (diffRuns 0 none c.words t)
      { s1 with copies := Tbl.put s1.copies (die, ga) { c with twin := some c.words } }

/-- The difference leaves as an eviction record and the twin is dropped; the copy stays (12 R239). -/
def State.evictTwin (s : State) (die : Fin 12) (ga : Nat) : State :=
  let s1 := s.sendDiff die ga true
  { s1 with
    copies := s1.copies.map fun x => if x.1 = (die, ga) then (x.1, { x.2 with twin := none }) else x
    twins := s1.twins.filter fun x => x != (die, ga) }

/-- The die holds a copy of the granule for a partition: an access fetches it (12 R237). One filled under another CID leaves
first, its difference sent (08 R145, 12 R239). -/
def State.fetchCopy (s : State) (die : Fin 12) (part : Fin 12) (at_ : Attr) (pa : Nat) : State :=
  let ga := granuleOf at_ pa
  if (s.copyFor die part ga).isSome then s
  else
    let s1 := s.evictTwin die ga
    { s1 with
      copies := Tbl.put s1.copies (die, ga) ⟨s1.homeView die ga (granuleWords at_.big), none, false, part, s.cid part⟩ }

/-- What was filled under a CID leaves every cache of the package: differences are sent, then copies, translations and peer
pages are dropped (08 R146). -/
def State.dropCid (s : State) (cid : BitVec 12) : State :=
  let s1 := (s.copies.filter fun x => x.2.cid == cid).foldl (fun s x => s.evictTwin x.1.1 x.1.2) s
  { s1 with
    copies := s1.copies.filter fun x => x.2.cid != cid
    tlb := s1.tlb.filter fun e => e.cid != cid
    vcache := s1.vcache.filter fun v => v.cid != cid }

/-- Bytes of twins in a slice of a die. -/
def State.twinBytes (s : State) (die : Fin 12) (slice : Nat) : Nat :=
  ((s.twins.filter fun x => x.1 == die && sliceOf x.2 == slice).map fun x =>
    ((Tbl.find s.copies x).map fun c => 4 * c.words.length).getD 0).sum

/-- The oldest twins of a slice leave until its twins fill no more than `room` bytes. The fuel is the number of twins. -/
def State.trimSlice (die : Fin 12) (slice room : Nat) : Nat → State → State
  | 0, s => s
  | k + 1, s =>
    if s.twinBytes die slice ≤ room then s
    else
      match s.twins.find? fun x => x.1 == die && sliceOf x.2 == slice with
      | none => s
      | some x => State.trimSlice die slice room k (s.evictTwin die x.2)

/-- The Cellar share of a slice of a die in bytes: that of the enabled partition that holds the die (08 R147). -/
def State.cellShare (s : State) (die : Fin 12) : Nat :=
  match (List.finRange 12).find? fun p => (s.parts[p]).en && (s.parts[p]).dies.getLsbD die.val with
  | some p => 65536 * min 8 (wfield (s.parts[p]).plimit 15 12)
  | none => 0

/-- A die's store to a remote granule of a D page: the twin, then the copy (12 R233, R239). A slice that holds a twin is not
gated (12 R245). -/
def State.storeRemote (s : State) (die part : Fin 12) (at_ : Attr) (pa : Nat) (w : Word) : State :=
  let ga := granuleOf at_ pa
  let i := (pa - ga) / 4
  let share := s.cellShare die
  if share = 0 then
    let s1 := s.sendRuns die part ga at_.big true [(i, [w])]
    { s1 with copies := s1.copies.map fun x => if x.1 = (die, ga) then (x.1, { x.2 with words := x.2.words.set i w }) else x }
  else
    let s1 := s.fetchCopy die part at_ pa
    match Tbl.find s1.copies (die, ga) with
    | none => s1
    | some c =>
      if c.twin.isSome then { s1 with copies := Tbl.put s1.copies (die, ga) { c with words := c.words.set i w } }
      else
        let s2 := s1.trimSlice die (sliceOf ga) (share - 4 * granuleWords at_.big) s1.twins.length
        { s2 with
          copies := Tbl.put s2.copies (die, ga) { c with words := c.words.set i w, twin := some c.words }
          twins := s2.twins ++ [(die, ga)]
          gated := s2.gated.filter fun x => !(x.1 == die && x.2.val == 36 + sliceOf ga) }

/-! ### Versions and stale notices (12 R236) -/

/-- The version is bumped and every other die that holds a copy is sent a notice of the cause. -/
def State.bump (s : State) (src : Fin 12) (ga cause : Nat) : State :=
  let dies := (List.finRange 12).filter fun d => d != src && (Tbl.find s.copies (d, ga)).isSome
  { s with
    versions := Tbl.put s.versions ga (Tbl.findD s.versions ga 0 + 1)
    notices := s.notices ++ dies.zipIdx.map fun x => ⟨s.nextId + x.2, cause, src, s.incs[src], x.1, ga⟩
    nextId := s.nextId + dies.length }

/-- A change that is no record: it is its own cause. -/
def State.bumpOwn (s : State) (src : Fin 12) (ga : Nat) : State :=
  ({ s with nextId := s.nextId + 1 } : State).bump src ga s.nextId

/-- A copy covers a physical address. -/
def copyCovers (x : (Fin 12 × Nat) × Copy) (pa : Nat) : Bool :=
  decide (x.1.2 ≤ pa ∧ pa < x.1.2 + 4 * x.2.words.length)

/-- The granule of a D page that a write at the home falls in: by the leaf it was made through, else by the copies that
dies hold, else by a leaf of the partition whose memory it is (12 R236). -/
def State.writtenGranule (s : State) (at_ : Option Attr) (pa : Nat) : Option Nat :=
  match at_ with
  | some x => if x.d then some (granuleOf x pa) else none
  | none =>
    match s.copies.find? fun x => copyCovers x pa with
    | some x => some x.1.2
    | none =>
      match s.leafOver pa with
      | some leaf => if pteD leaf then some (granuleOf (attrOf false leaf) pa) else none
      | none => none

/-- A write of a word at the home: the replicas and host copies of the line are revoked before it is applied (08 R148, 12
R243). -/
def State.putHome (s : State) (pa : Nat) (w : Word) : State :=
  { s.putWord pa w with
    replicas := Tbl.drop s.replicas (lineOf pa)
    hostLines := Tbl.drop s.hostLines (lineOf pa) }

/-- A write at the home by an engine, a peer or the host: on a D page the version rises by one, and every die that holds a
copy is sent a notice (12 R236, R242). -/
def State.homeStore (s : State) (at_ : Option Attr) (pa : Nat) (w : Word) : State :=
  let s1 := s.putHome pa w
  match s.writtenGranule at_ pa with
  | some ga => s1.bumpOwn (homeOf pa) ga
  | none => s1

/-! ### Words as a group's die reads and writes them -/

/-- The state of a host copy after a device read of its line (12 R243). -/
def HostLine.shared_ : HostLine → HostLine
  | .modified | .owned => .owned
  | .exclusive | .shared => .shared

/-- A device read of a line reaches the snoop filter (12 R243). -/
def State.snoopRead (s : State) (pa : Nat) : State :=
  match Tbl.find s.hostLines (lineOf pa) with
  | none => s
  | some x => { s with hostLines := Tbl.put s.hostLines (lineOf pa) x.shared_ }

/-- A load of a word by a die (12 R227, R233). -/
def State.loadWord (s : State) (die part : Fin 12) (at_ : Attr) (pa : Nat) : State × Word :=
  let w := s.dieWord die part at_ pa
  if s.foreign part pa then (s, w)
  else if remoteD die at_ pa then (s.fetchCopy die part at_ pa, w)
  else (s.snoopRead pa, w)

/-- A store of a word by a die (08 R148, 12 R233, R236). -/
def State.storeWord (s : State) (die part : Fin 12) (at_ : Attr) (pa : Nat) (w : Word) : State :=
  if s.foreign part pa then s.strayStore pa
  else if remoteD die at_ pa then s.storeRemote die part at_ pa w
  else
    let s1 := s.putHome pa w
    if at_.d then s1.bumpOwn die (granuleOf at_ pa) else s1

/-- Nothing of a die's writes to the granule is on its way to the home or waits to be sent (11 R201). -/
def State.diffSent (s : State) (die : Fin 12) (at_ : Attr) (pa : Nat) : Bool :=
  let ga := granuleOf at_ pa
  let clean := match Tbl.find s.copies (die, ga) with
    | some c => (match c.twin with
      | some t => c.words == t
      | none => true)
    | none => true
  clean && !(s.records.any fun r => r.die == die && r.granule == ga)

/-- The effect of an atomic's new value at the home and in the issuing die (11 R199, R201). -/
def State.atomicStore (s : State) (die : Fin 12) (at_ : Attr) (pa : Nat) (w : Word) : State :=
  let s1 := s.putHome pa w
  if !at_.d then s1
  else
    let ga := granuleOf at_ pa
    let i := (pa - ga) / 4
    let s2 := s1.bumpOwn die ga
    { s2 with
      copies := s2.copies.map fun x =>
        if x.1 = (die, ga) then (x.1, { x.2 with words := x.2.words.set i w, twin := x.2.twin.map fun t => t.set i w }) else x }

/-! ### Releases and acquires of a die (12 R229, R230, R237) -/

/-- Step 2 of R229: the die sends a record for every twin and refreshes it. -/
def State.dieRelease (s : State) (die : Fin 12) : State :=
  let s1 := { s with relSeq := s.relSeq.set die (s.relSeq[die] + 1) }
  (s.twins.filter fun x => x.1 == die).foldl (fun s x => s.sendDiff die x.2 false) s1

/-- What a die's release waits for: its records in flight, and the causes of notices not yet acknowledged. -/
def State.flightOf (s : State) (die : Fin 12) : List Nat :=
  ((s.records.filter fun r => r.die == die).map (·.id)) ++ ((s.notices.filter fun n => n.src == die).map (·.cause))

/-- Every record of a list has been applied and every notice it caused acknowledged. -/
def State.allApplied (s : State) (ids : List Nat) : Bool :=
  !(s.records.any fun r => ids.contains r.id) && !(s.notices.any fun n => ids.contains n.cause)

/-- A stale twinned copy refreshed from the home's words. -/
def refreshTwin (copy twin home : List Word) : List Word :=
  (copy.zip (twin.zip home)).map fun x => if x.1 = x.2.1 then x.2.2 else x.1

/-- The die processes its stale set (R237). -/
def State.processStale (s : State) (die : Fin 12) : State :=
  { s with
    copies := (s.copies.filter fun x => !(x.1.1 == die && x.2.stale && x.2.twin.isNone)).map fun x =>
      if x.1.1 = die ∧ x.2.stale then
        match x.2.twin with
        | none => x
        | some t =>
          let h := s.homeView die x.1.2 x.2.words.length
          (x.1, { x.2 with words := refreshTwin x.2.words t h, twin := some h, stale := false })
      else x }

/-- The acquire half of an ordering point of a group of the die at an effective scope (12 R230); at .fab or wider the
partition's vintage copies become unverified (17 R308). -/
def State.acquire (s : State) (die part : Fin 12) (p : Scope) : State :=
  let s1 := if p.crossDie then s.processStale die else s
  if p.fabric then
    { s1 with vcache := s1.vcache.map fun v => if v.part = part then { v with verified := false } else v }
  else s1

/-! ### Sync variables (12 R231, R232) -/

def State.sync (s : State) (line : Nat) : Option Sync := s.syncs.find? fun e => e.line == line

/-- The bit of a die in a mask. -/
def dieBit (d : Fin 12) : BitVec 12 := BitVec.ofNat 12 (2 ^ d.val)

/-- The dies of a mask. -/
def diesOf (m : BitVec 12) : List (Fin 12) := (List.finRange 12).filter fun d => m.getLsbD d.val

/-- The table of the line's home slice is full. -/
def State.syncFull (s : State) (line : Nat) : Bool :=
  decide (2048 ≤ (s.syncs.filter fun e => homeOf e.line == homeOf line && sliceOf e.line == sliceOf line).length)

/-- A line is entered, where there is room. -/
def State.enterSync (s : State) (line : Nat) (mask : BitVec 12) (declared : Bool) (part : Fin 12) : State :=
  if (s.sync line).isSome || s.syncFull line then s
  else { s with syncs := s.syncs ++ [⟨line, mask, 0, declared, part⟩] }

/-- A mask added to a line's entry. -/
def State.widenSync (s : State) (line : Nat) (mask : BitVec 12) (declared : Bool) : State :=
  { s with syncs := s.syncs.map fun e =>
      if e.line = line then
        { e with dmask := e.dmask ||| mask, adding := e.adding &&& ~~~mask, declared := e.declared || declared }
      else e }

/-- A widening recall has begun for dies of a line that are not in its mask: the home serves no access to the line as that
of a sole die any more (R232). -/
def State.addingSync (s : State) (line : Nat) (mask : BitVec 12) : State :=
  { s with syncs := s.syncs.map fun e =>
      if e.line = line then { e with adding := e.adding ||| (mask &&& ~~~e.dmask) } else e }

/-- The effective scope on a line (R231): .die when the entry's mask holds only the issuing die, and no recall is adding
another. -/
def State.lineScope (s : State) (die : Fin 12) (named : Scope) (line : Nat) : Scope :=
  match s.sync line with
  | some e => if e.dmask ||| e.adding = dieBit die then .die else named
  | none => named

/-- The effective scope of an access to several lines: .die only if it is so on every one. -/
def State.linesScope (s : State) (die : Fin 12) (named : Scope) (lines : List Nat) : Scope :=
  if !lines.isEmpty && lines.all (fun l => s.lineScope die named l == .die) then .die else named

/-- The dies a widening recall asks for a release before the die is added to the lines' masks (R232). -/
def State.recallDies (s : State) (add : BitVec 12) (lines : List Nat) : List (Fin 12) :=
  (lines.flatMap fun l =>
    match s.sync l with
    | some e => if add &&& ~~~e.dmask = 0 then [] else diesOf e.dmask
    | none => []).eraseDups

end Sys2Proof.Machine
end

