-- ==== Sys2Proof/Machine/Fetch.lean ====
section
/-! DEFINITION. Fetching an instruction's word (04 R50, 09 R167), what passes between two steps, and the setting in which a
word is the next to be fetched. -/

namespace Sys2Proof.Machine

/-- The outcome of a fetch. -/
inductive Fetched where
  | miss (block : Nat)
  | fault (c : Cause) (va : Addr)
  | word (w : Word) (t : Trans)
  deriving DecidableEq, Repr

/-- The word at the issuing entry: PAGE and PERM with detail 1 (09 R173). A fabric page serves no fetch (assumption 20). -/
def State.fetch (s : State) (r : GroupRef) (g : Group) (e : Entry) : Fetched :=
  let va := g.codeBase + e.pc.setWidth 64
  match windowOf va with
  | .glob v =>
    match s.look r g v with
    | .miss => .miss (v / 65536)
    | .absent => .fault .page va
    | .hit t =>
      if !pteX t.leaf then .fault .perm va
      else if fabricPa t.pa then .fault .page va
      else .word (s.dieWord r.die g.part (attrOf g.reduced t.leaf) t.pa) t
  | .priv _ | .team _ | .const _ | .none => .fault .page va

/-- A fetch fault is taken by every lane of the entry that fetches (09 R167). -/
def State.fetchTrap (s : State) (r : GroupRef) (g : Group) (run : Run) (e : Entry) (c : Cause) (va : Addr) : State :=
  let m := if e.kind = .handler then laneBit (lowest e.mask) else e.mask
  let g1 := ({ g with stalled := false, hold := none, xlate := [], walks := [] } : Group).stopRun
  (s.freeSlots r).afterDelivery r (g1.deliver run.live e.pc ⟨va, none⟩ (faultAll g.w m c 1 va) 0)

/-- The group can issue the next instruction of its run: it waits for nothing. -/
def Group.issuing (g : Group) : Option (Run × Entry) :=
  match g.run with
  | none => none
  | some run =>
    if g.wait.isSome || g.mxWait.isSome || g.ended then none
    else (g.stack[run.live]?).map fun e => (run, e)

/-- The free choices between steps: cached translations, untwinned copies, replicas and vintage copies may leave their
caches at any time (08 R144, R148, 12 R239, 17 R308). -/
def State.settleCaches (s : State) : State :=
  let keep (base : Nat) (i : Nat) : Bool := !Config.freeBit s.tick (base + 8 * i)
  { s with
    tlb := (s.tlb.zipIdx.filter fun x => keep 0 x.2).map (·.1)
    copies := (s.copies.zipIdx.filter fun x => x.1.2.twin.isSome || keep 1 x.2).map (·.1)
    replicas := (s.replicas.zipIdx.filter fun x => keep 2 x.2).map (·.1)
    vcache := (s.vcache.zipIdx.filter fun x => keep 3 x.2).map (·.1) }

/-- Time passes and the next agent is chosen (assumptions 2, 3). -/
def State.advance (s : State) : State :=
  let s1 := s.settleCaches
  { s1 with tick := s.tick + 1, clk := s.clk + Config.clkAdvance s.tick, turn := Config.nextTurn s.tick }

/-! ### The setting of one fetched word -/

/-- The physical address the next step fetches from, when the turn is an issuing group with a translation in place. -/
def State.fetchPlace (s : State) : Option Nat :=
  match s.turn with
  | .event _ => none
  | .issue r =>
    match s.group r with
    | none => none
    | some g =>
      match g.issuing with
      | none => none
      | some (_, e) =>
        match windowOf (g.codeBase + e.pc.setWidth 64) with
        | .glob v =>
          match s.look r g v with
          | .hit t =>
            if pteX t.leaf && !fabricPa t.pa && !(pteD t.leaf && homeOf t.pa != r.die) && !s.foreign g.part t.pa then some t.pa
            else none
          | .miss | .absent => none
        | .priv _ | .team _ | .const _ | .none => none

/-- A descriptor that every check of 19 R326 accepts: one cluster of one 16-lane group. -/
def placedDesc : Desc :=
  { w := 16, nv := 64, teamMax := 60, exposePriv := false, liveMx := false, nclu := 1, gpc := 1, pw := 1, ph := 1, pn := 1
    fw := 1, fh := 1, fn := 1, dieMask := 1, depth := 64, starve := 50, tmem := 65536, priv := 64, entry := 0, hoff := 0
    codeBase := 0, cbase := 0, csize := 0, hcount := 0, thidx := 0, ppool := 0, ppsz := 0, htab := 0
    args := Vector.replicate 16 0 }

/-- A group at start (03 R35 to R39, 04 R52). -/
def startGroup (uid grid : Nat) (part : Fin 12) (d : Desc) (clu team idx gidx : Nat) (store : Addr) (debug reduced : Bool) :
    Group :=
  { uid := uid, grid := grid, part := part, clu := clu, team := team, idx := idx, gidx := gidx, svc := .none
    w := d.w, nv := d.nv, depth := d.depth, priv := d.priv, exposePriv := d.exposePriv, debug := debug, reduced := reduced
    codeBase := d.codeBase, cbase := d.cbase, csize := d.csize, store := store
    s := Vector.ofFn fun i : Fin 64 => d.args[i.val]?.getD 0
    v := Vector.replicate 64 ⟨.raw, Vector.replicate 64 0⟩
    p := Vector.replicate 8 0
    mode := 0, fstat := 0, forcedB := false, resumed := false
    handler := if d.hoff.getLsbD 0 then d.codeBase + BitVec.ofNat 64 (4 * wfield d.hoff 31 2) else 0
    hstart := 0, htpc := 0
    trap := ⟨0, 0, 0, 0, 0, 0, 0, 0, 0⟩
    laneTraps := Vector.replicate 64 ⟨0, 0, 0, 0⟩
    stack := [pathEntry d.entry (fullMask d.w) none]
    rets := []
    run := none, topFirst := true, seq := 0, pend := [], acc := [], marks := [], endMark := none, wait := none
    waitFrom := 0, arrived := none, arrivals := [], lockLeft := none, stalled := false, area := [], hold := none, xlate := []
    walks := [], mxWait := none, yieldUntil := 0, locks := [], killed := false, ended := false }

/-- A grid from a descriptor. -/
def newGrid (id : Nat) (part : Fin 12) (queue : Option (Fin 64)) (prioQueue : Fin 64) (order tmax : Nat) (d : Desc)
    (crec : Addr) (debug reduced : Bool) (tdep : Option TileDep) (dies : List (Fin 12)) : Grid :=
  { id := id, part := part, queue := queue, prioQueue := prioQueue, order := order, tmax := tmax, desc := d, crec := crec
    debug := debug, reduced := reduced, tdep := tdep, dies := dies, placed := dies.map fun _ => 0, clusters := []
    gone := [], bars := [], term := none, pre := .running, outFrom := 0, savedMx := [], rel := none }

/-- The place of the group that runs a placed word. -/
def placedRef : GroupRef := ⟨0, 0, 0⟩

/-- The device in full service with one group of one grid of partition 0 issuing, its code page at virtual address 0 mapped
at physical address 0x1_0000 (assumption 8). Words that only serial mode decodes are issued by a handler entry. -/
def State.boot (s : State) (w : Word) : State :=
  let serial := fldOp w == 0x7C || (fldOp w == 0x7D && fldC w == 1)
  let g0 := startGroup s.nextId s.nextGrid 0 placedDesc 0 0 0 0 0x40000 false false
  let top := pathEntry 0 (fullMask 16) none
  let g := { g0 with
    run := some ⟨0, 0⟩
    stack := [if serial then { top with kind := .handler } else top]
    laneTraps := if serial then Vector.replicate 64 ⟨0, 1, 0, 0⟩ else g0.laneTraps }
  let gr := newGrid s.nextGrid 0 (some 0) 0 0 1 placedDesc 0 false false none [0]
  let key : TeamKey := ⟨s.nextGrid, 0, ⟨0, 0⟩⟩
  { s with
    phase := 3, dieok := 0xFFF, iook := 3, fwst := 2
    parts := s.parts.set 0 { s.parts[0] with en := true, dies := 0xFFF }
    mem := s.mem.writeWord 0x10000 w
    tlb := ⟨0, some 0, s.cid 0, 0, 1, 0x100FD, 0x20000⟩ :: s.tlb
    grids := { gr with placed := [1], clusters := [⟨0, 0, [0]⟩] } :: s.grids
    teams := ⟨key, 0, 65536, [], []⟩ :: s.teams
    groups := Tbl.put s.groups placedRef g
    nextId := s.nextId + 1
    nextGrid := s.nextGrid + 1
    turn := .issue placedRef }

/-- The word placed where the next step fetches. -/
def State.placeWord (s : State) (w : Word) : State :=
  match s.fetchPlace with
  | some pa => { s with mem := s.mem.writeWord pa w }
  | none => s.boot w

end Sys2Proof.Machine
end

