-- ==== Sys2Proof/Machine/Units.lean ====
section
/-! DEFINITION. The arrival units of copy requests and collectives (17 R287, R291, R304) and the lines that engines own
(12 R242). -/

namespace Sys2Proof.Machine

/-- An arrival unit: its row, its first byte within the row, its bytes. -/
structure ArrUnit where
  row : Nat
  off : Nat
  len : Nat
  deriving DecidableEq, Repr

/-- The units of a row of `len` bytes written from `dst`: one for each 128-byte block it touches (17 R291). -/
def rowUnits (row : Nat) (dst : Addr) (len : Nat) : List ArrUnit :=
  let a := dst.toNat % 128
  (List.range ((a + len + 127) / 128)).map fun b =>
    let lo := if b = 0 then 0 else 128 * b - a
    ⟨row, lo, min len (128 * (b + 1) - a) - lo⟩

/-- First byte of row r (17 R287). -/
def rowAddr (base : Addr) (stride : Int) (r : Nat) : Addr := base + BitVec.ofInt 64 (stride * r)

def Job.units (j : Job) : List ArrUnit :=
  (List.range j.rows).flatMap fun r => rowUnits r (rowAddr j.dst j.dstr r) j.len

/-- Where a unit is written. -/
def Job.unitDst (j : Job) (u : ArrUnit) : Addr := rowAddr j.dst j.dstr u.row + BitVec.ofNat 64 u.off

def Job.unitSrc (j : Job) (u : ArrUnit) : Addr := rowAddr j.src j.sstr u.row + BitVec.ofNat 64 u.off

/-- Bytes of an element of a collective (17 R303). -/
def elemBytes (t : Tag) : Nat :=
  match t with
  | .f16x2 | .b16x2 => 2
  | _ => 4

/-- Bytes a collective writes on this member (17 R304). -/
def BlendDesc.dstBytes (b : BlendDesc) (n : Nat) : Nat :=
  (if b.op = 0 then n else 1) * b.count * elemBytes b.etype

/-- The units of a collective's result. -/
def BlendDesc.units (b : BlendDesc) (n : Nat) : List ArrUnit := rowUnits 0 b.dst (b.dstBytes n)

/-- The physical address behind a global address of a partition, by its page tables, and by a fabric table for a page of its
own member. -/
def State.physOf (s : State) (tab : Nat → Fgt) (p : Fin 12) (va : Addr) : Option Nat :=
  match windowOf va with
  | .glob a => (s.walk p a).bind fun x => localPa tab (leafPa x.1 x.2.1 a)
  | .priv _ | .team _ | .const _ | .none => none

/-- A unit whose bytes an engine has not written yet. -/
def Job.unwritten (j : Job) (u : Nat) : Bool :=
  !j.counted.contains u && !(j.landed ++ j.due).any fun x => x.unit == u

/-- Where the engines have yet to write, unit by unit: the units of running work, and those of collectives that have not
run (12 R242). -/
def State.engineDsts (s : State) : List (Option Nat) :=
  (s.jobs.flatMap fun j => (j.units.zipIdx.filter fun u => j.unwritten u.2).map fun u =>
    s.physOf (fgtIn j.tab) j.part (j.unitDst u.1)) ++
  s.blends.flatMap fun b => (b.desc.units (fgtIn b.tab b.desc.fg).nmbr).map fun u =>
    s.physOf (fgtIn b.tab) b.part (b.desc.dst + BitVec.ofNat 64 u.off)

/-- An engine owns the line: it accepted a request that writes it and has not yet written it (12 R242). -/
def State.engineOwns (s : State) (pa : Nat) : Bool := s.engineDsts.any fun d => d.map lineOf == some (lineOf pa)

/-- An engine owns the line of a place in this device's memory. -/
def State.ownedByEngine (s : State) (p : Place) : Bool := (p.local_.map s.engineOwns).getD false

end Sys2Proof.Machine
end

