-- ==== Sys2Proof/Machine/Access.lean ====
section
/-! DEFINITION. Making an access at issue and bringing it to its end: counters and stalls (08 R144, R151), faults by lane
(08 R155, R156), the hold of a release half or a widening recall (12 R229, R232, 09 R192), the order of a group's accesses
(08 R152, 12 R229, R230), landing data (08 R154, 06 R92) and marks of poison (08 R157). -/

namespace Sys2Proof.Machine

/-! ### Counters (08 R151) -/

/-- An in-flight counter: the instructions of its path that issued and have not left it. -/
def Group.count (g : Group) (p : Path) : Nat := (g.acc.filter fun a => a.path == p).length

/-- The lane number of an access made once for the group. -/
def wholeLane : Nat := 64

/-- Instructions complete on their own leave their counters in issue order. -/
def retireFrom (stuck : List Path) : List Access → List Access
  | [] => []
  | a :: rest =>
    if a.done && !stuck.contains a.path then retireFrom stuck rest
    else a :: retireFrom (a.path :: stuck) rest

def Group.retire (g : Group) : Group := { g with acc := retireFrom [] g.acc }

/-- Posts are no accesses of the group: their work is the engine's (17 R284). -/
def AccKind.isPost : AccKind → Bool
  | .copyPost .. | .blendPost .. | .message .. => true
  | _ => false

/-! ### Started matrix work of a group (16 R266) -/

/-- Started, unfinished matrix instructions of a group. -/
def State.startedOf (s : State) (u : Nat) : List MxWork :=
  s.matrix.flatMap fun x => (x.2.started.filter fun w => w.uid == u).map (·.work)

/-- Two spans of team memory share a byte. -/
def TeamSpan.meets (a b : TeamSpan) : Bool :=
  a.key == b.key && decide (a.off < b.off + b.len) && decide (b.off < a.off + a.len)

/-- A team place is read or written by started matrix work of the group. -/
def State.matrixHolds (s : State) (u : Nat) (p : Place) : Bool :=
  match p with
  | .team k o => (s.startedOf u).any fun w => (w.readsTeam ++ w.writesTeam).any fun x => x.meets ⟨k, o, 4⟩
  | .mem _ _ | .fab .. => false

/-! ### The hold at issue -/

/-- Step 1 of R229: every earlier access of the group is complete, and its started matrix work. -/
def State.earlierDone (s : State) (g : Group) : Bool :=
  g.acc.all (fun a => a.done || a.kind.isPost) && (s.startedOf g.uid).isEmpty

/-- Whether the instruction goes on, with its acquire half as it found the entries of its lines. -/
inductive Held where
  | stays (s : State)
  | goes (s : State) (a : Acq)

/-- The die is added to the masks of the lines, and the instruction goes on (12 R231, R232). -/
def State.widened (s : State) (d : Fin 12) (lines : List Nat) (a : Acq) : Held :=
  .goes (lines.foldl (fun s l => s.widenSync l (dieBit d) false) s) a

/-- An ordered access as it finds the entries of its lines: near when it has lines, and every one has an entry that holds
only the issuing die (12 R231). -/
def State.acqOf (s : State) (d : Fin 12) (named : Scope) (lines : List Nat) : Acq :=
  ⟨named, named.crossDie && s.linesScope d named lines == .die⟩

/-- The lines are entered for the die at a scope that crosses dies, or its adding to their masks begins (12 R231, R232). -/
def State.enterLines (s : State) (d : Fin 12) (named : Scope) (lines : List Nat) (part : Fin 12) : State :=
  if named.crossDie then lines.foldl (fun s l => (s.enterSync l (dieBit d) false part).addingSync l (dieBit d)) s else s

/-- The dies that release at an ordering point: those a widening recall asks, and for a release half at an effective scope
that crosses dies the issuing die (12 R229, R232). -/
def State.releasing (s : State) (d : Fin 12) (q : Order) (a : Acq) (lines : List Nat) : List (Fin 12) :=
  let told := if a.named.crossDie then s.recallDies (dieBit d) lines else []
  (told ++ (if q.releases && a.named.crossDie && !a.near then [d] else [])).eraseDups

/-- Step 2 of R229 by some dies, for the held instruction of a group: it goes on at once when nothing is in flight. `told`
are the dies that released for it before. -/
def State.tell (s : State) (c : Ctx) (lines : List Nat) (a : Acq) (told dies : List (Fin 12)) : Held :=
  let s1 := dies.foldl (fun s d => s.dieRelease d) s
  let ids := dies.flatMap s1.flightOf
  if ids.isEmpty then s1.widened c.r.die lines a
  else .stays (s1.setGroup c.r { c.g with stalled := true, hold := some ⟨ids, told ++ dies, a⟩ })

/-- The release half and the widening recall of an ordering point, at issue (12 R229, R231, R232, 09 R192; assumption 25).
`lines` are the lines whose sync variables it names, none for one that has no sync variable. -/
def State.holdFor (s : State) (c : Ctx) (q : Order) (named : Scope) (lines : List Nat) : Held :=
  if q = .none then .goes s ⟨.grp, false⟩
  else
    match c.g.hold with
    | some h =>
      if !s.allApplied h.ids then .stays s
      else
        let more := (if named.crossDie then s.recallDies (dieBit c.r.die) lines else []).filter fun d => !h.told.contains d
        if more.isEmpty then s.widened c.r.die lines h.acq else s.tell c lines h.acq h.told more
    | none =>
      if q.releases && !s.earlierDone c.g then .stays (s.stall c)
      else
        let a := s.acqOf c.r.die named lines
        let s1 := s.enterLines c.r.die named lines c.g.part
        let dies := s1.releasing c.r.die q a lines
        if dies.isEmpty then .goes s1 a
        else s1.tell c lines a [] dies

/-! ### Issue -/

/-- One lane's part of a request: the address it uses, its checks, its data. -/
structure LaneReq where
  lane : Nat
  ea : Addr
  check : Checked
  data : List Word

/-- A memory request of the issuing instruction. `whole` is an access made once for the group: its fault is taken in every
active lane. -/
structure MemReq where
  path : Path
  kind : AccKind
  dest : Dest
  store : Bool
  whole : Bool
  order : Order
  scope : Scope
  syncs : Bool
  lanes : List LaneReq

/-- The accesses of the lanes that pass their checks. -/
def MemReq.accesses (q : MemReq) : List (LaneAcc × List Trans) :=
  q.lanes.filterMap fun l =>
    match l.check with
    | .ok ps =>
      if ps.isEmpty then none
      else some ({ lane := l.lane, ea := l.ea, places := ps.map (·.1), data := l.data, st := .waiting, drop := 0 },
                 ps.filterMap (·.2))
    | .fault _ | .miss _ => none

/-- The faults of the lanes that fail them. -/
def MemReq.faults (q : MemReq) (c : Ctx) : List LFault :=
  (q.lanes.filterMap fun l =>
    match l.check with
    | .fault cause => some (l.lane, cause, l.ea)
    | .ok _ | .miss _ => none).flatMap fun x =>
      if q.whole then faultAll c.g.w c.act x.2.1 0 x.2.2 else [⟨x.1, x.2.1, 0, x.2.2⟩]

/-- The blocks a request still needs translated. -/
def MemReq.misses (q : MemReq) : List Nat :=
  (q.lanes.filterMap fun l =>
    match l.check with
    | .miss b => some b
    | .ok _ | .fault _ => none).eraseDups

/-- The lines of device memory an access names. -/
def linesOf (as : List LaneAcc) : List Nat :=
  (as.flatMap fun a => a.places.filterMap fun p =>
    match p with
    | .mem pa _ => some (lineOf pa)
    | .team _ _ | .fab .. => none).eraseDups

/-- A and M are set for the pages of an access (08 R142). -/
def State.touchAll (s : State) (ts : List Trans) (store : Bool) : State := ts.foldl (fun s t => s.touched t store) s

/-- An access joins its counter; loads that marked lanes see one more access after them. -/
def Group.addAccess (g : Group) (a : Access) : Group :=
  { g with
    acc := g.acc ++ [a]
    marks := g.marks.map fun m => if m.path = a.path then { m with after := m.after + 1 } else m }

/-- The acquire half an access still owes. -/
def owedAcquire (q : Order) (a : Acq) : Option Acq := if q.acquires then some a else none

/-- The line of a place. -/
def Place.line : Place → Place
  | .mem pa at_ => .mem (lineOf pa) at_
  | .team k o => .team k (o / 128 * 128)
  | .fab f fg mbr off => .fab f fg mbr (off / 128 * 128)

/-- The lane's access has been performed. -/
def LaneAcc.performed (a : LaneAcc) : Bool :=
  match a.st with
  | .waiting => false
  | .done ws => decide (a.places.length ≤ ws.length)
  | .poisoned | .refused _ | .landed => true

/-- The requests of an instruction's lanes: one for each line (08 R153). -/
def requestLines (ls : List LaneAcc) : Nat := ((ls.flatMap (·.places)).map Place.line).eraseDups.length

/-- The requests of an access that its scheduler partition still holds. -/
def Access.requests (a : Access) : Nat := if a.kind.isPost then 0 else requestLines (a.lanes.filter fun l => !l.performed)

/-- The requests that the scheduler partition of a group holds: at most 384 (01 R15, 08 R153), so at most 1,536 a core. -/
def State.requestsAt (s : State) (r : GroupRef) : Nat :=
  ((s.groups.filter fun x => x.1.at == r.at && x.1.slot.val / 16 == r.slot.val / 16).map fun x =>
    (x.2.acc.map Access.requests).sum).sum

/-- The in-flight counter of a path is full, or the scheduler partition has no room for so many more requests, if any (08 R151,
R153, 01 R15). -/
def State.noRoom (s : State) (c : Ctx) (p : Path) (requests : Nat) : Bool :=
  decide (63 ≤ c.g.count p ∨ (requests ≠ 0 ∧ 384 < s.requestsAt c.r + requests))

/-- A memory request is issued: translated, checked, counted, held, recorded (08 R144, R151, R153, R155, R156). -/
def State.issueMem (s : State) (c : Ctx) (q : MemReq) : State :=
  if !q.misses.isEmpty then s.setGroup c.r { c.g with xlate := q.misses }
  else
    let as := q.accesses
    let fs := q.faults c
    if as.isEmpty then s.finish c c.g .falls fs
    else if s.noRoom c q.path (requestLines (as.map (·.1))) then s.stall c
    else if as.any fun a => a.1.places.any (s.matrixHolds c.g.uid) then s
    else
      match s.holdFor c q.order q.scope (if q.syncs then linesOf (as.map (·.1)) else []) with
      | .stays t => t
      | .goes t h =>
        let a : Access := { id := c.seq, path := q.path, kind := q.kind, dest := q.dest, word := c.word, pc := c.pcAddr,
                            act := c.act, lanes := as.map (·.1), acq := owedAcquire q.order h, mode := c.g.mode, flags := 0,
                            done := false }
        (t.touchAll (as.flatMap (·.2)) q.store).finish c (c.g.addAccess a) .falls fs

/-- An instruction that makes a memory request: nothing without an active lane. -/
def memory (i : Instr) (s : State) (f : Ctx → MemReq) : Out :=
  s.withCtx i fun c => if c.act = 0 then s.finish c c.g .falls [] else s.issueMem c (f c)

/-- The requests of the active lanes. -/
def Ctx.laneReqs (c : Ctx) (ea : Nat → Addr) (check : Nat → Addr → Checked) (data : Nat → List Word) : List LaneReq :=
  c.lanes.map fun l => ⟨l, ea l, check l (ea l), data l⟩

/-! ### The order of a group's accesses -/

/-- Two places of this device's memory are one word. -/
def sameLocal (p q : Place) : Bool := p.local_.isSome && p.local_ == q.local_

/-- Two places of this device's memory lie in one line. -/
def sameLocalLine (p q : Place) : Bool := p.local_.isSome && p.local_.map lineOf == q.local_.map lineOf

/-- Words of two places meet: one word of memory, which a fabric page of this member may also name, or of team memory (08
R152). Two fabric accesses meet in a line of one device, whichever table entries name it, and an access to all members meets
those to each (17 R297). -/
def Place.meets (p q : Place) : Bool :=
  match p, q with
  | .team k a, .team l b => k == l && a == b
  | .fab _ f m a, .fab _ g n b =>
    sameLocalLine p q || (f == g && (m == n || m == 1023 || n == 1023) && a / 128 == b / 128)
  | _, _ => sameLocal p q

def LaneAcc.meets (a b : LaneAcc) : Bool := a.places.any fun p => b.places.any fun q => p.meets q

/-- The instruction is complete only when data or a status has landed (08 R151). -/
def Access.returns (a : Access) : Bool :=
  match a.kind with
  | .load => true
  | .store | .flush _ _ | .granules | .dropTlb _ _ | .multicast | .nothing => false
  | _ => a.dest != .none

/-- A lower lane of the same store still waits to write a common word (08 R152). -/
def lowerLanesWait (a : Access) (l : LaneAcc) : Bool :=
  match a.kind with
  | .store | .multicast => a.lanes.any fun x => decide (x.lane < l.lane) && !x.performed && x.meets l
  | _ => false

/-- What keeps a lane's access from being performed: an earlier access of the group to a common byte, an earlier acquire
half, an engine that owns the line (08 R152, 12 R230, R242). -/
def State.mayPerform (s : State) (g : Group) (a : Access) (l : LaneAcc) : Bool :=
  let earlier := g.acc.filter fun x => x.id < a.id
  !(earlier.any fun x => x.acq.isSome || x.lanes.any fun y => !y.performed && y.meets l) &&
  !lowerLanesWait a l &&
  l.places.all fun p => !s.ownedByEngine p

def Group.access (g : Group) (n : Nat) : Option Access := g.acc.find? fun a => a.id == n

def Group.setAccess (g : Group) (a : Access) : Group := { g with acc := g.acc.map fun x => if x.id = a.id then a else x }

def Access.laneAcc (a : Access) (l : Nat) : Option LaneAcc := a.lanes.find? fun x => x.lane == l

def Access.setLane (a : Access) (l : LaneAcc) : Access :=
  { a with lanes := a.lanes.map fun x => if x.lane = l.lane then l else x }

/-- A lane's part is at its end: landed for data that returns, performed otherwise. -/
def Access.laneEnded (a : Access) (l : LaneAcc) : Bool :=
  match l.st with
  | .landed => true
  | .poisoned | .refused _ | .waiting => false
  | .done _ => !a.returns && l.performed

/-- The effective scope of an acquire half at its completion: `.die` when the access found its lines' entries holding only
its die, and they still do; else its named scope (12 R231). -/
def State.acqScope (s : State) (d : Fin 12) (a : Acq) (lines : List Nat) : Scope :=
  if a.near && s.linesScope d a.named lines == .die then .die else a.named

/-- Every lane's value has returned: the acquire half completes (12 R230). -/
def State.settleAcquire (s : State) (r : GroupRef) (g : Group) (a : Access) : State × Access :=
  match a.acq with
  | none => (s, a)
  | some q =>
    if a.lanes.all LaneAcc.performed then
      (s.acquire r.die g.part (s.acqScope r.die q (linesOf a.lanes)), { a with acq := none })
    else (s, a)

/-- An access after one of its lanes moved: its acquire half, its completion with its flags, the counters (08 R151,
11 R203). -/
def State.moved (s : State) (r : GroupRef) (g : Group) (a : Access) : State :=
  let (s1, a1) := s.settleAcquire r g a
  let ended := a1.acq.isNone && a1.lanes.all a1.laneEnded
  let g1 := if ended ∧ !a1.done then { g with fstat := g.fstat ||| a1.flags } else g
  s1.setGroup r ((g1.setAccess { a1 with done := a1.done || ended }).retire)

/-! ### Landing (08 R154, R157, 06 R92) -/

/-- The writes that land a lane's words. -/
def landWrites (a : Access) (l : LaneAcc) (ws : List Word) : List Write :=
  match a.dest with
  | .none => []
  | .uni r => (ws.take 1).map fun w => .uni r w
  | .vec r tags =>
    (tags.zipIdx.filter fun x => !l.drop.getLsbD x.2).map fun x =>
      .vec (r + BitVec.ofNat 6 x.2) x.1 [⟨l.lane, BitVec.allOnes 32, ws[x.2]?.getD 0⟩]

/-- The lanes a mark falls on: the lane, or every lane active at issue for an access made once for the group. -/
def Access.markLanes (a : Access) (l : LaneAcc) : List Nat :=
  if l.lane = wholeLane then lanesOf 64 a.act else [l.lane]

/-- Accesses on the path issued after an access. -/
def Group.issuedAfter (g : Group) (a : Access) : Nat := (g.acc.filter fun x => x.path == a.path && decide (a.id < x.id)).length

/-- Lanes are marked with a load (08 R157). A lane that has left is marked for the group's end; a terminated group has no
lane left to mark (09 R170). -/
def Group.markLoad (g : Group) (a : Access) (l : LaneAcc) (cause : Cause) : Group :=
  if g.killed then g
  else
  let ms := (a.markLanes l).map fun n =>
    (⟨n, a.id, a.path, g.issuedAfter a, cause, a.word, a.pc, l.ea⟩ : Mark)
  let live := ms.filter fun m => g.alive.getLsbD m.lane
  let gone := ms.filter fun m => !g.alive.getLsbD m.lane
  { g with marks := g.marks ++ live, endMark := firstMark (g.endMark.toList ++ gone) }

/-- The flags that land with a lane's value: those of a reducing load, kept with its data (17 R300). -/
def landFlags (a : Access) (l : LaneAcc) : BitVec 6 :=
  match a.kind with
  | .reduce _ => (l.data[0]?.getD 0).setWidth 6
  | _ => 0

/-- A lane's data lands: written for a lane that has not exited, or a mark (08 R154, R157, 04 R55). -/
def Group.landLane (g : Group) (a : Access) (l : LaneAcc) : Group :=
  match l.st with
  | .done ws =>
    if g.ended || !(l.lane == wholeLane || g.alive.getLsbD l.lane) then g
    else
      let g1 := (landWrites a l ws).foldl (fun g w => g.land a.id w) g
      { g1 with fstat := g1.fstat ||| landFlags a l }
  | .poisoned => g.markLoad a l .poison
  | .refused c => g.markLoad a l c
  | .waiting | .landed => g

/-- A group that has ended is terminated by the first mark that lands (08 R157, 09 R170). -/
def State.endByLanding (s : State) (r : GroupRef) (g : Group) : State × Group :=
  if g.ended then s.endByMark r g else (s, g)

/-- Lane l of access n lands. -/
def State.landing (s : State) (r : GroupRef) (n l : Nat) : State :=
  match s.group r with
  | none => s
  | some g =>
    match g.access n with
    | none => s
    | some a =>
      match a.laneAcc l with
      | none => s
      | some x =>
        if x.performed && x.st != .landed then
          let (s1, g1) := s.endByLanding r (g.landLane a x)
          let a1 := (g1.access n).getD a
          s1.moved r g1 (a1.setLane { (a1.laneAcc l).getD x with st := .landed })
        else s

/-- A status written by an access made once for the group. -/
def Access.answer (a : Access) (w : Word) : Access := { a with lanes := a.lanes.map fun l => { l with st := .done [w] } }

end Sys2Proof.Machine
end

