-- ==== Sys2Proof/Machine/Memory.lean ====
section
/-! DEFINITION. The memory access instructions (spec 08): loads and stores, prefetch, line flush, the wait on a counter and
the pointer instructions. -/

namespace Sys2Proof.Machine

/-! ### Shared operations -/

/-- A load, a store, an atomic's store permission (08 R155, 11 R206). -/
def loadNeed : Need := ⟨false, false, 0⟩
def storeNeed : Need := ⟨true, false, 0⟩

/-- The checks of an access made once for the group: a private address raises SPACE (R161). -/
def State.checkWhole (s : State) (c : Ctx) (n : Need) (ea : Addr) : Checked :=
  match windowOf ea with
  | .priv _ => .fault .space
  | _ => s.checkGeneric c.r c.g n 0 ea 1 4 4

/-- The words a lane stores: n registers from d up. -/
def Ctx.storeWords (c : Ctx) (d : Reg) (n l : Nat) : List Word :=
  (List.range n).map fun k => c.g.lane (d + BitVec.ofNat 6 k) l

/-- A generic load of n words a lane (R159). -/
def genericLoad (s : State) (n : Nat) (d b j : Reg) (q : Order) (p : Scope) (c : Ctx) : MemReq :=
  { path := .g, kind := .load, dest := .vec d (List.replicate n (some (modeLdfmt c.g.mode))), store := false, whole := false
    order := q, scope := p, syncs := true
    lanes := c.laneReqs (c.laneAddr b j) (fun l ea => s.checkGeneric c.r c.g loadNeed l ea n (4 * n) (4 * n)) fun _ => [] }

/-- A generic store of n words a lane, its data read at issue (R159). -/
def genericStore (s : State) (n : Nat) (d b j : Reg) (q : Order) (p : Scope) (c : Ctx) : MemReq :=
  { path := .g, kind := .store, dest := .none, store := true, whole := false, order := q, scope := p, syncs := true
    lanes := c.laneReqs (c.laneAddr b j) (fun l ea => s.checkGeneric c.r c.g storeNeed l ea n (4 * n) (4 * n))
      (c.storeWords d n) }

/-- The team offset of a lane as the address TADDR receives (R155). -/
def Ctx.teamEa (c : Ctx) (b j : Reg) (l : Nat) : Addr := (c.teamOffset b j l).setWidth 64

def teamChecked (s : State) (c : Ctx) (ea : Addr) : Checked := s.checkTeam c.r c.g (loWord ea) 4 4

/-! ### Loads and stores (R159 to R161) -/

/-- LDG (R159). -/
def execLdg (y : Bool) (d b j : Reg) (q : Order) (p : Scope) (s : State) : Out :=
  memory (.ldg y d b j q p) s (genericLoad s 1 d b j q p)

/-- STG (R159). -/
def execStg (y : Bool) (d b j : Reg) (q : Order) (p : Scope) (s : State) : Out :=
  memory (.stg y d b j q p) s (genericStore s 1 d b j q p)

/-- LDGW (R159). -/
def execLdgw (y : Bool) (d b j : Reg) (q : Order) (p : Scope) (s : State) : Out :=
  memory (.ldgw y d b j q p) s (genericLoad s 4 d b j q p)

/-- STGW (R159). -/
def execStgw (y : Bool) (d b j : Reg) (q : Order) (p : Scope) (s : State) : Out :=
  memory (.stgw y d b j q p) s (genericStore s 4 d b j q p)

/-- LDT (R160). -/
def execLdt (y : Bool) (d b j : Reg) (q : Order) (p : Scope) (s : State) : Out :=
  memory (.ldt y d b j q p) s fun c =>
    { path := .t, kind := .load, dest := .vec d [some (modeLdfmt c.g.mode)], store := false, whole := false, order := q
      scope := p, syncs := true, lanes := c.laneReqs (c.teamEa b j) (fun _ ea => teamChecked s c ea) fun _ => [] }

/-- STT (R160). -/
def execStt (y : Bool) (d b j : Reg) (q : Order) (p : Scope) (s : State) : Out :=
  memory (.stt y d b j q p) s fun c =>
    { path := .t, kind := .store, dest := .none, store := true, whole := false, order := q, scope := p, syncs := true
      lanes := c.laneReqs (c.teamEa b j) (fun _ ea => teamChecked s c ea) (c.storeWords d 1) }

/-- LDK (R161). -/
def execLdk (y : Bool) (d b j : Reg) (q : Order) (p : Scope) (s : State) : Out :=
  memory (.ldk y d b j q p) s fun c =>
    let ea := c.groupAddr b j
    { path := .k, kind := .load, dest := .uni d, store := false, whole := true, order := q, scope := p, syncs := true
      lanes := [⟨wholeLane, ea, s.checkWhole c loadNeed ea, []⟩] }

/-- STK (R161). -/
def execStk (y : Bool) (d b j : Reg) (q : Order) (p : Scope) (s : State) : Out :=
  memory (.stk y d b j q p) s fun c =>
    let ea := c.groupAddr b j
    { path := .k, kind := .store, dest := .none, store := true, whole := true, order := q, scope := p, syncs := true
      lanes := [⟨wholeLane, ea, s.checkWhole c storeNeed ea, [c.g.uni d]⟩] }

/-! ### Prefetch and flush (R162, R163) -/

/-- The access a prefetched line makes: a copy of a D granule homed elsewhere; the fabric is not touched (R162, 17 R296). -/
def State.prefetch (s : State) (c : Ctx) (x : Place × Option Trans) : State :=
  match x.1 with
  | .mem pa at_ =>
    let s1 := s.touchAll x.2.toList false
    if remoteD c.r.die at_ pa && !s.foreign c.g.part pa then s1.fetchCopy c.r.die c.g.part at_ pa else s1
  | .team _ _ | .fab .. => s

/-- PREF (R162): lines are fetched; an address that fails a check is dropped; no value changes. -/
def execPref (y l : Bool) (b j : Reg) (s : State) : Out :=
  s.withCtx (.pref y l b j) fun c =>
    if c.act = 0 then s.finish c c.g .falls []
    else
      let cs := c.lanes.map fun l => s.checkGeneric c.r c.g loadNeed l (c.laneAddr b j l) 1 1 4
      let misses := (cs.filterMap fun x => match x with
        | .miss k => some k
        | .ok _ | .fault _ => none).eraseDups
      if !misses.isEmpty then s.setGroup c.r { c.g with xlate := misses }
      else ((cs.flatMap Checked.places).foldl (fun s x => s.prefetch c x) s).finish c c.g .falls []

/-- Only lines of device memory are flushed, by the word that holds the address (R163, 17 R296). -/
def Checked.onMemory : Checked → Checked
  | .ok ps => .ok (ps.filterMap fun x => match x.1 with
    | .mem pa at_ => some (.mem (pa / 4 * 4) at_, x.2)
    | .team _ _ | .fab .. => none)
  | x => x

/-- FLUSHL (R163). -/
def execFlushl (y m : Bool) (b j : Reg) (p : Scope) (s : State) : Out :=
  memory (.flushl y m b j p) s fun c =>
    { path := .g, kind := .flush m p, dest := .none, store := false, whole := false, order := .none, scope := .grp
      syncs := false
      lanes := c.laneReqs (c.laneAddr b j) (fun l ea => (s.checkGeneric c.r c.g loadNeed l ea 1 1 4).onMemory) fun _ => [] }

/-! ### Waiting on a counter (R164) -/

/-- The lanes an entry holds at an instruction: its mask, or the lane under service. -/
def Entry.heldLanes (e : Entry) : Mask := if e.kind = .handler then laneBit (lowest e.mask) else e.mask

/-- The marks that a WAITC on a counter delivers: those of the loads it covers, in lanes its entry holds (R157). -/
def Group.coveredMarks (g : Group) (e : Entry) (k : Path) (t : Nat) : List Mark :=
  g.marks.filter fun m => m.path == k && e.heldLanes.getLsbD m.lane && decide (t ≤ m.after)

/-- WAITC (R164). -/
def execWaitc (y : Bool) (a : Reg) (k : Path) (s : State) : Out :=
  s.withCtx (.waitc y a k) fun c =>
    let t := (c.g.uni a).toNat
    if c.act = 0 then s.finish c c.g .falls []
    else if c.g.count k ≤ t then
      let g := c.g.issued c true
      let ms := g.coveredMarks c.e k t
      if ms.isEmpty then s.finish c c.g .falls [] else s.deliverMarks c.r c.run c.e g ms
    else s.beginWait c c.g (.counter k t)

/-! ### Pointers (R165, R166) -/

/-- The pointer a lane holds in a vector pair. -/
def Ctx.pointer (c : Ctx) (a : Reg) (l : Nat) : Addr := joinWords (c.g.lane a l) (c.g.lane (a + 1) l)

/-- CVTA.GLOB of a pointer by a lane (R165). -/
def globalOf (g : Group) (l : Nat) (p : Addr) : Addr :=
  match windowOf p with
  | .glob _ => p
  | .const o => if o < g.csize then g.cbase + BitVec.ofNat 64 o else nullTrap
  | .priv o => if o < g.priv ∧ g.exposePriv then BitVec.ofNat 64 (privBacking g l o) else nullTrap
  | .team _ | .none => nullTrap

/-- The offset of a pointer in a window, or all ones (R165). -/
def offsetIn (t : Window) (p : Addr) : Word :=
  match t, windowOf p with
  | .priv, .priv _ => loWord p
  | .team, .team _ => loWord p
  | .const, .const _ => loWord p
  | _, _ => 0xFFFFFFFF

/-- CVTA (R165). -/
def execCvta (y : Bool) (d a : Reg) (t : Window) (s : State) : Out :=
  issueRegs (.cvta y d a t) (fun c =>
    match t with
    | .glob => .ok [(4, c.write d .n32 fun l => loWord (globalOf c.g l (c.pointer a l))),
                    (4, c.write (d + 1) .n32 fun l => hiWord (globalOf c.g l (c.pointer a l)))]
    | .priv | .team | .const => .ok [(4, c.write d .n32 fun l => offsetIn t (c.pointer a l))]) s

/-- The window code of a pointer (R166). -/
def spaceCode (p : Addr) : Word :=
  match windowOf p with
  | .priv _ => 0 | .team _ => 1 | .glob _ => 2 | .const _ => 3 | .none => 4

/-- SPACE (R166). -/
def execSpace (y : Bool) (d a : Reg) (s : State) : Out :=
  issueRegs (.space y d a) (fun c => .ok [(2, c.write d .n32 fun l => spaceCode (c.pointer a l))]) s

end Sys2Proof.Machine
end

