-- ==== Sys2Proof/Machine/Uniform.lean ====
section
/-! DEFINITION. Uniform integer and address instructions (spec 05, with SSETI and SADDI of 02 R30). Latencies are those of
R74. -/

namespace Sys2Proof.Machine

/-- One uniform result. -/
def uniResult (lat : Nat) (d : Reg) (v : Word) : Result := .ok [(lat, .uni d v)]

/-- A two-source uniform operation. -/
def uniOp (lat : Nat) (f : Word → Word → Word) (d a b : Reg) (c : Ctx) : Result :=
  uniResult lat d (f (c.g.uni a) (c.g.uni b))

/-! ### Shared computations -/

/-- The larger or smaller of two words under an order. -/
def pickBy (le : Word → Word → Bool) (a b : Word) : Word := if le a b then a else b

/-- The high word of a product. -/
def mulHighS (a b : Word) : Word := ofInt (a.toInt * b.toInt / 2 ^ 32)
def mulHighN (a b : Word) : Word := BitVec.ofNat 32 (a.toNat * b.toNat / 2 ^ 32)

/-- The conditions of SCMP (R76). -/
def scondHolds (k : SCond) (a b : Word) : Bool :=
  match k with
  | .eq => a == b
  | .ne => a != b
  | .lt => a.slt b
  | .le => a.sle b
  | .ltn => a.ult b
  | .len => a.ule b

/-- Division truncates toward zero (R80). -/
def divS (a b : Word) : Word := if b = 0 then 0xFFFFFFFF else ofInt (a.toInt.tdiv b.toInt)
def divN (a b : Word) : Word := if b = 0 then 0xFFFFFFFF else BitVec.ofNat 32 (a.toNat / b.toNat)
def remS (a b : Word) : Word := if b = 0 then a else ofInt (a.toInt.tmod b.toInt)
def remN (a b : Word) : Word := if b = 0 then a else BitVec.ofNat 32 (a.toNat % b.toNat)

/-- Bit counts of the low n bits. -/
def countOnes (x : Word) : Nat := ((List.range 32).filter fun i => x.getLsbD i).length
def leadingZeros (x : Word) : Nat := ((List.range 32).find? fun i => x.getLsbD (31 - i)).getD 32
def trailingZeros (x : Word) : Nat := ((List.range 32).find? fun i => x.getLsbD i).getD 32
def reverseBits (x : Word) : Word :=
  (List.range 32).foldl (fun r i => if x.getLsbD i then r ||| BitVec.ofNat 32 (2 ^ (31 - i)) else r) 0

/-! ### Two-source operations (R75 to R77) -/

/-- Sum modulo 2^32 (R75). -/
def execSadd (y : Bool) (d : Reg) (a : Reg) (b : Reg) (s : State) : Out :=
  issueRegs (.sadd y d a b) (uniOp 2 (· + ·) d a b) s

/-- Difference modulo 2^32 (R75). -/
def execSsub (y : Bool) (d : Reg) (a : Reg) (b : Reg) (s : State) : Out :=
  issueRegs (.ssub y d a b) (uniOp 2 (· - ·) d a b) s

/-- And (R75). -/
def execSand (y : Bool) (d : Reg) (a : Reg) (b : Reg) (s : State) : Out :=
  issueRegs (.sand y d a b) (uniOp 2 (· &&& ·) d a b) s

/-- Or (R75). -/
def execSor (y : Bool) (d : Reg) (a : Reg) (b : Reg) (s : State) : Out :=
  issueRegs (.sor y d a b) (uniOp 2 (· ||| ·) d a b) s

/-- Exclusive or (R75). -/
def execSxor (y : Bool) (d : Reg) (a : Reg) (b : Reg) (s : State) : Out :=
  issueRegs (.sxor y d a b) (uniOp 2 (· ^^^ ·) d a b) s

/-- And with the complement of b (R75). -/
def execSandn (y : Bool) (d : Reg) (a : Reg) (b : Reg) (s : State) : Out :=
  issueRegs (.sandn y d a b) (uniOp 2 (fun x z => x &&& ~~~z) d a b) s

/-- Left shift, the count unbounded (R75). -/
def execSshl (y : Bool) (d : Reg) (a : Reg) (b : Reg) (s : State) : Out :=
  issueRegs (.sshl y d a b) (uniOp 2 (fun x z => x <<< z.toNat) d a b) s

/-- Logical right shift, the count unbounded (R75). -/
def execSshr (y : Bool) (d : Reg) (a : Reg) (b : Reg) (s : State) : Out :=
  issueRegs (.sshr y d a b) (uniOp 2 (fun x z => x >>> z.toNat) d a b) s

/-- Arithmetic right shift, the count unbounded (R75). -/
def execSsra (y : Bool) (d : Reg) (a : Reg) (b : Reg) (s : State) : Out :=
  issueRegs (.ssra y d a b) (uniOp 2 (fun x z => x.sshiftRight z.toNat) d a b) s

/-- Signed minimum (R75). -/
def execSmin (y : Bool) (d : Reg) (a : Reg) (b : Reg) (s : State) : Out :=
  issueRegs (.smin y d a b) (uniOp 2 (pickBy BitVec.sle) d a b) s

/-- Signed maximum (R75). -/
def execSmax (y : Bool) (d : Reg) (a : Reg) (b : Reg) (s : State) : Out :=
  issueRegs (.smax y d a b) (uniOp 2 (pickBy fun x z => BitVec.sle z x) d a b) s

/-- Unsigned minimum (R75). -/
def execSminn (y : Bool) (d : Reg) (a : Reg) (b : Reg) (s : State) : Out :=
  issueRegs (.sminn y d a b) (uniOp 2 (pickBy BitVec.ule) d a b) s

/-- Unsigned maximum (R75). -/
def execSmaxn (y : Bool) (d : Reg) (a : Reg) (b : Reg) (s : State) : Out :=
  issueRegs (.smaxn y d a b) (uniOp 2 (pickBy fun x z => BitVec.ule z x) d a b) s

/-- Low word of the product (R75). -/
def execSmul (y : Bool) (d : Reg) (a : Reg) (b : Reg) (s : State) : Out :=
  issueRegs (.smul y d a b) (uniOp 4 (· * ·) d a b) s

/-- High word of the signed product (R75). -/
def execSmulh (y : Bool) (d : Reg) (a : Reg) (b : Reg) (s : State) : Out :=
  issueRegs (.smulh y d a b) (uniOp 4 mulHighS d a b) s

/-- High word of the unsigned product (R75). -/
def execSmulhn (y : Bool) (d : Reg) (a : Reg) (b : Reg) (s : State) : Out :=
  issueRegs (.smulhn y d a b) (uniOp 4 mulHighN d a b) s

/-- 1 when the condition holds, else 0 (R76). -/
def execScmp (y : Bool) (k : SCond) (d : Reg) (a : Reg) (b : Reg) (s : State) : Out :=
  issueRegs (.scmp y k d a b) (uniOp 2 (fun x z => flagWord (scondHolds k x z)) d a b) s

/-- s_a when s_c is not 0, else s_b (R77). -/
def execSsel (y : Bool) (d : Reg) (a : Reg) (b : Reg) (c : Reg) (s : State) : Out :=
  issueRegs (.ssel y d a b c) (fun x => uniResult 2 d (if x.g.uni c ≠ 0 then x.g.uni a else x.g.uni b)) s

/-! ### Immediates (02 R30, R78) -/

/-- The immediate, sign-extended (02 R30). -/
def execSseti (y : Bool) (d : Reg) (i : BitVec 18) (s : State) : Out :=
  issueRegs (.sseti y d i) (fun _ => uniResult 2 d (i.signExtend 32)) s

/-- Bits 31:14 from the immediate, bits 13:0 kept (R78). -/
def execSseth (y : Bool) (d : Reg) (i : BitVec 18) (s : State) : Out :=
  issueRegs (.sseth y d i) (fun x => uniResult 2 d (i ++ (x.g.uni d).extractLsb' 0 14)) s

/-- The register plus the sign-extended immediate (02 R30). -/
def execSaddi (y : Bool) (d : Reg) (i : BitVec 18) (s : State) : Out :=
  issueRegs (.saddi y d i) (fun x => uniResult 2 d (x.g.uni d + i.signExtend 32)) s

/-! ### Pairs (R79) -/

/-- 64-bit sum (R79). -/
def execSadd64 (y : Bool) (d : Reg) (a : Reg) (b : Reg) (s : State) : Out :=
  issueRegs (.sadd64 y d a b) (fun x => .ok (pairWrites 3 d (x.g.pair a + x.g.pair b))) s

/-- 64-bit difference (R79). -/
def execSsub64 (y : Bool) (d : Reg) (a : Reg) (b : Reg) (s : State) : Out :=
  issueRegs (.ssub64 y d a b) (fun x => .ok (pairWrites 3 d (x.g.pair a - x.g.pair b))) s

/-- Address plus the sign-extended register scaled by 2^k (R79). -/
def execSlea (y : Bool) (k : BitVec 3) (d : Reg) (a : Reg) (b : Reg) (s : State) : Out :=
  issueRegs (.slea y k d a b) (fun x => .ok (pairWrites 3 d (x.g.pair a + ((x.g.uni b).signExtend 64 <<< k.toNat)))) s

/-! ### Division (R80) -/

/-- Signed quotient (R80). -/
def execSdiv (y : Bool) (d : Reg) (a : Reg) (b : Reg) (s : State) : Out :=
  issueRegs (.sdiv y d a b) (uniOp 18 divS d a b) s

/-- Unsigned quotient (R80). -/
def execSdivn (y : Bool) (d : Reg) (a : Reg) (b : Reg) (s : State) : Out :=
  issueRegs (.sdivn y d a b) (uniOp 18 divN d a b) s

/-- Signed remainder (R80). -/
def execSrem (y : Bool) (d : Reg) (a : Reg) (b : Reg) (s : State) : Out :=
  issueRegs (.srem y d a b) (uniOp 18 remS d a b) s

/-- Unsigned remainder (R80). -/
def execSremn (y : Bool) (d : Reg) (a : Reg) (b : Reg) (s : State) : Out :=
  issueRegs (.sremn y d a b) (uniOp 18 remN d a b) s

/-! ### Bits and bit fields (R81 to R83) -/

/-- Number of 1 bits (R81). -/
def execSpopc (y : Bool) (d : Reg) (a : Reg) (s : State) : Out :=
  issueRegs (.spopc y d a) (fun x => uniResult 2 d (BitVec.ofNat 32 (countOnes (x.g.uni a)))) s

/-- Number of leading 0 bits (R81). -/
def execSclz (y : Bool) (d : Reg) (a : Reg) (s : State) : Out :=
  issueRegs (.sclz y d a) (fun x => uniResult 2 d (BitVec.ofNat 32 (leadingZeros (x.g.uni a)))) s

/-- Bits reversed (R81). -/
def execSbrev (y : Bool) (d : Reg) (a : Reg) (s : State) : Out :=
  issueRegs (.sbrev y d a) (fun x => uniResult 2 d (reverseBits (x.g.uni a))) s

/-- Signed field extract (R82). -/
def execSbfx (y : Bool) (d : Reg) (a : Reg) (b : Reg) (s : State) : Out :=
  issueRegs (.sbfx y d a b) (uniOp 2 extractS d a b) s

/-- Unsigned field extract (R82). -/
def execSbfxn (y : Bool) (d : Reg) (a : Reg) (b : Reg) (s : State) : Out :=
  issueRegs (.sbfxn y d a b) (uniOp 2 extractN d a b) s

/-- Field insert (R83). -/
def execSbfi (y : Bool) (d : Reg) (a : Reg) (b : Reg) (c : Reg) (s : State) : Out :=
  issueRegs (.sbfi y d a b c) (fun x => uniResult 2 d (insertField (x.g.uni a) (x.g.uni b) (x.g.uni c))) s

/-! ### Moves (R84) -/

/-- Move (R84). -/
def execSmov (y : Bool) (d : Reg) (a : Reg) (s : State) : Out :=
  issueRegs (.smov y d a) (fun x => uniResult 2 d (x.g.uni a)) s

/-- One lane of a vector, whatever its activity (R84). -/
def execSmovv (y : Bool) (d : Reg) (a : Reg) (b : Reg) (s : State) : Out :=
  issueRegs (.smovv y d a b) (fun x => uniResult 4 d (x.g.lane a ((x.g.uni b).toNat % x.g.w))) s

end Sys2Proof.Machine
end

