-- ==== Sys2Proof/Machine/Numbers.lean ====
section
/-! DEFINITION. Number formats, exact values, rounding and floating-point arithmetic on elements (spec 07, R109 to R116,
R120 to R132). Values are exact: a sign, a natural significand and an exponent of two. -/

namespace Sys2Proof.Machine

/-! ### Formats (R109, R110, R113) -/

/-- A floating format: exponent and fraction bits, and whether it is F8E4, which has no infinities. -/
structure FFmt where
  eb : Nat
  fb : Nat
  e4 : Bool
  deriving DecidableEq, Repr

def fmtF32 : FFmt := ⟨8, 23, false⟩
def fmtF16 : FFmt := ⟨5, 10, false⟩
def fmtB16 : FFmt := ⟨8, 7, false⟩
def fmtE5 : FFmt := ⟨5, 2, false⟩
def fmtE4 : FFmt := ⟨4, 3, true⟩
def fmtA48 : FFmt := ⟨9, 38, false⟩

def FFmt.bias (f : FFmt) : Int := 2 ^ (f.eb - 1) - 1
def FFmt.width (f : FFmt) : Nat := 1 + f.eb + f.fb
/-- Exponent of the smallest normal. -/
def FFmt.emin (f : FFmt) : Int := 1 - f.bias
/-- Exponent of the largest finite value. -/
def FFmt.emax (f : FFmt) : Int := if f.e4 then f.bias + 1 else f.bias
/-- FTZ applies to F32, F16 and B16 (R116). -/
def FFmt.flushes (f : FFmt) : Bool := f == fmtF32 || f == fmtF16 || f == fmtB16

def FFmt.signBit (f : FFmt) (s : Bool) : Nat := bit s * 2 ^ (f.width - 1)
/-- The largest finite magnitude. -/
def FFmt.maxBits (f : FFmt) : Nat :=
  if f.e4 then (2 ^ f.eb - 1) * 2 ^ f.fb + (2 ^ f.fb - 2) else (2 ^ f.eb - 2) * 2 ^ f.fb + (2 ^ f.fb - 1)
def FFmt.infBits (f : FFmt) (s : Bool) : Nat := f.signBit s + (2 ^ f.eb - 1) * 2 ^ f.fb
/-- The canonical NaN (R109, R110, R113). -/
def FFmt.nanBits (f : FFmt) : Nat :=
  if f = fmtA48 then 0x7FFE00000000
  else (2 ^ f.eb - 1) * 2 ^ f.fb + (if f.e4 then 2 ^ f.fb - 1 else 2 ^ (f.fb - 1))

/-- The floating format of the elements of a tag; F32 for tags without one. -/
def fmtOf : Tag → FFmt
  | .f16x2 => fmtF16
  | .b16x2 => fmtB16
  | .e4x4 => fmtE4
  | .e5x4 => fmtE5
  | .raw | .i32 | .n32 | .f32 | .i16x2 | .n16x2 | .i8x4 | .n8x4 | .ps8x4 | .i4x8 | .rix => fmtF32

/-! ### Values -/

/-- An element's value: a NaN, an infinity, or (−1)^s · m · 2^e. -/
inductive FVal where
  | nan (signalling : Bool)
  | inf (s : Bool)
  | fin (s : Bool) (m : Nat) (e : Int)
  deriving DecidableEq, Repr

/-- The value of an element (R109, R110). -/
def FFmt.value (f : FFmt) (bits : Nat) : FVal :=
  let s := nbit bits (f.width - 1)
  let ex := bits / 2 ^ f.fb % 2 ^ f.eb
  let fr := bits % 2 ^ f.fb
  if f.e4 && ex == 2 ^ f.eb - 1 && fr == 2 ^ f.fb - 1 then .nan false
  else if !f.e4 && ex == 2 ^ f.eb - 1 then (if fr = 0 then .inf s else .nan (!nbit fr (f.fb - 1)))
  else if ex = 0 then .fin s fr (f.emin - f.fb)
  else .fin s (2 ^ f.fb + fr) ((ex : Int) - f.bias - f.fb)

/-- The element is subnormal and not zero. -/
def FFmt.subnormal (f : FFmt) (bits : Nat) : Bool := bits / 2 ^ f.fb % 2 ^ f.eb == 0 && bits % 2 ^ f.fb != 0

/-- A value as an instruction reads it: under FTZ a subnormal is a zero of its sign (R116). -/
def FFmt.reads (f : FFmt) (ftz : Bool) (bits : Nat) : FVal :=
  if ftz && f.flushes && f.subnormal bits then .fin (nbit bits (f.width - 1)) 0 0 else f.value bits

/-- FZ for a flushed input, NV for a signalling NaN (R115, R116). -/
def FFmt.readFlags (f : FFmt) (ftz : Bool) (bits : Nat) : FFlags :=
  flagIf (ftz && f.flushes && f.subnormal bits) fFZ ||| flagIf (f.value bits == .nan true) fNV

def FVal.neg : FVal → FVal
  | .nan q => .nan q
  | .inf s => .inf (!s)
  | .fin s m e => .fin (!s) m e

def FVal.isNan : FVal → Bool
  | .nan _ => true
  | .inf _ | .fin _ _ _ => false

/-- PS8: the sum of two terms, in eighths (R111). -/
def ps8Eighths (bits : Nat) : Int :=
  let term (s : Bool) (k : Nat) : Int := if k = 0 then 0 else if s then -2 ^ (k - 1) else 2 ^ (k - 1)
  term (nbit bits 7) (field bits 6 4) + term (nbit bits 3) (field bits 2 0)

/-- An exact value from an integer multiple of 2^e. -/
def finOf (z : Int) (e : Int) : FVal := .fin (decide (z < 0)) z.natAbs e

/-- The value of an element of a typed tag that is not RIX (R109 to R112), under FTZ. -/
def elemValue (t : Tag) (ftz : Bool) (bits : Nat) : FVal :=
  match t with
  | .ps8x4 => finOf (ps8Eighths bits) (-3)
  | .f32 | .f16x2 | .b16x2 | .e4x4 | .e5x4 => (fmtOf t).reads ftz bits
  | .raw | .i32 | .n32 | .i16x2 | .n16x2 | .i8x4 | .n8x4 | .i4x8 | .rix =>
    finOf (if tagSigned t then signedOf (tagWidth t) bits else bits) 0

/-! ### Rounding (R114) -/

/-- Significant bits of a natural number. -/
def bitLength (m : Nat) : Nat := if m = 0 then 0 else m.log2 + 1

/-- m · 2^(−d) rounded to an integer by a mode, and whether that changed it. Beyond the length of m the distance makes no
difference. -/
def roundShift (rnd : Nat) (s : Bool) (m : Nat) (d : Int) : Nat × Bool :=
  if d ≤ 0 then (m * 2 ^ (-d).toNat, false)
  else
    let k := min d.toNat (bitLength m + 2)
    let q := m / 2 ^ k
    let r := m % 2 ^ k
    if r = 0 then (q, false)
    else
      let up := match rnd with
        | 0 => decide (2 ^ k < 2 * r) || (decide (2 ^ k = 2 * r) && q % 2 == 1)
        | 2 => !s
        | 3 => s
        | 4 => q % 2 == 0
        | _ => false
      (q + bit up, true)

/-- Overflow (R110, R114). -/
def FFmt.overflow (f : FFmt) (rnd : Nat) (sat : Bool) (s : Bool) : Nat :=
  if f.e4 then (if sat then f.signBit s + f.maxBits else f.nanBits)
  else
    let toInf := rnd = 0 ∨ (rnd = 2 ∧ s = false) ∨ (rnd = 3 ∧ s = true)
    if toInf then f.infBits s else f.signBit s + f.maxBits

/-- The exact value (−1)^s · m · 2^e, m not 0, rounded to a format (R114), with the flags of R116 and R117. -/
def FFmt.round (f : FFmt) (rnd : Nat) (sat ftz : Bool) (s : Bool) (m : Nat) (e : Int) : Nat × FFlags :=
  if m = 0 then (f.signBit s, fNone)
  else
    let top := e + bitLength m - 1
    let (n, inexact) := roundShift rnd s m (top - f.fb - e)
    let carry := decide (2 ^ (f.fb + 1) ≤ n)
    let n1 := if carry then n / 2 else n
    let top1 := if carry then top + 1 else top
    if f.emax < top1 ∨ (top1 = f.emax ∧ f.e4 ∧ 2 ^ (f.fb + 1) - 2 < n1) then (f.overflow rnd sat s, fOF ||| fNX)
    else if f.emin ≤ top1 then
      (f.signBit s + (top1 + f.bias).toNat * 2 ^ f.fb + (n1 - 2 ^ f.fb), flagIf inexact fNX)
    else
      let (k, inexact2) := roundShift rnd s m (f.emin - f.fb - e)
      if ftz && f.flushes && k != 0 && decide (k < 2 ^ f.fb) then (f.signBit s, fUF ||| fNX)
      else (f.signBit s + k, flagIf inexact2 (fNX ||| fUF))

/-- The rounding fields of MODE an operation uses. -/
structure Rnd where
  rnd : Nat
  sat : Bool
  ftz : Bool
  deriving DecidableEq, Repr

def rndOf (mode : Word) : Rnd := ⟨modeRnd mode, modeSat mode, modeFtz mode⟩

/-- An exact value rounded to a format: a NaN is canonical, an infinity overflows F8E4 (R110, R115). -/
def FFmt.pack (f : FFmt) (k : Rnd) : FVal → Nat × FFlags
  | .nan _ => (f.nanBits, fNone)
  | .inf s => if f.e4 then (f.overflow k.rnd k.sat s, fOF ||| fNX) else (f.infBits s, fNone)
  | .fin s m e => f.round k.rnd k.sat k.ftz s m e

/-! ### Arithmetic -/

/-- The sign of an exact zero sum of finite values: theirs when they agree, else by the mode (R115). -/
def zeroSign (rnd : Nat) (a b : Bool) : Bool := if a = b then a else rnd == 3

/-- (−1)^s · m · 2^e as a multiple of 2^q, q at most e. -/
def scaledTo (q : Int) (s : Bool) (m : Nat) (e : Int) : Int :=
  let v : Int := m * 2 ^ (e - q).toNat
  if s then -v else v

/-- Exact sum, none for ∞ − ∞. A zero sum of values not both zero, or of zeros of unlike sign, follows the mode. -/
def addExact (rnd : Nat) (a b : FVal) : Option FVal :=
  match a, b with
  | .nan _, _ => some (.nan false)
  | _, .nan _ => some (.nan false)
  | .inf s, .inf t => if s = t then some (.inf s) else none
  | .inf s, .fin _ _ _ => some (.inf s)
  | .fin _ _ _, .inf t => some (.inf t)
  | .fin s m e, .fin t n g =>
    let q := imin e g
    let z := scaledTo q s m e + scaledTo q t n g
    if z = 0 then some (.fin (zeroSign rnd s t) 0 q) else some (finOf z q)

/-- Exact product, none for 0 · ∞. -/
def mulExact (a b : FVal) : Option FVal :=
  match a, b with
  | .inf s, .fin t m _ => if m = 0 then none else some (.inf (s ^^ t))
  | .fin s m _, .inf t => if m = 0 then none else some (.inf (s ^^ t))
  | .nan _, _ => some (.nan false)
  | _, .nan _ => some (.nan false)
  | .inf s, .inf t => some (.inf (s ^^ t))
  | .fin s m e, .fin t n g => some (.fin (s ^^ t) (m * n) (e + g))

/-- An exact result, or an invalid operation, delivered in a format. -/
def FFmt.deliver (f : FFmt) (k : Rnd) (flags : FFlags) : Option FVal → Nat × FFlags
  | none => (f.nanBits, flags ||| fNV)
  | some v => ((f.pack k v).1, flags ||| (f.pack k v).2)

/-- Flags of reading several elements. -/
def FFmt.readsFlags (f : FFmt) (k : Rnd) (xs : List Nat) : FFlags := orFlags (xs.map (f.readFlags k.ftz))

def fAdd (f : FFmt) (k : Rnd) (x y : Nat) : Nat × FFlags :=
  f.deliver k (f.readsFlags k [x, y]) (addExact k.rnd (f.reads k.ftz x) (f.reads k.ftz y))

def fSub (f : FFmt) (k : Rnd) (x y : Nat) : Nat × FFlags :=
  f.deliver k (f.readsFlags k [x, y]) (addExact k.rnd (f.reads k.ftz x) (f.reads k.ftz y).neg)

def fMul (f : FFmt) (k : Rnd) (x y : Nat) : Nat × FFlags :=
  f.deliver k (f.readsFlags k [x, y]) (mulExact (f.reads k.ftz x) (f.reads k.ftz y))

/-- rnd(±(x × y) ± z), rounded once (R121). -/
def fFused (negProduct negAddend : Bool) (f : FFmt) (k : Rnd) (x y z : Nat) : Nat × FFlags :=
  let c := if negAddend then (f.reads k.ftz z).neg else f.reads k.ftz z
  f.deliver k (f.readsFlags k [x, y, z])
    (match mulExact (f.reads k.ftz x) (f.reads k.ftz y) with
     | none => none
     | some p => addExact k.rnd (if negProduct then p.neg else p) c)

/-- The order of two values that are no NaN: −1, 0, 1. Zeros are equal (R125). -/
def compareVal (a b : FVal) : Int :=
  let rank : FVal → Int
    | .inf s => if s then -1 else 1
    | _ => 0
  if rank a ≠ 0 ∨ rank b ≠ 0 then imax (-1) (imin 1 (rank a - rank b))
  else
    match addExact 0 a b.neg with
    | some (.fin s m _) => if m = 0 then 0 else if s then -1 else 1
    | _ => 0

/-- The sign of a value. -/
def FVal.sign : FVal → Bool
  | .nan _ => false
  | .inf s => s
  | .fin s _ _ => s

/-- An operand returned unrounded, a flushed one as a zero of its sign (R116, R120). -/
def FFmt.operand (f : FFmt) (k : Rnd) (x : Nat) : Nat :=
  if k.ftz && f.flushes && f.subnormal x then f.signBit (nbit x (f.width - 1)) else x

/-- FMIN and FMAX (R115). −0 is below +0. -/
def fMinMax (wantMax : Bool) (f : FFmt) (k : Rnd) (x y : Nat) : Nat × FFlags :=
  let a := f.reads k.ftz x
  let b := f.reads k.ftz y
  let flags := f.readsFlags k [x, y]
  if a.isNan && b.isNan then (f.nanBits, flags)
  else if a.isNan then (f.operand k y, flags)
  else if b.isNan then (f.operand k x, flags)
  else
    let c := compareVal a b
    let below := if c = 0 then a.sign && !b.sign else decide (c < 0)
    let above := if c = 0 then b.sign && !a.sign else decide (0 < c)
    let takeB := if wantMax then below else above
    (f.operand k (if takeB then y else x), flags)

/-- A quotient of naturals to enough bits, its last bit set when it is not exact. -/
def stickyDiv (m n bits : Nat) : Nat := 2 * (m * 2 ^ bits / n) + bit (m * 2 ^ bits % n != 0)

/-- FDIV (R123). -/
def fDiv (f : FFmt) (k : Rnd) (x y : Nat) : Nat × FFlags :=
  let flags := f.readsFlags k [x, y]
  match f.reads k.ftz x, f.reads k.ftz y with
  | .nan _, _ => (f.nanBits, flags)
  | _, .nan _ => (f.nanBits, flags)
  | .inf _, .inf _ => (f.nanBits, flags ||| fNV)
  | .inf s, .fin t _ _ => (f.infBits (s ^^ t), flags)
  | .fin s _ _, .inf t => (f.signBit (s ^^ t), flags)
  | .fin s m e, .fin t n g =>
    if n = 0 then (if m = 0 then (f.nanBits, flags ||| fNV) else (f.infBits (s ^^ t), flags ||| fDZ))
    else if m = 0 then (f.signBit (s ^^ t), flags)
    else
      let bits := f.fb + 4 + bitLength n
      f.deliver k flags (some (.fin (s ^^ t) (stickyDiv m n bits) (e - g - bits - 1)))

/-- ⌊√m⌋ by its bits from the highest. -/
def sqrtBits (m : Nat) : Nat → Nat → Nat
  | 0, r => r
  | i + 1, r => sqrtBits m i (if (r + 2 ^ i) * (r + 2 ^ i) ≤ m then r + 2 ^ i else r)

def natSqrt (m : Nat) : Nat := sqrtBits m (bitLength m / 2 + 1) 0

/-- FSQRT, correctly rounded; NX unless the result is one of those R124 lists as exact, or that of a NaN (assumption 85). -/
def fSqrt (f : FFmt) (k : Rnd) (x : Nat) : Nat × FFlags :=
  let flags := f.readsFlags k [x]
  match f.reads k.ftz x with
  | .nan _ => (f.nanBits, flags)
  | .inf s => if s then (f.nanBits, flags ||| fNV) else (f.infBits false, flags)
  | .fin s m e =>
    if m = 0 then (f.signBit s, flags)
    else if s then (f.nanBits, flags ||| fNV)
    else
      let odd := e % 2 ≠ 0
      let m1 := if odd then 2 * m else m
      let e1 := if odd then e - 1 else e
      let m2 := m1 * 4 ^ (f.fb + 4)
      let r := natSqrt m2
      f.deliver k (flags ||| fNX) (some (.fin false (2 * r + bit (r * r != m2)) (e1 / 2 - (f.fb + 4) - 1)))

/-- FDOT2 (R122): c + a0·b0 + a1·b1 in F32, products and sum exact. R122 does not say whether infinities of opposite signs among
the terms raise NV beside a quiet NaN among them: the result is that of the NaN here, and they do not (assumption 85). -/
def fDot2 (f : FFmt) (k : Rnd) (c a0 b0 a1 b1 : Nat) : Nat × FFlags :=
  let flags := fmtF32.readsFlags k [c] ||| f.readsFlags k [a0, b0, a1, b1]
  let v := f.reads k.ftz
  fmtF32.deliver k flags
    (match mulExact (v a0) (v b0), mulExact (v a1) (v b1) with
     | some p, some q =>
       if p.isNan || q.isNan || (fmtF32.reads k.ftz c).isNan then some (.nan false)
       else
       match addExact k.rnd (fmtF32.reads k.ftz c) p with
       | none => none
       | some t =>
         match addExact k.rnd t q, fmtF32.reads k.ftz c, p, q with
         | some (.fin _ 0 e), .fin s 0 _, .fin s1 0 _, .fin s2 0 _ =>
           some (.fin (if s = s1 ∧ s1 = s2 then s else k.rnd == 3) 0 e)
         | some (.fin _ 0 e), _, _, _ => some (.fin (k.rnd == 3) 0 e)
         | r, _, _, _ => r
     | _, _ => none)

/-- FSCALE (R127). -/
def fScale (f : FFmt) (k : Rnd) (x : Nat) (n : Int) : Nat × FFlags :=
  f.deliver k (f.readsFlags k [x])
    (match f.reads k.ftz x with
     | .fin s m e => some (.fin s m (e + n))
     | v => some v)

/-- FRINT (R128): no NX. -/
def fRint (f : FFmt) (k : Rnd) (x : Nat) : Nat × FFlags :=
  let flags := f.readsFlags k [x]
  match f.reads k.ftz x with
  | .nan _ => (f.nanBits, flags)
  | .inf s => (f.infBits s, flags)
  | .fin s m e => ((f.round k.rnd k.sat k.ftz s (roundShift k.rnd s m (-e)).1 0).1, flags)

/-- FFRAC (R128). -/
def fFrac (f : FFmt) (k : Rnd) (x : Nat) : Nat × FFlags :=
  let flags := f.readsFlags k [x]
  match f.reads k.ftz x with
  | .nan _ => (f.nanBits, flags)
  | .inf _ => (f.nanBits, flags ||| fNV)
  | .fin s m e => f.deliver k flags (some (.fin s (if e < 0 then m % 2 ^ (-e).toNat else 0) e))

/-- FCLASS (R126). FTZ is not applied. -/
def fClass (f : FFmt) (x : Nat) : Nat :=
  match f.value x with
  | .nan q => if q then 0x100 else 0x200
  | .inf s => if s then 0x001 else 0x080
  | .fin s m _ =>
    if m = 0 then (if s then 0x008 else 0x010)
    else if f.subnormal x then (if s then 0x004 else 0x020)
    else if s then 0x002 else 0x040

/-- FCMP of one element (R125). -/
def fCompare (c : FCond) (f : FFmt) (k : Rnd) (x y : Nat) : Bool × FFlags :=
  let a := f.reads k.ftz x
  let b := f.reads k.ftz y
  let un := a.isNan || b.isNan
  let r := compareVal a b
  let flags := f.readsFlags k [x, y]
  match c with
  | .eq => (!un && r == 0, flags)
  | .ne => (un || r != 0, flags)
  | .lt => (!un && decide (r < 0), flags ||| flagIf un fNV)
  | .le => (!un && decide (r ≤ 0), flags ||| flagIf un fNV)
  | .un => (un, flags)
  | .ord => (!un, flags)

/-! ### Conversion (R130 to R132) -/

/-- A value to an integer tag: rounded by the mode, clamped, NaN to 0. -/
def toInteger (t : Tag) (k : Rnd) (v : FVal) : Nat × FFlags :=
  let w := tagWidth t
  match v with
  | .nan _ => (0, fNV)
  | .inf s => (wrapNat w (clampTag t (if s then -2 ^ 40 else 2 ^ 40)), fNV)
  | .fin s m e =>
    let (n, inexact) := roundShift k.rnd s m (-e)
    let z : Int := if s then -n else n
    if clampTag t z = z then (wrapNat w z, flagIf inexact fNX) else (wrapNat w (clampTag t z), fNV)

/-- The two tags of a conversion through F16 (R130). -/
def throughF16 (src dst : Tag) : Bool := (src == .f32 || src == .b16x2) && (dst == .e4x4 || dst == .e5x4)

/-- conv of R130; `odd` is CVTN (R131). -/
def convert (odd : Bool) (src dst : Tag) (k : Rnd) (bits : Nat) : Nat × FFlags :=
  let isFloat := src == .f32 || src == .f16x2 || src == .b16x2 || src == .e4x4 || src == .e5x4
  let v := elemValue src k.ftz bits
  let rf := if isFloat then (fmtOf src).readFlags k.ftz bits else fNone
  if tagInt src && tagInt dst then
    let z : Int := if tagSigned src then signedOf (tagWidth src) bits else bits
    (wrapNat (tagWidth dst) (if k.sat then clampTag dst z else z), fNone)
  else if tagInt dst then ((toInteger dst k v).1, rf ||| (toInteger dst k v).2)
  else if throughF16 src dst then
    let step := fmtF16.pack ⟨if odd then 4 else k.rnd, false, false⟩ v
    let last := (fmtOf dst).pack k (fmtF16.value step.1)
    (last.1, rf ||| step.2 ||| last.2)
  else (((fmtOf dst).pack k v).1, rf ||| ((fmtOf dst).pack k v).2)

/-- The canonical PS8 encodings (R111). -/
def ps8Canonical (b : Nat) : Bool :=
  let k1 := field b 6 4
  let k2 := field b 2 0
  b == 0 || (ps8Eighths b != 0 && k1 != 0 && (k2 == 0 || decide (k2 ≤ k1)))

/-- A nearer PS8 value than another: distance, then magnitude, then encoding (R132). Distances are those of q scaled by
8 · den. -/
def ps8Better (num : Int) (den : Nat) (a b : Nat) : Bool :=
  let dist (x : Nat) : Nat := (8 * num - ps8Eighths x * den).natAbs
  let mag (x : Nat) : Nat := (ps8Eighths x).natAbs
  decide (dist a < dist b) || (dist a == dist b && (decide (mag a < mag b) || (mag a == mag b && decide (a < b))))

/-- The PS8 value nearest to num / den. -/
def ps8Nearest (num : Int) (den : Nat) : Nat :=
  ((List.range 256).filter ps8Canonical).foldl (fun best x => if ps8Better num den x best then x else best) 0

/-- CVTPS of one lane (R132): the value a over the column scale s, both F32. -/
def toPs8 (a s : Nat) : Nat × FFlags :=
  match fmtF32.value a, fmtF32.value s with
  | .nan _, _ => (0, fNV)
  | va, .fin false (n + 1) g =>
    match va with
    | .nan _ => (0, fNV)
    | .inf sg => (if sg then 0xFF else 0x77, fOF ||| fNX)
    | .fin sg m e =>
      let q := imin e g
      let num := scaledTo q sg m e
      let den := (n + 1) * 2 ^ (g - q).toNat
      if 16 * den < num.natAbs then (if sg then 0xFF else 0x77, fOF ||| fNX)
      else
        let r := ps8Nearest num den
        (r, flagIf (8 * num != ps8Eighths r * den) fNX)
  | _, _ => (0, fNV)

end Sys2Proof.Machine
end

