-- ==== Sys2Proof/Machine/Atomics.lean ====
section
/-! DEFINITION. Atomic and reduction instructions (11 R199 to R207) and the switch atomic (17 R302). -/

namespace Sys2Proof.Machine

/-- The operation works on floating-point elements (R203). -/
def atomicFloat : AtomOp → Bool
  | .fadd | .fmin | .fmax => true
  | .add | .min | .max | .minn | .maxn | .and | .or | .xor | .xchg | .incw | .decw | .cas => false

/-- The floating operation element by element. -/
def atomicElems (f : FFmt → Rnd → Nat → Nat → Nat × FFlags) (t : Tag) (k : Rnd) (m v : Word) : Word × FFlags :=
  let w := tagWidth t
  let rs := (List.range (32 / w)).map fun i => f (fmtOf t) k (elemBits w m i) (elemBits w v i)
  (packWord w (rs.map (·.1)), orFlags (rs.map (·.2)))

/-- The new word and the flags (R203): `m` is the word found, `v` the operand, `w` the swap value, `t` the format of the
floating operations. -/
def atomicNew (op : AtomOp) (t : Tag) (mode : Word) (m v w : Word) : Word × FFlags :=
  match op with
  | .add => (m + v, 0)
  | .min => (if m.sle v then m else v, 0)
  | .max => (if m.sle v then v else m, 0)
  | .minn => (if m.ule v then m else v, 0)
  | .maxn => (if m.ule v then v else m, 0)
  | .and => (m &&& v, 0)
  | .or => (m ||| v, 0)
  | .xor => (m ^^^ v, 0)
  | .xchg => (v, 0)
  | .incw => (if v.ule m then 0 else m + 1, 0)
  | .decw => (if m = 0 ∨ v.ult m then v else m - 1, 0)
  | .cas => (if m = v then w else m, 0)
  | .fadd => atomicElems fAdd t (rndOf mode) m v
  | .fmin => atomicElems (fMinMax false) t (rndOf mode) m v
  | .fmax => atomicElems (fMinMax true) t (rndOf mode) m v

/-- The format the floating operations use, or FORMAT (R203). -/
def Ctx.atomicTag (c : Ctx) (op : AtomOp) (d : Reg) : Except (Cause × Nat) Tag :=
  if atomicFloat op then c.oneTag tagFlt [d] else .ok .raw

/-- The words of a lane's operands: the operand, and the swap value of CAS. -/
def Ctx.atomicData (c : Ctx) (op : AtomOp) (d : Reg) (l : Nat) : List Word :=
  if op = .cas then [c.g.lane d l, c.g.lane (d + 1) l] else [c.g.lane d l]

/-- The checks of an atomic (R206), and of a switch atomic (17 R296, R302). -/
def atomicNeed : Need := ⟨true, true, 1⟩
def switchNeed : Need := ⟨true, false, 3⟩

/-- A vector atomic: nothing without an active lane, FORMAT before any access, one word a lane (R204, R205). -/
def vectorAtomic (i : Instr) (s : State) (d b j : Reg) (op : AtomOp) (q : Order) (n : Need) (dest : Ctx → Dest)
    (kind : Tag → AccKind) : Out :=
  s.withCtx i fun c =>
    if c.act = 0 then s.finish c c.g .falls []
    else
      match c.atomicTag op d with
      | .error (cause, detail) => s.trapAll c cause detail
      | .ok t =>
        s.issueMem c
          { path := .g, kind := kind t, dest := dest c, store := true, whole := false, order := q
            scope := modeScope c.g.mode, syncs := true
            lanes := c.laneReqs (c.laneAddr b j) (fun l ea => s.checkGeneric c.r c.g n l ea 1 4 4) (c.atomicData op d) }

/-- The old values of an atomic land in d under the tag that d carries at issue (R204). -/
def atomicDest (d : Reg) (c : Ctx) : Dest := .vec d [some (c.g.vreg d).tag]

/-- ATOM (R204). -/
def execAtom (y : Bool) (d b j : Reg) (k : AtomOp) (q : Order) (s : State) : Out :=
  vectorAtomic (.atom y d b j k q) s d b j k q atomicNeed (atomicDest d) (.atomic k)

/-- RED (R205): no register is written. -/
def execRed (y : Bool) (d b j : Reg) (k : AtomOp) (q : Order) (s : State) : Out :=
  vectorAtomic (.red y d b j k q) s d b j k q atomicNeed (fun _ => .none) (.atomic k)

/-- FATOM (17 R302). -/
def execFatom (y : Bool) (d b j : Reg) (k : AtomOp) (q : Order) (s : State) : Out :=
  vectorAtomic (.fatom y d b j k q) s d b j k q switchNeed (atomicDest d) (.switchAtomic k)

/-- ATOMU (R205): one access for the group, floating operations on F32. -/
def execAtomu (y : Bool) (d b j : Reg) (k : AtomOp) (q : Order) (s : State) : Out :=
  memory (.atomu y d b j k q) s fun c =>
    let ea := c.groupAddr b j
    { path := .k, kind := .atomic k .f32, dest := .uni d, store := true, whole := true, order := q
      scope := modeScope c.g.mode, syncs := true
      lanes := [⟨wholeLane, ea, s.checkWhole c atomicNeed ea,
        if k = .cas then [c.g.uni d, c.g.uni (d + 1)] else [c.g.uni d]⟩] }

end Sys2Proof.Machine
end

