-- ==== Sys2Proof/Machine/Report.lean ====
section
/-! DEFINITION. What the device reports to the host: event entries (19 R316) and completion records (19 R321). -/

namespace Sys2Proof.Machine

/-! ### Event entries -/

/-- An event entry is written, then EVHEAD advances. -/
def Partition.post (p : Partition) (words : List Word) : Partition :=
  { p with
    events := words.zipIdx.foldl (fun t x => Tbl.put t (8 * p.evhead.toNat + x.2) x.1) p.events
    evhead := p.evhead + 1 }

/-- The words of an event: its first word, the grid, an address, TIME. -/
def State.eventWords (s : State) (w0 : Nat) (grid : Nat) (addr : Addr) : List Word :=
  let t : Addr := BitVec.ofNat 64 s.time
  [BitVec.ofNat 32 w0, BitVec.ofNat 32 grid, loWord addr, hiWord addr, loWord t, hiWord t, 0, 0]

def State.setPart (s : State) (p : Fin 12) (x : Partition) : State := { s with parts := s.parts.set p x }

def State.postEvent (s : State) (p : Fin 12) (w0 grid : Nat) (addr : Addr) : State :=
  s.setPart p ((s.parts[p]).post (s.eventWords w0 grid addr))

/-- A group halted (kind 1). -/
def State.postHalt (s : State) (r : GroupRef) (g : Group) (pc : Addr) : State :=
  s.postEvent g.part (2 ^ 24 + r.die.val * 2 ^ 20 + r.core.val * 2 ^ 14) g.grid pc

/-- A lock request was refused with DEADLOCK (kind 2). -/
def State.postDeadlock (s : State) (r : GroupRef) (g : Group) (ea : Addr) : State :=
  s.postEvent g.part (2 * 2 ^ 24 + r.die.val * 2 ^ 20 + r.core.val * 2 ^ 14) g.grid ea

/-- Containment discarded work of the partition (kind 3). -/
def State.postRecovery (s : State) (p : Fin 12) (die : Nat) : State := s.postEvent p (3 * 2 ^ 24 + die * 2 ^ 20) 0 0

/-- A command's completion record cannot be written (kind 4). `queue` is 255 for the device-side queue. -/
def State.postBadCrec (s : State) (p : Fin 12) (queue : Nat) (seq : BitVec 16) (crec : Addr) : State :=
  s.postEvent p (4 * 2 ^ 24 + queue * 2 ^ 16 + seq.toNat) 0 crec

/-! ### Completion records -/

def CStatus.code : CStatus → Nat
  | .complete => 1 | .terminated => 2 | .discarded => 3 | .notavail => 4 | .badcmd => 5 | .depfail => 6

/-- The words of a completion record; `t` is the first termination of a terminated grid. -/
def State.recordWords (s : State) (st : CStatus) (detail grid : Nat) (t : Option Termination) : List Word :=
  let time : Addr := BitVec.ofNat 64 s.time
  let w (n : Nat) : Word := BitVec.ofNat 32 n
  match t with
  | some x =>
    [w (st.code * 2 ^ 24 + x.cause * 2 ^ 16 + x.detail * 2 ^ 8), w (x.die * 2 ^ 28 + x.pcore * 2 ^ 22 + x.gidx * 2 ^ 12),
     w x.clu, w grid, loWord x.tpc, hiWord x.tpc, loWord time, hiWord time]
  | none => [w (st.code * 2 ^ 24 + detail * 2 ^ 8), 0, 0, w grid, 0, 0, loWord time, hiWord time]

end Sys2Proof.Machine
end

