-- ==== Sys2Proof/Machine/Topology.lean ====
section
/-! DEFINITION. The grid of dies and its die-links (01 R9, R10): rows and columns, neighbours, ports, the ends of the 46 links,
the route and the entry port of a message between any two dies. -/

namespace Sys2Proof.Machine

/-- Row and column of a compute die (R9). -/
def dieRow (d : Fin 12) : Nat := d.val / 4
def dieCol (d : Fin 12) : Nat := d.val % 4

/-- The faces of a compute die, in the order of their ports (R10). -/
inductive Face where
  | north | east | south | west
  deriving DecidableEq, Repr

def Face.num : Face → Nat
  | .north => 0 | .east => 1 | .south => 2 | .west => 3

/-- The face of the die beyond that the same die-links reach. -/
def Face.opposite : Face → Face
  | .north => .south | .south => .north | .east => .west | .west => .east

/-- A die of the package: a compute die, or an I/O die. -/
inductive Site where
  | die (d : Fin 12)
  | io (k : Fin 2)
  deriving DecidableEq, Repr

/-- What lies beyond a face of a compute die (R9, R10): none where its ports are unconnected. -/
def neighbour (d : Fin 12) (f : Face) : Option Site :=
  match f with
  | .north => if dieRow d = 0 then none else some (.die (Fin.ofNat 12 (d.val - 4)))
  | .south => if dieRow d = 2 then none else some (.die (Fin.ofNat 12 (d.val + 4)))
  | .west => some (if dieCol d = 0 then .io 0 else .die (Fin.ofNat 12 (d.val - 1)))
  | .east => some (if dieCol d = 3 then .io 1 else .die (Fin.ofNat 12 (d.val + 1)))

/-- The port of a face: link 0 of a pair joins the lower port of each end, link 1 the higher (R10). -/
def facePort (f : Face) (link : Nat) : Nat := 2 * f.num + link % 2

/-- The pairs that die-links join: each die and its neighbour to the east, then each and its neighbour to the south, then
the dies of column 0 and io 0. -/
def linkPairs : List (Fin 12 × Face × Site) :=
  [Face.east, .south, .west].flatMap fun f => (List.finRange 12).filterMap fun d =>
    match neighbour d f with
    | some x => if f = .west ∧ dieCol d ≠ 0 then none else some (d, f, x)
    | none => none

/-- The ends of die-link k: a compute die with its port, and the die beyond with its own port, which an I/O die has none of
(R10 numbers the ports of compute dies only). The numbering of the 46 links is the model's; two links in a row join one pair,
the even one its lower ports, at either end. -/
def linkEnds (k : Fin 46) : Option ((Fin 12 × Nat) × (Site × Option Nat)) :=
  (linkPairs[k.val / 2]?).map fun x => ((x.1, facePort x.2.1 k.val),
    match x.2.2 with
    | .die e => (.die e, some (facePort x.2.1.opposite k.val))
    | .io n => (.io n, none))

/-- The compute dies at the ends of die-link k. -/
def linkDies (k : Fin 46) : List (Fin 12) :=
  match linkEnds k with
  | some ((d, _), (.die e, _)) => [d, e]
  | some ((d, _), (.io _, _)) => [d]
  | none => []

/-- The next compute die of a message's route: along the row to the destination's column, then along that column (R10). -/
def nextHop (a b : Fin 12) : Fin 12 :=
  if dieCol a < dieCol b then Fin.ofNat 12 (a.val + 1)
  else if dieCol b < dieCol a then Fin.ofNat 12 (a.val - 1)
  else if dieRow a < dieRow b then Fin.ofNat 12 (a.val + 4)
  else if dieRow b < dieRow a then Fin.ofNat 12 (a.val - 4)
  else a

/-- The face of a compute die behind which an I/O die lies, at the end of its row: west for io 0, east for io 1 (R9). -/
def ioFace (k : Fin 2) : Face := if k = 0 then .west else .east

/-- The compute die of a die's row that is joined to an I/O die (R10). -/
def ioNeighbour (k : Fin 2) (d : Fin 12) : Fin 12 := Fin.ofNat 12 (4 * dieRow d + (if k = 0 then 0 else 3))

/-- The next die of a message's route. A message from or to an I/O die keeps to the row of its compute die (R10); between the
two I/O dies the spec gives no route. -/
def nextSite : Site → Site → Site
  | .die a, .die b => .die (nextHop a b)
  | .die a, .io k => (neighbour a (ioFace k)).getD (.io k)
  | .io k, .die b => .die (ioNeighbour k b)
  | .io k, .io _ => .io k

/-- The dies a message passes after its sender, its destination the last. -/
def routeFrom : Nat → Site → Site → List Site
  | 0, _, _ => []
  | n + 1, a, b => if a = b ∨ nextSite a b = a then [] else nextSite a b :: routeFrom n (nextSite a b) b

def route (a b : Site) : List Site := routeFrom 5 a b

/-- The face of the destination at which a message enters: that of the last die-link of its route (R10). -/
def entryFace (src : Site) (dst : Fin 12) : Face :=
  match src with
  | .io k => ioFace k
  | .die s =>
    if dieRow s < dieRow dst then .north
    else if dieRow dst < dieRow s then .south
    else if dieCol s < dieCol dst then .west
    else .east

/-- The die-link of a pair that a sender's messages cross: link s mod 2 for compute die s, link 0 for an I/O die (R10). -/
def senderLink : Site → Nat
  | .die s => s.val % 2
  | .io _ => 0

/-- The die-link port through which a message from another die enters a compute die (R10). -/
def entryPort (src : Site) (dst : Fin 12) : Nat := facePort (entryFace src dst) (senderLink src)

/-- The place, in the order of crossbar ports, at which a request of a core reaches a slice of a die: core ports first, then
die-link ports (11 R209). -/
def requestPort (src : CoreRef) (home : Fin 12) : Nat :=
  if src.die = home then src.core.val else 36 + entryPort (.die src.die) home

end Sys2Proof.Machine
end

