-- ==== Sys2Proof/Machine/Locks.lean ====
section
/-! DEFINITION. Line locks (11 R208 to R222): the lock tables and their queues, the three lock instructions. -/

namespace Sys2Proof.Machine

/-! ### The lock table -/

def State.lockOf (s : State) (line : Nat) : Option Lock := s.lockTab.find? fun k => k.line == line

/-- An entry in place of the line's entry, or a new one. -/
def State.setLock (s : State) (k : Lock) : State :=
  { s with lockTab :=
      if s.lockTab.any fun x => x.line == k.line then s.lockTab.map fun x => if x.line = k.line then k else x
      else s.lockTab ++ [k] }

/-- Entries of the table of a line's home slice. -/
def State.lockSlice (s : State) (line : Nat) : List Lock :=
  s.lockTab.filter fun k => homeOf k.line == homeOf line && sliceOf k.line == sliceOf line

/-- No lock entry is free in the home slice (R208). -/
def State.lockFull (s : State) (line : Nat) : Bool := decide (256 ≤ (s.lockSlice line).length)

/-- The first free waiter record of the home slice (R208). -/
def State.freeRecord (s : State) (line : Nat) : Option Nat :=
  let used := (s.lockSlice line).flatMap fun k => k.queue.map (·.num)
  (List.range 1024).find? fun n => !used.contains n

/-- A waiter is present while its group is resident (R210). -/
def State.present (s : State) (u : Nat) : Bool := s.groups.any fun x => x.2.uid == u && !x.2.ended

/-- The group waits in LCK or LCKQ for the line. -/
def Group.waitsFor (g : Group) (line : Nat) : Bool :=
  match g.wait with
  | some (.lock _ l _ _ _) => l == line
  | _ => false

/-- A group that ended still has stores to the line to perform (R211, R212). -/
def State.endedStores (s : State) (line : Nat) : Bool :=
  s.groups.any fun x => x.2.ended && x.2.acc.any fun a => a.lanes.any fun l =>
    !l.performed && l.places.any fun p => p.local_.map lineOf == some line

/-- The lock status word (R215). -/
def lockWord (code count : Nat) : Word := BitVec.ofNat 32 (count % 65536 * 65536 + code)

/-! ### Ending a wait -/

/-- A wait ends with results written before the group's next run. -/
def State.wake (s : State) (r : GroupRef) (g : Group) (ws : List Write) : State :=
  s.endWait r (ws.foldl (fun g w => g.land g.seq w) g)

/-- A waiting lock request ends with a status and without the lock. -/
def State.refuseLock (s : State) (u code count : Nat) : State :=
  match s.byUid u with
  | none => s
  | some (r, g) =>
    match g.wait with
    | some (.lock d _ _ _ _) => s.wake r g [.uni d (lockWord code count)]
    | _ => s

/-- The clk at which the timeout of a waiting lock request runs out. -/
def Group.deadline (g : Group) : Option Nat :=
  match g.wait with
  | some (.lock _ _ _ _ t) => if t = 0 then none else some (g.waitFrom + 850 * t)
  | _ => none

/-- The timeout of a group's request had not run out at a clk. -/
def State.untimed (s : State) (u clk : Nat) : Bool :=
  match (s.byUid u).bind fun x => x.2.deadline with
  | none => true
  | some t => decide (clk ≤ t)

/-- A waiter may be given a lock: its timeout had not run out before now, or the lock was free before that (R213). -/
def State.inTime (s : State) (k : Lock) (u : Nat) : Bool := s.untimed u s.clk || s.untimed u k.since

/-- The first present waiter whom a free lock may be given to (R210, R213). -/
def State.firstWaiter (s : State) (k : Lock) : Option Waiter := k.queue.find? fun w => s.present w.uid && s.inTime k w.uid

/-- The lock is granted to a waiting group (R211, R212, R215, R220): `k` is the entry without the grantee's record. -/
def State.giveLock (s : State) (k : Lock) (u : Nat) : State :=
  match s.byUid u with
  | none => s
  | some (r, g) =>
    match g.wait with
    | some (.lock d line _ q _) =>
      let s1 := s.setLock { k with holder := some u, poisoned := false }
      let s2 := match q with
        | some a => s1.acquire r.die g.part (s1.acqScope r.die a [line])
        | none => s1
      s2.wake r { g with locks := g.locks ++ [line] } [.uni d (lockWord (bit k.poisoned) k.queue.length)]
    | _ => s

/-- A free lock goes to the first present waiter (R210, R213), once it waits in its LCK again and the last holder's stores are
performed (R211); an entry without holder, waiter and mark goes (R208). -/
def State.passLock (s : State) (line : Nat) : State :=
  match s.lockOf line with
  | none => s
  | some k =>
    if k.holder.isSome then s
    else
      match s.firstWaiter k with
      | none => { s with lockTab := liveLocks s.lockTab }
      | some w =>
        if s.endedStores line || !(s.groups.any fun x => x.2.uid == w.uid && x.2.waitsFor line) then s
        else s.giveLock { k with queue := k.queue.filter fun x => x.uid != w.uid } w.uid

/-! ### The deadlock chase (R214) -/

/-- The line a group waits for, by its waiter record. -/
def waitingLine (t : List Lock) (u : Nat) : Option Lock := t.find? fun k => k.queue.any fun w => w.uid == u

/-- The chase from a holder: the number of groups of the cycle through the requester, `n` groups being passed. -/
def chase (t : List Lock) (req : Nat) : Nat → Nat → Nat → Option Nat
  | 0, _, _ => none
  | k + 1, n, h =>
    if h = req then some n
    else
      match waitingLine t h with
      | none => none
      | some e =>
        match e.holder with
        | none => none
        | some h' => chase t req k (n + 1) h'

/-! ### Requests arriving at the home slice (R209) -/

/-- A waiter record is appended, and the chase is run (R209, R214). -/
def State.enqueueLock (s : State) (k : Lock) (q : LockReq) : State :=
  match s.freeRecord q.line with
  | none => s.refuseLock q.uid 7 0
  | some n =>
    let s1 := s.setLock { k with queue := k.queue ++ [⟨n, q.uid⟩] }
    match k.holder.bind fun h => chase s1.lockTab q.uid 16 1 h with
    | none => s1
    | some len =>
      let s2 := match s.byUid q.uid with
        | some (r, g) => s.postDeadlock r g (q.ea &&& ~~~(0x7F : Addr))
        | none => s
      s2.refuseLock q.uid 3 len

/-- A request of LCK (R209, R213, R216, R220). A group that does not wait for the line any more, or whose timeout has run
out, is not served. -/
def State.lockTaken (s : State) (q : LockReq) : State :=
  if !(s.groups.any fun x => x.2.uid == q.uid && x.2.waitsFor q.line) || !s.untimed q.uid s.clk then s
  else
    match s.lockOf q.line with
    | none =>
      if s.lockFull q.line then s.refuseLock q.uid 7 0 else s.giveLock ⟨q.line, none, s.clk, [], false, q.part⟩ q.uid
    | some k =>
      if k.holder = some q.uid then s
      else
        let ahead := (k.queue.takeWhile fun w => w.uid != q.uid).any fun w => s.present w.uid && s.inTime k w.uid
        if k.holder.isNone && !ahead && !s.endedStores q.line then
          s.giveLock { k with queue := k.queue.filter fun w => w.uid != q.uid } q.uid
        else if k.queue.any fun w => w.uid == q.uid then s
        else s.enqueueLock k q

/-- A request of LCKQ (R221). The manual does not say what it gets for a line that is free but for stores of a group that
ended while it held the line: R209 grants a free line at once, R211 and R212 want those stores performed first. Here it gets
BUSY with the number of waiters (assumption 82). -/
def State.lockTried (s : State) (q : LockReq) : State :=
  match s.lockOf q.line with
  | none =>
    if s.lockFull q.line then s.refuseLock q.uid 7 0 else s.giveLock ⟨q.line, none, s.clk, [], false, q.part⟩ q.uid
  | some k =>
    if k.holder.isNone && !(k.queue.any fun w => s.present w.uid) && !s.endedStores q.line then s.giveLock k q.uid
    else s.refuseLock q.uid 4 k.queue.length

/-- The acknowledgement of a ULCK (R222). -/
def Group.unlocked (g : Group) (line : Nat) : Group :=
  { g with acc := g.acc.map fun a =>
      if a.kind = .unlock line then
        { a with lanes := a.lanes.map fun l => if l.st = .done [] then { l with st := .done [0] } else l }
      else a }

/-- The release of a ULCK (R222): the lock passes on. -/
def State.lockReleased (s : State) (q : LockReq) : State :=
  let s1 := { s with groups := s.groups.map fun (x : GroupRef × Group) =>
    if x.2.uid = q.uid then (x.1, x.2.unlocked q.line) else x }
  match s1.lockOf q.line with
  | none => s1
  | some k => if k.holder = some q.uid then (s1.setLock { k with holder := none, since := s.clk }).passLock q.line else s1

/-- The slice clock and port at which a request reaches its home slice (R209): requests of one slice clock arrive in
ascending port order, and a clk has two slice clocks (01 R14). None when it cannot arrive in this clk any more. -/
def State.portFor (s : State) (q : LockReq) : Option PortUse :=
  let port := requestPort q.src (homeOf q.line)
  match Tbl.find s.ports (homeOf q.line, sliceOf q.line) with
  | none => some ⟨2 * s.clk, port⟩
  | some u =>
    if u.sclk < 2 * s.clk then some ⟨2 * s.clk, port⟩
    else if u.port < port then some ⟨u.sclk, port⟩
    else if u.sclk = 2 * s.clk then some ⟨u.sclk + 1, port⟩
    else none

/-- Lock requests with a release added: before later requests of its group to its line, which were issued after it (R209). -/
def withRelease (q : LockReq) : List LockReq → List LockReq
  | [] => [q]
  | x :: rest => if x.uid = q.uid ∧ x.line = q.line then q :: x :: rest else x :: withRelease q rest

/-- A ULCK of the group to the line has not sent its release. -/
def Group.releaseUnsent (g : Group) (line : Nat) : Bool :=
  g.acc.any fun a => a.kind == .unlock line && a.lanes.any fun l => l.st == .waiting

/-- An earlier request of the group to the line has not reached the home: one before it in flight, or the release of a ULCK
that is still to be sent (R209). -/
def State.earlierRequest (s : State) (k : Nat) (q : LockReq) : Bool :=
  ((s.lockReqs.take k).any fun x => x.uid == q.uid && x.line == q.line) ||
  (q.kind != .release && ((s.byUid q.uid).map fun x => x.2.releaseUnsent q.line).getD false)

/-- The k-th lock request in flight arrives (R209): in the group's issue order, and in port order. One of an old incarnation
is dropped (09 R198). -/
def State.lockArrives (s : State) (k : Nat) : State :=
  match s.lockReqs[k]? with
  | none => s
  | some q =>
    if s.earlierRequest k q then s
    else
      match s.portFor q with
      | none => s
      | some u =>
        let s1 := { s with
          lockReqs := s.lockReqs.eraseIdx k
          ports := Tbl.put s.ports (homeOf q.line, sliceOf q.line) u }
        if q.inc ≠ s.incs[q.src.die] then s1
        else
          match q.kind with
          | .take => s1.lockTaken q
          | .try_ => s1.lockTried q
          | .release => s1.lockReleased q

/-! ### The lock instructions -/

/-- The result of the checks of R219. -/
inductive LockCheck where
  | miss (block : Nat)
  | fault (c : Cause) (detail : Nat)
  | ok (line : Nat) (at_ : Attr) (t : List Trans)

/-- The checks of R219; `take` asks for room in the held-lock list. -/
def State.checkLock (s : State) (c : Ctx) (ea : Addr) (take : Bool) : LockCheck :=
  match windowOf ea with
  | .glob va =>
    match s.checkPage c.r c.g ⟨true, false, 1⟩ false va with
    | .miss k => .miss k
    | .fault cause => .fault cause 0
    | .ok ps =>
      match ps with
      | (.mem pa at_, t) :: _ =>
        if at_.d || at_.hs || at_.home == 3 then .fault .lock 0
        else if take && !c.g.locks.contains (lineOf pa) && decide (8 ≤ c.g.locks.length) then .fault .lock 1
        else .ok (lineOf pa) at_ t.toList
      | _ => .fault .space 0
  | .priv _ | .team _ | .const _ | .none => .fault .range 0

/-- A lock instruction: nothing without an active lane, the checks, then `f` (R218, R219). -/
def lockWordOp (i : Instr) (s : State) (b j : Reg) (take : Bool) (f : Ctx → Addr → Nat → Attr → List Trans → State) : Out :=
  s.withCtx i fun c =>
    if c.act = 0 then s.finish c c.g .falls []
    else
      let ea := c.groupAddr b j
      match s.checkLock c ea take with
      | .miss k => s.setGroup c.r { c.g with xlate := [k] }
      | .fault cause detail => s.trapAll c cause detail ea
      | .ok line at_ ts => f c ea line at_ ts

/-- A request of the group's LCK to the line is on its way. -/
def State.taking (s : State) (u line : Nat) : Bool := s.lockReqs.any fun q => q.uid == u && q.line == line && q.kind == .take

/-- The group's waiter record or its request to the line is still there. -/
def State.rejoins (s : State) (u line : Nat) : Bool :=
  (s.lockTab.any fun k => k.line == line && k.queue.any fun w => w.uid == u) || s.taking u line

/-- A lock request of a group leaves its core. An LCK executed again sends none while its first is still on its way (R216). -/
def State.sendLock (s : State) (q : LockReq) : State :=
  if q.kind = .take ∧ s.taking q.uid q.line then s else { s with lockReqs := s.lockReqs ++ [q] }

/-- The timeout of an LCK in µs: what is left of an abandoned wait whose record it rejoins, or s_d (R216, R220). -/
def State.lockTimeout (s : State) (c : Ctx) (d : Reg) (line : Nat) : Nat :=
  match c.g.lockLeft with
  | some x => if x.line = line ∧ s.rejoins c.g.uid line then x.left else wfield (c.g.uni d) 23 0
  | none => wfield (c.g.uni d) 23 0

/-- LCK and LCKQ (R220, R221): HELD for a line on the list; else the request is sent and the group waits. -/
def requestLock (kind : LockReqKind) (i : Instr) (s : State) (d b j : Reg) (q : Order) : Out :=
  lockWordOp i s b j true fun c ea line _ ts =>
    if c.g.locks.contains line then s.finish c (c.g.land c.seq (.uni d (lockWord 5 0))) .falls []
    else
      match s.holdFor c q (modeScope c.g.mode) [line] with
      | .stays t => t
      | .goes t h =>
        let timeout := match kind with
          | .take => s.lockTimeout c d line
          | .try_ | .release => 0
        let s1 := t.touchAll ts false
        (s1.sendLock ⟨kind, c.g.uid, c.r.at, s1.incs[c.r.die], line, ea, c.g.part⟩).beginWait c
          { c.g with lockLeft := none } (.lock d line ea (owedAcquire q h) timeout)

/-- LCK (R220). -/
def execLck (y : Bool) (d b j : Reg) (q : Order) (s : State) : Out := requestLock .take (.lck y d b j q) s d b j q

/-- LCKQ (R221). -/
def execLckq (y : Bool) (d b j : Reg) (q : Order) (s : State) : Out := requestLock .try_ (.lckq y d b j q) s d b j q

/-- A ULCK as an access of counter K. -/
def unlockAccess (c : Ctx) (d : Reg) (ea : Addr) (line : Nat) (at_ : Attr) (st : LaneSt) : Access :=
  { id := c.seq, path := .k, kind := .unlock line, dest := .uni d, word := c.word, pc := c.pcAddr, act := c.act
    lanes := [⟨wholeLane, ea, [.mem line at_], [], st, 0⟩], acq := none, mode := c.g.mode, flags := 0, done := false }

/-- ULCK (R222): the line leaves the list at issue, after the release half; the release goes to the home later. -/
def execUlck (y : Bool) (d b j : Reg) (q : Order) (s : State) : Out :=
  lockWordOp (.ulck y d b j q) s b j false fun c ea line at_ ts =>
    if s.noRoom c .k (bit (c.g.locks.contains line)) then s.stall c
    else if !c.g.locks.contains line then
      (s.touchAll ts false).finish c (c.g.addAccess (unlockAccess c d ea line at_ (.done [6]))) .falls []
    else
      match s.holdFor c q (modeScope c.g.mode) [line] with
      | .stays t => t
      | .goes t _ =>
        (t.touchAll ts false).finish c
          (({ c.g with locks := c.g.locks.filter (· != line) } : Group).addAccess (unlockAccess c d ea line at_ .waiting))
          .falls []

end Sys2Proof.Machine
end

