-- ==== Sys2Proof/Machine/Control.lean ====
section
/-! DEFINITION. Control instructions, the reconvergence and return stacks, lane sets (spec 04). Latencies are those of
R59. -/

namespace Sys2Proof.Machine

/-! ### Shared operations -/

/-- A control instruction without an active lane has no effect and its entry goes on (R58). -/
def control (i : Instr) (s : State) (k : Ctx → State) : Out :=
  s.withCtx i fun c => if c.act = 0 then s.finish c c.g .falls [] else k c

/-- The offset of the next word. -/
def Ctx.next (c : Ctx) : Word := c.e.pc + 4

/-- A uniform transfer (R60). -/
def State.branch (s : State) (c : Ctx) (g : Group) (taken : Bool) (o : BitVec 18) : State :=
  s.finish c g (if taken then .goes (jumpTarget c.e.pc o) else .falls) []

/-- A result written before the next run of the group (R59). -/
def Group.now (g : Group) (c : Ctx) (w : Write) : Group := g.land c.seq w

/-- The live entries with the issuing one on top (R56 exchange). -/
def Group.exchanged (g : Group) (live : Nat) : List Entry :=
  match live, g.stack with
  | 1, a :: b :: rest => b :: a :: rest
  | _, st => st

/-- An instruction whose effect needs a slot that is not free traps in every active lane (R57). -/
def State.restack (s : State) (c : Ctx) (g : Group) (stack : List Entry) (rets : List RetEntry) (cont : Bool) : State :=
  if g.fits stack.length rets.length then s.finish c { g with stack := stack, rets := rets } (.restacked cont) []
  else s.trapAll c .stackOvf 0

/-- The issuing entry is split where it stands (R54): its pieces go on top, the lowest destination uppermost. A handler
entry is no path: it goes where its serviced lane goes (assumption 21). -/
def State.split (s : State) (c : Ctx) (dest : Nat → Word) : State :=
  if c.serial then s.finish c c.g (.goes (dest (lowest c.e.mask))) []
  else
    s.restack c c.g (splitEntries c.g.w c.e.mask c.e.join dest ++ c.g.stack.eraseIdx c.run.live) c.g.rets false

/-! ### Branches (R60 to R63) -/

/-- BRA (R60): the entry goes to the target. -/
def execBra (y : Bool) (o : BitVec 18) (s : State) : Out :=
  control (.bra y o) s fun c => s.branch c c.g true o

/-- BZ (R60): the transfer is made when s_a is 0. -/
def execBz (y : Bool) (a : Reg) (o : BitVec 18) (s : State) : Out :=
  control (.bz y a o) s fun c => s.branch c c.g (c.g.uni a == 0) o

/-- BNZ (R60): the transfer is made when s_a is not 0. -/
def execBnz (y : Bool) (a : Reg) (o : BitVec 18) (s : State) : Out :=
  control (.bnz y a o) s fun c => s.branch c c.g (c.g.uni a != 0) o

/-- LOOP (R60): s_a is decremented, and the transfer is made when it is then not 0. -/
def execLoop (y : Bool) (a : Reg) (o : BitVec 18) (s : State) : Out :=
  control (.loop y a o) s fun c => s.branch c (c.g.now c (.uni a (c.g.uni a - 1))) (c.g.uni a - 1 != 0) o

/-- BRP (R61): each active lane whose predicate bit, inverted by n, is 1 takes the branch, and the entry is split. -/
def execBrp (y : Bool) (n : Bool) (p : BitVec 3) (o : BitVec 18) (s : State) : Out :=
  control (.brp y n p o) s fun c =>
    s.split c fun l => if c.act.getLsbD l && ((c.g.predicate p).getLsbD l ^^ n) then jumpTarget c.e.pc o else c.next

/-- SETJ (R62): the entry becomes a continuation at the target below a path entry that joins there; the run goes on from
that path. Where the target is the next word that path is arrived at once and can issue nothing: the run ends, which R62
leaves open (assumption 67). A handler entry only goes on (assumption 21). -/
def execSetj (y : Bool) (o : BitVec 18) (s : State) : Out :=
  control (.setj y o) s fun c =>
    let target := jumpTarget c.e.pc o
    if c.serial then s.finish c c.g .falls []
    else
    match c.g.exchanged c.run.live with
    | e :: below =>
      s.restack c c.g (pathEntry c.next e.mask (some target) :: { e with kind := .cont, pc := target } :: below) c.g.rets
        (c.next != target)
    | [] => s.finish c c.g .falls []

/-- JOIN (R63): no effect but the end of its run. -/
def execJoin (y : Bool) (s : State) : Out := control (.join y) s fun c => s.finish c c.g .falls []

/-! ### Calls and returns (R64 to R67) -/

/-- A call to a uniform target (R64). -/
def State.callTo (s : State) (c : Ctx) (target : Word) : State :=
  match c.g.exchanged c.run.live with
  | e :: below =>
    s.restack c c.g ({ e with pc := target } :: below) (⟨c.next, depthAt c.g.stack 0⟩ :: c.g.rets) false
  | [] => s.finish c c.g .falls []

/-- CALL (R64): call of the J-format target. -/
def execCall (y : Bool) (o : BitVec 18) (s : State) : Out :=
  control (.call y o) s fun c => s.callTo c (jumpTarget c.e.pc o)

/-- CALLI (R64): call of the offset in s_a. -/
def execCalli (y : Bool) (a : Reg) (s : State) : Out :=
  control (.calli y a) s fun c => s.callTo c (alignCode (c.g.uni a))

/-- CALLV (R66): the active lanes go to their own targets, with the next word as their link and their join point. A
handler entry goes to the target of its serviced lane (assumption 21). -/
def execCallv (y : Bool) (d a : Reg) (s : State) : Out :=
  control (.callv y d a) s fun c =>
    if c.serial then
      s.finish c (c.g.now c (c.write d .n32 fun _ => c.next)) (.goes (alignCode (c.g.lane a (lowest c.e.mask)))) []
    else
    match c.g.exchanged c.run.live with
    | e :: below =>
      let pieces := splitEntries c.g.w e.mask (some c.next) fun l =>
        if c.act.getLsbD l then alignCode (c.g.lane a l) else c.next
      s.restack c (c.g.now c (c.write d .n32 fun _ => c.next)) (pieces ++ { e with kind := .cont, pc := c.next } :: below)
        c.g.rets false
    | [] => s.finish c c.g .falls []

/-- RET (R65): the entry goes to the newest return offset, which is taken off. -/
def execRet (y : Bool) (s : State) : Out :=
  control (.ret y) s fun c =>
    match c.g.rets with
    | [] => s.trapAll c .retEmpty 0
    | t :: rest =>
      if depthAt c.g.stack c.run.live ≠ t.depth then s.trapAll c .retDiv 0
      else s.finish c { c.g with rets := rest } (.goes t.off) []

/-- RETV (R67): each active lane goes to its link value, and the entry is split. -/
def execRetv (y : Bool) (a : Reg) (s : State) : Out :=
  control (.retv y a) s fun c =>
    s.split c fun l => if c.act.getLsbD l then alignCode (c.g.lane a l) else c.next

/-! ### Exit and no operation (R55, R68, R69) -/

/-- EXIT (R68): the active lanes leave every entry; a lane with an undelivered mark takes its trap instead (08 R157). In
serial mode service of the lane ends. -/
def execExit (y : Bool) (s : State) : Out :=
  control (.exit y) s fun c =>
    let ms := c.g.marks.filter fun m => c.act.getLsbD m.lane
    let g := c.g.issued c true
    if c.serial && ms.isEmpty then s.endLane c 3 0
    else
      let gone := c.act &&& ~~~(maskOf (ms.map (·.lane)))
      let g1 := { g with stack := exitLanes gone g.stack }
      if ms.isEmpty then
        let rest := { c.e with mask := c.e.mask &&& ~~~gone }
        let g2 := ({ g1 with stack := g1.stack.set c.run.live { rest with pc := c.next } } : Group).settle
        s.runEnds c.r g2 (nextTop rest c.run.live g2.stack)
      else s.deliverMarks c.r c.run c.e g1 ms

/-- NOP (R69): no effect. -/
def execNop (y : Bool) (s : State) : Out := issueRegs (.nop y) (fun _ => .ok []) s

/-! ### Lane sets (R70) -/

/-- A whole predicate. -/
def predAll (d : BitVec 3) (m : Mask) : Result := .ok [(2, .pred d (BitVec.allOnes 64) m)]

/-- A predicate operation on the bits of the active lanes. -/
def predOp (f : Mask → Mask → Mask) (d a b : BitVec 3) (c : Ctx) : Result :=
  .ok [(2, .pred d c.act (f (c.g.predicate a) (c.g.predicate b)))]

/-- ELECT (R70): only the bit of the lowest active lane. -/
def execElect (y : Bool) (d : BitVec 3) (s : State) : Out :=
  issueRegs (.elect y d) (fun c => predAll d (laneBit (lowest c.act))) s

/-- BALLOT (R70): the active lanes whose v_a is not 0. -/
def execBallot (y : Bool) (d a : Reg) (s : State) : Out :=
  issueRegs (.ballot y d a) (fun c => .ok (pairWrites 3 d (maskOf (c.lanes.filter fun l => c.g.lane a l != 0)))) s

/-- VOTE_ANY (R70): 1 when some active lane's bit of p_a is 1. -/
def execVoteAny (y : Bool) (d : Reg) (a : BitVec 3) (s : State) : Out :=
  issueRegs (.voteAny y d a) (fun c => uniResult 3 d (flagWord (c.g.predicate a &&& c.act != 0))) s

/-- VOTE_ALL (R70): 1 when every active lane's bit of p_a is 1. -/
def execVoteAll (y : Bool) (d : Reg) (a : BitVec 3) (s : State) : Out :=
  issueRegs (.voteAll y d a) (fun c => uniResult 3 d (flagWord (c.g.predicate a &&& c.act == c.act))) s

/-- ACTIVE (R70): the active lanes. -/
def execActive (y : Bool) (d : BitVec 3) (s : State) : Out := issueRegs (.active y d) (fun c => predAll d c.act) s

/-- PMOVS (R70): a predicate into a pair. -/
def execPmovs (y : Bool) (d : Reg) (a : BitVec 3) (s : State) : Out :=
  issueRegs (.pmovs y d a) (fun c => .ok (pairWrites 3 d (c.g.predicate a))) s

/-- SMOVP (R70): a pair into a predicate. -/
def execSmovp (y : Bool) (d : BitVec 3) (a : Reg) (s : State) : Out :=
  issueRegs (.smovp y d a) (fun c => predAll d (c.g.pair a)) s

/-- PAND (R70). -/
def execPand (y : Bool) (d a b : BitVec 3) (s : State) : Out := issueRegs (.pand y d a b) (predOp (· &&& ·) d a b) s

/-- POR (R70). -/
def execPor (y : Bool) (d a b : BitVec 3) (s : State) : Out := issueRegs (.por y d a b) (predOp (· ||| ·) d a b) s

/-- PXOR (R70). -/
def execPxor (y : Bool) (d a b : BitVec 3) (s : State) : Out := issueRegs (.pxor y d a b) (predOp (· ^^^ ·) d a b) s

/-- PNOT (R70). -/
def execPnot (y : Bool) (d a : BitVec 3) (s : State) : Out := issueRegs (.pnot y d a) (predOp (fun p _ => ~~~p) d a a) s

/-- PANDN (R70). -/
def execPandn (y : Bool) (d a b : BitVec 3) (s : State) : Out :=
  issueRegs (.pandn y d a b) (predOp (fun p q => p &&& ~~~q) d a b) s

/-- The active lanes whose key equals that of lane l (R71). -/
def Ctx.matching (c : Ctx) (a : Reg) (l : Nat) : Mask := maskOf (c.lanes.filter fun k => c.g.lane a k == c.g.lane a l)

/-- MATCH (R71): each active lane gets the mask of active lanes with its key, in one register, or two at width 64. -/
def execMatchK (y : Bool) (d a : Reg) (s : State) : Out :=
  issueRegs (.matchK y d a) (fun c => .ok
    ((6, c.write d .n32 fun l => loWord (c.matching a l)) ::
      (if c.g.w = 64 then [(6, c.write (d + 1) .n32 fun l => hiWord (c.matching a l))] else []))) s

end Sys2Proof.Machine
end

