-- ==== Sys2Proof/Machine/System.lean ====
section
/-! DEFINITION. Special and system registers (03 R38, 05 R85 to R88, 09 R185), the mode, trap and privileged instructions
that make no memory access (09 R176 to R190, 03 R48, R49). -/

namespace Sys2Proof.Machine

/-! ### The harvest and the logical-to-physical table (01 R12, R13, 05 R86, R87) -/

/-- The exposed cores of a die, in ascending physical order: logical core i is the i-th. -/
def State.exposed (s : State) (d : Fin 12) : List (Fin 36) :=
  (List.finRange 36).filter fun c => (s.harvest[d]).getLsbD c.val

/-- The logical number of a physical core. -/
def State.logical (s : State) (d : Fin 12) (c : Fin 36) : Nat := ((s.exposed d).filter fun x => x.val < c.val).length

/-- The quad of a physical core (R12). -/
def quadOf (c : Nat) : Nat := 3 * (c / 6 / 2) + c % 6 / 2

/-- The matrix partner of a physical core (R12). -/
def partnerOf (c : Fin 36) : Fin 36 := if h : c.val % 2 = 0 then ⟨c.val + 1, by omega⟩ else ⟨c.val - 1, by omega⟩

/-- The partner of a core is exposed. -/
def State.paired (s : State) (d : Fin 12) (c : Fin 36) : Bool := (s.harvest[d]).getLsbD (partnerOf c).val

/-- Die d stands in DIEOK; the maps of the others read 0 (R88). -/
def State.dieOk (s : State) (d : Fin 12) : Bool := s.dieok.getLsbD d.val

/-- HMAPd (R86). -/
def State.hmap (s : State) (d : Fin 12) : Addr := if s.dieOk d then (s.harvest[d]).setWidth 64 else 0

/-- The LPT entry of an index (R87). -/
def State.lptEntry (s : State) (i : Nat) : Word :=
  let dn := i / 64
  let lc := i % 64
  if h : dn < 12 then
    let d : Fin 12 := ⟨dn, h⟩
    let base := dn * 2 ^ 24 + lc * 2 ^ 18
    if s.dieOk d then
      let cs := s.exposed d
      let known := base + cs.length * 2 ^ 12
      match cs[lc]? with
      | none => BitVec.ofNat 32 known
      | some p => BitVec.ofNat 32 (2 ^ 31 + known + quadOf p.val * 256 + bit (!s.paired d p) * 128 + p.val)
    else BitVec.ofNat 32 base
  else 0

/-! ### Reading special and system registers -/

/-- Dies of the group's grid. -/
def State.gridDies (s : State) (g : Group) : Nat := ((s.grid g.grid).map fun x => x.dies.length).getD 1

/-- A special register as the issuing instruction reads it (03 R38). `index` is that of LPT. -/
def State.special (s : State) (c : Ctx) (index : Nat) (n : SReg) : Addr :=
  let g := c.g
  let small (x : Nat) : Addr := BitVec.ofNat 64 x
  match n with
  | .lane => small (lowest c.act)
  | .width => small g.w
  | .group => small g.idx
  | .team => small g.team
  | .cluster => small (g.clu / s.gridDies g)
  | .die => small c.r.die.val
  | .ndie => small (s.gridDies g)
  | .grid => small g.grid
  | .core => small (s.logical c.r.die c.r.core)
  | .pcore => small c.r.core.val
  | .part => small g.part.val
  | .clk => small s.clk
  | .time => small s.time
  | .lpt => (s.lptEntry index).setWidth 64
  | .fstat => (fstatWord g.fstat).setWidth 64
  | .handler => g.handler
  | .tcause => g.trap.tcause.setWidth 64
  | .tpc => g.trap.tpc
  | .tword => g.trap.tword.setWidth 64
  | .topa => g.trap.topa.setWidth 64
  | .topb => g.trap.topb.setWidth 64
  | .topc => g.trap.topc.setWidth 64
  | .tlanes => g.trap.tlanes
  | .taddr => g.trap.taddr
  | .tstack => g.trap.tstack.setWidth 64
  | .gstat => (g.gstatWord c.serial).setWidth 64
  | .hmap d => s.hmap d

/-- A system register (09 R185). -/
def State.system (s : State) (c : Ctx) (n : SysReg) : Addr :=
  match n with
  | .sr n => s.special c 0 n
  | .tbase => (s.parts[c.g.part]).tbase
  | .codebase => c.g.codeBase
  | .pstore => c.g.store

/-- A register of one word, or of a pair. -/
def regWrites (wide : Bool) (d : Reg) (x : Addr) : List (Nat × Write) :=
  if wide then pairWrites 4 d x else [(4, .uni d (loWord x))]

/-- SRDSR (05 R85): a special register; LANE outside serial mode goes to every active lane. -/
def execSrdsr (y : Bool) (d : Reg) (j : BitVec 10) (n : SReg) (s : State) : Out :=
  issueRegs (.srdsr y d j n) (fun c =>
    if n = .lane ∧ c.serial = false then .ok [(4, c.write d .n32 fun l => BitVec.ofNat 32 l)]
    else
      let index := if j = 0x3FF then wfield (c.g.uni d) 9 0 else j.toNat
      .ok (regWrites n.wide d (s.special c index n))) s

/-- SYSRD (09 R185): a special or system register. -/
def execSysrd (y : Bool) (d : Reg) (n : SysReg) (s : State) : Out :=
  issueRegs (.sysrd y d n) (fun c => .ok (regWrites n.wide d (s.system c n))) s

/-- The group with a system register written (09 R175, R185); the other registers are not writable. -/
def Group.sysWrite (g : Group) (n : SysReg) (lo : Word) (x : Addr) : Group :=
  match n with
  | .sr .handler => { g with handler := x }
  | .sr .tcause => { g with trap := { g.trap with tcause := g.trap.tcause.extractLsb' 16 16 ++ lo.extractLsb' 0 16 } }
  | .sr .tpc => { g with trap := { g.trap with tpc := x } }
  | .sr .taddr => { g with trap := { g.trap with taddr := x } }
  | .sr .gstat => { g with resumed := lo.getLsbD 3, forcedB := lo.getLsbD 0 }
  | _ => g

/-- SYSWR (09 R185): a writable register from s_d. -/
def execSyswr (y : Bool) (d : Reg) (n : SysReg) (s : State) : Out :=
  s.withCtx (.syswr y d n) fun c => s.finish c (c.g.sysWrite n (c.g.uni d) (c.g.pair d)) .falls []

/-! ### MODE (09 R176 to R178) -/

/-- MODE written with a legal value when a lane is active; a reserved value is ILLEGAL, detail 2, before the guard, with
nothing changed (03 R40, R45, R46). -/
def State.setMode (s : State) (c : Ctx) (g : Group) (mode : Word) (ws : List (Nat × Write)) : State :=
  if !modeLegal mode then s.trapIllegal c .field true
  else if c.act = 0 then s.finish c c.g .falls []
  else s.finish c (g.laters c.seq (ws ++ [(2, .mode mode)])) .falls []

/-- SETMODE (R176). -/
def execSetmode (y : Bool) (a : Reg) (s : State) : Out :=
  s.withCtx (.setmode y a) fun c => s.setMode c c.g (c.g.uni a) []

/-- The group with its status flags cleared, those of results not yet written too (R178). -/
def Group.clearFlags (g : Group) : Group :=
  { g with
    fstat := 0
    pend := g.pend.filter fun p =>
      match p.what with
      | .flags _ => false
      | _ => true }

/-- MODEF (R176, R178): FSTAT read and cleared, MODE changed under the mask s_b. The flags of an atomic, a RED or an LDRED that
is still in flight are not known yet (11 R203): R178 clears the flags of every earlier instruction whatever its latency, and
does not say how it meets those. Here they join FSTAT after the clear, when they land (assumption 81). -/
def execModef (y : Bool) (d a b : Reg) (s : State) : Out :=
  s.withCtx (.modef y d a b) fun c =>
    let mode := (c.g.mode &&& ~~~(c.g.uni b)) ||| (c.g.uni a &&& c.g.uni b)
    s.setMode c c.g.clearFlags mode [(20, .uni d (fstatWord (c.g.fstat ||| c.g.pendingFlags)))]

/-- GETMODE (R176). -/
def execGetmode (y : Bool) (d : Reg) (s : State) : Out :=
  issueRegs (.getmode y d) (fun c => uniResult 2 d c.g.mode) s

/-! ### Traps (09 R179 to R183, 03 R48, R49) -/

/-- TRAP (R180): cause TRAP with detail n in every active lane. -/
def execTrap (y : Bool) (n : BitVec 6) (s : State) : Out :=
  control (.trap y n) s fun c => s.trapAll c .trap n.toNat

/-- RETT (R183): the lane under service resumes at TPC. -/
def execRett (y : Bool) (s : State) : Out :=
  s.withCtx (.rett y) fun c => s.endLane c 2 (alignCode (loWord (c.g.trap.tpc - c.g.codeBase)))

/-- RETT_NEXT (R183): the lane under service resumes after TPC. -/
def execRettNext (y : Bool) (s : State) : Out :=
  s.withCtx (.rettNext y) fun c => s.endLane c 2 (alignCode (loWord (c.g.trap.tpc - c.g.codeBase)) + 4)

/-- RETT_KILL (R183): the lane under service exits. -/
def execRettKill (y : Bool) (s : State) : Out := s.withCtx (.rettKill y) fun c => s.endLane c 3 0

/-- YIELD (R182): no grant for 64 clk, or until no other group of its scheduler partition has an eligible entry. -/
def execYield (y : Bool) (s : State) : Out :=
  control (.yield y) s fun c => s.finish c { c.g with yieldUntil := s.clk + 64 } .falls []

/-- EMU (03 R48): ILLEGAL, detail 6. -/
def execEmu (y : Bool) (d a b c : Reg) (s : State) : Out :=
  s.withCtx (.emu y d a b c) fun k => s.trapIllegal k .emu true

/-- ILL (03 R49): ILLEGAL, detail 7. -/
def execIll (y : Bool) (i : BitVec 24) (s : State) : Out := s.withCtx (.ill y i) fun k => s.trapIllegal k .ill true

/-! ### Halting and sleeping (09 R181, R189, R190) -/

/-- The group issues no more until the host resumes it, from the next word; the halt is reported (R189, 19 R316). -/
def State.haltGroup (s : State) (c : Ctx) : State :=
  let s1 := s.finish c c.g .falls []
  match s1.group c.r with
  | none => s1
  | some g =>
    ((s1.writeArea g).setGroup c.r { g.stopRun.areaDone with wait := some .halted, waitFrom := s.clk }).postHalt c.r g c.pcAddr

/-- HALT (R189). -/
def execHalt (y : Bool) (s : State) : Out := s.withCtx (.halt y) fun c => s.haltGroup c

/-- BRKPT (R181): as TRAP with cause BRKPT, or a halt in a grid launched with debugging enabled. -/
def execBrkpt (y : Bool) (n : BitVec 6) (s : State) : Out :=
  control (.brkpt y n) s fun c => if c.g.debug then s.haltGroup c else s.trapAll c .brkpt n.toNat

/-- SLEEP (R190): waits until TIME is at least the pair. -/
def execSleep (y : Bool) (a : Reg) (s : State) : Out :=
  s.withCtx (.sleep y a) fun c =>
    if (c.g.pair a).toNat ≤ s.time then s.finish c c.g .falls []
    else s.beginWait c c.g (.sleep (c.g.pair a).toNat)

end Sys2Proof.Machine
end

