-- ==== Sys2Proof/Machine/Context.lean ====
section
/-! DEFINITION. Dropping translations and saving and loading a group's state (09 R186 to R188, R191). -/

namespace Sys2Proof.Machine

/-! ### An access made once for the group that issues without a page check -/

/-- The access record of an instruction that acts once for the group. -/
def Ctx.once (c : Ctx) (k : Path) (kind : AccKind) (dest : Dest) (ea : Addr) (places : List Place) (data : List Word) :
    Access :=
  { id := c.seq, path := k, kind := kind, dest := dest, word := c.word, pc := c.pcAddr, act := c.act
    lanes := [⟨wholeLane, ea, places, data, .waiting, 0⟩], acq := none, mode := c.g.mode, flags := 0, done := false }

/-- It is issued when its counter has room (08 R151): it makes no request of its own to a line. -/
def State.issueOnce (s : State) (c : Ctx) (a : Access) : State :=
  if s.noRoom c a.path 0 then s.stall c else s.finish c (c.g.addAccess a) .falls []

/-! ### TLBINV (R186) -/

/-- TLBINV (R186): the page of a global address. -/
def execTlbinv (y : Bool) (a : Reg) (s : State) : Out :=
  s.withCtx (.tlbinv y a) fun c =>
    let ea := c.g.pair a
    match windowOf ea with
    | .glob va => s.issueOnce c (c.once .g (.dropTlb (s.cid c.g.part) (some va)) .none ea [] [])
    | .priv _ | .team _ | .const _ | .none => s.trapAll c .range 0 ea

/-- TLBINV_ALL (R186): every translation of the CID. -/
def execTlbinvAll (y : Bool) (s : State) : Out :=
  s.withCtx (.tlbinvAll y) fun c => s.issueOnce c (c.once .g (.dropTlb (s.cid c.g.part) none) .none 0 [] [])

/-- A walk's result holds a translation of the page of a block; one that found no leaf may concern any page. -/
def Walk.covers (w : Walk) (block : Nat) : Bool :=
  match w.leaf with
  | some (_, blocks, _) => decide (w.block / blocks = block / blocks)
  | none => true

/-- Translations of a CID are dropped: all, or those of the page of an address, those that walks for a stalled instruction
found among them (R186). -/
def State.dropTranslations (s : State) (cid : BitVec 12) (va : Option Nat) : State :=
  let drops (f : Nat → Bool) : Bool := match va with
    | none => true
    | some v => f (v / 65536)
  { s with
    tlb := s.tlb.filter fun e => !(e.cid == cid && drops fun b => decide (e.block ≤ b ∧ b < e.block + e.blocks))
    groups := s.groups.map fun (x : GroupRef × Group) =>
      if s.cid x.2.part = cid then (x.1, { x.2 with walks := x.2.walks.filter fun w => !drops w.covers }) else x }

/-! ### Group images (R191) -/

/-- Bytes of an image. -/
def imageBytes (v w : Nat) : Nat := 0x680 + 4 * v * w

/-- The words of a 64-bit value. -/
def words64 (x : Addr) : List Word := [loWord x, hiWord x]

/-- Lists filled with zeros to a length. -/
def padTo (n : Nat) (ws : List Word) : List Word := (ws ++ List.replicate n 0).take n

/-- A lane trap record of the image. -/
def LaneTrap.words (t : LaneTrap) : List Word :=
  [t.cause, BitVec.ofNat 32 (t.state.toNat * 2 ^ 30 + t.resume.toNat / 4)] ++ words64 t.addr

/-- The counters of a group as an image holds them. -/
def Group.countsWord (g : Group) : Word :=
  BitVec.ofNat 32 (g.count .g + g.count .t * 2 ^ 8 + g.count .k * 2 ^ 16 + g.count .e * 2 ^ 24)

/-- The lock-queue wait state of a group whose wait in LCK was abandoned (11 R216). A group whose request has not reached
the home has no record yet: 0 there (assumption 37). -/
def State.lockImage (s : State) (g : Group) : BitVec 128 :=
  match g.lockLeft with
  | none => 0
  | some x =>
    let record := ((s.lockOf x.line).bind fun k => (k.queue.find? fun w => w.uid == g.uid).map (·.num)).getD 0
    BitVec.ofNat 128 (2 ^ 127 + x.ea.toNat % 2 ^ 57 / 128 * 128 * 2 ^ 64 + (homeOf x.line).val * 2 ^ 60 +
      sliceOf x.line * 2 ^ 56 + record * 2 ^ 46 + x.left % 2 ^ 24)

/-- The words of a group's image with these counters and lock-queue wait state (R191); `serial` tells that a run in serial
mode writes it. -/
def Group.image (g : Group) (serial : Bool) (counts : Word) (lock : BitVec 128) : List Word :=
  [BitVec.ofNat 32 (2 ^ 24 + g.nv * 65536 + g.w * 256 + min 8 g.rets.length), g.mode, fstatWord g.fstat,
    g.gstatWord serial, counts, g.trap.tcause, g.trap.tword, g.trap.tstack] ++
  words64 g.trap.tpc ++ words64 g.trap.taddr ++ words64 g.trap.tlanes ++ words64 g.handler ++
  [g.trap.topa, g.trap.topb, g.trap.topc, 0] ++ words128 lock ++
  padTo 8 ((g.stack.take 2).flatMap fun e => words128 e.slot) ++
  padTo 32 ((g.rets.take 8).flatMap fun r => words128 r.slot) ++
  g.s.toList ++
  (g.p.toList.flatMap words64) ++
  ((List.range 16).map fun k => wordOf ((List.range 4).map fun i =>
    if 4 * k + i < g.nv then ((g.v[4 * k + i]?.map fun r => r.tag.num.setWidth 8).getD 0) else 0)) ++
  ((List.range 64).flatMap fun l =>
    if l < g.w then ((g.laneTraps[l]?.map LaneTrap.words).getD [0, 0, 0, 0]) else [0, 0, 0, 0]) ++
  ((List.range g.nv).flatMap fun j => (List.range g.w).map fun l => g.lane (BitVec.ofNat 6 j) l)

/-- The checks of an image's address: a global window, 64-byte aligned, every word (R187, R188). -/
def State.checkImage (s : State) (c : Ctx) (n : Need) (ea : Addr) : Checked :=
  let bytes := imageBytes c.g.nv c.g.w
  match windowOf ea with
  | .glob _ => s.checkGeneric c.r c.g n 0 ea (bytes / 4) 64 bytes
  | .priv _ | .team _ | .const _ | .none => .fault .range

/-- Words stored to places of device memory. -/
def State.storePlaces (s : State) (die part : Fin 12) (ps : List Place) (ws : List Word) : State :=
  (ps.zip ws).foldl (fun s x => match x.1 with
    | .mem pa at_ => s.storeWord die part at_ pa x.2
    | .team _ _ | .fab .. => s) s

/-- A word read from a place of device memory. -/
def State.loadPlace (s : State) (die part : Fin 12) (p : Place) : State × Word :=
  match p with
  | .mem pa at_ => s.loadWord die part at_ pa
  | .team _ _ | .fab .. => (s, 0)

/-- Words read from places, with the copies the reads make. -/
def State.loadPlaces (s : State) (die part : Fin 12) : List Place → State × List Word
  | [] => (s, [])
  | p :: rest =>
    let (s1, w) := s.loadPlace die part p
    let (s2, ws) := s1.loadPlaces die part rest
    (s2, w :: ws)

def placePa : Place → Option Nat
  | .mem pa _ => some pa
  | .team _ _ | .fab .. => none

/-- An image instruction waits until every counter is 0, checks its address, then acts (R187, R188). -/
def imageOp (i : Instr) (s : State) (a : Reg) (n : Need) (f : Ctx → List Place → List Trans → State) : Out :=
  s.withCtx i fun c =>
    if !c.g.acc.isEmpty then s
    else
      let ea := c.g.pair a
      match s.checkImage c n ea with
      | .miss k => s.setGroup c.r { c.g with xlate := [k] }
      | .fault cause => s.trapAll c cause 0 ea
      | .ok ps =>
        if ps.any fun x => s.ownedByEngine x.1 then s
        else f c (ps.map (·.1)) (ps.filterMap (·.2))

/-- The group as CTXSV saves it: earlier results written, s_d 1, H at the next word (R187, assumption 27). -/
def Ctx.saved (c : Ctx) (d : Reg) : Group :=
  let g := c.g.settled
  { g with s := g.s.set d.toNat 1, stack := g.stack.set c.run.live { c.e with pc := c.e.pc + 4 } }

/-- CTXSV (R187): the divergence area as it stands is in memory (04 R57), the image is written, counters and lock-queue
wait state 0, then s_d is 0. -/
def execCtxsv (y : Bool) (d a : Reg) (s : State) : Out :=
  imageOp (.ctxsv y d a) s a ⟨true, false, 1⟩ fun c ps ts =>
    (((s.writeArea c.g).touchAll ts true).storePlaces c.r.die c.g.part ps ((c.saved d).image true 0 0)).finish c
      (c.g.areaDone.land c.seq (.uni d 0)) .falls []

/-! ### Loading an image (R188) -/

/-- The word at a byte offset of an image. -/
def imWord (im : List Word) (o : Nat) : Word := im[o / 4]?.getD 0
def imPair (im : List Word) (o : Nat) : Addr := joinWords (imWord im o) (imWord im (o + 4))
def imSlot (im : List Word) (o : Nat) : BitVec 128 := imPair im (o + 8) ++ imPair im o
def imTag (im : List Word) (j : Nat) : Nat := elemBits 8 (imWord im (0x240 + j / 4 * 4)) (j % 4)

/-- The fields of a slot (04 R57). -/
def slotKind (x : BitVec 128) : Nat := wfield x 97 96

/-- A reconvergence entry from a slot; none for a slot without lanes. -/
def entryOfSlot (x : BitVec 128) : Option Entry :=
  if wfield x 63 0 = 0 then none
  else
    some { kind := if slotKind x = 1 then .cont else if slotKind x = 2 then .handler else .path
           pc := BitVec.ofNat 32 (4 * wfield x 95 66)
           mask := x.extractLsb' 0 64
           join := if x.getLsbD 65 then none else some (BitVec.ofNat 32 (4 * wfield x 127 98))
           arrived := x.getLsbD 64, held := false, filled := true }

def retOfSlot (x : BitVec 128) : RetEntry := ⟨BitVec.ofNat 32 (4 * wfield x 95 66), wfield x 15 0⟩

/-- A lane trap record from an image. -/
def imTrap (im : List Word) (l : Nat) : LaneTrap :=
  let o := 0x280 + 16 * l
  ⟨imWord im o, (imWord im (o + 4)).extractLsb' 30 2, imWord im (o + 4) <<< 2, imPair im (o + 8)⟩

/-- No case of R188 makes the image fail. Its fields are those of the registers and slots they hold, whose reserved bits
count as its own, those of the lock-queue wait state that is ignored among them; reserved values of MODE, a tag or the number of
return entries fail as reserved bits do (assumption 28). -/
def imageGood (g : Group) (im : List Word) : Bool :=
  let w0 := imWord im 0
  wfield w0 31 24 == 1 && wfield w0 23 16 == g.nv && wfield w0 15 8 == g.w && wfield w0 7 4 == 0 &&
  decide (wfield w0 3 0 ≤ 8) && modeLegal (imWord im 4) && wfield (imWord im 8) 31 6 == 0 &&
  wfield (imWord im 0xC) 31 4 == 0 && (imWord im 0x10 &&& 0xC0C0C0C0) == 0 && wfield (imWord im 0x14) 31 24 == 0 &&
  (imWord im 0x1C &&& 0xE1) == 0 && imWord im 0x4C == 0 && wfield (imSlot im 0x50) 126 121 == 0 &&
  wfield (imSlot im 0x50) 45 24 == 0 &&
  slotKind (imSlot im 0x60) != 3 && slotKind (imSlot im 0x70) != 3 &&
  (List.range 64).all (fun j => if j < g.nv then decide (imTag im j ≤ 14) else imTag im j == 0) &&
  (List.range 64).all fun l => wfield (imTrap im l).cause 31 24 == 0 && (decide (l < g.w) || (imTrap im l).state == 0)

/-- The image was taken in the trap that the group still serves: its TSTACK and TLANES are the group's (assumption 29). -/
def sameTrap (g : Group) (im : List Word) : Bool := imWord im 0x1C == g.trap.tstack && imPair im 0x30 == g.trap.tlanes

/-- How many reconvergence entries and how many return entries an image leaves in the divergence area as it stands, within the
area's slots: as many as the group has there, when the image is of the trap that it serves; else those that the image's TSTACK
counts (09 R174, R188, assumption 29). An image with fewer than eight return entries leaves none. -/
def imDeep (g : Group) (im : List Word) : Nat × Nat :=
  let hard := wfield (imWord im 0) 3 0
  let entries := min g.depth (if sameTrap g im then g.stack.length - 2 else wfield (imWord im 0x1C) 31 16)
  let rets := if hard < 8 then 0 else if sameTrap g im then g.rets.length - 8 else wfield (imWord im 0x1C) 15 8 - 8
  (entries, min (g.depth - entries) rets)

/-- The held trap entry that GSTAT.PEND tells of is the topmost path entry (R167 step 3, assumption 29). -/
def holdPath : List Entry → List Entry
  | [] => []
  | e :: rest => if e.kind = .path then { e with held := true } :: rest else e :: holdPath rest

/-- The group with the state an image holds and these slots of its divergence area (R188): live entries and hardware return
entries from the image, deeper ones from the slots. The image holds no first and no trapping word of the handler entry: they
stay in the trap that the group serves, and are HANDLER and TPC for an image of another (assumption 29). -/
def loadImage (g : Group) (im : List Word) (entries rets : List (Nat × BitVec 128)) : Group :=
  let live := [imSlot im 0x60, imSlot im 0x70].filterMap entryOfSlot
  let stack := live ++ entries.filterMap fun x => (entryOfSlot x.2).map fun e => { e with filled := false }
  let handler := imPair im 0x38
  { g with
    mode := imWord im 4
    fstat := (imWord im 8).extractLsb' 0 6
    forcedB := (imWord im 0xC).getLsbD 0
    resumed := true
    trap := { tcause := imWord im 0x14, tword := imWord im 0x18, tstack := imWord im 0x1C, tpc := imPair im 0x20
              taddr := imPair im 0x28, tlanes := imPair im 0x30, topa := imWord im 0x40, topb := imWord im 0x44
              topc := imWord im 0x48 }
    handler := handler
    hstart := if sameTrap g im then g.hstart else loWord (handler - g.codeBase) &&& 0xFFFFFFFC
    htpc := if sameTrap g im then g.htpc else imPair im 0x20
    stack := if (imWord im 0xC).getLsbD 2 then holdPath stack else stack
    rets := (List.range (wfield (imWord im 0) 3 0)).map (fun i => retOfSlot (imSlot im (0x80 + 16 * i))) ++
      (rets.map fun x => retOfSlot x.2).reverse
    area := entries ++ rets
    s := Vector.ofFn fun i : Fin 64 => imWord im (0x100 + 4 * i.val)
    p := Vector.ofFn fun i : Fin 8 => imPair im (0x200 + 8 * i.val) &&& fullMask g.w
    v := Vector.ofFn fun j : Fin 64 =>
      if j.val < g.nv then
        ⟨(Tag.ofNum (BitVec.ofNat 4 (imTag im j.val))).getD .raw,
          Vector.ofFn fun l : Fin 64 => if l.val < g.w then imWord im (0x680 + 4 * (j.val * g.w + l.val)) else 0⟩
      else g.v[j]
    laneTraps := Vector.ofFn fun l : Fin 64 => imTrap im l.val
    pend := [] }

/-- Slots of the divergence area read, each with its number. -/
def State.areaAt (s : State) (g : Group) (ns : List Nat) : State × List (Nat × BitVec 128) :=
  let (s1, xs) := s.readSlots g.part (ns.map (slotVa g))
  (s1, ns.zip xs)

/-- The group takes the state of an image whose words these are, its deeper entries from the divergence area as it stands. -/
def State.takeImage (s : State) (c : Ctx) (im : List Word) : State :=
  let n := imDeep c.g im
  let (s1, entries) := (s.writeArea c.g).areaAt c.g (List.range n.1)
  let (s2, rets) := s1.areaAt c.g ((List.range n.2).map fun i => c.g.depth - 1 - i)
  s2.finish c (loadImage c.g im entries rets) (.restacked false) []

/-- CTXLD (R188): DESC, detail 1, for an image that fails; else the state of the image. R188 says nothing of a poisoned
image: its use raises POISON, as that of any poisoned data does, in every active lane (assumption 28). -/
def execCtxld (y : Bool) (a : Reg) (s : State) : Out :=
  imageOp (.ctxld y a) s a ⟨false, false, 1⟩ fun c ps ts =>
    let (s1, im) := (s.touchAll ts false).loadPlaces c.r.die c.g.part ps
    if ps.any fun p => ((placePa p).map fun a => poisoned s.poison a).getD false then s1.trapAll c .poison 0 (c.g.pair a)
    else if imageGood c.g im then s1.takeImage c im
    else s1.trapAll c .desc 1

end Sys2Proof.Machine
end

