-- ==== Sys2Proof/Machine/Device.lean ====
section
/-! DEFINITION. Accesses the device makes itself, through a partition's page tables: copy and blend engines (17 R289),
command records, completion records, descriptors and tables (19 R318 to R339). They act at the home (12 R242). -/

namespace Sys2Proof.Machine

/-- Why such an access fails. -/
inductive DevFail where
  | range | page | perm | refused
  deriving DecidableEq, Repr

/-- The failing-or-place of one word at a generic global address, fabric pages by a table (08 R155, 17 R289, R296). -/
def State.devPlaceIn (s : State) (tab : Nat → Fgt) (p : Fin 12) (store : Bool) (va : Addr) : Except DevFail (Place × Trans) :=
  match windowOf va with
  | .glob a =>
    if 2 ^ 57 < a + 4 then .error .range
    else
      match s.walk p a with
      | none => .error .page
      | some (leaf, blocks, pte) =>
        let pa := leafPa leaf blocks a
        if store && (!pteW leaf || s.isSealed pa) then .error .perm
        else if !store && !pteRd leaf then .error .perm
        else if fabricPa pa then
          match fabricPlace tab ⟨store, false, 0⟩ pa with
          | .error _ => .error .range
          | .ok x => .ok (x, ⟨p, leaf, pte, pa⟩)
        else .ok (.mem pa (attrOf false leaf), ⟨p, leaf, pte, pa⟩)
  | .priv _ | .team _ | .const _ | .none => .error .range

/-- The same with the partition's table as it stands. -/
def State.devPlace (s : State) (p : Fin 12) (store : Bool) (va : Addr) : Except DevFail (Place × Trans) :=
  s.devPlaceIn (s.fgt p) p store va

/-! ### Fabric places (17 R296) -/

/-- Whether a peer refuses an access, fails it, or what it answers: outside this device, and free (assumption 30). -/
def State.peerRefuses (s : State) (i : Nat) : Bool := Config.freeBit s.tick (8 * i + 4)

/-- The member refuses the access: this device by its aperture and its sealed pages, a peer freely. -/
def State.memberRefuses (s : State) (i : Nat) (store : Bool) (f : Fgt) (mbr off : Nat) : Bool :=
  if mbr = f.self then
    match apertureOf f off with
    | none => true
    | some pa => store && s.isSealed pa
  else s.peerRefuses i

/-! ### Words -/

/-- What a read finds. -/
inductive DevData where
  | word (w : Word)
  | poison
  | refused
  deriving DecidableEq, Repr

/-- The word of a partition at a physical address, read at the home. What it reads of memory that is not its own is free
(01 R25, R29; assumption 66). -/
def State.devReadPa (s : State) (p : Fin 12) (i pa : Nat) : DevData :=
  if s.foreign p pa then .word (Config.freeWord s.tick i)
  else if poisoned s.poison pa then .poison
  else .word (s.mem.readWord pa)

/-- A word written for a partition at the home. -/
def State.devWritePa (s : State) (p : Fin 12) (at_ : Option Attr) (pa : Nat) (w : Word) : State :=
  if s.foreign p pa then s.strayStore pa else s.homeStore at_ pa w

/-- The word at a place, read at the home, at the owner of a fabric page, or in team memory. -/
def State.devRead (s : State) (p : Fin 12) (i : Nat) (x : Place) : DevData :=
  match x with
  | .mem pa _ => s.devReadPa p i pa
  | .team k o =>
    match s.team k with
    | some t => if poisoned t.poison o then .poison else .word (t.readWord o)
    | none => .refused
  | .fab f _ mbr off =>
    if s.memberRefuses i false f mbr off then .refused
    else if mbr = f.self then
      match apertureOf f off with
      | some pa => s.devReadPa p i pa
      | none => .refused
    else .word (Config.freeWord s.tick i)

/-- A word written at a place. What a peer's memory holds is outside this device. -/
def State.devWrite (s : State) (p : Fin 12) (x : Place) (w : Word) : State :=
  match x with
  | .mem pa at_ => s.devWritePa p (some at_) pa w
  | .team k o => s.putTeamWord k o w
  | .fab f _ mbr off =>
    if mbr = f.self then
      match apertureOf f off with
      | some pa => s.devWritePa p none pa w
      | none => s
    else s

/-- A partition's line marked poisoned. -/
def State.devPoisonPa (s : State) (p : Fin 12) (pa : Nat) : State :=
  if s.foreign p pa then s else { s with poison := markPoison s.poison pa }

/-- A place written poisoned (17 R290 code 11); in a peer it is outside this device. -/
def State.devPoison (s : State) (p : Fin 12) (x : Place) : State :=
  match x with
  | .mem pa _ => s.devPoisonPa p pa
  | .team k o =>
    match s.team k with
    | some t => s.setTeam { t with poison := markPoison t.poison o }
    | none => s
  | .fab f _ mbr off =>
    if mbr = f.self then
      match apertureOf f off with
      | some pa => s.devPoisonPa p pa
      | none => s
    else s

/-- What else a read of a place does: A is set in the leaf it goes through (08 R142), and the read of an HS line reaches the
snoop filter (12 R243). -/
def State.seen (s : State) (x : Place) (t : Trans) : State :=
  match x with
  | .mem pa at_ => if at_.hs then (s.touched t false).snoopRead pa else s.touched t false
  | .team _ _ | .fab .. => s.touched t false

/-- What else the device's reads of words from an address upward do. -/
def State.devSeen (s : State) (tab : Nat → Fgt) (p : Fin 12) (va : Addr) (n : Nat) : State :=
  (List.range n).foldl (fun s i =>
    match s.devPlaceIn tab p false (va + BitVec.ofNat 64 (4 * i)) with
    | .error _ => s
    | .ok (x, t) => s.seen x t) s

/-! ### Records and tables -/

/-- Every word of a span passes the checks of 08 R155, and the span is aligned. -/
def State.devOk (s : State) (p : Fin 12) (store : Bool) (va : Addr) (words align : Nat) : Bool :=
  decide (va.toNat % align = 0) && (List.range words).all fun i =>
    match s.devPlace p store (va + BitVec.ofNat 64 (4 * i)) with
    | .ok _ => true
    | .error _ => false

/-- A word the device reads; a word that cannot be read any more, or is poisoned, is free (assumption 31). -/
def State.devWordIn (s : State) (tab : Nat → Fgt) (p : Fin 12) (i : Nat) (va : Addr) : Word :=
  match s.devPlaceIn tab p false va with
  | .error _ => Config.freeWord s.tick i
  | .ok (x, _) =>
    match s.devRead p i x with
    | .word w => w
    | .poison | .refused => Config.freeWord s.tick i

def State.devWordsIn (s : State) (tab : Nat → Fgt) (p : Fin 12) (va : Addr) (n : Nat) : List Word :=
  (List.range n).map fun i => s.devWordIn tab p i (va + BitVec.ofNat 64 (4 * i))

/-- The same with the partition's table as it stands. -/
def State.devWord (s : State) (p : Fin 12) (i : Nat) (va : Addr) : Word := s.devWordIn (s.fgt p) p i va

def State.devWords (s : State) (p : Fin 12) (va : Addr) (n : Nat) : List Word := s.devWordsIn (s.fgt p) p va n

/-- Words the device reads for itself, and what the reads do. -/
def State.devFetch (s : State) (p : Fin 12) (va : Addr) (n : Nat) : State × List Word :=
  (s.devSeen (s.fgt p) p va n, s.devWords p va n)

/-- A word the device writes, with A and M set; nothing where the address fails. -/
def State.devPut (s : State) (p : Fin 12) (va : Addr) (w : Word) : State :=
  match s.devPlace p true va with
  | .error _ => s
  | .ok (x, t) => (s.touched t true).devWrite p x w

/-- Words written from an address upward. -/
def State.devPuts (s : State) (p : Fin 12) (va : Addr) (ws : List Word) : State :=
  ws.zipIdx.foldl (fun s x => s.devPut p (va + BitVec.ofNat 64 (4 * x.2)) x.1) s

/-- A completion record written (19 R321). -/
def State.putRecord (s : State) (p : Fin 12) (crec : Addr) (st : CStatus) (detail grid : Nat) (t : Option Termination) :
    State :=
  s.devPuts p crec (s.recordWords st detail grid t)

end Sys2Proof.Machine
end

