-- ==== Sys2Proof/Machine/Engines.lean ====
section
/-! DEFINITION. Copy, collective, fabric, vintage and message instructions and the engines behind them (spec 17). -/

namespace Sys2Proof.Machine

/-! ### Posts (R284 to R286) -/

/-- A post: nothing without an active lane; held behind its release half; one more on counter E (R284, R286). -/
def postOp (i : Instr) (s : State) (d : Reg) (p : Scope) (kind : Ctx → AccKind) : Out :=
  s.withCtx i fun c =>
    if c.act = 0 then s.finish c c.g .falls []
    else if 63 ≤ c.g.count .e then s.stall c
    else
      match s.holdFor c .rel p [] with
      | .stays t => t
      | .goes t _ => t.finish c (c.g.addAccess (c.once .e (kind c) (.uni d) 0 [] [])) .falls []

/-- The post status (R285). -/
def postWord (code first acc : Nat) : Word := BitVec.ofNat 32 (code * 2 ^ 24 + first * 2 ^ 16 + acc)

/-- CPKICK (R292): the requests are judged one by one after the post (R288). -/
def execCpkick (y : Bool) (d a : Reg) (s : State) : Out :=
  postOp (.cpkick y d a) s d .die fun c =>
    .copyPost (s.parts[c.g.part]).fgt (c.g.uni a) (wfield (c.g.uni d) 6 0) 0 0 none

/-- BLEND (R306). -/
def execBlend (y : Bool) (d a : Reg) (s : State) : Out :=
  postOp (.blend y d a) s d .part fun c => .blendPost (s.parts[c.g.part]).fgt (c.g.uni a)

/-- AMSEND (R310). -/
def execAmsend (y : Bool) (d a b : Reg) (n : BitVec 5) (s : State) : Out :=
  postOp (.amsend y d a b n) s d .part fun c => .message (c.g.uni a) (c.g.uni b) n.toNat

/-- A structure of n bytes in the issuing core's team memory, aligned (R288, R303). -/
def State.ownPlace (s : State) (r : GroupRef) (g : Group) (o : Word) (n align : Nat) : Option (TeamKey × Nat) :=
  match s.teamPlace r g o.toNat n with
  | some (k, b) => if k.core = r.at ∧ b % align = 0 then some (k, b) else none
  | none => none

/-- The arrival object of a descriptor, or code 3 (R288). -/
def State.arrivalObj (s : State) (k : TeamKey) (aoff : Nat) : Option ObjRef :=
  if aoff ≠ 0 ∧ 8 * aoff + 8 ≤ ((s.team k).map (·.size)).getD 0 then some ⟨k, 8 * aoff⟩ else none

/-- The group whose post is access n, resident at a place or out of it, and the post: posts counted on E go on while their
group is out (09 R193). -/
def State.postAt (s : State) (r : GroupRef) (n : Nat) : Option (Bool × Group × Access) :=
  let post (g : Group) : Option Access := (g.access n).filter fun a => a.kind.isPost
  match (s.group r).bind fun g => (post g).map fun a => (g, a) with
  | some x => some (false, x)
  | none => s.parked.findSome? fun x => if x.place = r then (post x.grp).map fun a => (true, x.grp, a) else none

/-- A group changed where it is. -/
def State.putPost (s : State) (r : GroupRef) (out : Bool) (g : Group) : State :=
  if out then { s with parked := s.parked.map fun x => if x.grp.uid = g.uid then { x with grp := g } else x }
  else s.setGroup r g

/-- An access made once for the group that ends with a status (08 R151). -/
def State.replied (s : State) (r : GroupRef) (g : Group) (a : Access) (w : Word) : State :=
  s.moved r g (a.answer w)

/-- A post's status is there: it lands in a group that is out once the group is restored (09 R193). -/
def State.postReplied (s : State) (r : GroupRef) (out : Bool) (g : Group) (a : Access) (w : Word) : State :=
  if out then s.putPost r true (g.setAccess (a.answer w)) else s.replied r g a w

/-! ### Copy requests (R287, R288, R292) -/

/-- The form of a request: a job, or its code (R287, R288). -/
def State.judgeRequest (s : State) (r : GroupRef) (g : Group) (tab : Vector (BitVec 128) 64) (o : Word) : Except Nat Job :=
  match s.ownPlace r g o 32 32 with
  | none => .error 4
  | some (k, b) =>
    let w (i : Nat) : Word := s.teamWord k (b + 4 * i)
    let src := joinWords (w 0) (w 1)
    let dst := joinWords (w 2) (w 3)
    let two := (w 4).getLsbD 31
    let len := wfield (w 4) 23 0
    let rows := wfield (w 5) 31 16 + 1
    let sstr := if two then (w 6).toInt else 0
    let dstr := if two then (w 7).toInt else 0
    if wfield (w 4) 30 24 ≠ 0 ∨ (two = false ∧ rows ≠ 1) then .error 1
    else if len = 0 ∨ len % 4 ≠ 0 ∨ src.toNat % 4 ≠ 0 ∨ dst.toNat % 4 ≠ 0 ∨ sstr % 4 ≠ 0 ∨ dstr % 4 ≠ 0 ∨
        2 ^ 31 - 1 < len * rows then .error 2
    else
      match s.arrivalObj k (wfield (w 5) 15 0) with
      | none => .error 3
      | some obj =>
        .ok { id := s.nextId, core := r.at, part := g.part, grid := g.grid, key := k, src := src, dst := dst, len := len
              rows := rows, sstr := sstr, dstr := dstr, obj := obj, cbase := g.cbase, csize := g.csize, tab := tab, data := none
              err := 0, landed := [], due := [], counted := [] }

/-- Accepted copy requests of a core that still run. -/
def State.copyJobs (s : State) (c : CoreRef) : List Job := s.jobs.filter fun j => j.core == c && j.data.isNone

/-- The next request of a post is accepted or rejected; after the last the status is there (R285, R288, R292). -/
def State.acceptRequest (s : State) (r : GroupRef) (n : Nat) : State :=
  match s.postAt r n with
  | none => s
  | some (out, g, a) =>
    match a.kind with
    | .copyPost tab off count next acc rej =>
      if a.lanes.all LaneAcc.performed then s
      else if count = 0 ∨ 64 < count then s.postReplied r out g a (postWord 2 0 0)
      else if 64 ≤ (s.copyJobs r.at).length then s
      else
        let (s1, acc1, rej1) := match s.judgeRequest r g tab (off + BitVec.ofNat 32 (32 * next)) with
          | .error code => (s, acc, if rej.isNone then some (code, next) else rej)
          | .ok j => (({ s with jobs := s.jobs ++ [j], nextId := s.nextId + 1 } : State), acc + 1, rej)
        let a1 := { a with kind := .copyPost tab off count (next + 1) acc1 rej1 }
        if next + 1 = count then
          s1.postReplied r out g a1 (match rej1 with
            | none => postWord 0 0 acc1
            | some (code, first) => postWord code first acc1)
        else s1.putPost r out (g.setAccess a1)
    | _ => s

/-! ### Arrival units (R289 to R291) -/

/-- A team offset of a request, relative to the posting core (R289). -/
def State.jobTeam (s : State) (j : Job) (o : Nat) : Option Place :=
  if field o 31 28 ≠ 0 ∨ field o 23 20 ≠ 0 then none
  else
    let key := if field o 27 24 = 15 then some j.key
      else ((s.grid j.grid).bind fun g => g.clusters.find? fun c => c.num == j.key.clu).bind fun c =>
        (c.cores[field o 27 24]?).map fun k => (⟨j.grid, c.num, ⟨c.die, k⟩⟩ : TeamKey)
    match key.bind s.team with
    | some t => if field o 19 0 + 4 ≤ t.size then some (.team t.key (field o 19 0)) else none
    | none => none

/-- The codes of a failing source or destination (R290). -/
def srcCode : DevFail → Nat
  | .range => 5 | .page => 7 | .perm => 9 | .refused => 14
def dstCode : DevFail → Nat
  | .range => 6 | .page => 8 | .perm => 10 | .refused => 14

/-- The place of a source word. -/
def State.jobSrc (s : State) (j : Job) (va : Addr) : Except Nat (Place × Option Trans) :=
  let glob (a : Addr) : Except Nat (Place × Option Trans) := match s.devPlaceIn (fgtIn j.tab) j.part false a with
    | .ok x => .ok (x.1, some x.2)
    | .error e => .error (srcCode e)
  match windowOf va with
  | .glob _ => glob va
  | .const o => if j.csize < o + 4 then .error 5 else glob (j.cbase + BitVec.ofNat 64 o)
  | .team o => match s.jobTeam j o with
    | some p => .ok (p, none)
    | none => .error 5
  | .priv _ | .none => .error 5

/-- The place of a destination word. A word of the constant window is judged as R155 judges a store through it: its range
first, then its page, and then it is constant. -/
def State.jobDst (s : State) (j : Job) (va : Addr) : Except Nat (Place × Option Trans) :=
  match windowOf va with
  | .glob _ => match s.devPlaceIn (fgtIn j.tab) j.part true va with
    | .ok x => .ok (x.1, some x.2)
    | .error e => .error (dstCode e)
  | .team o => match s.jobTeam j o with
    | some p => .ok (p, none)
    | none => .error 6
  | .const o =>
    if j.csize < o + 4 then .error 6
    else
      match s.devPlaceIn (fgtIn j.tab) j.part true (j.cbase + BitVec.ofNat 64 o) with
      | .error .page => .error 8
      | .error .range | .error .perm | .error .refused | .ok _ => .error 10
  | .priv _ | .none => .error 6

/-- A fabric member refuses a word. -/
def State.placeRefused (s : State) (i : Nat) (store : Bool) : Place → Bool
  | .fab f _ mbr off => s.memberRefuses i store f mbr off
  | .mem _ _ | .team _ _ => false

/-- What becomes of one word of a unit. -/
inductive WordMove where
  | fails (code : Nat)
  /-- The source is poisoned: the destination is written poisoned. -/
  | poison (x : Place) (t : Option Trans)
  | moves (x : Place) (t : Option Trans) (w : Word)

/-- One word of a copy request: its source first, then its destination, then the data. -/
def State.moveWord (s : State) (j : Job) (i : Nat) (src dst : Addr) : WordMove :=
  match s.jobSrc j src with
  | .error c => .fails c
  | .ok (p, _) =>
    match s.jobDst j dst with
    | .error c => .fails c
    | .ok (x, t) =>
      if s.placeRefused (2 * i) true x then .fails 14
      else
        match s.devRead j.part (2 * i + 1) p with
        | .refused => .fails 14
        | .poison => .poison x t
        | .word w => .moves x t w

/-- One word of a collective's result, which goes to a global address: of a failed instance, the old value or the result
(R303, R305). A member refuses a word of a fabric page as it refuses any (R296). -/
def State.resultWord (s : State) (j : Job) (i : Nat) (w : Word) (dst : Addr) : WordMove :=
  match s.devPlaceIn (fgtIn j.tab) j.part true dst with
  | .error e => .fails (dstCode e)
  | .ok (x, t) =>
    if s.placeRefused (2 * i) true x then .fails 14
    else if j.err ≠ 0 ∧ Config.freeBit s.tick (8 * i + 5) then .fails j.err
    else .moves x (some t) w

/-- The words of a unit. -/
def State.unitMoves (s : State) (j : Job) (u : ArrUnit) : List WordMove :=
  (List.range (u.len / 4)).map fun i =>
    let k : Addr := BitVec.ofNat 64 (4 * i)
    match j.data with
    | none => s.moveWord j i (j.unitSrc u + k) (j.unitDst u + k)
    | some ws => s.resultWord j i (ws[u.off / 4 + i]?.getD 0) (j.unitDst u + k)

/-- Of a unit whose data was lost, what remains: its words come poisoned (09 R195). -/
def WordMove.lose : WordMove → WordMove
  | .moves x t _ => .poison x t
  | m => m

/-- A source word of a unit has been read. -/
def State.jobSeen (s : State) (j : Job) (u : ArrUnit) : State :=
  if j.data.isSome then s
  else
    (List.range (u.len / 4)).foldl (fun s i =>
      match s.jobSrc j (j.unitSrc u + BitVec.ofNat 64 (4 * i)) with
      | .ok (x, some t) => s.seen x t
      | .ok (_, none) | .error _ => s) s

/-- The code of the first failing word of a unit, 0 when none fails (R291). -/
def unitCode : List WordMove → Nat
  | [] => 0
  | .fails c :: _ => c
  | .poison _ _ :: _ => 11
  | .moves _ _ _ :: rest => unitCode rest

/-- A unit's writes: all of them, none of a failing unit, poison under code 11 (R291); of a collective, the words of its
result that are written (R305). -/
def State.writeUnit (s : State) (j : Job) (code : Nat) (ms : List WordMove) : State :=
  ms.foldl (fun s m =>
    match m with
    | .fails _ => s
    | .poison x t => if code = 11 then (s.touchAll t.toList true).devPoison j.part x else s
    | .moves x t w =>
      if code = 0 ∨ j.data.isSome then (s.touchAll t.toList true).devWrite j.part x w
      else if code = 11 then (s.touchAll t.toList true).devPoison j.part x
      else s) s

/-- A unit's bytes are counted down on the object, with its first failure (R290, R291). -/
def State.countDown (s : State) (obj : ObjRef) (len code : Nat) : State :=
  let lo := s.teamWord obj.key obj.off
  let hi := s.teamWord obj.key (obj.off + 4)
  let hi1 := if code = 0 ∨ hi.getLsbD 31 then hi
    else (hi &&& 0xFF00FFFF) ||| BitVec.ofNat 32 (2 ^ 31 + code * 65536)
  (s.putTeamWord obj.key obj.off (lo - BitVec.ofNat 32 len)).putTeamWord obj.key (obj.off + 4) hi1

def GridPre.away : GridPre → Bool
  | .out _ | .selected => true
  | .running | .marked => false

/-- The grid of a team memory is out of its cores (R294). -/
def State.gridOut (s : State) (n : Nat) : Bool := ((s.grid n).map fun g => g.pre.away).getD false

/-- A copy request pauses: its object or its destination lies in team memory of a core that is saved (R294). A collective's
writes go on. -/
def State.jobPaused (s : State) (j : Job) : Bool :=
  j.data.isNone && (s.gridOut j.obj.key.grid || (match windowOf j.dst with
    | .team _ => s.gridOut j.grid
    | _ => false))

/-- Running work in its new state; work whose units are all counted is over. -/
def State.putJob (s : State) (j : Job) : State :=
  { s with jobs := if j.counted.length = j.units.length then s.jobs.filter fun y => y.id != j.id
                   else s.jobs.map fun y => if y.id = j.id then j else y }

/-- The job without a unit among those written and not counted. -/
def Job.without (j : Job) (u : Nat) : Job :=
  { j with landed := j.landed.filter fun x => x.unit != u, due := j.due.filter fun x => x.unit != u }

/-- A decrement that was held for the object before that of a unit (R294). -/
def State.heldBefore (s : State) (j : Job) (x : Landed) : Bool :=
  s.jobs.any fun i => i.obj == j.obj && i.due.any fun y => decide (y.since < x.since)

/-- What becomes of a unit of `len` bytes that is written: while a stale notice of its write is in flight it is not performed
yet; then it is counted (R291), or its decrement is held while the core of its object is saved, and applied in order after the
restore (R294). -/
def State.unitWritten (s : State) (j : Job) (len : Nat) (x : Landed) : State :=
  if !s.allApplied x.ids then s.putJob { j.without x.unit with landed := j.landed.filter (fun y => y.unit != x.unit) ++ [x] }
  else
    let x1 := if j.due.contains x then x else { x with since := s.tick }
    if s.gridOut j.obj.key.grid || s.heldBefore j x1 then
      s.putJob { j.without x.unit with due := j.due.filter (fun y => y.unit != x.unit) ++ [x1] }
    else (s.countDown j.obj len x.code).putJob { j.without x.unit with counted := j.counted ++ [x.unit] }

/-- Unit u of the k-th running work of a core lands, or, landed before, is counted (R291); `lost` when its data was lost
(09 R195). -/
def State.unitLands (s : State) (c : CoreRef) (k u : Nat) (lost : Bool) : State :=
  match (s.jobs.filter fun j => j.core == c)[k]? with
  | none => s
  | some j =>
    match j.units[u]? with
    | none => s
    | some x =>
      if j.counted.contains u then s
      else
        match (j.landed ++ j.due).find? fun y => y.unit == u with
        | some y => s.unitWritten j x.len y
        | none =>
          if s.jobPaused j then s
          else
            let ms := if lost then (s.unitMoves j x).map WordMove.lose else s.unitMoves j x
            let code := if j.err ≠ 0 then j.err else unitCode ms
            let s1 := (s.jobSeen j x).writeUnit j code ms
            let ids := ((s1.notices.filter fun n => s.nextId ≤ n.cause).map (·.cause)).eraseDups
            s1.unitWritten j x.len ⟨u, code, ids, 0⟩

/-! ### WAITA (R293) -/

/-- Nothing of the group's earlier accesses keeps a word of it from being read (08 R152, 12 R230). -/
def Group.clearFor (g : Group) (ps : List Place) : Bool :=
  !g.acc.any fun a => a.acq.isSome || a.lanes.any fun l => !l.performed && l.places.any fun p => ps.any p.meets

/-- The object satisfies the threshold: its upper word, when REMAIN is at or below it or ERR is set. -/
def State.arrivalReady (s : State) (k : TeamKey) (o : Nat) (t : Word) : Option Word :=
  let hi := s.teamWord k (o + 4)
  if (s.teamWord k o).sle t || hi.getLsbD 31 then some hi else none

def objPlaces (k : TeamKey) (o : Nat) : List Place := [.team k o, .team k (o + 4)]

/-- WAITA (R293): the object's checks, then the wait, over at once when it is satisfied. -/
def execWaita (y : Bool) (d a b : Reg) (s : State) : Out :=
  s.withCtx (.waita y d a b) fun c =>
    if c.act = 0 then s.finish c c.g .falls []
    else
      let o := c.g.uni a
      match s.teamPlace c.r c.g o.toNat 8 with
      | none => s.trapAll c .range 0 (o.setWidth 64)
      | some (k, x) =>
        if x % 8 ≠ 0 then s.trapAll c .align 0 (o.setWidth 64)
        else if (objPlaces k x).any (s.matrixHolds c.g.uid) then s
        else
          match (if c.g.clearFor (objPlaces k x) then s.arrivalReady k x (c.g.uni b) else none) with
          | some hi => (s.acquire c.r.die c.g.part .part).finish c (c.g.land c.seq (.uni d hi)) .falls []
          | none => s.beginWait c c.g (.arrival d k x (c.g.uni b))

/-- A WAITA ends (R293). -/
def State.arrivalMet (s : State) (r : GroupRef) : State :=
  match s.group r with
  | none => s
  | some g =>
    match g.wait with
    | some (.arrival d k o t) =>
      match (if g.clearFor (objPlaces k o) then s.arrivalReady k o t else none) with
      | some hi => (s.acquire r.die g.part .part).wake r g [.uni d hi]
      | none => s
    | _ => s

/-! ### Member folds (R301) -/

/-- One integer element added, wrapped or clamped (R91). -/
def foldInt (t : Tag) (sat : Bool) (a b : Nat) : Nat :=
  let w := tagWidth t
  let z : Int := if tagSigned t then signedOf w a + signedOf w b else (a : Int) + b
  wrapNat w (if sat then clampTag t z else z)

/-- Floating elements summed in an F32 accumulator rounded to odd, the last sum rounded to the format (R301). -/
def foldFloat (f : FFmt) (k : Rnd) (acc : FVal) : List Nat → Nat × FFlags
  | [] => f.deliver k 0 (some acc)
  | [x] => f.deliver k (f.readFlags k.ftz x) (addExact k.rnd acc (f.reads k.ftz x))
  | x :: rest =>
    let r := fmtF32.deliver ⟨4, false, false⟩ (f.readFlags k.ftz x) (addExact 4 acc (f.reads k.ftz x))
    let q := foldFloat f k (fmtF32.value r.1) rest
    (q.1, r.2 ||| q.2)

/-- One member's value is unchanged (R301); with FTZ a subnormal one is read as zero (R300). -/
def foldOne (t : Tag) (k : Rnd) (x : Nat) : Nat × FFlags :=
  let f := fmtOf t
  if !tagInt t && k.ftz && f.flushes && f.subnormal x then (2 ^ (f.width - 1) * bit (nbit x (f.width - 1)), fFZ) else (x, 0)

/-- The elements at one position folded by ADD (R301). -/
def foldAdd (t : Tag) (k : Rnd) : List Nat → Nat × FFlags
  | [] => (0, 0)
  | [x] => foldOne t k x
  | x :: rest =>
    if tagInt t then (rest.foldl (foldInt t k.sat) x, 0)
    else
      let q := foldFloat (fmtOf t) k ((fmtOf t).reads k.ftz x) rest
      (q.1, (fmtOf t).readFlags k.ftz x ||| q.2)

/-- The smaller or larger of two elements (R301). -/
def foldMinMax (t : Tag) (k : Rnd) (big : Bool) (a b : Nat) : Nat :=
  if tagInt t then
    let w := tagWidth t
    let less := if tagSigned t then decide (signedOf w a ≤ signedOf w b) else decide (a ≤ b)
    if less != big then a else b
  else (fMinMax big (fmtOf t) k a b).1

/-- A fold of words, element by element: `red` 0 ADD, 1 MIN, 2 MAX. -/
def foldWords (t : Tag) (k : Rnd) (red : Nat) (ws : List Word) : Word × FFlags :=
  let w := tagWidth t
  let rs := (List.range (32 / w)).map fun i =>
    let xs := ws.map fun x => elemBits w x i
    if red = 0 then foldAdd t k xs
    else match xs with
      | [] => (0, 0)
      | x :: rest => (rest.foldl (foldMinMax t k (red == 2)) x, 0)
  (packWord w (rs.map (·.1)), orFlags (rs.map (·.2)))

/-! ### Multicast and reducing loads (R298 to R300) -/

/-- STMC (R299). -/
def execStmc (y : Bool) (d b j : Reg) (q : Order) (p : Scope) (s : State) : Out :=
  memory (.stmc y d b j q p) s fun c =>
    { path := .g, kind := .multicast, dest := .none, store := true, whole := false, order := q, scope := p, syncs := true
      lanes := c.laneReqs (c.laneAddr b j) (fun l ea => s.checkGeneric c.r c.g ⟨true, false, 2⟩ l ea 1 4 4)
        (c.storeWords d 1) }

/-- Element types of LDRED (R300). -/
def reduceTag (t : Tag) : Bool := t == .i32 || t == .n32 || tagFlt t

/-- LDRED (R300). -/
def execLdred (y : Bool) (d b j : Reg) (q : Order) (p : Scope) (s : State) : Out :=
  s.withCtx (.ldred y d b j q p) fun c =>
    let t := modeLdfmt c.g.mode
    if c.act = 0 then s.finish c c.g .falls []
    else if !reduceTag t then s.trapAll c .format 0
    else
      s.issueMem c
        { path := .g, kind := .reduce t, dest := .vec d [some t], store := false, whole := false, order := q, scope := p
          syncs := true
          lanes := c.laneReqs (c.laneAddr b j) (fun l ea => s.checkGeneric c.r c.g ⟨false, false, 2⟩ l ea 1 4 4) fun _ => [] }

/-- The values of the members at an offset: this device's own, the peers' free; none when a member refuses or the own word
is poisoned. -/
def State.memberWords (s : State) (p : Fin 12) (f : Fgt) (fg off : Nat) : List DevData :=
  (List.range f.nmbr).map fun m => s.devRead p m (.fab f fg m off)

/-- A reducing load performed at every member (R300). -/
def State.reduceWord (s : State) (p : Fin 12) (f : Fgt) (fg off : Nat) (t : Tag) (mode : Word) : DevData × FFlags :=
  let ds := s.memberWords p f fg off
  if ds.contains .refused then (.refused, 0)
  else if ds.contains .poison then (.poison, 0)
  else
    let ws := ds.filterMap fun x => match x with
      | .word w => some w
      | .poison | .refused => none
    let r := foldWords t (rndOf mode) 0 ws
    (.word r.1, r.2)

/-! ### Collectives (R303 to R306) -/

/-- The element type of a descriptor. -/
def blendType (n : Nat) : Option Tag :=
  if n = 1 then some .i32 else if n = 2 then some .n32 else if n = 3 then some .f32 else if n = 6 then some .f16x2
  else if n = 7 then some .b16x2 else none

/-- The source bytes of a collective on each member (R304). -/
def BlendDesc.srcBytes (b : BlendDesc) (n : Nat) : Nat := (if b.op = 1 then n else 1) * b.count * elemBytes b.etype

/-- Two ranges overlap without being identical, or are identical where that is not allowed (R303). -/
def BlendDesc.clash (b : BlendDesc) (n : Nat) : Bool :=
  let s := b.src.toNat
  let d := b.dst.toNat
  if s = d ∧ b.srcBytes n = b.dstBytes n then b.op != 2
  else decide (s < d + b.dstBytes n) && decide (d < s + b.srcBytes n)

/-- A descriptor's words judged: the descriptor and the place of its object in the team memory, or the lowest code
(R303). -/
def judgeBlend (w : Nat → Word) (f : Nat → Fgt) (obj : Option ObjRef) : Except Nat (BlendDesc × ObjRef) :=
  let op := wfield (w 0) 31 28
  let red := wfield (w 0) 27 24
  let b : BlendDesc := { op := op, red := if op = 0 then 0 else red, etype := (blendType (wfield (w 0) 23 20)).getD .i32
                         rnd := wfield (w 0) 19 17, sat := (w 0).getLsbD 16, fg := wfield (w 0) 5 0, count := (w 1).toNat
                         src := joinWords (w 2) (w 3), dst := joinWords (w 4) (w 5) }
  let n := (f b.fg).nmbr
  if 2 < op ∨ (op ≠ 0 ∧ 2 < red) ∨ (blendType (wfield (w 0) 23 20)).isNone ∨ 4 < b.rnd ∨ wfield (w 0) 15 6 ≠ 0 ∨
      b.count = 0 ∨ 2 ^ 28 < b.count ∨ wfield (w 6) 31 16 ≠ 0 ∨ w 7 ≠ 0 ∨ (b.red ≠ 0 ∧ b.etype = .n32) then .error 1
  else if b.src.toNat % 4 ≠ 0 ∨ b.dst.toNat % 4 ≠ 0 ∨ (elemBytes b.etype = 2 ∧ b.count % 2 = 1) ∨ b.clash n then .error 2
  else
    match obj with
    | none => .error 3
    | some o => if (f b.fg).valid then .ok (b, o) else .error 12

/-- The descriptor of a post is judged; an accepted one joins the next instance of its entry (R303, R305). -/
def State.acceptBlend (s : State) (r : GroupRef) (out : Bool) (g : Group) (a : Access) (tab : Vector (BitVec 128) 64)
    (off : Word) : State :=
  match s.ownPlace r g off 32 32 with
  | none => s.postReplied r out g a (postWord 4 0 0)
  | some (k, b) =>
    let w (i : Nat) : Word := s.teamWord k (b + 4 * i)
    match judgeBlend w (fgtIn tab) (s.arrivalObj k (wfield (w 6) 15 0)) with
    | .error code => s.postReplied r out g a (postWord code 0 0)
    | .ok (d, obj) =>
      let x := s.parts[g.part]
      let fg : Fin 64 := Fin.ofNat 64 d.fg
      let s1 := s.setPart g.part { x with posted := Tbl.put x.posted fg (Tbl.findD x.posted fg 0 + 1) }
      ({ s1 with blends := s1.blends ++ [⟨g.part, r.at, g.grid, d, obj, tab⟩] } : State).postReplied r out g a (postWord 0 0 1)

/-- Element i of words that hold elements of `bytes` bytes. -/
def elemAt (ws : List Word) (bytes i : Nat) : Nat :=
  if bytes = 2 then elemBits 16 (ws[i / 2]?.getD 0) (i % 2) else (ws[i]?.getD 0).toNat

/-- Elements packed into words. -/
def packElems (bytes : Nat) (xs : List Nat) : List Word :=
  if bytes = 2 then
    (List.range ((xs.length + 1) / 2)).map fun i => packWord 16 [xs[2 * i]?.getD 0, xs[2 * i + 1]?.getD 0]
  else xs.map fun x => BitVec.ofNat 32 x

/-- The result of an instance on this member from every member's source words (R304). -/
def BlendDesc.result (b : BlendDesc) (self : Nat) (srcs : List (List Word)) : List Word :=
  let e := elemBytes b.etype
  let k : Rnd := ⟨b.rnd, b.sat, false⟩
  let at_ (i : Nat) : Nat :=
    let xs := srcs.map fun ws => elemAt ws e i
    if b.red = 0 then (foldAdd b.etype k xs).1
    else match xs with
      | [] => 0
      | x :: rest => rest.foldl (foldMinMax b.etype k (b.red == 2)) x
  if b.op = 0 then packElems e (srcs.flatMap fun ws => (List.range b.count).map fun i => elemAt ws e i)
  else if b.op = 1 then packElems e ((List.range b.count).map fun i => at_ (self * b.count + i))
  else packElems e ((List.range b.count).map at_)

/-- The first failure of this member's checks of R289: source, destination, poison (R305). -/
def State.blendCheck (s : State) (b : Blend) (n : Nat) : Nat :=
  let src := (List.range (b.desc.srcBytes n / 4)).map fun i =>
    match s.devPlaceIn (fgtIn b.tab) b.part false (b.desc.src + BitVec.ofNat 64 (4 * i)) with
    | .error e => srcCode e
    | .ok (x, _) => match s.devRead b.part (2 * i) x with
      | .word _ => 0
      | .poison => 11
      | .refused => 14
  let dst := (List.range (b.desc.dstBytes n / 4)).map fun i =>
    match s.devPlaceIn (fgtIn b.tab) b.part true (b.desc.dst + BitVec.ofNat 64 (4 * i)) with
    | .error e => dstCode e
    | .ok (x, _) => if s.placeRefused (2 * i + 1) true x then 14 else 0
  ((src ++ dst).find? (· ≠ 0)).getD 0

/-- How the other members fare (R305): 0, or one of the codes 5 to 11, 13 and 14, freely (assumption 30). -/
def State.peerFailure (s : State) : Nat :=
  ([0, 5, 6, 7, 8, 9, 10, 11, 13, 14][Config.freeNat s.tick 0 % 10]?).getD 0

/-- The oldest instance of an entry runs, once every member has posted: its result is on its way to this member's
destination, unit by unit (R304, R305). -/
def State.blendRuns (s : State) (p : Fin 12) (fg : Nat) : State :=
  match s.blends.find? fun b => b.part == p && b.desc.fg == fg with
  | none => s
  | some b =>
    let f := fgtIn b.tab fg
    let n := f.nmbr
    let own := s.blendCheck b n
    let err := if own ≠ 0 then own else if n ≤ 1 then 0 else s.peerFailure
    let len := b.desc.srcBytes n / 4
    let srcs := (List.range n).map fun m =>
      if m = f.self then s.devWordsIn (fgtIn b.tab) p b.desc.src len
      else (List.range len).map fun i => Config.freeWord s.tick (m * len + i)
    let j : Job := { id := s.nextId, core := b.core, part := p, grid := b.grid, key := b.obj.key, src := b.desc.src
                     dst := b.desc.dst, len := b.desc.dstBytes n, rows := 1, sstr := 0, dstr := 0, obj := b.obj, cbase := 0
                     csize := 0, tab := b.tab, data := some (b.desc.result f.self srcs), err := err, landed := []
                     due := [], counted := [] }
    { s.devSeen (fgtIn b.tab) p b.desc.src len with
      blends := s.blends.erase b
      jobs := s.jobs ++ [j]
      nextId := s.nextId + 1 }

/-! ### Vintages (R307 to R309) -/

/-- A request about the page of a global address, counted on K (R309). -/
def pageRequest (s : State) (a d : Reg) (kind : AccKind) (q : Order) (fabric : Nat) (c : Ctx) : MemReq :=
  let ea := c.g.pair a
  let check : Checked := match windowOf ea with
    | .glob va => s.checkPage c.r c.g ⟨false, false, fabric⟩ false va
    | .priv _ | .team _ | .const _ | .none => .fault .range
  { path := .k, kind := kind, dest := .uni d, store := false, whole := true, order := q, scope := .fab, syncs := false
    lanes := [⟨wholeLane, ea, check, []⟩] }

/-- SEAL (R307, R309): behind a release half at `.fab`. -/
def execSeal (y : Bool) (d a : Reg) (s : State) : Out := memory (.sealPage y d a) s (pageRequest s a d (.sealing false) .rel 1)

/-- SEAL.OPEN (R307, R309). -/
def execSealOpen (y : Bool) (d a : Reg) (s : State) : Out :=
  memory (.sealOpen y d a) s (pageRequest s a d (.sealing true) .none 1)

/-- VINTRD (R309). -/
def execVintrd (y : Bool) (d a : Reg) (s : State) : Out := memory (.vintrd y d a) s (pageRequest s a d .vintRead .none 0)

/-- The page that holds a physical address, in 64 KiB blocks: as the partition's tables map its virtual address, else the
block alone. -/
def State.pageOf (s : State) (p : Fin 12) (ea : Addr) (pa : Nat) : Nat × Nat :=
  match s.walk p ea.toNat with
  | some (leaf, blocks, _) => if leafPa leaf blocks ea.toNat = pa then (pteFrame leaf / 65536, blocks) else (pa / 65536, 1)
  | none => (pa / 65536, 1)

def inPage (page : Nat × Nat) (pa : Nat) : Bool := decide (page.1 ≤ pa / 65536 ∧ pa / 65536 < page.1 + page.2)

/-- Translations of a physical page are dropped in the whole package (R307). -/
def State.dropPage (s : State) (page : Nat × Nat) : State :=
  { s with
    tlb := s.tlb.filter fun e => !inPage page (pteFrame e.leaf)
    groups := s.groups.map fun (x : GroupRef × Group) =>
      (x.1, { x.2 with walks := x.2.walks.filter fun w => match w.leaf with
        | some (leaf, _, _) => !inPage page (pteFrame leaf)
        | none => true }) }

/-- An access writes memory. -/
def AccKind.writes : AccKind → Bool
  | .store | .atomic _ _ | .switchAtomic _ _ | .multicast => true
  | _ => false

/-- No write to the page that was translated is still to be performed, and no engine owns a line of it (R307). -/
def State.pageQuiet (s : State) (page : Nat × Nat) : Bool :=
  let off (pa : Option Nat) : Bool := (pa.map fun a => !inPage page a).getD true
  (s.groups.all fun x => x.2.acc.all fun a => !a.kind.writes || a.lanes.all fun l => l.performed || l.places.all fun p =>
    off p.local_) && s.engineDsts.all off

/-- A step of SEAL or SEAL.OPEN at the home (R307, R309): translations dropped first, the record changed once the page is
quiet. -/
def State.sealStep (s : State) (p : Fin 12) (open_ : Bool) (l : LaneAcc) (pa : Nat) (at_ : Attr) : State × LaneSt :=
  let page := s.pageOf p l.ea pa
  let v := ((s.vint pa).map (·.2)).getD ⟨page.2, false, 0⟩
  let base := ((s.vint pa).map (·.1)).getD page.1
  if !at_.vint then (s, .done [2])
  else if v.sealed_ != open_ then (s, .done [1])
  else if l.st = .waiting then (s.dropPage page, .done [])
  else if open_ then ({ s with vints := Tbl.put s.vints base { v with sealed_ := false } }, .done [0])
  else if s.pageQuiet page then
    ({ s with vints := Tbl.put s.vints base { v with sealed_ := true, num := v.num + 1 } }, .done [0])
  else (s, .done [])

/-- VINTRD's word. -/
def vintWord (v : Vint) : Word := BitVec.ofNat 32 (bit v.sealed_ * 2 ^ 31 + v.num.toNat)

/-- What VINTRD finds at a place (R309): a peer answers freely. -/
def State.vintAt (s : State) (x : Place) : DevData :=
  match x with
  | .mem pa at_ => .word (if at_.vint then ((s.vint pa).map fun v => vintWord v.2).getD 0 else 0)
  | .team _ _ => .word 0
  | .fab f _ mbr off =>
    if s.memberRefuses 0 false f mbr off then .refused
    else if mbr = f.self then
      .word (((apertureOf f off).bind fun pa => (s.vint pa).map fun v => vintWord v.2).getD 0)
    else .word (Config.freeWord s.tick 0 &&& 0x8000FFFF)

/-- Words of a peer are cached by 64 KiB pages of the member's aperture, under the CID that filled them (R308, 08 R145,
assumption 32). -/
def VCopy.holds (v : VCopy) (cid : BitVec 12) (fg mbr off : Nat) : Bool :=
  v.cid == cid && v.fg == fg && v.mbr == mbr && v.page == off / 65536

/-- A load performed at a peer; a page it reports sealed may be cached with its vintage (R308). -/
def State.loadAtPeer (s : State) (p : Fin 12) (i fg mbr off : Nat) : State × DevData :=
  if s.peerRefuses i then (s, .refused)
  else
    let w := Config.freeWord s.tick i
    let n : BitVec 16 := BitVec.ofNat 16 (Config.freeNat s.tick (2 * i))
    if !Config.freeBit s.tick (8 * i + 6) then (s, .word w)
    else
      match s.vcache.find? fun v => v.holds (s.cid p) fg mbr off with
      | none => ({ s with vcache := s.vcache ++ [⟨p, s.cid p, fg, mbr, off / 65536, n, true, [(off, w)]⟩] }, .word w)
      | some v =>
        let v1 := if v.vint = n then { v with words := Tbl.put v.words off w }
          else { v with vint := n, verified := true, words := [(off, w)] }
        ({ s with vcache := s.vcache.map fun x => if x.holds (s.cid p) fg mbr off then v1 else x }, .word w)

/-- A load of a peer's word (R308): from a verified copy, after a query from an unverified one, else at the member. -/
def State.loadPeer (s : State) (p : Fin 12) (i fg mbr off : Nat) : State × DevData :=
  match s.vcache.find? fun v => v.holds (s.cid p) fg mbr off with
  | none => s.loadAtPeer p i fg mbr off
  | some v =>
    match Tbl.find v.words off with
    | none => s.loadAtPeer p i fg mbr off
    | some w =>
      if v.verified then (s, .word w)
      else if Config.freeBit s.tick (8 * i + 7) then
        ({ s with vcache := s.vcache.map fun x =>
             if x.holds (s.cid p) fg mbr off then { x with verified := true } else x }, .word w)
      else
        ({ s with vcache := s.vcache.filter fun x => !x.holds (s.cid p) fg mbr off } : State).loadAtPeer p i fg mbr off

/-! ### Messages (R310, R311) -/

/-- The core a target word names (R310): none when it is not a core of the sender's grid. -/
def State.targetCore (s : State) (g : Group) (t : Word) : Option CoreRef :=
  if h : wfield t 19 16 < 12 then
    let d : Fin 12 := ⟨wfield t 19 16, h⟩
    if wfield t 31 20 ≠ 0 ∨ wfield t 15 14 ≠ 0 ∨ !((s.parts[g.part]).dies.getLsbD d.val) then none
    else
      match (s.exposed d)[wfield t 13 8]? with
      | none => none
      | some c =>
        match s.grid g.grid with
        | none => none
        | some gr => if gr.clusters.any fun k => k.die == d && k.cores.contains c then some ⟨d, c⟩ else none
  else none

/-- Messages in a core's queue of a partition. -/
def State.queued (s : State) (p : Fin 12) (c : CoreRef) : List Msg := s.msgs.filter fun m => m.part == p && m.core == c

/-- An earlier message of the group to the same target has not entered its queue (R311). -/
def Group.earlierMessage (g : Group) (a : Access) (t : Word) : Bool :=
  g.acc.any fun x => decide (x.id < a.id) && !(x.lanes.all LaneAcc.performed) && (match x.kind with
    | .message u _ _ => u &&& 0x000F3F00 == t &&& 0x000F3F00
    | _ => false)

/-- The message of a post is judged and enters its queue, when an entry is free (R310, R311). -/
def State.enqueueMessage (s : State) (r : GroupRef) (n : Nat) : State :=
  match s.postAt r n with
  | none => s
  | some (out, g, a) =>
    match a.kind with
    | .message t off words =>
      if a.lanes.all LaneAcc.performed || g.earlierMessage a t then s
      else
        match s.targetCore g t with
        | none => s.postReplied r out g a (postWord 15 0 0)
        | some c =>
          let hidx := wfield t 7 0
          if ((s.grid g.grid).map fun x => x.desc.hcount).getD 0 ≤ hidx then s.postReplied r out g a (postWord 16 0 0)
          else
            match s.ownPlace r g off (4 * words) 4 with
            | none => s.postReplied r out g a (postWord 4 0 0)
            | some (k, b) =>
              if 16 ≤ (s.queued g.part c).length then
                (if g.svc = .none then s else s.postReplied r out g a (postWord 17 0 0))
              else
                let m : Msg :=
                  { part := g.part, grid := g.grid, core := c, hidx := hidx, uid := g.uid
                    payload := (List.range words).map fun i => s.teamWord k (b + 4 * i)
                    sender := BitVec.ofNat 32 (r.die.val * 2 ^ 24 + r.core.val * 65536 + r.slot.val)
                    trapService := false, rel := none, lost := false }
                ({ s with msgs := s.msgs ++ [m] } : State).postReplied r out g a (postWord 0 0 1)
    | _ => s

end Sys2Proof.Machine
end

