-- ==== Sys2Proof/Machine/Launch.lean ====
section
/-! DEFINITION. Launch descriptors (19 R325, R326), the distributor's placement (19 R327, R328), and the launch and tile
instructions (19 R330 to R335). -/

namespace Sys2Proof.Machine

/-! ### Launch descriptors (R325) -/

/-- The descriptor in 36 words. -/
def descOf (ws : List Word) : Desc :=
  let w (i : Nat) : Word := ws[i]?.getD 0
  { w := 16 * 2 ^ (wfield (w 0) 23 22), nv := wfield (w 0) 21 15, teamMax := wfield (w 0) 14 8
    exposePriv := (w 0).getLsbD 7, liveMx := (w 0).getLsbD 6
    nclu := wfield (w 1) 31 16, gpc := wfield (w 1) 15 6
    pw := wfield (w 2) 31 28, ph := wfield (w 2) 27 24, pn := wfield (w 2) 23 20
    fw := wfield (w 2) 15 12, fh := wfield (w 2) 11 8, fn := wfield (w 2) 7 4
    dieMask := (w 3).extractLsb' 20 12, depth := wfield (w 3) 15 0
    starve := if wfield (w 4) 31 20 = 0 then 50 else wfield (w 4) 31 20, tmem := wfield (w 4) 19 0
    priv := (w 5).toNat, entry := w 6, hoff := w 7, codeBase := joinWords (w 8) (w 9), cbase := joinWords (w 10) (w 11)
    csize := (w 12).toNat, hcount := wfield (w 13) 8 0, thidx := wfield (w 13) 24 16
    ppool := joinWords (w 14) (w 15), ppsz := (joinWords (w 16) (w 17)).toNat, htab := joinWords (w 18) (w 19)
    args := Vector.ofFn fun i : Fin 16 => w (20 + i.val) }

/-- The zero fields are zero and the version is 1 (detail 0x30). -/
def descZeros (ws : List Word) : Bool :=
  let w (i : Nat) : Word := ws[i]?.getD 0
  wfield (w 0) 31 24 == 1 && wfield (w 0) 5 0 == 0 && wfield (w 1) 5 0 == 0 && wfield (w 2) 19 16 == 0 &&
  wfield (w 2) 3 0 == 0 && wfield (w 3) 19 16 == 0 && wfield (w 13) 15 9 == 0 && wfield (w 13) 31 25 == 0

/-- The dies of a grid, ascending (R325). -/
def gridDiesOf (part : BitVec 12) (d : Desc) : List (Fin 12) := diesOf (if d.dieMask = 0 then part else d.dieMask)

def ceilDiv (a b : Nat) : Nat := (a + b - 1) / b

/-- A shape within its limits (R325). -/
def shapeGood (w h n : Nat) : Bool :=
  decide (1 ≤ w ∧ w ≤ 6 ∧ 1 ≤ h ∧ h ≤ 6 ∧ w * h ≤ 12 ∧ 1 ≤ n ∧ n ≤ w * h)

/-- Bytes of registers of a group. -/
def regBytes (w nv : Nat) : Nat := 4 * w * nv

/-- Groups of a kernel that one core's four partitions hold (01 R16). -/
def coreGroups (w nv : Nat) : Nat := 4 * min 15 (245760 / regBytes w nv)

/-- Bytes of a service store (R336). -/
def serviceStore (d : Desc) : Nat := 64 * d.priv + 16 * d.depth

/-- Bytes of the service stores at the top of a die's part of the pool (R336). -/
def State.serviceBytes (s : State) (die : Fin 12) (d : Desc) : Nat := 4 * (s.exposed die).length * serviceStore d

/-! ### Rectangles (R327) -/

/-- Anchors in ascending quad order, within a quad by physical index. -/
def anchors : List (Fin 36) := (List.range 9).flatMap fun q => (List.finRange 36).filter fun c => quadOf c.val == q

/-- The exposed cores of the rectangle of w columns and h rows at an anchor, ascending; none when it is no candidate. -/
def State.rectCores (s : State) (die : Fin 12) (a : Fin 36) (w h : Nat) : Option (List (Fin 36)) :=
  let r := a.val / 6
  let c := a.val % 6
  if 6 < c + w ∨ 6 < r + h ∨ (w % 2 = 0 ∧ c % 2 ≠ 0) ∨ (h % 2 = 0 ∧ r % 2 ≠ 0) then none
  else some ((s.exposed die).filter fun k =>
    decide (r ≤ k.val / 6 ∧ k.val / 6 < r + h ∧ c ≤ k.val % 6 ∧ k.val % 6 < c + w))

/-- Candidates in the order they are tried: at each anchor the preferred shape, then the fallback. -/
def State.candidates (s : State) (die : Fin 12) (d : Desc) : List (List (Fin 36)) :=
  anchors.flatMap fun a => [(d.pw, d.ph, d.pn), (d.fw, d.fh, d.fn)].filterMap fun x =>
    match s.rectCores die a x.1 x.2.1 with
    | some cs => if x.2.2 ≤ cs.length then some cs else none
    | none => none

/-- The detail of a failing descriptor, 0 for a good one (R326): the lowest that applies. `tmax` is PLIMIT.TMEM. -/
def State.descDetail (s : State) (part : BitVec 12) (tmax : Nat) (ws : List Word) : Nat :=
  let d := descOf ws
  let dies := gridDiesOf part d
  let teams := [ceilDiv d.gpc d.pn, ceilDiv d.gpc d.fn]
  if !descZeros ws then 0x30
  else if wfield (ws[0]?.getD 0) 23 22 = 3 ∨ d.nv < 8 ∨ 64 < d.nv ∨ d.teamMax < 1 ∨ 60 < d.teamMax ∨
      d.hcount < d.thidx then 0x31
  else if !shapeGood d.pw d.ph d.pn || !shapeGood d.fw d.fh d.fn || d.nclu == 0 || d.gpc == 0 then 0x32
  else if teams.any fun t => decide (d.teamMax < t) then 0x33
  else if 65536 * tmax < d.tmem ∨ (teams.any fun t => decide (coreGroups d.w d.nv < t)) ∨
      (dies.any fun e => decide (d.ppsz < s.serviceBytes e d)) then 0x34
  else if d.dieMask &&& ~~~part ≠ 0 ∨ dies = [] then 0x35
  else if d.codeBase.toNat % 65536 ≠ 0 ∨ d.htab.toNat % 8 ≠ 0 ∨ d.entry.toNat % 4 ≠ 0 ∨ d.priv % 4 ≠ 0 ∨
      d.csize % 4 ≠ 0 ∨ d.tmem % 4 ≠ 0 then 0x36
  else if dies.any fun e => (s.candidates e d).isEmpty then 0x37
  else 0

/-! ### Room on a core (R327, 01 R16, 08 R147) -/

/-- Groups on a core. -/
def State.groupsAt (s : State) (c : CoreRef) : List (GroupRef × Group) := s.groups.filter fun x => x.1.at == c

/-- The scheduler partition of a slot, and the place within it. -/
def slotPart (k : Fin 64) : Nat := k.val / 16
def slotPlace (k : Fin 64) : Nat := k.val % 16

/-- Kernel groups in each scheduler partition of a core, and the bytes of registers they hold. -/
def State.partLoad (s : State) (c : CoreRef) : List (List Nat × Nat) :=
  (List.range 4).map fun p =>
    let gs := (s.groupsAt c).filter fun x => slotPart x.1.slot == p && slotPlace x.1.slot != 15
    (gs.map fun x => slotPlace x.1.slot, (gs.map fun x => regBytes x.2.w x.2.nv).sum)

/-- The scheduler partition with the most free group slots, the lowest first (R328). -/
def emptiest (load : List (List Nat × Nat)) : Nat :=
  let least := load.foldl (fun m x => min m x.1.length) 16
  (load.findIdx? fun x => x.1.length == least).getD 0

/-- The lowest free place of a scheduler partition. -/
def freePlace (used : List Nat) : Option Nat := (List.range 15).find? fun i => !used.contains i

/-- Slots for n groups of a kernel on a core, in the order they are placed; none when they do not all fit. -/
def dealSlots (bytes : Nat) : Nat → List (List Nat × Nat) → Option (List Nat)
  | 0, _ => some []
  | n + 1, load =>
    let p := emptiest load
    match load[p]? with
    | none => none
    | some (used, regs) =>
      match freePlace used with
      | none => none
      | some i =>
        if 245760 < regs + bytes then none
        else (dealSlots bytes n (load.set p (used ++ [i], regs + bytes))).map fun ks => (16 * p + i) :: ks

/-- Bytes rounded up to 64 KiB. -/
def round64K (n : Nat) : Nat := ceilDiv n 65536 * 65536

/-- Team memory granted on a core to grids that are on it. -/
def State.teamBytes (s : State) (c : CoreRef) : Nat :=
  ((s.teams.filter fun t => t.key.core == c && !s.gridOut t.key.grid).map fun t => round64K t.size).sum

/-- The slots of the team dealt to a core, when the whole team fits (R327). -/
def State.teamFits (s : State) (gr : Grid) (c : CoreRef) (n : Nat) : Option (List Nat) :=
  if n = 0 then some []
  else if 65536 * gr.tmax < s.teamBytes c + round64K gr.desc.tmem then none
  else dealSlots (regBytes gr.desc.w gr.desc.nv) n (s.partLoad c)

/-! ### Backing stores (08 R137, R328) -/

/-- Bytes of a group's store. -/
def storeBytes (d : Desc) : Nat := d.w * d.priv + 16 * d.depth

/-- The part of the pool of the k-th die of a grid that holds stores: its first byte and its bytes. -/
def State.poolPart (s : State) (d : Desc) (k : Nat) (die : Fin 12) : Nat × Nat :=
  (d.ppool.toNat + k * d.ppsz, d.ppsz - s.serviceBytes die d)

/-- Stores of the grid's groups that hold their slots, resident or out; a group that waits to start has none yet. -/
def State.storesOf (s : State) (grid : Nat) : List (Nat × Nat) :=
  ((s.groups.map (·.2) ++ s.parked.map (·.grp)).filter fun g =>
    g.grid == grid && g.svc == .none && g.wait != some .pool).map fun g => (g.store.toNat, g.w * g.priv + 16 * g.depth)

/-- A store at a base overlaps none of those in use. -/
def storeFree (used : List (Nat × Nat)) (b n : Nat) : Bool :=
  used.all fun x => decide (x.1 + x.2 ≤ b ∨ b + n ≤ x.1)

/-- Candidate bases: the start of the part and the ends of the stores in use, on 128-byte boundaries. -/
def storeBases (lo : Nat) (used : List (Nat × Nat)) : List Nat :=
  (lo :: used.map fun x => x.1 + x.2).map fun b => (b + 127) / 128 * 128

/-- A base for one store within a part: the device's choice (R137), the free one when it is possible, else the first that
is; none when the part is full. -/
def pickStore (lo len n choice : Nat) (used : List (Nat × Nat)) : Option Nat :=
  let good (b : Nat) : Bool := decide (lo ≤ b ∧ b + n ≤ lo + len) && storeFree used b n
  let first := (lo + 127) / 128 * 128
  let free := first + 128 * (choice % (len / 128 + 1))
  if good free then some free else (storeBases lo used).find? good

/-- Bases for n stores, the device's choices those from number `at_` on. -/
def pickStores (tick at_ lo len bytes : Nat) : Nat → List (Nat × Nat) → Option (List Nat)
  | 0, _ => some []
  | n + 1, used =>
    match pickStore lo len bytes (Config.freeNat tick (at_ + n)) used with
    | none => none
    | some b => (pickStores tick at_ lo len bytes n ((b, bytes) :: used)).map fun bs => b :: bs

/-- Stores for teams of the given sizes, one team after the other, or none for a team that finds the part of the pool full
(R328). -/
def teamStores (tick lo len bytes : Nat) : Nat → List Nat → List (Nat × Nat) → List (Option (List Nat))
  | _, [], _ => []
  | i, n :: rest, used =>
    match pickStores tick (64 * i) lo len bytes n used with
    | none => none :: teamStores tick lo len bytes (i + 1) rest used
    | some bs => some bs :: teamStores tick lo len bytes (i + 1) rest (bs.map (fun b => (b, bytes)) ++ used)

/-! ### Placing a cluster (R327, R328, R334) -/

/-- Groups of a cluster dealt to position `i` of m cores (R328). -/
def dealt (gpc m i : Nat) : Nat := ((List.range gpc).filter fun g => g % m == i).length

/-- The slots of the teams on the cores of a rectangle; none when a core holds another cluster of the grid or a team does
not fit. -/
def State.rectFits (s : State) (gr : Grid) (die : Fin 12) (cores : List (Fin 36)) : Option (List (List Nat)) :=
  if gr.clusters.any fun k => k.die == die && k.cores.any fun c => cores.contains c then none
  else
    (cores.zipIdx).foldr (fun x acc =>
      match acc, s.teamFits gr ⟨die, x.1⟩ (dealt gr.desc.gpc cores.length x.2) with
      | some ts, some t => some (t :: ts)
      | _, _ => none) (some [])

/-- The rectangle that is taken, with the slots of its teams (R327). -/
def State.findRect (s : State) (gr : Grid) (die : Fin 12) : Option (List (Fin 36) × List (List Nat)) :=
  ((s.candidates die gr.desc).filterMap fun cs => (s.rectFits gr die cs).map fun ts => (cs, ts)).head?

/-- The next cluster of a grid on its k-th die. -/
def Grid.nextCluster (gr : Grid) (k : Nat) : Option Nat :=
  let c := k + gr.dies.length * (gr.placed[k]?.getD 0)
  if k < gr.dies.length ∧ c < gr.desc.nclu then some c else none

/-- Generation g is reached (R330). -/
def genReached (gen g : Word) : Bool := decide ((gen - g).toNat < 2 ^ 31)

/-- The tile flag of a cluster has reached its generation (R334). -/
def State.tileReached (s : State) (gr : Grid) (c : Nat) : Bool :=
  match gr.tdep with
  | none => true
  | some t =>
    genReached (s.devWord gr.part 0 (t.ttab + BitVec.ofNat 64 (16 * (t.tfirst + c / t.tdiv) + 12))) t.tgen

/-- All that the placement of a grid's next cluster on a die needs; `stores` are those of its teams, by position. -/
structure Placement where
  num : Nat
  idx : Nat
  cores : List (Fin 36)
  slots : List (List Nat)
  stores : List (Option (List Nat))

/-- The placement of a grid's next cluster on a die, when resources and tile flags allow it. -/
def State.placement (s : State) (gr : Grid) (die : Fin 12) : Option Placement :=
  match gr.dies.findIdx? (· == die) with
  | none => none
  | some k =>
    match gr.nextCluster k with
    | none => none
    | some c =>
      if gr.pre != .running || (s.parts[gr.part]).halting || !s.tileReached gr c then none
      else
        match s.findRect gr die with
        | none => none
        | some (cores, slots) =>
          let part := s.poolPart gr.desc k die
          some ⟨c, k, cores, slots, teamStores s.tick part.1 part.2 (storeBytes gr.desc) 0
            ((List.range cores.length).map (dealt gr.desc.gpc cores.length)) (s.storesOf gr.id)⟩

/-- The grid has a group that is not resident, beyond `n` of its swapped-out groups (R329). -/
def State.moreOut (s : State) (gr : Grid) (n : Nat) : Bool :=
  decide (gr.placed.sum < gr.desc.nclu) ||
  decide (n < (s.parked.filter fun x => x.grp.grid == gr.id && x.swapped.isSome).length)

/-- A swapped-out group may return (R329): STARVE has elapsed since its swap, or it is the grid's only group out. -/
def State.mayReturn (s : State) (x : Parked) : Bool :=
  match x.swapped, s.grid x.grp.grid with
  | some t, some gr => decide (t + 850 * gr.desc.starve ≤ s.clk) || !s.moreOut gr 1
  | _, _ => false

/-- The slot in which a group comes back to its core: its own when it is free, else one dealt as at placement. -/
def State.slotFor (s : State) (place : GroupRef) (g : Group) : Option (Fin 64) :=
  let load := s.partLoad place.at
  let bytes := regBytes g.w g.nv
  let own := load[slotPart place.slot]?
  if (own.map fun x => decide (!x.1.contains (slotPlace place.slot) ∧ x.2 + bytes ≤ 245760)).getD false then some place.slot
  else ((dealSlots bytes 1 load).bind List.head?).map (Fin.ofNat 64)

/-- A swapped-out group of the grid takes a free slot of a core of the die first (R329). -/
def State.returnsFirst (s : State) (grid : Nat) (die : Fin 12) : Bool :=
  s.parked.any fun x => x.grp.grid == grid && x.place.die == die && s.mayReturn x && (s.slotFor x.place x.grp).isSome

/-- A group with its backing store; one without waits to start (R328). -/
def Group.withStore (g : Group) : Option Nat → Group
  | some b => { g with store := BitVec.ofNat 64 b, wait := none }
  | none => { g with wait := some .pool }

/-- The distributor reads the tile flag of a grid's next cluster on a die (R334, 08 R142). -/
def State.tileRead (s : State) (gr : Grid) (die : Fin 12) : State :=
  match gr.tdep, (gr.dies.findIdx? (· == die)).bind gr.nextCluster with
  | some t, some c =>
    if gr.pre != .running || (s.parts[gr.part]).halting then s
    else s.devSeen (s.fgt gr.part) gr.part (t.ttab + BitVec.ofNat 64 (16 * (t.tfirst + c / t.tdiv) + 12)) 1
  | _, _ => s

/-- The groups of a placed cluster (R328): group g on core g mod m, GROUP ⌊g/m⌋. -/
def State.clusterGroups (s : State) (gr : Grid) (die : Fin 12) (p : Placement) : List (GroupRef × Group) :=
  let m := p.cores.length
  (List.range gr.desc.gpc).filterMap fun g =>
    match p.cores[g % m]?, (p.slots[g % m]?).bind fun ks => ks[g / m]? with
    | some c, some k =>
      some (⟨die, c, Fin.ofNat 64 k⟩, (startGroup (s.nextId + g) gr.id gr.part gr.desc p.num (g % m) (g / m) g 0 gr.debug
        gr.reduced).withStore (((p.stores[g % m]?).bind id).bind fun bs => bs[g / m]?))
    | _, _ => none

/-- The teams of a grid on a die that wait to start, the earliest cluster first. -/
def State.poolTeams (s : State) (grid : Nat) (die : Fin 12) : List (Nat × Nat) :=
  sortBy (fun a b => decide (a.1 < b.1 ∨ a.1 = b.1 ∧ a.2 ≤ b.2)) ((s.groups.filter fun x =>
    x.2.grid == grid && x.1.die == die && x.2.wait == some .pool).map fun x => (x.2.clu, x.2.team)).eraseDups

/-- A team memory as it reads at its team's start (08 R138). -/
def Team.clear (t : Team) : Team := { t with cells := [], poison := [] }

/-- A waiting team starts when the stores of all its groups fit in its part of the pool (R328); its team memory, which groups of
its cluster that started before may have written, reads as 0 then (08 R138). -/
def State.startTeam (s : State) (gr : Grid) (die : Fin 12) (t : Nat × Nat) : State :=
  let mine := sortBy (fun a b => decide (a.2.idx ≤ b.2.idx)) (s.groups.filter fun x =>
    x.2.grid == gr.id && x.1.die == die && x.2.wait == some .pool && x.2.clu == t.1 && x.2.team == t.2)
  let part := s.poolPart gr.desc ((gr.dies.findIdx? (· == die)).getD 0) die
  match pickStores s.tick (64 * (t.1 * 16 + t.2 + 16)) part.1 part.2 (storeBytes gr.desc) mine.length (s.storesOf gr.id) with
  | none => s
  | some bs =>
    let fresh (m : Team) : Bool := m.key.grid == gr.id && m.key.clu == t.1 && m.team == t.2
    (mine.zip bs).foldl (fun s x => s.setGroup x.1.1 (x.1.2.withStore (some x.2)))
      { s with teams := s.teams.map fun m => if fresh m then m.clear else m }

/-- Waiting teams of a grid on a die start where a place is free (R328, 08 R137). -/
def State.startTeams (s : State) (gr : Grid) (die : Fin 12) : State :=
  (s.poolTeams gr.id die).foldl (fun s t => s.startTeam gr die t) s

/-- The team memories of a placed cluster, reading as 0 (08 R138). -/
def clusterTeams (gr : Grid) (die : Fin 12) (p : Placement) : List Team :=
  (p.cores.zipIdx.filter fun x => decide (0 < dealt gr.desc.gpc p.cores.length x.2)).map fun x =>
    { key := ⟨gr.id, p.num, ⟨die, x.1⟩⟩, team := x.2, size := gr.desc.tmem, cells := [], poison := [] }

/-- The slice of a queue begins now, or goes on when it is open (R324). -/
def State.openSlice (s : State) (p : Fin 12) (q : Fin 64) (anew : Bool) : State :=
  let x := s.parts[p]
  let k := x.queues[q]
  s.setPart p { x with queues := x.queues.set q { k with
    sliceFrom := if anew then some s.clk else some (k.sliceFrom.getD s.clk) } }

/-- The launch has started: its command or child leaves the head of its queue, and its queue's slice opens (R322 to R324;
assumption 35). -/
def State.launchStarts (s : State) (gr : Grid) : State :=
  let s1 := s.openSlice gr.part gr.prioQueue false
  let x := s1.parts[gr.part]
  match gr.queue with
  | some q => s1.setPart gr.part { x with queues := x.queues.set q { x.queues[q] with hand := none } }
  | none => s1.setPart gr.part { x with childSel := none }

/-- A cluster is placed and its groups start (R327, R328, R334). -/
def State.placeCluster (s : State) (gr : Grid) (die : Fin 12) (p : Placement) : State :=
  let first := gr.placed.all (· == 0)
  let gr1 : Grid := { gr with
    placed := gr.placed.set p.idx (gr.placed[p.idx]?.getD 0 + 1)
    clusters := gr.clusters ++ [⟨p.num, die, p.cores⟩] }
  let s1 : State := { s.setGrid gr1 with
    groups := s.groups ++ s.clusterGroups gr die p
    teams := s.teams ++ clusterTeams gr die p
    nextId := s.nextId + gr.desc.gpc
    gated := s.gated.filter fun x => !(x.1 == die && p.cores.any fun c => c.val == x.2.val) }
  let s2 := if gr.tdep.isSome then s1.acquire die gr.part .part else s1
  if first then s2.launchStarts gr else s2

/-- The next cluster of a grid on a die is placed, when its tile flag is found reached and it can be, when no swapped-out group of
the grid comes first and no grid selected earlier places on the die instead (R323, R327, R329). -/
def State.placeNext (s : State) (gr : Grid) (die : Fin 12) : State :=
  let s1 := s.tileRead gr die
  match s1.placement gr die with
  | none => s1
  | some p =>
    if s1.returnsFirst gr.id die then s1
    else if s1.grids.any fun x => decide (x.order < gr.order) && (s1.placement x die).isSome then s1
    else s1.placeCluster gr die p

/-- The distributor's turn for a grid on a die: teams that waited for the pool, then the next cluster. -/
def State.clusterPlace (s : State) (grid : Nat) (die : Fin 12) : State :=
  match s.grid grid with
  | none => s
  | some gr => (s.startTeams gr die).placeNext gr die

/-! ### LAUNCH (R335) -/

/-- Both addresses of a LAUNCH: the descriptor as an LDK aligned to 64 bytes, the record as an STK aligned to 32. -/
def State.checkLaunch (s : State) (c : Ctx) (desc record : Addr) : Checked × Checked :=
  let glob (n : Need) (a : Addr) (words align : Nat) : Checked := match windowOf a with
    | .glob _ => s.checkGeneric c.r c.g n 0 a words align (4 * words)
    | .priv _ | .team _ | .const _ | .none => .fault .range
  (glob ⟨false, false, 0⟩ desc 36 64, glob ⟨true, false, 0⟩ record 8 32)

/-- The host queue whose PRIO and SLICE a child of a grid takes (R335). -/
def State.inheritedQueue (s : State) (g : Group) : Fin 64 := ((s.grid g.grid).map (·.prioQueue)).getD 0

/-- A LAUNCH behind its release half: the descriptor judged, the child queued (R335). -/
def State.launchChild (s : State) (g : Group) (desc record : Addr) : State × Word :=
  let x := s.parts[g.part]
  let ws := s.devWords g.part desc 36
  let tmax := wfield x.plimit 27 24
  let detail := s.descDetail x.dies tmax ws
  if detail ≠ 0 then (s.putRecord g.part record .badcmd detail 0 none, 1)
  else if 256 ≤ x.children.length then (s, 2)
  else
    (s.setPart g.part { x with children := x.children ++ [⟨descOf ws, record, s.inheritedQueue g, tmax, s.phase != 3⟩] }, 0)

/-- LAUNCH (R335). -/
def execLaunch (y : Bool) (d a b : Reg) (s : State) : Out :=
  s.withCtx (.launch y d a b) fun c =>
    if c.act = 0 then s.finish c c.g .falls []
    else
      let desc := c.g.pair a
      let record := c.g.pair b
      match s.checkLaunch c desc record with
      | (.miss k, _) | (_, .miss k) => s.setGroup c.r { c.g with xlate := [k] }
      | (.fault cause, _) => s.trapAll c cause 0 desc
      | (.ok _, .fault cause) => s.trapAll c cause 0 record
      | (.ok ps, .ok qs) =>
        if 63 ≤ c.g.count .k then s.stall c
        else
          match s.holdFor c .rel .part [] with
          | .stays t => t
          | .goes t _ =>
            let t1 := (t.touchAll (ps.filterMap (·.2)) false).touchAll (qs.filterMap (·.2)) true
            let (t2, status) := t1.launchChild c.g desc record
            t2.finish c (c.g.addAccess (c.once .k (.launch status) (.uni d) desc [] [])) .falls []

/-! ### Tile flags (R330 to R333) -/

/-- The address of an entry. -/
def Ctx.tileEntry (c : Ctx) (a b : Reg) : Addr := c.g.pair a + BitVec.ofNat 64 (16 * (c.g.uni b).toNat)

/-- The checks of an entry (R331): a load's with 16-byte alignment, for TILESIG W also. -/
def State.checkTile (s : State) (c : Ctx) (ea : Addr) (sig : Bool) : Checked :=
  match windowOf ea with
  | .glob _ =>
    match s.checkGeneric c.r c.g ⟨false, false, 1⟩ 0 ea 4 16 16 with
    | .ok ps =>
      if sig then
        (match s.checkGeneric c.r c.g ⟨true, false, 1⟩ 0 ea 4 16 16 with
         | .ok qs => .ok qs
         | x => x)
      else .ok ps
    | x => x
  | .priv _ | .team _ | .const _ | .none => .fault .range

/-- A tile instruction: nothing without an active lane, the entry's checks, then `f`. -/
def tileOp (i : Instr) (s : State) (a b : Reg) (sig : Bool) (f : Ctx → Addr → List Place → List Trans → State) : Out :=
  s.withCtx i fun c =>
    if c.act = 0 then s.finish c c.g .falls []
    else
      let ea := c.tileEntry a b
      match s.checkTile c ea sig with
      | .miss k => s.setGroup c.r { c.g with xlate := [k] }
      | .fault cause => s.trapAll c cause 0 ea
      | .ok ps => f c ea (ps.map (·.1)) (ps.filterMap (·.2))

/-- The granule at ga of n bytes overlaps a physical block of the span. -/
def spanMeets (blocks : List (Nat × Nat)) (ga n : Nat) : Bool :=
  blocks.any fun x => decide (x.1 < ga + n) && decide (ga < x.1 + x.2)

/-- The physical ranges of a span of virtual addresses, block by block. -/
def State.spanBlocks (s : State) (p : Fin 12) (va n : Nat) : List (Nat × Nat) :=
  if n = 0 then []
  else
    (List.range ((va % 65536 + n + 65535) / 65536)).filterMap fun i =>
      let lo := if i = 0 then va else va / 65536 * 65536 + 65536 * i
      let hi := min (va + n) (va / 65536 * 65536 + 65536 * (i + 1))
      (s.physOf (s.fgt p) p (BitVec.ofNat 64 lo)).map fun pa => (pa, hi - lo)

/-- Step 2 of a TILESIG's release half: records of the twinned granules that overlap the span, and what it waits for: every
record of the die to a granule of the span that is in flight, evictions among them, and the notices it caused there (R332). A
notice does not tell its granule's size: it counts as one of 128 bytes. -/
def State.spanRelease (s : State) (die : Fin 12) (blocks : List (Nat × Nat)) : State × List Nat :=
  let mine := s.twins.filter fun x => x.1 == die && spanMeets blocks x.2
    (((Tbl.find s.copies x).map fun c => 4 * c.words.length).getD 64)
  let s1 := { s with relSeq := s.relSeq.set die (s.relSeq[die] + 1) }
  let s2 := mine.foldl (fun s x => s.sendDiff die x.2 false) s1
  (s2, (s2.records.filter fun r => r.die == die && spanMeets blocks r.granule (4 * granuleWords r.big)).map (·.id) ++
    (s2.notices.filter fun n => n.src == die && spanMeets blocks n.granule 128).map (·.cause))

/-- SPAN and SLEN of an entry, from its places. -/
def State.tileSpan (s : State) (die part : Fin 12) (ps : List Place) : Nat × Nat :=
  let ws := (s.loadPlaces die part ps).2
  ((joinWords (ws[0]?.getD 0) (ws[1]?.getD 0)).toNat, (ws[2]?.getD 0).toNat)

/-- TILESIG (R332): its own release half, then the store to GEN, counted on K. -/
def execTilesig (y : Bool) (d a b : Reg) (p : Scope) (s : State) : Out :=
  tileOp (.tilesig y d a b p) s a b true fun c ea ps ts =>
    let store (t : State) : State :=
      (t.touchAll ts true).finish c
        (c.g.addAccess (c.once .k .store .none ea (ps.drop 3) [c.g.uni d])) .falls []
    if s.noRoom c .k 1 then s.stall c
    else if ps.any s.ownedByEngine then s
    else
      match c.g.hold with
      | some h => if s.allApplied h.ids then store s else s
      | none =>
        if !s.earlierDone c.g then s.stall c
        else if !p.crossDie then store s
        else
          let span := s.tileSpan c.r.die c.g.part ps
          let (t, ids) := s.spanRelease c.r.die (s.spanBlocks c.g.part span.1 span.2)
          if t.allApplied ids then store t else t.setGroup c.r { c.g with stalled := true, hold := some ⟨ids, [], ⟨p, false⟩⟩ }

/-- GEN as a TILEW reads it: behind the die's stale set at `.part` or wider (R333). -/
def State.readGen (s : State) (die part : Fin 12) (p : Scope) (x : Place) : State × Word :=
  (if p.crossDie then s.processStale die else s).loadPlace die part x

/-- A TILEW's wait is over: the state with the acquire half and the generation read, which no engine is about to write
(R333, 12 R242). -/
def State.genReady (s : State) (r : GroupRef) (g : Group) (x : Place) (gen : Word) (p : Scope) : Option (State × Word) :=
  if g.clearFor [x] && !s.ownedByEngine x then
    let (s1, w) := s.readGen r.die g.part p x
    if genReached w gen then some (s1.acquire r.die g.part p, w) else none
  else none

/-- TILEW (R333): waits until GEN reaches s_d. -/
def execTilew (y : Bool) (d a b : Reg) (p : Scope) (s : State) : Out :=
  tileOp (.tilew y d a b p) s a b false fun c _ ps ts =>
    match ps[3]? with
    | none => s
    | some x =>
      let s1 := s.touchAll ts false
      match s1.genReady c.r c.g x (c.g.uni d) p with
      | some (t, w) => t.finish c (c.g.land c.seq (.uni d w)) .falls []
      | none => s1.beginWait c c.g (.tile d x (c.g.uni d) p)

/-- A TILEW ends (R333). -/
def State.tileMet (s : State) (r : GroupRef) : State :=
  match s.group r with
  | none => s
  | some g =>
    match g.wait with
    | some (.tile d x gen p) =>
      match s.genReady r g x gen p with
      | some (t, w) => t.wake r g [.uni d w]
      | none => s
    | _ => s

end Sys2Proof.Machine
end

