-- ==== Sys2Proof/Machine/Ordering.lean ====
section
/-! DEFINITION. Fences, barriers, sync-variable declaration and granule flush (12 R246 to R254). -/

namespace Sys2Proof.Machine

/-! ### FENCE (R246) -/

/-- Every earlier load and atomic of the group has returned its value (R246). -/
def Group.valuesReturned (g : Group) : Bool :=
  g.acc.all fun a => match a.kind with
    | .load | .atomic _ _ | .switchAtomic _ _ | .reduce _ => a.lanes.all LaneAcc.performed
    | _ => true

/-- FENCE (R246): held at issue until its halves complete. -/
def execFence (y : Bool) (q : Order) (p : Scope) (s : State) : Out :=
  s.withCtx (.fence y q p) fun c =>
    if c.act = 0 then s.finish c c.g .falls []
    else
      match s.holdFor c q p [] with
      | .stays t => t
      | .goes t _ =>
        if !(t.startedOf c.g.uid).isEmpty || (q.acquires && !c.g.valuesReturned) then
          t.setGroup c.r { ((t.group c.r).getD c.g) with stalled := true }
        else (if q.acquires then t.acquire c.r.die c.g.part p else t).finish c c.g .falls []

/-! ### Barriers (R247 to R252) -/

/-- The scope of a barrier's halves; a grid barrier uses .die when the grid spans one die (R231, R247). -/
def State.barScope (s : State) (g : Group) : Level → Scope
  | .team => .team
  | .clu => .clu
  | .die => .die
  | .grid => if s.gridDies g = 1 then .die else .part

/-- Groups of a cluster dealt to one of its m cores (19 R328). -/
def teamSize (gpc m team : Nat) : Nat := ((List.range gpc).filter fun i => i % m == team).length

/-- Members of a barrier, fixed at launch (R247). -/
def Grid.members (gr : Grid) (b : BarRef) : Nat :=
  match b.lvl with
  | .team =>
    match gr.clusters.find? fun c => c.num == b.unit / 64 with
    | some c => teamSize gr.desc.gpc c.cores.length (b.unit % 64)
    | none => 0
  | .clu => gr.desc.gpc
  | .die =>
    ((List.range gr.desc.nclu).filter fun c =>
      (gr.dies[c % gr.dies.length]?.map (·.val)) == some b.unit).length * gr.desc.gpc
  | .grid => gr.desc.nclu * gr.desc.gpc

/-- The expected count: members that still hold lanes (R247). -/
def Grid.expected (gr : Grid) (b : BarRef) : Nat := gr.members b - Tbl.findD gr.gone (b.lvl, b.unit) 0

def Barrier.idle : Barrier := ⟨0, [], [], false⟩

def Grid.barrier (gr : Grid) (b : BarRef) : Barrier := Tbl.findD gr.bars b .idle

/-- The barrier an instruction names. -/
def Ctx.barRef (c : Ctx) (n : Reg) (l : Level) : BarRef := ⟨c.g.grid, l, barUnit c.r c.g l, n.toNat⟩

def State.barrier (s : State) (b : BarRef) : Barrier := ((s.grid b.grid).map fun gr => gr.barrier b).getD .idle

/-- The first phase in which a member has not arrived when so many of its arrivals are still to be recorded, none when it is a
phase ahead then (R247). -/
def Barrier.nextPhase (b : Barrier) (u pending : Nat) : Option (BitVec 16) :=
  let n := (if !b.now.contains u then 0 else if !b.ahead.contains u then 1 else 2) + pending
  if n < 2 then some (b.cur + BitVec.ofNat 16 n) else none

/-- An arrival recorded. -/
def Barrier.arrive (b : Barrier) (u : Nat) : Barrier :=
  if !b.now.contains u then { b with now := b.now ++ [u] }
  else if !b.ahead.contains u then { b with ahead := b.ahead ++ [u] } else b

/-- An arrival of the group. A service group is no member, and nothing is recorded for it (assumption 26). -/
def State.arrive (s : State) (g : Group) (b : BarRef) : State :=
  if g.svc ≠ .none then s
  else
    match s.grid b.grid with
    | none => s
    | some gr => s.setGrid { gr with bars := Tbl.put gr.bars b ((gr.barrier b).arrive g.uid) }

/-- Arrivals of the group at the barrier that it issued and that are not recorded yet. -/
def Group.pendingAt (g : Group) (b : BarRef) : Nat := (g.arrivals.filter fun x => x.2 == b).length

/-- The phase of the group's next arrival at a barrier. -/
def State.nextPhase (s : State) (g : Group) (b : BarRef) : Option (BitVec 16) :=
  (s.barrier b).nextPhase g.uid (g.pendingAt b)

/-- The group's n-th instruction has sent an arrival (R249). A service group sends none. -/
def Group.sendArrival (g : Group) (n : Nat) (b : BarRef) : Group :=
  if g.svc ≠ .none then g else { g with arrivals := g.arrivals ++ [(n, b)] }

/-- So many arrivals of the group at one barrier. -/
def State.arriveTimes (s : State) (g : Group) (b : BarRef) : Nat → State
  | 0 => s
  | n + 1 => (s.arrive g b).arriveTimes g b n

/-- The group's arrivals at the barrier are recorded, and one more. -/
def State.arriveNow (s : State) (g : Group) (b : BarRef) : State := s.arriveTimes g b (g.pendingAt b + 1)
def Group.arrivedAt (g : Group) (b : BarRef) : Group := { g with arrivals := g.arrivals.filter fun x => x.2 != b }

/-- Every arrival of the group that is not recorded yet is. -/
def State.recordAll (s : State) (g : Group) : State := g.arrivals.foldl (fun s x => s.arrive g x.2) s

/-- The arrival that the group's n-th instruction sent is recorded, behind the earlier ones at its barrier (R249, assumption
18). -/
def State.recordArrival (s : State) (r : GroupRef) (n : Nat) : State :=
  match s.group r with
  | none => s
  | some g =>
    match g.arrivals.find? fun x => x.1 == n with
    | none => s
    | some x =>
      if (g.arrivals.takeWhile fun y => y != x).any fun y => y.2 == x.2 then s
      else (s.arrive g x.2).setGroup r { g with arrivals := g.arrivals.erase x }

/-- The barrier word (R248). -/
def barrierWord (fail : Bool) (arr : Nat) (phase : BitVec 16) : Word :=
  BitVec.ofNat 32 (bit fail * 2 ^ 31 + min arr 32767 * 65536 + phase.toNat)

/-- Phase t has completed (R250). -/
def Barrier.completed (b : Barrier) (t : BitVec 16) : Bool :=
  let d := (b.cur - t).toNat
  decide (1 ≤ d ∧ d ≤ 32767)

/-- An arrival two phases ahead waits within its run, without an issue slot (R247, assumption 42). -/
def State.waitAhead (s : State) (c : Ctx) (b : BarRef) : State :=
  (s.freeSlots c.r).setGroup c.r { c.g with wait := some (.ahead b), waitFrom := s.clk }

/-- An arrival at issue: held behind its release half (R249, 09 R192); it waits while the member is a phase ahead (R247). -/
def State.arriving (s : State) (c : Ctx) (b : BarRef) (l : Level) (k : State → BitVec 16 → State) : State :=
  match s.holdFor c .rel (s.barScope c.g l) [] with
  | .stays t => t
  | .goes t _ =>
    match t.nextPhase c.g b with
    | none => t.waitAhead c b
    | some ph => k t ph

/-- The wait for a phase: over at once with its acquire half when the phase has completed (R250). -/
def State.awaitPhase (s : State) (c : Ctx) (g : Group) (d : Reg) (b : BarRef) (l : Level) (t : BitVec 16) : State :=
  if (s.barrier b).completed t then
    (s.acquire c.r.die g.part (s.barScope g l)).finish c
      (({ g with arrived := none } : Group).land c.seq (.uni d (barrierWord false 0 t))) .falls []
  else s.beginWait c g (.barrier d b t)

/-- BARA (R249): the release half, then the arrival is sent, and the group issues on before it is recorded; the barrier word
after 4 slots. -/
def execBara (y : Bool) (d n : Reg) (l : Level) (s : State) : Out :=
  s.withCtx (.bara y d n l) fun c =>
    if c.act = 0 then s.finish c c.g .falls []
    else
      let b := c.barRef n l
      s.arriving c b l fun t ph =>
        t.finish c ((c.g.sendArrival c.seq b).later c.seq 4 (.uni d (barrierWord false 0 ph))) .falls []

/-- BARW (R250): waits for the phase of the token. -/
def execBarw (y : Bool) (d n b : Reg) (l : Level) (s : State) : Out :=
  s.withCtx (.barw y d n b l) fun c =>
    if c.act = 0 then s.finish c c.g .falls []
    else s.awaitPhase c c.g d (c.barRef n l) l ((c.g.uni b).extractLsb' 0 16)

/-- BAR (R250): arrives and waits; an arrival recorded before the wait was abandoned is not recorded again (R252). -/
def execBar (y : Bool) (d n : Reg) (l : Level) (s : State) : Out :=
  s.withCtx (.bar y d n l) fun c =>
    let b := c.barRef n l
    let first : State := s.arriving c b l fun t ph =>
      (t.arriveNow c.g b).awaitPhase c { c.g.arrivedAt b with arrived := some (b, ph) } d b l ph
    if c.act = 0 then s.finish c c.g .falls []
    else
      match c.g.arrived with
      | some (b', ph) => if b' = b then s.awaitPhase c c.g d b l ph else first
      | none => first

/-- BARQ (R251): CUR and the current arrivals. -/
def execBarq (y : Bool) (d n : Reg) (l : Level) (s : State) : Out :=
  s.withCtx (.barq y d n l) fun c =>
    if c.act = 0 then s.finish c c.g .falls []
    else
      let b := s.barrier (c.barRef n l)
      s.finish c (c.g.later c.seq 6 (.uni d (barrierWord b.failed b.now.length b.cur))) .falls []

/-- A waiter of a completed phase goes on: the acquire half, the barrier word (R250). -/
def State.phaseDone (s : State) (r : GroupRef) (b : BarRef) (fail : Bool) : State :=
  match s.group r with
  | none => s
  | some g =>
    match g.wait with
    | some (.barrier d b' t) =>
      if b' = b ∧ (fail ∨ (s.barrier b).completed t) then
        let s1 := if fail then s else s.acquire r.die g.part (s.barScope g b.lvl)
        s1.wake r { g with arrived := none } [.uni d (barrierWord fail 0 (if fail then (s.barrier b).cur else t))]
      else s
    | _ => s

/-- Phase CUR completes when its arrivals equal the expected count (R247). -/
def State.completePhase (s : State) (b : BarRef) : State :=
  match s.grid b.grid with
  | none => s
  | some gr =>
    let x := gr.barrier b
    if gr.expected b = 0 ∨ x.now.length ≠ gr.expected b then s
    else
      let s1 := s.setGrid { gr with bars := Tbl.put gr.bars b ⟨x.cur + 1, x.ahead, [], x.failed⟩ }
      (s1.groups.map (·.1)).foldl (fun s r => s.phaseDone r b false) s1

/-! ### Sync variables and granule flush (R253, R254) -/

/-- A request about the line of an address: a load's checks without alignment, counted on K (R253). -/
def syncRequest (s : State) (a d : Reg) (kind : AccKind) (c : Ctx) : MemReq :=
  let ea := c.g.pair a
  let check : Checked := match windowOf ea with
    | .glob va => s.checkPage c.r c.g ⟨false, false, 1⟩ false va
    | .priv _ | .team _ | .const _ | .none => .fault .range
  { path := .k, kind := kind, dest := .uni d, store := false, whole := true, order := .none, scope := .grp, syncs := false
    lanes := [⟨wholeLane, ea, check, []⟩] }

/-- SVDECL (R253): the mask is s_b[11:0] with the issuing die. -/
def execSvdecl (y : Bool) (d a b : Reg) (s : State) : Out :=
  memory (.svdecl y d a b) s fun c =>
    syncRequest s a d (.declare ((c.g.uni b).extractLsb' 0 12 ||| dieBit c.r.die)) c

/-- SVDROP (R253). -/
def execSvdrop (y : Bool) (d a : Reg) (s : State) : Out := memory (.svdrop y d a) s (syncRequest s a d .undeclare)

/-- Dies whose writes a widening recall or a removal still waits for are at rest (R232). -/
def State.atRest (s : State) (dies : List (Fin 12)) : Bool := (dies.flatMap s.flightOf).isEmpty

/-- A step of SVDECL at the home: the recall, then the entry and the status (R232, R253). -/
def State.declareStep (s : State) (line : Nat) (mask : BitVec 12) (part : Fin 12) (l : LaneAcc) : State × LaneSt :=
  match s.sync line with
  | none => if s.syncFull line then (s, .done [2]) else (s.enterSync line mask true part, .done [0])
  | some e =>
    if mask &&& ~~~e.dmask = 0 then (s.widenSync line mask true, .done [1])
    else if l.st = .waiting then ((diesOf e.dmask).foldl (fun s d => s.dieRelease d) (s.addingSync line mask), .done [])
    else if s.atRest (diesOf e.dmask) then (s.widenSync line mask true, .done [1])
    else (s, .done [])

/-- A step of SVDROP at the home (R232, R253). From its recall on no access to the line is that of a sole die. -/
def State.dropStep (s : State) (line : Nat) (l : LaneAcc) : State × LaneSt :=
  match s.sync line with
  | none => (s, .done [3])
  | some e =>
    if l.st = .waiting then
      ((diesOf e.dmask).foldl (fun s d => s.dieRelease d) (s.addingSync line (BitVec.allOnes 12)), .done [])
    else if s.atRest (diesOf e.dmask) then ({ s with syncs := s.syncs.filter fun x => x.line != line }, .done [0])
    else (s, .done [])

/-- Only D pages at .part or wider take part in GRFL (R254). -/
def Checked.onD (p : Scope) : Checked → Checked
  | .ok ps => .ok (ps.filter fun x => match x.1 with
    | .mem _ at_ => at_.d && p.crossDie
    | .team _ _ | .fab .. => false)
  | x => x

/-- GRFL (R254): the checks are RANGE, PAGE and PERM, and nothing happens on a fabric page. R254 speaks of global, private and
team addresses; one of the constant window is treated as the global address behind it (assumption 83). -/
def execGrfl (y : Bool) (b j : Reg) (p : Scope) (s : State) : Out :=
  memory (.grfl y b j p) s fun c =>
    { path := .g, kind := .granules, dest := .none, store := false, whole := false, order := .none, scope := .grp
      syncs := false
      lanes := c.laneReqs (c.laneAddr b j) (fun l ea => (s.checkGeneric c.r c.g ⟨false, false, 4⟩ l ea 1 1 4).onD p)
        fun _ => [] }

end Sys2Proof.Machine
end

