-- ==== Sys2Proof/Machine/Complete.lean ====
section
/-! DEFINITION. Accesses performed and landing (08 R151 to R154, R157), atomics at their execution points (11 R199 to R203),
refusals by fabric members (17 R296), difference records and stale notices arriving (12 R236). -/

namespace Sys2Proof.Machine

/-! ### Loads and stores -/

/-- A wide access to the page is performed word by word (08 R159). -/
def wordwise : Place → Bool
  | .mem _ at_ => at_.hs || at_.home == 3
  | .team _ _ | .fab .. => false

/-- The words a lane has moved so far. -/
def LaneAcc.moved (l : LaneAcc) : List Word :=
  match l.st with
  | .done ws => ws
  | .waiting | .poisoned | .refused _ | .landed => []

/-- The places the lane's next step moves. -/
def LaneAcc.nextPlaces (l : LaneAcc) : List Place :=
  let rest := l.places.drop l.moved.length
  if rest.any wordwise then rest.take 1 else rest

/-- A word read for a load: by the group's die, from team memory, from a member. -/
def State.loadAt (s : State) (r : GroupRef) (g : Group) (i : Nat) (p : Place) : State × DevData :=
  match p with
  | .mem pa at_ =>
    if !s.foreign g.part pa && poisoned s.poison pa then (s, .poison)
    else
      let (s1, w) := s.loadWord r.die g.part at_ pa
      (s1, .word w)
  | .team _ _ => (s, s.devRead g.part i p)
  | .fab f fg mbr off => if mbr = f.self then (s, s.devRead g.part i p) else s.loadPeer g.part i fg mbr off

/-- Words read in order, until one is poisoned or refused. -/
def State.loadSeq (s : State) (r : GroupRef) (g : Group) (i : Nat) (have_ : List Word) : List Place → State × LaneSt
  | [] => (s, .done have_)
  | p :: rest =>
    match s.loadAt r g i p with
    | (s1, .word w) => s1.loadSeq r g (i + 1) (have_ ++ [w]) rest
    | (s1, .poison) => (s1, .poisoned)
    | (s1, .refused) => (s1, .refused .range)

/-- The refusal of a store by this device as a member (17 R296). -/
def State.storeRefusal (s : State) (f : Fgt) (mbr off : Nat) : Option Cause :=
  if mbr = f.self ∨ mbr = 1023 then
    match apertureOf f off with
    | none => some .range
    | some pa => if s.isSealed pa then some .perm else none
  else none

/-- A word stored. -/
def State.storeAt (s : State) (r : GroupRef) (g : Group) (p : Place) (w : Word) : State :=
  match p with
  | .mem pa at_ => s.storeWord r.die g.part at_ pa w
  | .team k o => s.putTeamWord k o w
  | .fab f fg mbr off => s.devWrite g.part (.fab f fg (if mbr = 1023 then f.self else mbr) off) w

/-- The next words of a store, a multicast: none when the member refuses one. -/
def State.storeSeq (s : State) (r : GroupRef) (g : Group) (l : LaneAcc) : State × LaneSt :=
  let ps := l.nextPlaces
  let ws := l.data.drop l.moved.length
  match ps.findSome? (fun p => match p with
    | .fab f _ mbr off => s.storeRefusal f mbr off
    | .mem _ _ | .team _ _ => none) with
  | some c => (s, .refused c)
  | none =>
    ((ps.zip ws).foldl (fun s x => s.storeAt r g x.1 x.2) s, .done (l.moved ++ ws.take ps.length))

/-! ### Other kinds -/

/-- Nothing the die sent for a granule is in flight, and no notice it caused (12 R254). -/
def State.granuleQuiet (s : State) (die : Fin 12) (ga : Nat) : Bool :=
  !(s.records.any fun r => r.die == die && r.granule == ga) && !(s.notices.any fun n => n.src == die && n.granule == ga)

/-- A granule's difference is sent, then the access waits until it is applied and acknowledged (12 R254, 08 R163). -/
def State.granuleStep (s : State) (r : GroupRef) (l : LaneAcc) (send : State → Nat → State) : State × LaneSt :=
  match l.places.head? with
  | some (.mem pa at_) =>
    if !remoteD r.die at_ pa then (s, .done [0])
    else if l.st = .waiting then (send s (granuleOf at_ pa), .done [])
    else if s.granuleQuiet r.die (granuleOf at_ pa) then (s, .done [0]) else (s, .done [])
  | _ => (s, .done [0])

/-- The line is locked: a group holds it. -/
def State.lineLocked (s : State) (line : Nat) : Bool := ((s.lockOf line).map fun k => k.holder.isSome).getD false

/-- A line flushed at `.part` or wider: the twin leaves, and with invalidation the copy, unless the line is locked (08
R163). -/
def flushGranule (die : Fin 12) (inv : Bool) (s : State) (ga : Nat) : State :=
  let s1 := s.evictTwin die ga
  if inv && !s1.lineLocked (lineOf ga) then { s1 with copies := s1.copies.filter fun x => x.1 != (die, ga) } else s1

/-- Earlier stores of the group to a line are performed (11 R211). -/
def Group.storesDone (g : Group) (a : Access) (line : Nat) : Bool :=
  g.acc.all fun x => decide (a.id ≤ x.id) || x.lanes.all fun l => l.performed || l.places.all fun p =>
    p.local_.map lineOf != some line

/-- The release of a ULCK leaves once the stores to the line are performed, ahead of what the group asked of the line since;
its reply comes from the home (11 R209, R211, R222). -/
def State.unlockStep (s : State) (r : GroupRef) (g : Group) (a : Access) (l : LaneAcc) (line : Nat) : State × LaneSt :=
  if l.st = .waiting ∧ g.storesDone a line then
    ({ s with lockReqs := withRelease ⟨.release, g.uid, r.at, s.incs[r.die], line, l.ea, g.part⟩ s.lockReqs }, .done [])
  else (s, l.st)

/-- A status or word that is there at once. -/
def answered : DevData → LaneSt
  | .word w => .done [w]
  | .poison => .poisoned
  | .refused => .refused .range

/-- One lane's access is performed, or comes a step further (08 R151). Atomics and posts have events of their own. -/
def State.performLane (s : State) (r : GroupRef) (g : Group) (a : Access) (l : LaneAcc) : State × LaneAcc :=
  let done (x : State × LaneSt) : State × LaneAcc := (x.1, { l with st := x.2 })
  match a.kind with
  | .load => done (s.loadSeq r g l.moved.length l.moved l.nextPlaces)
  | .store | .multicast => done (s.storeSeq r g l)
  | .flush inv p => if p.crossDie then done (s.granuleStep r l (flushGranule r.die inv)) else done (s, .done [0])
  | .granules => done (s.granuleStep r l fun s ga => s.sendDiff r.die ga true)
  | .dropTlb cid va => done (s.dropTranslations cid va, .done [])
  | .declare mask =>
    match l.places.head? with
    | some (.mem pa _) => done (s.declareStep (lineOf pa) mask g.part l)
    | _ => done (s, .done [2])
  | .undeclare =>
    match l.places.head? with
    | some (.mem pa _) => done (s.dropStep (lineOf pa) l)
    | _ => done (s, .done [3])
  | .unlock line => done (s.unlockStep r g a l line)
  | .sealing open_ =>
    match l.places.head? with
    | some (.mem pa at_) => done (s.sealStep g.part open_ l pa at_)
    | _ => done (s, .done [2])
  | .vintRead => done (s, answered ((l.places.head?.map s.vintAt).getD (.word 0)))
  | .launch w => done (s, .done [w])
  | .reduce t =>
    match l.places.head? with
    | some (.fab f fg _ off) =>
      let (x, fl) := s.reduceWord g.part f fg off t a.mode
      (s, { l with st := answered x, data := [fl.setWidth 32] })
    | _ => done (s, .done [0])
  | .atomic _ _ | .switchAtomic _ _ | .copyPost .. | .blendPost .. | .message .. | .nothing => (s, l)

/-- The lock entries of lines that are free now: their last holder's stores are performed (11 R211, R213). -/
def State.freeNow (s : State) (lines : List Nat) : State :=
  { s with lockTab := s.lockTab.map fun k => if k.holder.isNone && lines.contains k.line then { k with since := s.clk } else k }

/-- Lane l of access n of a resident group is performed, or comes a step further (08 R151). -/
def State.laneStep (s : State) (r : GroupRef) (n l : Nat) : State :=
  match s.group r with
  | none => s
  | some g =>
    match g.access n with
    | none => s
    | some a =>
      match a.laneAcc l with
      | none => s
      | some x =>
        if x.performed || !s.mayPerform g a x then s
        else
          let (s1, x1) := s.performLane r g a x
          let s2 := s1.moved r ((s1.group r).getD g) (a.setLane x1)
          if g.ended then s2.freeNow (x.places.filterMap fun p => p.local_.map lineOf) else s2

/-- The group at a place has access n, and it is no post. -/
def State.hasAccess (s : State) (r : GroupRef) (n : Nat) : Bool :=
  (((s.group r).bind fun g => g.access n).map fun a => !a.kind.isPost).getD false

/-- The group at a place has an arrival of its n-th instruction that is not recorded. -/
def State.hasArrival (s : State) (r : GroupRef) (n : Nat) : Bool :=
  ((s.group r).map fun g => g.arrivals.any fun x => x.1 == n).getD false

/-- ACCESS_COMPLETION: lane l of access n (08 R151); the arrival of a BARA is recorded (12 R249); a BLEND's descriptor is judged
(17 R303). -/
def State.accessStep (s : State) (r : GroupRef) (n l : Nat) : State :=
  if s.hasAccess r n then s.laneStep r n l
  else if s.hasArrival r n then s.recordArrival r n
  else
    match s.postAt r n with
    | none => s
    | some (out, g, a) =>
      match a.kind, a.laneAcc l with
      | .blendPost tab off, some x => if x.performed || !s.mayPerform g a x then s else s.acceptBlend r out g a tab off
      | _, _ => s

/-! ### Atomics (11 R199 to R203, 17 R302) -/

/-- Lanes executed one after the other on one word: each with the value it found, the word left, the flags. -/
def runLanes (op : AtomOp) (t : Tag) (mode : Word) (m : Word) : List LaneAcc → List LaneAcc × Word × FFlags
  | [] => ([], m, 0)
  | l :: rest =>
    let r := atomicNew op t mode m (l.data[0]?.getD 0) (l.data[1]?.getD 0)
    let q := runLanes op t mode r.1 rest
    ({ l with st := .done [m] } :: q.1, q.2.1, r.2 ||| q.2.2)

/-- Two places are one word. -/
def Place.sameWord : Place → Place → Bool
  | .mem a _, .mem b _ => a == b
  | .team k a, .team l b => k == l && a == b
  | .fab _ f m a, .fab _ g n b => f == g && m == n && a == b
  | _, _ => false

/-- Waiting lanes of an atomic on the word of a lane, ascending (R200). -/
def Access.sameWord (a : Access) (l : LaneAcc) : List LaneAcc :=
  a.lanes.filter fun x => x.st == .waiting && x.places.any fun p => l.places.any p.sameWord

/-- The same state for several lanes. -/
def Access.setAll (a : Access) (ls : List LaneAcc) (st : LaneSt) : Access :=
  ls.foldl (fun a l => a.setLane { l with st := st }) a

/-- Lanes performed on a word found as m: the access with their values and flags, and the word left. -/
def Access.execute (a : Access) (op : AtomOp) (t : Tag) (m : Word) (ls : List LaneAcc) : Access × Word :=
  let q := runLanes op t a.mode m ls
  let a1 := q.1.foldl Access.setLane a
  ({ a1 with flags := a1.flags ||| q.2.2 }, q.2.1)

/-- An atomic's word performed at its execution point; on a D page behind the die's own difference (R199, R201). -/
def State.atomicAt (s : State) (r : GroupRef) (g : Group) (a : Access) (op : AtomOp) (t : Tag) (l : LaneAcc) : State :=
  let ls := a.sameWord l
  match l.places.head? with
  | some (.mem pa at_) =>
    if s.foreign g.part pa then (s.strayStore pa).moved r g (a.execute op t (Config.freeWord s.tick pa) ls).1
    else if poisoned s.poison pa then s.moved r g (a.setAll ls .poisoned)
    else if remoteD r.die at_ pa && !s.diffSent r.die at_ pa then s.sendDiff r.die (granuleOf at_ pa) true
    else
      let (a1, w) := a.execute op t (s.mem.readWord pa) ls
      (s.atomicStore r.die at_ pa w).moved r g a1
  | some (.team k o) =>
    match s.devRead g.part 0 (.team k o) with
    | .word m =>
      let (a1, w) := a.execute op t m ls
      (s.putTeamWord k o w).moved r g a1
    | .poison | .refused => s.moved r g (a.setAll ls .poisoned)
  | some (.fab ..) | none => s

/-- A switch atomic's word performed in the switch (17 R302). -/
def State.switchAt (s : State) (r : GroupRef) (g : Group) (a : Access) (op : AtomOp) (t : Tag) (l : LaneAcc) : State :=
  let ls := a.sameWord l
  match l.places.head? with
  | some (.fab f fg mbr off) =>
    match s.storeRefusal f mbr off with
    | some c => s.moved r g (a.setAll ls (.refused c))
    | none =>
      match s.devRead g.part 0 (.fab f fg mbr off) with
      | .word m =>
        let (a1, w) := a.execute op t m ls
        (s.devWrite g.part (.fab f fg mbr off) w).moved r g a1
      | .poison => s.moved r g (a.setAll ls .poisoned)
      | .refused => s.moved r g (a.setAll ls (.refused .range))
  | _ => s

/-- ATOMIC_EXECUTE: the word of lane l of access n (11 R200). -/
def State.atomicStep (s : State) (r : GroupRef) (n l : Nat) : State :=
  match s.group r with
  | none => s
  | some g =>
    match g.access n with
    | none => s
    | some a =>
      match a.laneAcc l with
      | none => s
      | some x =>
        if x.performed || !s.mayPerform g a x then s
        else
          match a.kind with
          | .atomic op t => s.atomicAt r g a op t x
          | .switchAtomic op t => s.switchAt r g a op t x
          | _ => s

/-! ### Refusals (17 R296) -/

/-- A lane's access goes to a peer. -/
def LaneAcc.toPeer (l : LaneAcc) : Bool :=
  l.places.any fun x => match x with
    | .fab f _ mbr _ => mbr != f.self && (mbr != 1023 || decide (1 < f.nmbr))
    | .mem _ _ | .team _ _ => false

/-- FABRIC_REFUSAL: a peer refuses lane l of access n: OFF beyond its aperture, or, with w, a write to a sealed vintage. -/
def State.refuse (s : State) (r : GroupRef) (n l : Nat) (w : Bool) : State :=
  match s.group r with
  | none => s
  | some g =>
    match g.access n with
    | none => s
    | some a =>
      match a.laneAcc l with
      | none => s
      | some x =>
        if x.performed || !x.toPeer || (w && !a.kind.writes) then s
        else s.moved r g (a.setLane { x with st := .refused (if w then .perm else .range) })

/-! ### Records and notices arriving (12 R236) -/

/-- A record at its home: one of an old incarnation is dropped (09 R198); else its words are applied, the version is bumped,
other dies are sent notices. -/
def State.applyRecord (s : State) (r : Rec) : State :=
  if r.inc ≠ s.incs[r.die] then s
  else
    let s1 := r.runs.foldl (fun s run => s.putWords (r.granule + 4 * run.1) run.2) s
    ({ s1 with
        replicas := Tbl.drop s1.replicas (lineOf r.granule)
        hostLines := Tbl.drop s1.hostLines (lineOf r.granule) } : State).bump r.die r.granule r.id

/-- The k-th record in flight arrives: behind the earlier ones of its die to its granule. -/
def State.recordArrives (s : State) (k : Nat) : State :=
  match s.records[k]? with
  | none => s
  | some r =>
    if (s.records.take k).any fun x => x.die == r.die && x.granule == r.granule then s
    else ({ s with records := s.records.eraseIdx k } : State).applyRecord r

/-- The k-th stale notice in flight arrives: the target's copy is marked; one of an old incarnation is dropped (09 R198). -/
def State.noticeArrives (s : State) (k : Nat) : State :=
  match s.notices[k]? with
  | none => s
  | some n =>
    { s with
      notices := s.notices.eraseIdx k
      copies := if n.inc ≠ s.incs[n.src] then s.copies
        else s.copies.map fun x => if x.1 = (n.die, n.granule) then (x.1, { x.2 with stale := true }) else x }

/-! ### The events -/

/-- LOAD_DATA_LANDING (08 R154). -/
def execLoadDataLanding (r : GroupRef) (n l : Nat) (s : State) : Out := .next (s.landing r n l)

/-- ACCESS_COMPLETION (08 R151). -/
def execAccessCompletion (r : GroupRef) (n l : Nat) (s : State) : Out := .next (s.accessStep r n l)

/-- ATOMIC_EXECUTE (11 R200). -/
def execAtomicExecute (r : GroupRef) (n l : Nat) (s : State) : Out := .next (s.atomicStep r n l)

/-- DIFF_RECORD_APPLY (12 R236). -/
def execDiffRecordApply (k : Nat) (s : State) : Out := .next (s.recordArrives k)

/-- STALE_NOTICE (12 R236). -/
def execStaleNotice (k : Nat) (s : State) : Out := .next (s.noticeArrives k)

/-- FABRIC_REFUSAL (17 R296). -/
def execFabricRefusal (r : GroupRef) (n l : Nat) (w : Bool) (s : State) : Out := .next (s.refuse r n l w)

/-- COPY_REQUEST_ACCEPT (17 R288). -/
def execCopyRequestAccept (r : GroupRef) (n : Nat) (s : State) : Out := .next (s.acceptRequest r n)

/-- ARRIVAL_UNIT_COUNT (17 R291). -/
def execArrivalUnitCount (c : CoreRef) (k u : Nat) (s : State) : Out := .next (s.unitLands c k u false)

/-- BLEND_INSTANCE (17 R304). -/
def execBlendInstance (p : Fin 12) (g : Fin 64) (s : State) : Out := .next (s.blendRuns p g.val)

/-- MESSAGE_ENQUEUE (17 R311). -/
def execMessageEnqueue (r : GroupRef) (n : Nat) (s : State) : Out := .next (s.enqueueMessage r n)

/-- WAITA_SATISFIED (17 R293). -/
def execWaitaSatisfied (r : GroupRef) (s : State) : Out := .next (s.arrivalMet r)

/-- TILEW_SATISFIED (19 R333). -/
def execTilewSatisfied (r : GroupRef) (s : State) : Out := .next (s.tileMet r)

/-- BARRIER_PHASE_COMPLETE (12 R247). -/
def execBarrierPhaseComplete (b : BarRef) (s : State) : Out := .next (s.completePhase b)

/-- LOCK_REQUEST_ARRIVAL (11 R209). -/
def execLockRequestArrival (k : Nat) (s : State) : Out := .next (s.lockArrives k)

/-- LOCK_GRANT (11 R211). -/
def execLockGrant (a : Nat) (s : State) : Out := .next (s.passLock (lineOf a))

/-- A grant of the line to a waiter is due: the lock is free, and it is the first who may have it. -/
def State.grantDue (s : State) (line u : Nat) : Bool :=
  match s.lockOf line with
  | none => false
  | some k => k.holder.isNone && !s.endedStores line && (s.firstWaiter k).map (·.uid) == some u

/-- A waiting LCK's timeout has run out: the request and the record go, the status is TIMEOUT. A grant due by then comes
first (11 R213). -/
def State.lockExpires (s : State) (r : GroupRef) : State :=
  match s.group r with
  | none => s
  | some g =>
    match g.wait with
    | some (.lock d line _ _ t) =>
      if t = 0 ∨ s.clk < g.waitFrom + 850 * t ∨ s.grantDue line g.uid then s
      else
        let s1 : State := { s with
          lockTab := liveLocks (s.lockTab.map fun k =>
            if k.line = line then { k with queue := k.queue.filter fun w => w.uid != g.uid } else k)
          lockReqs := s.lockReqs.filter fun q => !(q.uid == g.uid && q.line == line && q.kind == .take) }
        s1.wake r g [.uni d (lockWord 2 0)]
    | _ => s

/-- LOCK_TIMEOUT (11 R213). -/
def execLockTimeout (r : GroupRef) (s : State) : Out := .next (s.lockExpires r)

/-- The format of a peer's atomic: the peer's, and free (assumption 30). -/
def State.peerFormat (s : State) : Tag :=
  if Config.freeBit s.tick 4 then .f32 else if Config.freeBit s.tick 12 then .f16x2 else .b16x2

/-- A peer's access to a word of this member: a write is refused on a sealed page; an atomic's MODE is the peer's, and free
(17 R296, R302; assumption 30). -/
def State.peerWord (s : State) (p : Fin 12) (pa : Nat) (w : FabAccess) : State :=
  match w with
  | .read => s
  | .write v => if s.isSealed pa then s else s.devWritePa p none pa v
  | .atomic k v x =>
    if s.isSealed pa || poisoned s.poison pa then s
    else s.devWritePa p none pa (atomicNew k s.peerFormat (Config.freeWord s.tick 0) (s.mem.readWord pa) v x).1

/-- A fabric access of a peer at this member (17 R296, R302): refused beyond the aperture; held while an engine owns the
line (12 R242). -/
def State.peerAccess (s : State) (p : Fin 12) (fg off : Nat) (w : FabAccess) : State :=
  match apertureOf (s.fgt p fg) off with
  | none => s
  | some pa => if !(s.fgt p fg).valid || s.engineOwns pa then s else s.peerWord p pa w

/-- FABRIC_ACCESS_ARRIVAL (17 R296). -/
def execFabricAccessArrival (p : Fin 12) (g : Fin 64) (a : Nat) (w : FabAccess) (s : State) : Out :=
  .next (s.peerAccess p g.val (a / 4 * 4) w)

end Sys2Proof.Machine
end

