-- ==== Sys2Proof/Machine/Digest.lean ====
section
/-! DEFINITION. SHA3-256 (01 R28, R29, 19 R339), as FIPS 202 gives it (assumption 62). -/

namespace Sys2Proof.Machine

/-- The sponge of SHA3: a sheet of five rows of five lanes, row y at index y, lane x of it at index x. -/
abbrev Sheet := List (List (BitVec 64))

/-- The lane of a row at a place that may lie past its end: places go round. -/
def rowLane (row : List (BitVec 64)) (x : Nat) : BitVec 64 := row.getD (x % 5) 0

/-- The parities of the five columns of a sheet. -/
def sheetParity (s : Sheet) : List (BitVec 64) :=
  s.foldl (fun p row => List.zipWith (· ^^^ ·) p row) (List.replicate 5 0)

/-- The first mixing: each lane with the parity of the column before it and that of the column after it, turned by one. -/
def mixColumns (s : Sheet) : Sheet :=
  let p := sheetParity s
  let d := (List.range 5).map fun x => rowLane p (x + 4) ^^^ (rowLane p (x + 1)).rotateLeft 1
  s.map fun row => List.zipWith (· ^^^ ·) row d

/-- A sheet with the lane of column x and row y replaced. -/
def setLane (s : Sheet) (x y : Nat) (v : BitVec 64) : Sheet := s.modify y fun row => row.set x v

/-- The walk through the 24 lanes but the one at the origin: step t turns the lane it comes from by the t-th triangular number
and puts it where the walk goes next. -/
def walkLanes : Nat → Nat → Nat → Nat → Sheet → Sheet → Sheet
  | 0, _, _, _, _, out => out
  | n + 1, t, x, y, s, out =>
    let v := (rowLane (s.getD y []) x).rotateLeft ((t + 1) * (t + 2) / 2 % 64)
    let y' := (2 * x + 3 * y) % 5
    walkLanes n (t + 1) y y' s (setLane out y y' v)

/-- The lanes turned and moved. -/
def turnLanes (s : Sheet) : Sheet := walkLanes 24 0 1 0 s s

/-- The one mixing that is not linear, within each row. -/
def mixRow (row : List (BitVec 64)) : List (BitVec 64) :=
  (List.range 5).map fun x => rowLane row x ^^^ (~~~rowLane row (x + 1) &&& rowLane row (x + 2))

/-- The shift register of the round constants: the polynomial x^8 + x^6 + x^5 + x^4 + 1. -/
def shiftRound (r : BitVec 8) : BitVec 8 := if r.getLsbD 7 then (r <<< 1) ^^^ 0x71 else r <<< 1

/-- Seven bits of the shift register, put at bits 0, 1, 3, 7, 15, 31 and 63 of a round's constant, and the register after them. -/
def roundConstant : Nat → BitVec 8 → BitVec 64 → BitVec 64 × BitVec 8
  | 0, r, c => (c, r)
  | n + 1, r, c =>
    roundConstant n (shiftRound r) (if r.getLsbD 0 then c ^^^ ((1 : BitVec 64) <<< (2 ^ (6 - n) - 1)) else c)

/-- Rounds of the permutation, each with the constant that the shift register gives next. -/
def permuteRounds : Nat → BitVec 8 → Sheet → Sheet
  | 0, _, s => s
  | n + 1, r, s =>
    let rc := roundConstant 7 r 0
    let m := (turnLanes (mixColumns s)).map mixRow
    permuteRounds n rc.2 (setLane m 0 0 (rowLane (m.getD 0 []) 0 ^^^ rc.1))

/-- The permutation: 24 rounds. -/
def permute (s : Sheet) : Sheet := permuteRounds 24 1 s

/-- Eight bytes as a lane, the first its lowest. -/
def laneOfBytes (bs : List (BitVec 8)) : BitVec 64 :=
  BitVec.ofNat 64 ((bs.take 8).zipIdx.foldl (fun n x => n + x.1.toNat * 2 ^ (8 * x.2)) 0)

/-- A block of 136 bytes taken in: the first 17 lanes of the sheet, row by row. -/
def absorb (s : Sheet) (block : List (BitVec 8)) : Sheet :=
  permute (s.zipIdx.map fun row => row.1.zipIdx.map fun lane =>
    if 5 * row.2 + lane.2 < 17 then lane.1 ^^^ laneOfBytes (block.drop (8 * (5 * row.2 + lane.2))) else lane.1)

/-- Blocks of 136 bytes taken in one after the other. The fuel is the number of blocks. -/
def absorbAll : Nat → Sheet → List (BitVec 8) → Sheet
  | 0, a, _ => a
  | n + 1, a, bs => absorbAll n (absorb a (bs.take 136)) (bs.drop 136)

/-- The padding of a message of n bytes: the domain bits 01, then 1, zeros, 1. -/
def sha3Padding (n : Nat) : List (BitVec 8) :=
  let k := 136 - n % 136
  if k = 1 then [0x86] else 0x06 :: (List.replicate (k - 2) 0 ++ [0x80])

/-- SHA3-256 of a message: 32 bytes, the first four lanes. -/
def sha3 (m : List (BitVec 8)) : List (BitVec 8) :=
  let s := absorbAll (m.length / 136 + 1) (List.replicate 5 (List.replicate 5 0)) (m ++ sha3Padding m.length)
  (s.headD []).take 4 |>.flatMap fun lane => (List.range 8).map fun i => lane.extractLsb' (8 * i) 8

end Sys2Proof.Machine
end

