-- ==== Sys2Proof/Machine/Host.lean ====
section
/-! DEFINITION. Bring-up (01 R26, R27, 19 R338), the management and command windows (19 R312 to R317), tenant partitions,
command records and their selection (19 R318 to R326), the service commands (19 R339), the host's accesses (01 R29). -/

namespace Sys2Proof.Machine

/-! ### Service status (01 R26) -/

/-- The service status word. -/
def State.svcstat (s : State) : Word :=
  BitVec.ofNat 32 (s.phase.toNat * 2 ^ 28 + s.bdie.toNat * 2 ^ 24 + s.dieok.toNat * 4096 + s.iook.toNat * 1024 +
    s.fwst.toNat * 256)

/-- PHASE moves from 2 to 3 when every die, both I/O dies and every die-link are up (R26). -/
def State.joinDies (s : State) : State :=
  if s.phase = 2 ∧ s.dieok = 0xFFF ∧ s.iook = 3 ∧ s.links.all (·.trained) then { s with phase := 3 } else s

/-- The partition's generation advances; what was filled under the CID it takes leaves every cache (08 R146). -/
def State.nextCid (s : State) (p : Fin 12) : State :=
  let s1 := s.setPart p { s.parts[p] with gen := (s.parts[p]).gen + 1 }
  (s1.dropCid (s1.cid p)).dropTranslations (s1.cid p) none

/-- Partition 0 holds the bring-up die, its window at offset 0 of the die's stack (R338). -/
def State.serveOn (s : State) (d : Fin 12) : State :=
  { s with
    bdie := BitVec.ofNat 4 d.val
    parts := s.parts.set 0 { s.parts[(0 : Fin 12)] with
      en := true, dies := dieBit d, pwin := BitVec.ofNat 64 (d.val * 2 ^ 36) } }

/-- Reduced service begins on the bring-up die, once io 0 has passed (R26, R338): of dies that pass in one clk the lowest.
R26 does not say which die it is when several passed before io 0 did: here the lowest of them (assumption 56). -/
def State.bringUp (s : State) : State :=
  if s.phase == 3 || !s.iook.getLsbD 0 then s
  else
    match (List.finRange 12).find? fun d => s.dieok.getLsbD d.val with
    | none => s
    | some d =>
      if (s.parts[(0 : Fin 12)]).en then
        (if s.bdieAt = some s.clk ∧ d.val < s.bdie.toNat then s.serveOn d else s)
      else
        ({ s.serveOn d with
            phase := if s.phase = 0 then 1 else s.phase
            bdieAt := some s.clk } : State).nextCid 0

/-- 500 ms after reset in clk (01 R14). -/
def selftestLimit : Nat := 425000000

/-- A unit that passes later than 500 ms after reset, io 0 apart, leaves the device degraded (R26). -/
def State.passedLate (s : State) (u : Fin 14) : Bool :=
  decide (selftestLimit < s.clk) && u.val != 12 &&
    !(if u.val < 12 then s.dieok.getLsbD u.val else s.iook.getLsbD (u.val - 12))

/-- RESET (R26): the state after reset; the harvest is fused, the memory keys are gone (R29, R313). -/
def execReset (s : State) : Out :=
  .next { State.reset with
    tick := s.tick
    turn := s.turn
    harvest := s.harvest
    mem := { cells := [], epochs := s.mem.epochs.map (· + 1), own := [] } }

/-- SELFTEST_PASS (R26): compute die u, or I/O die u − 12. -/
def execSelftestPass (u : Fin 14) (s : State) : Out :=
  let s1 : State := if s.passedLate u then { s with phase := 14 } else s
  .next ((if h : u.val < 12 then { s1 with dieok := s1.dieok ||| dieBit ⟨u.val, h⟩ }
          else { s1 with iook := s1.iook ||| BitVec.ofNat 2 (2 ^ (u.val - 12)) } : State).bringUp.joinDies)

/-- SELFTEST_TIMEOUT (R26): 500 ms after reset a compute die or io 1 has not passed. -/
def execSelftestTimeout (s : State) : Out :=
  .next (if selftestLimit < s.clk ∧ s.phase ≠ 3 ∧ (s.dieok ≠ 0xFFF ∨ s.iook.getLsbD 1 = false)
    then { s with phase := 14 } else s)

/-- LINK_TRAINED (R26). -/
def execLinkTrained (k : Fin 46) (s : State) : Out :=
  .next ({ s with links := s.links.set k { s.links[k] with trained := true } } : State).joinDies

/-- LINK_TRAIN_FAIL (R26): a link that has not trained fails to. -/
def execLinkTrainFail (k : Fin 46) (s : State) : Out :=
  .next (if s.phase ≠ 3 ∧ (s.links[k]).trained = false then { s with phase := 14 } else s)

/-! ### Partitions (R312, R313) -/

/-- A grid runs: it started and is on its cores. -/
def Grid.runs (gr : Grid) : Bool := !gr.pre.away && gr.placed.any (· != 0)

/-- An accepted command of the partition is not complete, a pre-empted grid included (R312). -/
def State.partBusy (s : State) (p : Fin 12) : Bool :=
  let x := s.parts[p]
  x.queues.any (fun q => q.hand.isSome) || !x.children.isEmpty || x.childSel.isSome || s.grids.any fun g => g.part == p

/-- A PMAP write is not ignored (R312, R338). -/
def State.pmapTaken (s : State) (p : Fin 12) (en : Bool) (dies : BitVec 12) : Bool :=
  s.phase == 3 && !s.partBusy p &&
  (!en || ((List.finRange 12).all (fun q => q == p || !(s.parts[q]).en || (s.parts[q]).dies &&& dies == 0) &&
    wfield (s.parts[p]).pwin 51 20 != 0))

/-- The keys of dies change: nothing their memory held is known (R312, R313). -/
def State.rekey (s : State) (dies : BitVec 12) : State :=
  { s with mem := (diesOf dies).foldl (fun m d => m.rekey d) s.mem }

/-- Dies leave an enabled partition, which runs nothing: their twins leave as eviction records, since a die outside every enabled
partition holds none (08 R147), and their copies and translations go; so does what the device holds of lines whose home leaves
(assumption 57). -/
def State.leaveDies (s : State) (dies : BitVec 12) : State :=
  let homeGone (pa : Nat) : Bool := dies.getLsbD (homeOf pa).val
  let s1 := (s.twins.filter fun x => dies.getLsbD x.1.val).foldl (fun s x => s.evictTwin x.1 x.2) s
  { s1 with
    copies := s1.copies.filter fun x => !dies.getLsbD x.1.1.val && !homeGone x.1.2
    twins := s1.twins.filter fun x => !homeGone x.2
    records := s1.records.filter fun r => !homeGone r.granule
    notices := s1.notices.filter fun n => !dies.getLsbD n.die.val && !homeGone n.granule
    syncs := (s1.syncs.map fun e =>
      { e with dmask := e.dmask &&& ~~~dies, adding := e.adding &&& ~~~dies }).filter fun e => e.dmask != 0 && !homeGone e.line
    lockTab := s1.lockTab.filter fun k => !homeGone k.line
    lockReqs := s1.lockReqs.filter fun q => !homeGone q.line
    replicas := s1.replicas.filter fun x => !homeGone x.1
    hostLines := s1.hostLines.filter fun x => !homeGone x.1
    tlb := s1.tlb.filter fun e => !dies.getLsbD e.die.val }

/-- PARTITION_ENABLE (R312): keys, CID and a clear window for a partition that was disabled; else its dies change: some leave,
and the keys of those that join change. -/
def execPartitionEnable (p : Fin 12) (v : BitVec 12) (s : State) : Out :=
  .next (if s.pmapTaken p true v then
    let x := s.parts[p]
    if x.en then ((s.leaveDies (x.dies &&& ~~~v)).rekey (v &&& ~~~x.dies)).setPart p { x with dies := v }
    else
      let s1 := (s.rekey v).setPart p
        { Partition.reset with en := true, dies := v, plimit := x.plimit, pwin := x.pwin, gen := x.gen }
      s1.nextCid p
    else s)

/-- Everything of a partition in caches, tables and queues is dropped, and no matrix unit is its own any more (R313, 16 R256,
assumption 79). -/
def State.dropPartition (s : State) (p : Fin 12) : State :=
  { s with
    copies := s.copies.filter fun x => x.2.part != p
    twins := s.twins.filter fun x => !((Tbl.find s.copies x).map fun c => c.part == p).getD false
    records := s.records.filter fun r => r.part != p
    notices := s.notices.filter fun n => !(s.parts[p]).dies.getLsbD n.die.val
    syncs := s.syncs.filter fun e => e.part != p
    lockTab := s.lockTab.filter fun k => k.part != p
    lockReqs := s.lockReqs.filter fun q => q.part != p
    msgs := s.msgs.filter fun m => m.part != p
    jobs := s.jobs.filter fun j => j.part != p
    blends := s.blends.filter fun b => b.part != p
    vcache := s.vcache.filter fun v => v.part != p
    matrix := s.matrix.map fun (x : CoreRef × Matrix) => if x.2.owner = some p then (x.1, { x.2 with owner := none }) else x
    replicas := s.replicas.filter fun x => s.foreign p x.1
    hostLines := s.hostLines.filter fun x => s.foreign p x.1
    tlb := s.tlb.filter fun e => e.cid.toNat / 256 != p.val }

/-- PARTITION_TEARDOWN (R313): a PMAP write with EN 0. -/
def execPartitionTeardown (p : Fin 12) (v : BitVec 12) (s : State) : Out :=
  .next (if s.pmapTaken p false v then
    let x := s.parts[p]
    if x.en then
      ((s.dropPartition p).rekey x.dies).setPart p
        { x with en := false, dies := v, queues := x.queues.map fun q => { q with hand := none, sliceFrom := none } }
    else s.setPart p { x with dies := v }
    else s)

/-- The fields of a limit register at most at their maximum (08 R147); reserved bits read as 0 (00 R4). -/
def limitWord (v : Word) : Word :=
  BitVec.ofNat 32 (min 11 (wfield v 27 24) * 2 ^ 24 + min 64 (wfield v 23 16) * 65536 +
    min 8 (wfield v 15 12) * 4096)

/-- Twins beyond the Cellar share leave as eviction records (08 R147). -/
def State.trimDies (s : State) (dies : List (Fin 12)) (room : Nat) : State :=
  dies.foldl (fun s d => (List.range 16).foldl (fun s k => State.trimSlice d k room s.twins.length s) s) s

/-- PLIMIT_WRITE (08 R147). -/
def execPlimitWrite (p : Fin 12) (v : BitVec 32) (s : State) : Out :=
  let w := limitWord v
  let s1 := s.setPart p { s.parts[p] with plimit := w }
  .next (if (s.parts[p]).en then s1.trimDies (diesOf (s.parts[p]).dies) (65536 * wfield w 15 12) else s1)

/-! ### The command window (R314 to R317) -/

/-- TBASE_WRITE (R314, 08 R146): ignored while a grid of the partition runs. -/
def execTbaseWrite (p : Fin 12) (v : BitVec 64) (s : State) : Out :=
  .next (if (s.parts[p]).en ∧ !(s.grids.any fun g => g.part == p && g.runs) then
    (s.setPart p { s.parts[p] with tbase := v }).nextCid p else s)

/-- QCTL_WRITE (R317): EN from 0 to 1 makes QHEAD 0. -/
def execQctlWrite (p : Fin 12) (q : Fin 64) (v : BitVec 32) (s : State) : Out :=
  .next (if (s.parts[p]).en then
    let x := s.parts[p]
    let k := x.queues[q]
    let en := v.getLsbD 31
    s.setPart p { x with queues := x.queues.set q { k with
      en := en, prio := v.extractLsb' 26 2, slice := v.extractLsb' 0 16
      qhead := if en && !k.en then 0 else k.qhead } } else s)

/-- PSTAT_RECOV_CLEAR (R316). -/
def execPstatRecovClear (p : Fin 12) (s : State) : Out := .next (s.setPart p { s.parts[p] with recov := false })

/-- A 32-bit half of a 64-bit register, a quarter of a 128-bit one. -/
def putHalf (x : BitVec 64) (hi : Bool) (v : Word) : BitVec 64 := if hi then joinWords (loWord x) v else joinWords v (hiWord x)
def putQuarter (x : BitVec 128) (i : Nat) (v : Word) : BitVec 128 :=
  (x &&& ~~~(BitVec.ofNat 128 (0xFFFFFFFF * 2 ^ (32 * i)))) ||| (v.setWidth 128 <<< (32 * i))

/-- The bits of a fabric group table entry that are not reserved (17 R295, 00 R4). -/
def fgtBits : BitVec 128 := 0x000FFFFFFFFFFFFF800FFFFFFFFFFFFF

/-- A write to the management window (R312): PWIN, while the partition is disabled. -/
def State.writeMgmt (s : State) (a : Nat) (v : Word) : State :=
  if a < 0x200 ∨ 0x260 ≤ a ∨ a % 4 ≠ 0 then s
  else
    let p : Fin 12 := Fin.ofNat 12 ((a - 0x200) / 8)
    let x := s.parts[p]
    if x.en then s else s.setPart p { x with pwin := putHalf x.pwin (a % 8 == 4) v }

/-- A write to a command window (R314, R315, R317): PSAVE, the fabric group table, the slots. -/
def State.writeWin (s : State) (p : Fin 12) (a : Nat) (v : Word) : State :=
  let x := s.parts[p]
  if !x.en || a % 4 != 0 then s
  else if a = 0x20 ∨ a = 0x24 then
    if s.grids.any fun g => g.part == p && (g.runs || g.pre.away) then s
    else s.setPart p { x with psave := putHalf x.psave (a == 0x24) v }
  else if 0x800 ≤ a ∧ a < 0xC00 then
    let k : Fin 64 := Fin.ofNat 64 ((a - 0x800) / 16)
    s.setPart p { x with fgt := x.fgt.set k (putQuarter x.fgt[k] (a % 16 / 4) v &&& fgtBits) }
  else if 0x80000 ≤ a ∧ a < 0x100000 then s.setPart p { x with slots := Tbl.put x.slots (a / 4) v }
  else s

/-- REGISTER_WRITE (R312, R314). -/
def execRegisterWrite (w : WinSpace) (a : Nat) (v : BitVec 32) (s : State) : Out :=
  .next (match w with
    | .mgmt => s.writeMgmt a v
    | .win p => s.writeWin p a v)

/-- PMAPp as a word (R312). -/
def Partition.pmapWord (x : Partition) : Word := BitVec.ofNat 32 (bit x.en * 2 ^ 31 + x.dies.toNat)

/-! ### Reading the windows (R312, R314 to R317) -/

/-- Groups halted by HALT or BRKPT. -/
def State.haltedGroups (s : State) (p : Fin 12) : Nat :=
  ((s.groups.map (·.2) ++ s.parked.map (·.grp)).filter fun g => g.part == p && g.wait == some .halted).length

/-- PSTAT (R316). -/
def State.pstat (s : State) (p : Fin 12) : Word :=
  let x := s.parts[p]
  BitVec.ofNat 32 (bit x.recov * 2 ^ 31 + bit s.throttled * 2 ^ 30 + bit x.halting * 2 ^ 29 +
    min 255 (s.haltedGroups p) * 256 + x.evhead.toNat)

/-- PSAVESZ (R315): 4 MiB for each exposed core of the partition's dies and 1 MiB for each die. -/
def State.psavesz (s : State) (p : Fin 12) : Addr :=
  BitVec.ofNat 64 (((diesOf (s.parts[p]).dies).map fun d => 2 ^ 22 * (s.exposed d).length + 2 ^ 20).sum)

/-- QCTL of a queue (R317). -/
def Queue.ctl (k : Queue) : Word := BitVec.ofNat 32 (bit k.en * 2 ^ 31 + k.prio.toNat * 2 ^ 26 + k.slice.toNat)

/-- A half of a 64-bit register, by its offset. -/
def halfAt (x : Addr) (a : Nat) : Word := if a % 8 < 4 then loWord x else hiWord x

/-- The word at an offset of the management window (R312). -/
def State.readMgmt (s : State) (a : Nat) : Word :=
  if a % 4 ≠ 0 then 0
  else if a = 0 then s.svcstat
  else if 0x40 ≤ a ∧ a < 0x70 then (s.parts[Fin.ofNat 12 ((a - 0x40) / 4)]).pmapWord
  else if 0x100 ≤ a ∧ a < 0x130 then (s.parts[Fin.ofNat 12 ((a - 0x100) / 4)]).plimit
  else if 0x200 ≤ a ∧ a < 0x260 then halfAt (s.parts[Fin.ofNat 12 ((a - 0x200) / 8)]).pwin a
  else if 0x300 ≤ a ∧ a < 0x308 then halfAt s.ecnt a
  else 0

/-- The word at an offset of a command window (R314); CTLREQ is write-only and reads as a reserved byte does. -/
def State.readWin (s : State) (p : Fin 12) (a : Nat) : Word :=
  let x := s.parts[p]
  if a % 4 ≠ 0 then 0
  else if a = 0 then s.svcstat
  else if a = 4 then s.pstat p
  else if a = 0x10 ∨ a = 0x14 then halfAt x.tbase a
  else if a = 0x20 ∨ a = 0x24 then halfAt x.psave a
  else if a = 0x28 ∨ a = 0x2C then halfAt (s.psavesz p) a
  else if 0x800 ≤ a ∧ a < 0xC00 then (x.fgt[Fin.ofNat 64 ((a - 0x800) / 16)]).extractLsb' (a % 16 * 8) 32
  else if 0x1000 ≤ a ∧ a < 0x1200 then
    (let k := x.queues[Fin.ofNat 64 ((a - 0x1000) / 8)]
     if a % 8 = 0 then k.ctl else k.qhead.setWidth 32)
  else if 0x2000 ≤ a ∧ a < 0x3000 then Tbl.findD x.events ((a - 0x2000) / 4) 0
  else if 0x80000 ≤ a ∧ a < 0x100000 then Tbl.findD x.slots (a / 4) 0
  else 0

/-! ### Taking a command (R317 to R319) -/

/-- Word i of slot `n` of queue q. -/
def Partition.slotWord (x : Partition) (q : Fin 64) (n i : Nat) : Word :=
  Tbl.findD x.slots ((0x80000 + 0x2000 * q.val + 64 * n) / 4 + i) 0

/-- Word 0 of slot `n` of queue q was written since the window was cleared: a slot that was not holds no command
(assumption 41). -/
def Partition.slotWritten (x : Partition) (q : Fin 64) (n : Nat) : Bool :=
  (Tbl.find x.slots ((0x80000 + 0x2000 * q.val + 64 * n) / 4)).isSome

/-- The record at the head of a queue, when its SEQ is QHEAD and the queue may take it (R319, R322). -/
def Partition.headRecord (x : Partition) (q : Fin 64) : Option (List Word) :=
  let k := x.queues[q]
  let n := k.qhead.toNat % 128
  let ws := (List.range 16).map (x.slotWord q n)
  if x.en && k.en && k.hand.isNone && x.slotWritten q n && (ws[0]?.getD 0).extractLsb' 0 16 == k.qhead then some ws else none

def cmdType (n : Nat) : Option CmdType :=
  if n = 1 then some .launch else if n = 2 then some .marker else if n = 3 then some .enum
  else if n = 4 then some .attest else if n = 5 then some .fwload else none

/-- The command a record holds (R318). -/
def cmdOf (t : CmdType) (ws : List Word) (clk tmax : Nat) (reduced : Bool) : Cmd :=
  let w (i : Nat) : Word := ws[i]?.getD 0
  let pair (i : Nat) : Addr := joinWords (w i) (w (i + 1))
  { typ := t, debug := (w 0).getLsbD 27, strict := (w 0).getLsbD 26, ndep := wfield (w 0) 25 24, tdep := (w 0).getLsbD 23
    seq := (w 0).extractLsb' 0 16, len := (w 1).toNat, arg := pair 2, crec := pair 4, dep0 := pair 6, dep1 := pair 8
    ttab := pair 10, tdiv := wfield (w 12) 31 16, tfirst := wfield (w 12) 15 0, tgen := w 13, tmax := tmax
    ready := if wfield (w 0) 25 24 = 0 then some clk else none, running := false, reduced := reduced, fin := none }

/-- A record without a reserved value and with zeros where its type uses nothing (R318, R319). -/
def cmdFields (c : Cmd) (ws : List Word) : Bool :=
  let w (i : Nat) : Word := ws[i]?.getD 0
  wfield (w 0) 22 16 == 0 && decide (c.ndep ≤ 2) && w 14 == 0 && w 15 == 0 &&
  (c.typ == .launch || (!c.debug && !c.tdep)) && (c.typ == .fwload || c.len == 0) && (c.typ != .marker || c.arg == 0) &&
  (decide (1 ≤ c.ndep) || c.dep0 == 0) && (decide (2 ≤ c.ndep) || c.dep1 == 0) &&
  (c.tdep || (c.ttab == 0 && w 12 == 0 && w 13 == 0))

/-- Words of the enumeration record, of the attestation report (R339). -/
def enumWords : Nat := 368
def reportWords : Nat := 693

/-- The addresses of a record pass their checks (R319). -/
def State.cmdAddrs (s : State) (p : Fin 12) (c : Cmd) : Bool :=
  (decide (c.ndep = 0) || s.devOk p false c.dep0 8 32) && (decide (c.ndep < 2) || s.devOk p false c.dep1 8 32) &&
  (!c.tdep || s.devOk p false c.ttab 4 16) &&
  (match c.typ with
   | .enum => s.devOk p true c.arg enumWords 4
   | .attest => s.devOk p false c.arg 8 4 && s.devOk p true (c.arg + 32) reportWords 4
   | .fwload => s.devOk p false c.arg ((c.len + 3) / 4) 4
   | .launch | .marker => true)

def State.setHand (s : State) (p : Fin 12) (q : Fin 64) (c : Option Cmd) : State :=
  let x := s.parts[p]
  s.setPart p { x with queues := x.queues.set q { x.queues[q] with hand := c } }

/-- A record is taken from its slot: QHEAD advances, CREC is judged, then fields and addresses; a good one is the queue's
command in hand (R319). -/
def State.acceptRecord (s : State) (p : Fin 12) (q : Fin 64) (ws : List Word) (t : Option CmdType) : State :=
  let x := s.parts[p]
  let k := x.queues[q]
  let s1 := s.setPart p { x with queues := x.queues.set q { k with qhead := k.qhead + 1 } }
  let c := cmdOf (t.getD .launch) ws s.clk (wfield x.plimit 27 24) (s.phase != 3)
  if !s.devOk p true c.crec 8 32 then s1.postBadCrec p q.val c.seq c.crec
  else if t.isNone || !cmdFields c ws then s1.putRecord p c.crec .badcmd 1 0 none
  else if !s.cmdAddrs p c then s1.putRecord p c.crec .badcmd 2 0 none
  else s1.setHand p q (some c)

/-- The head record of a queue is taken when it is of the type; a reserved TYPE is taken as a LAUNCH is. -/
def State.takeCommand (s : State) (p : Fin 12) (q : Fin 64) (want : CmdType) : State :=
  match (s.parts[p]).headRecord q with
  | none => s
  | some ws =>
    let t := cmdType (wfield (ws[0]?.getD 0) 31 28)
    if t = some want ∨ (t = none ∧ want = .launch) then s.acceptRecord p q ws t else s

/-- The completion record of the command in hand is written, and the next may be taken (R321). -/
def State.recordCmd (s : State) (p : Fin 12) (q : Fin 64) (c : Cmd) (st : CStatus) (detail : Nat) : State :=
  (s.putRecord p c.crec st detail 0 none).setHand p q none

/-- The command in hand completes: after its own work the release half at `.sys`, by every die of the partition, and then
its record (R320). -/
def State.completeCmd (s : State) (p : Fin 12) (q : Fin 64) (c : Cmd) (st : CStatus) (detail : Nat) : State :=
  let dies := diesOf (s.parts[p]).dies
  let s1 := dies.foldl (fun s d => s.dieRelease d) s
  let ids := dies.flatMap s1.flightOf
  if ids.isEmpty then s1.recordCmd p q c st detail else s1.setHand p q (some { c with fin := some ⟨st, detail, ids⟩ })

/-- The record of a command whose release half is done (R320). -/
def State.finishCmd (s : State) (p : Fin 12) (q : Fin 64) (c : Cmd) (e : CmdEnd) : State :=
  if s.allApplied e.ids then s.recordCmd p q c e.st e.detail else s

/-- The command in hand of a queue, of a type. -/
def State.handOf (s : State) (p : Fin 12) (q : Fin 64) (t : CmdType) : Option Cmd :=
  ((s.parts[p]).queues[q]).hand.filter fun c => c.typ == t

/-- A command of a type moves on: it is taken from its slot; in hand, it does its work; its work done, it ends. -/
def State.commandStep (s : State) (p : Fin 12) (q : Fin 64) (t : CmdType) (work : Cmd → State) : State :=
  match s.handOf p q t with
  | none => s.takeCommand p q t
  | some c =>
    match c.fin with
    | some e => s.finishCmd p q c e
    | none => work c

/-! ### Dependences (R322) -/

/-- STATUS of an awaited completion record. -/
def State.recordStatus (s : State) (p : Fin 12) (va : Addr) : Nat :=
  if s.devOk p false va 1 4 then wfield (s.devWord p 0 va) 31 24 else 0

/-- The acquire half of the device for a command, on every die of the partition. -/
def State.acquireDies (s : State) (p : Fin 12) (scope : Scope) : State :=
  (diesOf (s.parts[p]).dies).foldl (fun s d => s.acquire d p scope) s

/-- DEPENDENCE_MET (R322): the awaited records are read; when every one has a status, the command is ready, or fails. -/
def execDependenceMet (p : Fin 12) (q : Fin 64) (s : State) : Out :=
  .next (match ((s.parts[p]).queues[q]).hand with
    | none => s
    | some c =>
      if c.ready.isSome || c.fin.isSome then s
      else
        let deps := [c.dep0, c.dep1].take c.ndep
        let sts := deps.map (s.recordStatus p)
        let s1 := deps.foldl (fun s a => s.devSeen (s.fgt p) p a 1) s
        if sts.contains 0 then s1
        else
          let s2 := s1.acquireDies p .sys
          if c.strict && sts.any (· != 1) then s2.completeCmd p q c .depfail 0
          else s2.setHand p q (some { c with ready := some s.clk }))

/-! ### Commands by type (R320, R338, R339) -/

/-- LAUNCH_COMMAND (R319, R320). -/
def execLaunchCommand (p : Fin 12) (q : Fin 64) (s : State) : Out := .next (s.commandStep p q .launch fun _ => s)

/-- MARKER (R320, R323): taken; complete once it is selected, its dependences met. -/
def execMarker (p : Fin 12) (q : Fin 64) (s : State) : Out :=
  .next (s.commandStep p q .marker fun c => if c.running then s.completeCmd p q c .complete 0 else s)

/-- Bytes four to a word. -/
def wordsOfBytes (n : Nat) (f : Nat → BitVec 8) : List Word :=
  (List.range n).map fun i => wordOf ((List.range 4).map fun k => f (4 * i + k))

def State.hmapWords (s : State) : List Word := (List.finRange 12).flatMap fun d => words64 (s.hmap d)

/-- The enumeration record (R339). -/
def State.enumRecord (s : State) : List Word :=
  [0x384000B0, s.svcstat] ++ s.hmapWords ++ (s.parts.toList.map Partition.pmapWord) ++ [0, 0] ++
    wordsOfBytes 328 Config.identityKey

/-- The digest of the loaded firmware (R28, R339); free where no image is loaded. -/
def State.firmwareDigest (s : State) (i : Nat) : BitVec 8 :=
  match s.fwst == 2, s.firmware with
  | true, some f => (sha3 f.image)[i]?.getD 0
  | _, _ => (Config.freeWord s.tick i).setWidth 8

/-- The signed part of the attestation report, bytes 0x000 to 0x15F (R339). -/
def State.reportBody (s : State) (nonce : List Word) : List Word :=
  nonce ++ wordsOfBytes 8 s.firmwareDigest ++ wordsOfBytes 8 Config.processorDigest ++
  (s.parts.toList.map Partition.pmapWord) ++ (s.parts.toList.map (·.plimit)) ++
  (s.parts.toList.map fun x => BitVec.ofNat 32 (wfield x.pwin 51 20)) ++
  s.hmapWords ++ [0x384000B0, s.svcstat, loWord s.ecnt, BitVec.ofNat 32 s.time]

/-- The attestation report after a nonce, with its signature over the digest of what stands before it (R339). -/
def State.report (s : State) (nonce : List Word) : List Word :=
  let body := s.reportBody nonce
  body ++ wordsOfBytes 605 (Config.signatureByte s.tick (sha3 (body.flatMap bytesOf)))

/-- ENUM (R339): taken; when it runs, the record is written. -/
def execEnumCmd (p : Fin 12) (q : Fin 64) (s : State) : Out :=
  .next (s.commandStep p q .enum fun c =>
    if c.running then (s.devPuts p c.arg s.enumRecord).completeCmd p q c .complete 0 else s)

/-- ATTEST (R339): taken; when it runs, the report is written after the nonce. -/
def execAttest (p : Fin 12) (q : Fin 64) (s : State) : Out :=
  .next (s.commandStep p q .attest fun c =>
    if c.running then
      let (s1, nonce) := s.devFetch p c.arg 8
      (s1.devPuts p (c.arg + 32) (s.report nonce)).completeCmd p q c .complete 0
    else s)

/-- FWLOAD (R338, R339): taken; when it runs, the image is read and its verification starts, one at a time, or NOTAVAIL in
full service. -/
def execFwload (p : Fin 12) (q : Fin 64) (s : State) : Out :=
  .next (s.commandStep p q .fwload fun c =>
    if !c.running then s
    else if s.phase = 3 then s.completeCmd p q c .notavail 0
    else if s.fwst = 1 then s
    else
      let (s1, ws) := s.devFetch p c.arg ((c.len + 3) / 4)
      { s1 with
        fwst := 1
        firmware := some ⟨q, (ws.flatMap bytesOf).take c.len⟩ })

/-- The image is accepted or rejected, and the FWLOAD that named it completes (R26, R339). R26 tells only of a load in PHASE 1:
one that is taken in PHASE 2 sets FWST as there, to 1 and then to 2 or 3, and leaves PHASE where it is, which may still become
3 (assumption 56). -/
def State.verified (s : State) (f : Firmware) (k : Bool) : State :=
  let s1 : State := if k then { s with fwst := 2, phase := if s.phase = 1 then 2 else s.phase } else { s with fwst := 3 }
  match s.handOf 0 f.queue .fwload with
  | some c => if k then s1.completeCmd 0 f.queue c .complete 0 else s1.completeCmd 0 f.queue c .badcmd 0x39
  | none => s1

/-- FIRMWARE_VERIFIED (01 R26, R28, R339): verification of the image ends as its signature says. -/
def execFirmwareVerified (k : Bool) (s : State) : Out :=
  .next (match s.firmware with
    | none => s
    | some f => if s.fwst ≠ 1 ∨ k ≠ Config.imageVerifies f.image then s else (s.verified f k).joinDies)

/-! ### Selection (R323, R324, R335) -/

/-- The head of a queue that takes part in selection. -/
inductive Head where
  | grid (g : Grid)
  | cmd (c : Cmd)
  | child (c : Child)

/-- Counted one higher after 1 ms, up to 3 (R323). -/
def aged (clk since prio : Nat) : Nat := if since + 850000 ≤ clk then min 3 (prio + 1) else prio

/-- A grid that returned to the head of its queue, and since when. -/
def State.returned (s : State) (p : Fin 12) (q : Option (Fin 64)) : Option (Grid × Nat) :=
  (s.grids.filterMap fun g =>
    if g.part = p ∧ g.queue = q then (match g.pre with
      | .out t => some (g, t)
      | .running | .marked | .selected => none) else none).head?

/-- The head of a host queue with its counted priority, when it is ready (R323). -/
def State.hostHead (s : State) (p : Fin 12) (q : Fin 64) : Option (Head × Nat) :=
  let k := (s.parts[p]).queues[q]
  if !k.en then none
  else
    match s.returned p (some q) with
    | some (g, t) => some (.grid g, aged s.clk t k.prio.toNat)
    | none =>
      match k.hand with
      | none => none
      | some c =>
        match c.ready with
        | none => none
        | some t => if c.running || c.fin.isSome then none else some (.cmd c, aged s.clk t k.prio.toNat)

/-- The head of the device-side queue with its priority (R335). -/
def State.deviceHead (s : State) (p : Fin 12) : Option (Head × Nat) :=
  let x := s.parts[p]
  match s.returned p none with
  | some (g, _) => some (.grid g, (x.queues[g.prioQueue]).prio.toNat)
  | none =>
    if x.childSel.isSome then none
    else (x.children.head?).map fun c => (.child c, (x.queues[c.parentQueue]).prio.toNat)

/-- The ready host queue that wins (R323): the highest counted priority, then the next after the queue that won last at
it. -/
def State.hostWinner (s : State) (p : Fin 12) : Option (Fin 64 × Head × Nat) :=
  let ready := (List.finRange 64).filterMap fun q => (s.hostHead p q).map fun h => (q, h.1, h.2)
  let best := ready.foldl (fun m x => max m x.2.2) 0
  let top := ready.filter fun x => x.2.2 == best
  let last := ((s.parts[p]).won[best]?.map (·.val)).getD 63
  let order := (List.range 64).map fun i => (last + 1 + i) % 64
  (order.filterMap fun n => top.find? fun x => x.1.val == n).head?

/-- A descriptor becomes a selected grid. The manual says only that GRID is assigned at launch (03 R38): here grids count
from 1 in the order they are selected (assumption 69). -/
def State.selectLaunch (s : State) (p : Fin 12) (d : Desc) (queue : Option (Fin 64)) (pq : Fin 64) (crec : Addr)
    (debug reduced : Bool) (tmax : Nat) (tdep : Option TileDep) : State :=
  { s with
    grids := s.grids ++
      [newGrid s.nextGrid p queue pq s.nextGrid tmax d crec debug reduced tdep (gridDiesOf (s.parts[p]).dies d)]
    nextGrid := s.nextGrid + 1 }

/-- The tile dependence of a command. -/
def Cmd.tileDep (c : Cmd) : Option TileDep := if c.tdep then some ⟨c.ttab, c.tdiv, c.tfirst, c.tgen⟩ else none

/-- A selected host command: a LAUNCH's descriptor is read and judged, another type runs (R326). -/
def State.selectCmd (s : State) (p : Fin 12) (q : Fin 64) (c : Cmd) : State :=
  match c.typ with
  | .launch =>
    if !s.devOk p false c.arg 36 64 then s.completeCmd p q c .badcmd 0x36
    else
      let (s1, ws) := s.devFetch p c.arg 36
      let detail := s.descDetail (s.parts[p]).dies c.tmax ws
      if detail ≠ 0 then s1.completeCmd p q c .badcmd detail
      else
        (s1.selectLaunch p (descOf ws) (some q) q c.crec c.debug c.reduced c.tmax c.tileDep).setHand p q
          (some { c with running := true })
  | .marker | .enum | .attest | .fwload => s.setHand p q (some { c with running := true })

/-- No grid of a queue runs: its slice is closed, and no time counts toward it (R324). -/
def State.closeSlice (s : State) (p : Fin 12) (q : Fin 64) : State :=
  if s.grids.any fun g => g.part == p && g.prioQueue == q && g.runs then s
  else
    let x := s.parts[p]
    s.setPart p { x with queues := x.queues.set q { x.queues[q] with sliceFrom := none } }

/-- A pre-empted grid is selected again: its queue's slice restarts, now when a grid of the queue runs, else once one does
(R324). -/
def State.selectGrid (s : State) (g : Grid) : State :=
  let s1 := s.setGrid { g with pre := .selected, order := s.nextGrid }
  (({ s1 with nextGrid := s1.nextGrid + 1 } : State).openSlice g.part g.prioQueue true).closeSlice g.part g.prioQueue

/-- The head child becomes a selected grid (R335). -/
def State.selectChild (s : State) (p : Fin 12) (c : Child) : State :=
  let x := s.parts[p]
  (s.selectLaunch p c.desc none c.parentQueue c.crec false c.reduced c.tmax none).setPart p
    { x with children := x.children.drop 1, childSel := some s.nextGrid }

def State.selectHead (s : State) (p : Fin 12) (q : Fin 64) : Head → State
  | .grid g => s.selectGrid g
  | .cmd c => s.selectCmd p q c
  | .child c => s.selectChild p c

/-- COMMAND_SELECT (R323, R326, R335): the device-side queue wins against host queues of its counted priority. -/
def execCommandSelect (p : Fin 12) (s : State) : Out :=
  .next (if !(s.parts[p]).en || (s.parts[p]).halting then s
    else
      match s.deviceHead p, s.hostWinner p with
      | none, none => s
      | some (h, _), none => s.selectHead p 0 h
      | none, some (q, h, n) =>
        (s.setPart p { s.parts[p] with won := (s.parts[p]).won.setIfInBounds n q }).selectHead p q h
      | some (h, m), some (q, k, n) =>
        if n ≤ m then s.selectHead p 0 h
        else (s.setPart p { s.parts[p] with won := (s.parts[p]).won.setIfInBounds n q }).selectHead p q k)

/-! ### The host's own accesses (01 R29, 12 R243) -/

/-- The host takes a line of an HS page, or keeps it as it has it (12 R243). Whether a line it reads is its alone is free. -/
def State.hostHolds (s : State) (pa : Nat) (alone : Bool) : State :=
  if (Tbl.find s.hostLines (lineOf pa)).isSome then s
  else { s with hostLines := Tbl.put s.hostLines (lineOf pa) (if alone then .exclusive else .shared) }

/-- The host writes a word of an HS page: the line is its own, modified (12 R243). -/
def State.hostStore (s : State) (at_ : Attr) (pa : Nat) (v : Word) : State :=
  let s1 := s.homeStore (some at_) pa v
  { s1 with hostLines := Tbl.put s1.hostLines (lineOf pa) .modified }

/-- HOST_MEMORY_ACCESS (01 R29, 12 R243): the host reads, or writes a word, at an address a partition maps: in plaintext on an
HS page, whose line it then holds; elsewhere it meets ciphertext, and what a write leaves is free (assumption 34). -/
def execHostMemoryAccess (p : Fin 12) (a : BitVec 64) (w : Option (BitVec 32)) (s : State) : Out :=
  .next (match windowOf a with
    | .glob va =>
      (match s.walk p va with
       | none => s
       | some (leaf, blocks, _) =>
         let pa := leafPa leaf blocks va / 4 * 4
         let at_ := attrOf false leaf
         if fabricPa pa then s
         else if s.foreign p pa then
           (match w with
            | none => s
            | some _ => s.strayStore pa)
         else
           match w with
           | none => if at_.hs then s.hostHolds pa (Config.freeBit s.tick 0) else s
           | some v => if at_.hs then s.hostStore at_ pa v else s.homeStore (some at_) pa (Config.freeWord s.tick 0))
    | .priv _ | .team _ | .const _ | .none => s)

/-- HOST_SNOOP (12 R243): a line of an HS page is recalled from the cores to its home, and the host holds it alone. No value
changes, whatever faults are pending. -/
def execHostSnoop (a : Nat) (s : State) : Out := .next (if s.hsPage a then s.hostHolds a true else s)

end Sys2Proof.Machine
end

