-- ==== Sys2Proof/Machine/Matrix.lean ====
section
/-! DEFINITION. The matrix unit: matrix-array, accumulator and rank-coded instructions, their start and completion (spec
16). The start and completion times of R262 and R268 are not modelled. -/

namespace Sys2Proof.Machine

/-! ### State of the unit (R256, R257) -/

def Tile.reset : Tile := ⟨.i8x4, 0, 0, [], [], [], [], []⟩

def Matrix.reset : Matrix :=
  { owner := none, tile := .reset, banks := Vector.replicate 2 [], acc := [], table := [], tscale := 0, tableBad := false
    started := [], last := none, rankFrom := 0 }

def State.matrixOf (s : State) (c : CoreRef) : Matrix := Tbl.findD s.matrix c .reset

def State.setMatrix (s : State) (c : CoreRef) (m : Matrix) : State := { s with matrix := Tbl.put s.matrix c m }

def Matrix.entry (m : Matrix) (row col : Nat) : AccEntry := Tbl.findD m.acc (row, col) ⟨0, false⟩

/-- The matrix unit of a core is zero when the core first works for a partition's context (R256). Whether a partition that was
torn down and enabled again under its index is another context R256 does not say: here it is, since the teardown leaves the unit
without an owner (assumption 79). -/
def State.claimMatrix (s : State) (c : CoreRef) (p : Fin 12) : State :=
  if (s.matrixOf c).owner = some p then s else s.setMatrix c { Matrix.reset with owner := some p }

/-- The other core of the pair (01 R12). -/
def corePartner (c : CoreRef) : CoreRef := ⟨c.die, partnerOf c.core⟩

/-- The core leads a pair of two exposed cores (R273, R274). -/
def State.leads (s : State) (c : CoreRef) : Bool := decide (c.core.val % 2 = 0) && s.paired c.die c.core

/-- KL: the loaded row length (R257). -/
def rowLength (cf : Tag) : Nat := if cf = .i4x8 then 1024 else 512

/-- Array rows of a K-segment (R257). -/
def segRows (cf : Tag) : Nat := if cf = .i4x8 then 256 else 128

/-- Cell k, j; rows and columns beyond the tile hold zero cells (R261). -/
def Tile.cell (t : Tile) (k j : Nat) : Int := ((t.cells[k]?.bind fun r => r[j]?)).getD 0

/-- X of column j, segment g (R259). -/
def Tile.exp (t : Tile) (g j : Nat) : Int := ((t.exps[g]?.bind fun r => r[j]?)).getD (-16)

def Tile.scale (t : Tile) (j : Nat) : BitVec 16 := (t.scales[j]?).getD 0

/-- An array cell of the column is damaged: the passes of every row of A go through it (R261, R269). -/
def Tile.damaged (t : Tile) (j : Nat) : Bool := t.badCells.any fun x => x.2 == j

/-- The cells are aligned F8 (R258). -/
def cellsF8 (cf : Tag) : Bool := cf == .e4x4 || cf == .e5x4

/-- A tile descriptor (R270): rows and columns it covers; none when it is malformed. -/
structure TileRect where
  row : Nat
  rows : Nat
  col : Nat
  cols : Nat

def tileRect (w : Word) : Option TileRect :=
  let row := wfield w 7 0
  let n := wfield w 15 8
  let cb := wfield w 21 16
  let nc := wfield w 27 22
  if wfield w 31 28 ≠ 0 ∨ 255 < row + n ∨ 63 < cb + nc then none else some ⟨row, n + 1, 16 * cb, 16 * (nc + 1)⟩

def TileRect.span (t : TileRect) (c : CoreRef) : AccSpan := ⟨c, t.row, t.rows, t.col, t.cols⟩

def AccSpan.meets (a b : AccSpan) : Bool :=
  a.core == b.core && decide (a.row < b.row + b.rows) && decide (b.row < a.row + a.rows) &&
    decide (a.col < b.col + b.cols) && decide (b.col < a.col + a.cols)

/-! ### Team memory of the issuing core (R265 step 3) -/

/-- A failed check: cause, detail, TADDR. -/
abbrev MxFail := Cause × Nat × Addr

/-- A span of n bytes in the issuing core's team memory. -/
def State.ownSpan (s : State) (r : GroupRef) (g : Group) (o : Word) (n : Nat) : Option TeamSpan :=
  match s.teamPlace r g o.toNat n with
  | some (k, b) => if k.core = r.at then some ⟨k, b, n⟩ else none
  | none => none

/-- Range, then alignment, of a span. -/
def State.needSpan (s : State) (r : GroupRef) (g : Group) (o : Word) (n : Nat) : Except MxFail TeamSpan :=
  match s.ownSpan r g o n with
  | none => .error (.range, 0, o.setWidth 64)
  | some t => if t.off % 4 ≠ 0 then .error (.align, 0, o.setWidth 64) else .ok t

/-- Several spans in ascending order; the first failure decides. -/
def State.needSpans (s : State) (r : GroupRef) (g : Group) : List (Word × Nat) → Except MxFail (List TeamSpan)
  | [] => .ok []
  | (o, n) :: rest =>
    match s.needSpan r g o n with
    | .error e => .error e
    | .ok t =>
      match s.needSpans r g rest with
      | .error e => .error e
      | .ok ts => .ok (t :: ts)

/-- One span from the first to the last byte of several (R264). -/
def hullOf (ts : List TeamSpan) : List TeamSpan :=
  match ts with
  | [] => []
  | t :: rest =>
    let lo := rest.foldl (fun m x => min m x.off) t.off
    let hi := rest.foldl (fun m x => max m (x.off + x.len)) (t.off + t.len)
    [⟨t.key, lo, hi - lo⟩]

/-- What an instruction may touch of n bytes in the issuing core's team memory: all of them, or those up to its end. -/
def State.clipSpan (s : State) (r : GroupRef) (g : Group) (o : Word) (n : Nat) : Option TeamSpan :=
  match s.ownSpan r g o n with
  | some t => some t
  | none => (s.ownSpan r g o 1).map fun t => { t with len := ((s.team t.key).map (·.size)).getD 0 - t.off }

/-- The hull of the spans that lie in the issuing core's team memory. -/
def State.hull (s : State) (r : GroupRef) (g : Group) (os : List (Word × Nat)) : List TeamSpan :=
  hullOf (os.filterMap fun x => s.clipSpan r g x.1 x.2)

/-- Offsets of rows or records: offset + i·stride (R265). -/
def strided (o stride : Word) (n : Nat) : List Word := (List.range n).map fun i => o + BitVec.ofNat 32 i * stride

def State.spanByte (s : State) (t : TeamSpan) (i : Nat) : Nat := (s.teamByte t.key (t.off + i)).toNat
def State.spanHalf (s : State) (t : TeamSpan) (i : Nat) : Nat := s.spanByte t i + 256 * s.spanByte t (i + 1)
def State.spanWord (s : State) (t : TeamSpan) (i : Nat) : Word := s.teamWord t.key (t.off + i)

/-- Poison in the bytes of spans (09 R196). -/
def State.spansPoisoned (s : State) (ts : List TeamSpan) : Bool :=
  ts.any fun t => match s.team t.key with
    | none => false
    | some m => (List.range t.len).any fun i => poisoned m.poison (t.off + i)

/-! ### Work without results -/

def MxWork.empty (u : MxUnit) (pair : Bool) : MxWork :=
  { unit := u, pair := pair, usesTable := false, loadsTable := false, readsAcc := [], writesAcc := [], readsTeam := []
    writesTeam := [], regs := [], team := [], acc := [], tiles := [], banks := [], table := none, flags := 0 }

/-! ### Elements of A (R260) -/

/-- A tag's bits an element in a row of A. -/
def aBits (t : Tag) : Nat :=
  match t with
  | .f16x2 | .b16x2 => 16
  | .i4x8 => 4
  | _ => 8

/-- A is floating. -/
def aFloat (t : Tag) : Bool := t == .e4x4 || t == .e5x4 || t == .b16x2 || t == .f16x2

/-- Element k of a row. -/
def State.aElem (s : State) (t : Tag) (row : TeamSpan) (k : Nat) : Nat :=
  match t with
  | .f16x2 | .b16x2 => s.spanHalf row (2 * k)
  | .i4x8 => s.spanByte row (k / 2) / 16 ^ (k % 2) % 16
  | _ => s.spanByte row k

/-- A row of A ready for the array: significands, one Y per A segment for floating A, a NaN or infinity seen. -/
structure ARow where
  q : List Int
  ys : Option (List Int)
  nan : Bool

/-- ⌊log2⌋ of the largest nonzero finite magnitude, if any. -/
def topExp (vs : List FVal) : Option Int :=
  vs.foldl (fun m v => match v with
    | .fin _ n e => if n = 0 then m else some (match m with
        | none => e + bitLength n - 1
        | some x => imax x (e + bitLength n - 1))
    | .nan _ | .inf _ => m) none

/-- A finite value scaled by 2^n and rounded to odd to an integer; other values give 0. -/
def toOdd (n : Int) (v : FVal) : Int :=
  match v with
  | .fin sg m e =>
    let z : Int := (roundShift 4 sg m (-(e + n))).1
    if sg then -z else z
  | .nan _ | .inf _ => 0

def FVal.isFinite : FVal → Bool
  | .fin _ _ _ => true
  | .nan _ | .inf _ => false

/-- One A segment aligned: the significands and Y. -/
def alignA (vs : List FVal) : List Int × Int :=
  let y := (topExp vs).getD 0
  (vs.map (toOdd (10 - y)), y)

/-- A row of A (R260); FTZ applies to F16 and B16. -/
def State.aRow (s : State) (t : Tag) (ftz : Bool) (row : TeamSpan) (kb : Nat) : ARow :=
  let es := (List.range kb).map (s.aElem t row)
  if !aFloat t then
    { q := es.map fun (n : Nat) => if t = .n8x4 then (n : Int) else signedOf (aBits t) n, ys := none, nan := false }
  else
    let vs := es.map fun n => (fmtOf t).reads ftz n
    let segs := (List.range 4).map fun g => alignA ((vs.drop (128 * g)).take 128)
    { q := segs.flatMap (·.1), ys := some (segs.map (·.2)), nan := vs.any fun v => !v.isFinite }

/-! ### Passes and accumulation (R261) -/

/-- S(i, j, g): the exact pass sum. -/
def passSum (t : Tile) (q : List Int) (j g : Nat) : Int :=
  let n := segRows t.cfmt
  ((List.range n).map fun i => (q[g * n + i]?).getD 0 * t.cell (g * n + i) j).sum

/-- The exponent of two of a pass's contribution beside Y: X − 6 for F8 cells; PS8 cells are held in eighths. -/
def cellExp (t : Tile) (g j : Nat) : Int :=
  if cellsF8 t.cfmt then t.exp g j - 6 else if t.cfmt = .ps8x4 then -3 else 0

/-- P(i, j, g) for A48: a sum of 0 contributes +0. -/
def passVal (t : Tile) (a : ARow) (j g : Nat) : FVal :=
  let y := match a.ys with
    | some ys => (ys[g]?).getD 0 - 10
    | none => 0
  finOf (passSum t a.q j g) (y + cellExp t g j)

/-- e := rnd(e + P, A48, to odd). -/
def addA48 (e : BitVec 48) (p : FVal) : BitVec 48 :=
  match addExact 4 (fmtA48.value e.toNat) p with
  | some v => BitVec.ofNat 48 (fmtA48.pack ⟨4, false, false⟩ v).1
  | none => BitVec.ofNat 48 fmtA48.nanBits

/-- e := e + P in I48. -/
def addI48 (sat : Bool) (e : BitVec 48) (p : Int) : BitVec 48 :=
  let z := e.toInt + p
  BitVec.ofInt 48 (if sat then clampInt (-2 ^ 47) (2 ^ 47 - 1) z else z)

/-- The entry a row leaves in column j. -/
def mmaEntry (t : Tile) (a : ARow) (z : Bool) (mode : Word) (old : AccEntry) (j : Nat) : AccEntry :=
  let e0 : BitVec 48 := if z then 0 else old.val
  let v :=
    if a.nan then BitVec.ofNat 48 fmtA48.nanBits
    else if modeI48 mode then (List.range 4).foldl (fun e g => addI48 (modeSat mode) e (passSum t a.q j g)) e0
    else (List.range 4).foldl (fun e g => addA48 e (passVal t a j g)) e0
  ⟨v, (old.bad && !z) || t.damaged j⟩

/-- The entries of a tile, row by row; `f` gives an entry from the row's index, the row, the column. -/
def tileEntries (c : CoreRef) (t : TileRect) (f : Nat → Nat → Nat → AccEntry) : List (CoreRef × Nat × Nat × AccEntry) :=
  (List.range t.rows).flatMap fun i => (List.range t.cols).map fun j => (c, t.row + i, t.col + j, f i (t.row + i) (t.col + j))

/-! ### BLOAD (R258, R259, R271) -/

/-- The cell format MODE.LDFMT names. -/
def cellFormat (mode : Word) : Option Tag :=
  match modeLdfmt mode with
  | .i8x4 => some .i8x4
  | .i4x8 => some .i4x8
  | .ps8x4 => some .ps8x4
  | .e4x4 => some .e4x4
  | .e5x4 => some .e5x4
  | _ => none

/-- Bytes of the weights. -/
def weightBytes (cf : Tag) (kb nb : Nat) : Nat := (if cf = .i4x8 then (kb + 1) / 2 else kb) * nb

/-- The bits of weight k of column j. -/
def State.weight (s : State) (cf : Tag) (t : TeamSpan) (nb k j : Nat) : Nat :=
  if cf = .i4x8 then s.spanByte t (k / 2 * nb + j) / 16 ^ (k % 2) % 16 else s.spanByte t (k * nb + j)

/-- Column j, segment g of an aligned tile: its cells and X (R259). -/
def alignColumn (vs : List FVal) : List Int × Int :=
  match topExp vs with
  | none => (vs.map fun _ => 0, -16)
  | some x => (vs.map (toOdd (6 - x)), x)

/-- The tile loaded, and NV for a NaN or infinite weight. -/
def State.loadTile (s : State) (cf : Tag) (kb nb : Nat) (ws ss : TeamSpan) : Tile × FFlags :=
  let scales := (List.range nb).map fun j => BitVec.ofNat 16 (s.spanHalf ss (2 * j))
  if cellsF8 cf then
    let val (k j : Nat) : FVal := (fmtOf cf).value (s.weight cf ws nb k j)
    let cols := (List.range nb).map fun j => (List.range 4).map fun g =>
      alignColumn (((List.range 128).filter fun i => decide (128 * g + i < kb)).map fun i => val (128 * g + i) j)
    let cell (k j : Nat) : Int :=
      let seg := k / 128
      let at_ := k % 128
      (((nth cols j).bind (nth · seg)).bind fun x => nth x.1 at_).getD 0
    ({ cfmt := cf, kb := kb, nb := nb
       cells := (List.range kb).map fun k => (List.range nb).map (cell k)
       exps := (List.range 4).map fun g => (List.range nb).map fun j =>
         (((nth cols j).bind (nth · g)).map (·.2)).getD (-16)
       scales := scales, badCells := [], badScales := [] },
     flagIf ((List.range kb).any fun k => (List.range nb).any fun j => !(val k j).isFinite) fNV)
  else
    let cell (k j : Nat) : Int :=
      let n := s.weight cf ws nb k j
      if cf = .ps8x4 then ps8Eighths n else signedOf (if cf = .i4x8 then 4 else 8) n
    ({ cfmt := cf, kb := kb, nb := nb, cells := (List.range kb).map fun k => (List.range nb).map (cell k), exps := []
       scales := scales, badCells := [], badScales := [] }, 0)

/-- The shape word of BLOAD (R271). -/
def bloadGood (d : Word) (cf : Tag) : Bool :=
  (d &&& 0xF800F800) == 0 && decide (1 ≤ wfield d 26 16 ∧ wfield d 26 16 ≤ 1024) &&
    decide (1 ≤ wfield d 10 0 ∧ wfield d 10 0 ≤ rowLength cf)

def State.bload (s : State) (r : GroupRef) (g : Group) (q : MxReq) (pair : Bool) (p : MxWork) : Except MxFail MxWork :=
  match cellFormat q.mode with
  | none => .error (.format, 0, 0)
  | some cf =>
    let kb := wfield q.d 10 0
    let nb := wfield q.d 26 16
    if !bloadGood q.d cf then .error (.desc, 0x21, 0)
    else if pair && !s.leads r.at then .error (.desc, 0x23, 0)
    else
      match s.needSpans r g [(q.a, weightBytes cf kb nb), (q.b, 2 * nb)] with
      | .error e => .error e
      | .ok ts =>
        match ts with
        | [ws, ss] =>
          if s.spansPoisoned ts then .error (.poison, 0, 0)
          else
            let (t, f) := s.loadTile cf kb nb ws ss
            .ok { p with tiles := [(if pair then corePartner r.at else r.at, t)], flags := f }
        | _ => .ok p

/-! ### MMA, MMAP (R272, R273) -/

/-- FORMAT of MMA on a tile (R260, R261). -/
def mmaFormat (t : Tile) (a : Tag) (mode : Word) : Bool :=
  (t.cfmt == .i4x8 && aFloat a) || (modeI48 mode && (aFloat a || !(t.cfmt == .i8x4 || t.cfmt == .i4x8)))

/-- Bytes of a row of A. -/
def rowBytes (a : Tag) (kb : Nat) : Nat := (kb * aBits a + 7) / 8

/-- The arrays a form works on. -/
def targets (r : GroupRef) (pair : Bool) : List CoreRef := if pair then [r.at, corePartner r.at] else [r.at]

/-- The rows of A of an instruction pass through the two banks of a core's row buffer in turn: what the banks hold after the
last (R256). -/
def bankRows (c : CoreRef) (rows : List (List Int)) : List (CoreRef × Fin 2 × List Int) :=
  (rows.zipIdx.map fun x => (c, (if x.2 % 2 = 0 then 0 else 1 : Fin 2), x.1)).drop (rows.length - 2)

/-- Rows of A as long as the longest tile needs. -/
def State.mmaKb (s : State) (r : GroupRef) (pair : Bool) : Nat :=
  ((targets r pair).map fun c => (s.matrixOf c).tile.kb).foldl max 0

/-- What rows of A leave on one core. -/
def State.mmaOn (s : State) (c : CoreRef) (rect : TileRect) (rows : List ARow) (z : Bool) (mode : Word) :
    List (CoreRef × Nat × Nat × AccEntry) :=
  let m := s.matrixOf c
  tileEntries c rect fun i row col => mmaEntry m.tile ((rows[i]?).getD ⟨[], none, false⟩) z mode (m.entry row col) col

def State.mma (s : State) (r : GroupRef) (g : Group) (q : MxReq) (pair z : Bool) (a : Tag) (p : MxWork) :
    Except MxFail MxWork :=
  if (targets r pair).any fun c => mmaFormat (s.matrixOf c).tile a q.mode then .error (.format, 0, 0)
  else
    match tileRect q.d with
    | none => .error (.desc, 0x20, 0)
    | some rect =>
      if pair && !s.leads r.at then .error (.desc, 0x23, 0)
      else
        let kb := s.mmaKb r pair
        match s.needSpans r g ((strided q.a q.b rect.rows).map fun o => (o, rowBytes a kb)) with
        | .error e => .error e
        | .ok ts =>
          if s.spansPoisoned ts then .error (.poison, 0, 0)
          else
            let rowsOf (c : CoreRef) := ts.map fun t => s.aRow a (modeFtz q.mode) t (s.matrixOf c).tile.kb
            .ok { p with
              acc := (targets r pair).flatMap fun c => s.mmaOn c rect (rowsOf c) z q.mode
              banks := (targets r pair).flatMap fun c => bankRows c ((rowsOf c).map (·.q))
              flags := flagIf ((targets r pair).any fun c => (rowsOf c).any (·.nan)) fNV }

/-! ### Rank-list records and the table (R279, R281, R282) -/

/-- att(j) as its byte. -/
def Matrix.att (m : Matrix) (j : Nat) : Nat := ((m.table[min j 63]?).map BitVec.toNat).getD 0

/-- COUNT and N of a record's first word; none when it is malformed or N exceeds `kl` (R265 step 4). -/
def recordHead (w : Word) (kl : Nat) : Option (Nat × Nat) :=
  let cnt := wfield w 31 21
  let n := wfield w 20 10
  if wfield w 9 0 ≠ 0 ∨ n = 0 ∨ min kl 1024 < n ∨ n < cnt then none else some (cnt, n)

/-- Bytes of a record (R279). -/
def recordBytes (cnt : Nat) : Nat := 4 + 4 * ((cnt + 1) / 2)

/-- The entries of a record; none when one has a reserved bit or is at or above N (R265 step 5). -/
def State.recordEntries (s : State) (t : TeamSpan) (cnt n : Nat) : Option (List Nat) :=
  let es := (List.range cnt).map fun j => s.spanHalf t (4 + 2 * j)
  if es.any fun e => decide (n ≤ e) then none else some es

/-- Every answer, or none when one is missing. -/
def allOf {α : Type} : List (Option α) → Option (List α)
  | [] => some []
  | none :: _ => none
  | some a :: rest => (allOf rest).map fun l => a :: l

/-- The records an instruction uses, checked in the order of R265: first words, their content, `more` and the entries'
spans, the entries' content. -/
def State.rankRecords (s : State) (r : GroupRef) (g : Group) (os : List Word) (kl : Nat)
    (more : List (Nat × Nat) → List (Word × Nat)) : Except MxFail (List (Nat × List Nat) × List TeamSpan) :=
  match s.needSpans r g (os.map fun o => (o, 4)) with
  | .error e => .error e
  | .ok heads =>
    match allOf (heads.map fun t => recordHead (s.spanWord t 0) kl) with
    | none => .error (.desc, 0x25, 0)
    | some hs =>
      match s.needSpans r g (((os.zip hs).map fun x => (x.1, recordBytes x.2.1)) ++ more hs) with
      | .error e => .error e
      | .ok ts =>
        match allOf ((ts.zip hs).map fun x => s.recordEntries x.1 x.2.1 x.2.2) with
        | none => .error (.desc, 0x25, 0)
        | some es => .ok ((hs.map (·.2)).zip es, ts)

/-- A row of A from a record (R282): entries in ascending rank, so the highest rank's value stands. -/
def rankRow (m : Matrix) (kl : Nat) (es : List Nat) : List Int :=
  es.zipIdx.foldl (fun q x => q.set x.1 (m.att x.2)) (List.replicate kl 0)

/-- P of MMAR: S · 2^(X − 6) · tscale / 256. -/
def rankVal (t : Tile) (tscale : Word) (q : List Int) (j g : Nat) : FVal :=
  let sum := passSum t q j g
  match fmtF32.value tscale.toNat with
  | .fin sg m e => finOf ((if sg then -1 else 1) * sum * m) (cellExp t g j + e - 8)
  | .nan _ | .inf _ => finOf 0 0

def rankEntry (t : Tile) (lead : Matrix) (q : List Int) (old : AccEntry) (j : Nat) : AccEntry :=
  ⟨(List.range 4).foldl (fun e g => addA48 e (rankVal t lead.tscale q j g)) old.val, old.bad || t.damaged j || lead.tableBad⟩

def State.mmar (s : State) (r : GroupRef) (g : Group) (q : MxReq) (pair : Bool) (p : MxWork) : Except MxFail MxWork :=
  if modeI48 q.mode then .error (.format, 0, 0)
  else
    match tileRect q.d with
    | none => .error (.desc, 0x20, 0)
    | some rect =>
      if pair && !s.leads r.at then .error (.desc, 0x23, 0)
      else
        let lead := s.matrixOf r.at
        let kl := (targets r pair).foldl (fun n c => min n (rowLength (s.matrixOf c).tile.cfmt)) 1024
        match s.rankRecords r g (strided q.a q.b rect.rows) kl fun _ => [] with
        | .error e => .error e
        | .ok (recs, ts) =>
          if s.spansPoisoned ts then .error (.poison, 0, 0)
          else
            let row (i : Nat) : List Int := rankRow lead 1024 (((recs[i]?).map (·.2)).getD [])
            .ok { p with
              acc := (targets r pair).flatMap fun c =>
                let m := s.matrixOf c
                tileEntries c rect fun i at_ col => rankEntry m.tile lead (row i) (m.entry at_ col) col
              banks := (targets r pair).flatMap fun c => bankRows c ((List.range rect.rows).map row) }

/-- RKLD (R281). -/
def State.rkld (s : State) (r : GroupRef) (g : Group) (q : MxReq) (p : MxWork) : Except MxFail MxWork :=
  match s.needSpan r g q.a 68 with
  | .error e => .error e
  | .ok t =>
    let scale := s.spanWord t 64
    if !(fmtF32.value scale.toNat).isFinite then .error (.desc, 0x26, 0)
    else if s.spansPoisoned [t] then .error (.poison, 0, 0)
    else .ok { p with table := some ((List.range 64).map fun i => s.teamByte t.key (t.off + i), scale) }

/-! ### Accumulator instructions (R276 to R278) -/

/-- ACCZ. -/
def State.accz (r : GroupRef) (q : MxReq) (p : MxWork) : Except MxFail MxWork :=
  match tileRect q.a with
  | none => .error (.desc, 0x20, 0)
  | some rect => .ok { p with acc := tileEntries r.at rect fun _ _ _ => ⟨0, false⟩ }

/-- Packed results of ACCRD. -/
def accPacked (t : Tag) : Bool := t == .f16x2 || t == .b16x2

/-- Registers of an ACCRD or ACCWR of n rows. -/
def accRegs (packed : Bool) (n : Nat) : Nat := if packed then n / 2 else n

/-- The conditions on the shape (R277). -/
def accShape (g : Group) (rect : TileRect) (packed : Bool) (d : Reg) : Bool :=
  rect.cols == g.w && (if packed then rect.rows % 2 == 0 && decide (rect.rows ≤ 32) else decide (rect.rows ≤ 16)) &&
    decide (d.toNat + accRegs packed rect.rows ≤ g.nv)

/-- One entry as an element of T (R277, R130). -/
def accElem (mode : Word) (noScale : Bool) (t : Tag) (e : BitVec 48) (scale : BitVec 16) : Nat × FFlags :=
  let k := rndOf mode
  if modeI48 mode && noScale && t == .i32 then (wrapNat 32 (if k.sat then clampTag .i32 e.toInt else e.toInt), fNone)
  else
    let v := if modeI48 mode then finOf e.toInt 0 else fmtA48.value e.toNat
    let sv := fmtF16.value scale.toNat
    let x := if noScale then some v else mulExact v sv
    let f := flagIf (!noScale && sv == .nan true) fNV
    match x with
    | none => (if t = .i32 then 0 else (fmtOf t).nanBits, f ||| fNV)
    | some y =>
      let res := if t = .i32 then toInteger .i32 k y else (fmtOf t).pack k y
      (res.1, res.2 ||| f)

/-- ACCRD: the registers' writes, and the lanes whose columns hold a marked entry, or a damaged scale that is used (R265 step
6, R269, 09 R196; assumption 76). -/
def State.accrd (s : State) (r : GroupRef) (g : Group) (q : MxReq) (d : Reg) (noScale : Bool) (t : Tag) (p : MxWork) :
    Except MxFail (MxWork × List LFault) :=
  match tileRect q.a with
  | none => .error (.desc, 0x20, 0)
  | some rect =>
    if !accShape g rect (accPacked t) d then .error (.desc, 0x22, 0)
    else
      let m := s.matrixOf r.at
      let lanes := lanesOf g.w g.alive
      let bad := lanes.filter fun l => (!noScale && m.tile.badScales.contains (rect.col + l)) ||
        (List.range rect.rows).any fun i => (m.entry (rect.row + i) (rect.col + l)).bad
      let good := lanes.filter fun l => !bad.contains l
      let elem (row l : Nat) : Nat × FFlags :=
        accElem q.mode noScale t (m.entry (rect.row + row) (rect.col + l)).val (m.tile.scale (rect.col + l))
      let word (i l : Nat) : Word × FFlags :=
        if accPacked t then
          (packWord 16 [(elem (2 * i) l).1, (elem (2 * i + 1) l).1], (elem (2 * i) l).2 ||| (elem (2 * i + 1) l).2)
        else (BitVec.ofNat 32 (elem i l).1, (elem i l).2)
      let n := accRegs (accPacked t) rect.rows
      .ok ({ p with
              regs := (List.range n).map fun i =>
                .vec (d + BitVec.ofNat 6 i) (some t) (good.map fun l => ⟨l, BitVec.allOnes 32, (word i l).1⟩)
              flags := orFlags ((List.range n).flatMap fun i => good.map fun l => (word i l).2) },
           bad.map fun l => ⟨l, .poison, 0, 0⟩)

/-- A source word of ACCWR as an entry, exactly. -/
def accValue (t : Tag) (w : Word) : BitVec 48 :=
  match t with
  | .i32 => BitVec.ofInt 48 w.toInt
  | .n32 => w.setWidth 48
  | _ => BitVec.ofNat 48 (fmtA48.pack ⟨4, false, false⟩ (fmtF32.value w.toNat)).1

/-- ACCWR. -/
def State.accwr (r : GroupRef) (g : Group) (q : MxReq) (d : Reg) (p : MxWork) : Except MxFail MxWork :=
  let n := wfield q.a 15 8 + 1
  let tag (v : VReg) : Tag := effTag q.mode v.tag
  if (q.src.take n).any fun v => if modeI48 q.mode then !(tag v == .i32 || tag v == .n32) else tag v != .f32 then
    .error (.format, 0, 0)
  else
    match tileRect q.a with
    | none => .error (.desc, 0x20, 0)
    | some rect =>
      if !accShape g rect false d then .error (.desc, 0x22, 0)
      else
        .ok { p with
          acc := ((q.src.take rect.rows).zipIdx.flatMap fun x => (lanesOf g.w g.alive).map fun l =>
            (r.at, rect.row + x.2, rect.col + l, ⟨accValue (tag x.1) ((x.1.lanes[l]?).getD 0), false⟩)) }

/-- ACCSCL of one entry by a factor (R278). -/
def scaleEntry (e : AccEntry) (f : Word) : AccEntry × FFlags :=
  match mulExact (fmtA48.value e.val.toNat) (fmtF32.value f.toNat) with
  | none => (⟨BitVec.ofNat 48 fmtA48.nanBits, e.bad⟩, fNV)
  | some v => (⟨BitVec.ofNat 48 (fmtA48.pack ⟨4, false, false⟩ v).1, e.bad⟩, flagIf v.isNan fNV)

/-- ACCSCL. -/
def State.accscl (s : State) (r : GroupRef) (g : Group) (q : MxReq) (p : MxWork) : Except MxFail MxWork :=
  if modeI48 q.mode then .error (.format, 0, 0)
  else
    match tileRect q.a with
    | none => .error (.desc, 0x20, 0)
    | some rect =>
      match s.needSpan r g q.b (4 * rect.rows) with
      | .error e => .error e
      | .ok t =>
        if s.spansPoisoned [t] then .error (.poison, 0, 0)
        else
          let m := s.matrixOf r.at
          let one (i row col : Nat) := scaleEntry (m.entry row col) (s.spanWord t (4 * i))
          .ok { p with
            acc := tileEntries r.at rect fun i row col => (one i row col).1
            flags := orFlags ((List.range rect.rows).flatMap fun i => (List.range rect.cols).map fun j =>
              (one i (rect.row + i) (rect.col + j)).2) }

/-! ### Ranking (R280, R283) -/

/-- The shape word of RANK (R280). -/
def rankGood (d : Word) : Bool :=
  (d &&& 0xC800F800) == 0 && wfield d 29 28 != 3 && decide (1 ≤ wfield d 10 0 ∧ wfield d 10 0 ≤ 1024) &&
    decide (wfield d 26 16 ≤ 1024)

/-- Value i of a RANK. -/
def State.rankValue (s : State) (typ : Nat) (t : TeamSpan) (i : Nat) : FVal :=
  match typ with
  | 0 => fmtF32.value (s.spanWord t (4 * i)).toNat
  | 1 => fmtB16.value (s.spanHalf t (2 * i))
  | _ => finOf (s.spanWord t (4 * i)).toInt 0

/-- Indices by value, descending; equal values by ascending index (R280). -/
def rankOrder (vs : List FVal) : List Nat :=
  (sortBy (fun a b => decide (0 < compareVal a.1 b.1) || (compareVal a.1 b.1 == 0 && decide (a.2 ≤ b.2)))
    (vs.zipIdx.filter fun x => !x.1.isNan)).map (·.2)

/-- Half-words packed into words, the last one padded. -/
def packHalves : List Nat → List Word
  | [] => []
  | [a] => [packWord 16 [a, 0]]
  | a :: b :: rest => packWord 16 [a, b] :: packHalves rest

/-- Words written to team memory from a span's start. -/
def wordsAt (t : TeamSpan) (ws : List Word) : List (TeamKey × Nat × Word) :=
  ws.zipIdx.map fun x => (t.key, t.off + 4 * x.2, x.1)

/-- Bytes of RANK's source, and of the longest record it may write. -/
def rankSource (d : Word) : Nat := (if wfield d 29 28 = 1 then 2 else 4) * wfield d 10 0
def rankRecord (d : Word) : Nat := recordBytes (min (wfield d 26 16) (wfield d 10 0))

/-- RANK. -/
def State.rank (s : State) (r : GroupRef) (g : Group) (q : MxReq) (d : Reg) (p : MxWork) : Except MxFail MxWork :=
  if !rankGood q.d then .error (.desc, 0x24, 0)
  else
    let n := wfield q.d 10 0
    match s.needSpans r g [(q.a, rankSource q.d), (q.b, rankRecord q.d)] with
    | .error e => .error e
    | .ok ts =>
      match ts with
      | [src, rec_] =>
        if s.spansPoisoned [src] then .error (.poison, 0, 0)
        else
          let order := rankOrder ((List.range n).map (s.rankValue (wfield q.d 29 28) src))
          let ids := order.take (wfield q.d 26 16)
          .ok { p with
            regs := [.uni d (BitVec.ofNat 32 (n - order.length))]
            team := wordsAt rec_ (BitVec.ofNat 32 (ids.length * 2 ^ 21 + n * 2 ^ 10) :: packHalves ids) }
      | _ => .ok p

/-- RKVAL. -/
def State.rkval (s : State) (r : GroupRef) (g : Group) (q : MxReq) (p : MxWork) : Except MxFail MxWork :=
  match s.rankRecords r g [q.a] 1024 fun hs => hs.map fun h => (q.b, 4 * h.2) with
  | .error e => .error e
  | .ok (recs, ts) =>
    match recs, ts with
    | [(n, es)], [t, o] =>
      if s.spansPoisoned [t] then .error (.poison, 0, 0)
      else
        let m := s.matrixOf r.at
        let val (j : Nat) : Nat × FFlags :=
          match fmtF32.value m.tscale.toNat with
          | .fin sg k e => fmtF32.pack (rndOf q.mode) (.fin sg (m.att j * k) (e - 8))
          | .nan _ | .inf _ => (0, fNone)
        let out := es.zipIdx.foldl (fun ws x => ws.set x.1 (BitVec.ofNat 32 (val x.2).1)) (List.replicate n q.d)
        .ok { p with team := wordsAt o out, flags := orFlags ((List.range es.length).map fun j => (val j).2) }
    | _, _ => .ok p

/-! ### Starting (R264, R265) -/

/-- What a waiting instruction will read and write, from its uniform operands (R264). -/
def State.mxPlan (s : State) (r : GroupRef) (g : Group) (q : MxReq) : MxWork :=
  let accs (pair : Bool) (w : Word) : List AccSpan := match tileRect w with
    | some t => (targets r pair).map t.span
    | none => []
  let rows (w : Word) : Nat := wfield w 15 8 + 1
  match q.instr with
  | .bload _ _ _ _ n =>
    let cf := (cellFormat q.mode).getD .i8x4
    let nb := wfield q.d 26 16
    { MxWork.empty .array n with
      readsTeam := s.hull r g [(q.a, weightBytes cf (wfield q.d 10 0) nb)] ++ s.hull r g [(q.b, 2 * nb)] }
  | .mma _ _ _ _ _ t =>
    { MxWork.empty .array false with
      readsAcc := accs false q.d, writesAcc := accs false q.d
      readsTeam := s.hull r g ((strided q.a q.b (rows q.d)).map fun o => (o, rowBytes t (s.mmaKb r false))) }
  | .mmap _ _ _ _ _ t =>
    { MxWork.empty .array true with
      readsAcc := accs true q.d, writesAcc := accs true q.d
      readsTeam := s.hull r g ((strided q.a q.b (rows q.d)).map fun o => (o, rowBytes t (s.mmaKb r true))) }
  | .mmar _ _ _ _ n =>
    { MxWork.empty .array n with
      usesTable := true, readsAcc := accs n q.d, writesAcc := accs n q.d
      readsTeam := s.hull r g ((strided q.a q.b (rows q.d)).map fun o =>
        (o, match s.ownSpan r g o 4 with
          | some t => recordBytes (wfield (s.spanWord t 0) 31 21)
          | none => 4)) }
  | .rkld _ _ => { MxWork.empty .array false with loadsTable := true, readsTeam := s.hull r g [(q.a, 68)] }
  | .accz _ _ => { MxWork.empty .port false with writesAcc := accs false q.a }
  | .accrd _ _ _ _ _ => { MxWork.empty .port false with readsAcc := accs false q.a }
  | .accwr _ _ _ => { MxWork.empty .port false with writesAcc := accs false q.a }
  | .accscl _ _ _ =>
    { MxWork.empty .port false with
      readsAcc := accs false q.a, writesAcc := accs false q.a, readsTeam := s.hull r g [(q.b, 4 * rows q.a)] }
  | .rank _ _ _ _ =>
    { MxWork.empty .rank false with
      readsTeam := s.hull r g [(q.a, rankSource q.d)], writesTeam := s.hull r g [(q.b, rankRecord q.d)] }
  | .rkval _ _ _ _ =>
    let head := (s.ownSpan r g q.a 4).map fun t => s.spanWord t 0
    { MxWork.empty .rank false with
      usesTable := true
      readsTeam := s.hull r g [(q.a, (head.map fun w => recordBytes (wfield w 31 21)).getD 4)]
      writesTeam := s.hull r g [(q.b, 4 * ((head.map fun w => wfield w 20 10).getD 1))] }
  | _ => MxWork.empty .array false

/-- The checks at start and the results (R265). -/
def State.mxCompute (s : State) (r : GroupRef) (g : Group) (q : MxReq) (p : MxWork) : Except MxFail (MxWork × List LFault) :=
  let plain (x : Except MxFail MxWork) : Except MxFail (MxWork × List LFault) := x.map fun w => (w, [])
  match q.instr with
  | .bload _ _ _ _ n => plain (s.bload r g q n p)
  | .mma _ _ _ _ z t => plain (s.mma r g q false z t p)
  | .mmap _ _ _ _ z t => plain (s.mma r g q true z t p)
  | .mmar _ _ _ _ n => plain (s.mmar r g q n p)
  | .rkld _ _ => plain (s.rkld r g q p)
  | .accz _ _ => plain (State.accz r q p)
  | .accrd _ d _ n t => s.accrd r g q d n t p
  | .accwr _ d _ => plain (State.accwr r g q d p)
  | .accscl _ _ _ => plain (s.accscl r g q p)
  | .rank _ d _ _ => plain (s.rank r g q d p)
  | .rkval _ _ _ _ => plain (s.rkval r g q p)
  | _ => .ok (p, [])

/-- Started, unfinished work that concerns a core: its own and the pair forms of its partner. -/
def State.startedAt (s : State) (c : CoreRef) : List Started :=
  (s.matrixOf c).started ++ ((s.matrixOf (corePartner c)).started.filter fun w => w.work.pair)

/-- The unit of a core is free for an instruction (R264). -/
def State.unitFree (s : State) (c : CoreRef) (u : MxUnit) : Bool :=
  match u with
  | .array => !(s.startedAt c).any fun w => w.work.unit == .array
  | .port => !(s.matrixOf c).started.any fun w => w.work.unit == .port
  | .rank => decide ((s.matrixOf c).rankFrom ≤ s.clk)

/-- Started work keeps an instruction from starting (R264). -/
def workBlocks (own : Bool) (w p : MxWork) : Bool :=
  (w.writesAcc.any fun x => (p.readsAcc ++ p.writesAcc).any x.meets) ||
  (w.readsAcc.any fun x => p.writesAcc.any x.meets) ||
  (w.usesTable && p.loadsTable) || (w.loadsTable && p.usesTable) ||
  (own && ((w.writesTeam.any fun x => (p.readsTeam ++ p.writesTeam).any x.meets) ||
    (w.readsTeam.any fun x => p.writesTeam.any x.meets)))

/-- An earlier acquire half of the group is not complete (12 R230), or an earlier access to team memory that the instruction
reads or writes is not performed (08 R152). -/
def Group.teamPending (g : Group) (p : MxWork) : Bool :=
  g.acc.any fun a => a.acq.isSome || a.lanes.any fun l => !l.performed && l.places.any fun x => match x with
    | .team k o => (p.readsTeam ++ p.writesTeam).any fun t => t.meets ⟨k, o, 4⟩
    | .mem _ _ | .fab .. => false

/-- A pair form waits on the partner of a core: no array instruction of the core's own groups starts (R264). -/
def State.pairWaits (s : State) (c : CoreRef) : Bool :=
  s.groups.any fun x => x.1.at == corePartner c && (match x.2.mxWait with
    | some q => (s.mxPlan x.1 x.2 q).pair
    | none => false)

/-- The waiting instruction of a group can start, its turn apart (R264). -/
def State.mxReady (s : State) (r : GroupRef) (g : Group) : Bool :=
  match g.mxWait with
  | none => false
  | some q =>
    let p := s.mxPlan r g q
    let cores := targets r p.pair
    cores.all (fun c => s.unitFree c p.unit) &&
    !(cores.any fun c => (s.startedAt c).any fun w => workBlocks (w.uid == g.uid) w.work p) &&
    !(p.unit == .array && !p.pair && s.pairWaits r.at) && !g.teamPending p

/-- The group whose turn it is among those that can start: ascending resident slot after the last one (R264). -/
def State.mxTurn (s : State) (c : CoreRef) : Option (Fin 64) :=
  let ready := (s.groups.filter fun x => x.1.at == c && s.mxReady x.1 x.2).map (·.1.slot.val)
  let from_ := match (s.matrixOf c).last with
    | some l => l.val + 1
    | none => 0
  ((List.range 64).map fun i => (from_ + i) % 64).find? (fun i => ready.contains i) |>.bind fun i =>
    if h : i < 64 then some ⟨i, h⟩ else none

/-- What a group's entry would issue with as its instruction. -/
def Group.ctxAt (g : Group) (r : GroupRef) (word : Word) : Option Ctx :=
  match g.run with
  | none => none
  | some run =>
    match g.stack[run.live]? with
    | none => none
    | some e => some { r := r, g := g, run := run, e := e, act := activeLanes g e, serial := e.kind == .handler, word := word }

/-- A waiting instruction starts: its checks, then its work runs beside its group (R264, R265). None starts once a pre-emption
is requested (R267). -/
def State.mxStart (s : State) (r : GroupRef) : State :=
  match s.group r with
  | none => s
  | some g =>
    match g.mxWait with
    | none => s
    | some q =>
      if !(s.parts[g.part]).halting && s.mxReady r g && s.mxTurn r.at == some r.slot then
        match g.ctxAt r (encodeWord q.instr) with
        | none => s
        | some c =>
          let g1 : Group := { g with mxWait := none }
          let p := s.mxPlan r g q
          let m := s.matrixOf r.at
          let m1 : Matrix := { m with last := some r.slot, rankFrom := if p.unit = .rank then s.clk + 64 else m.rankFrom }
          match s.mxCompute r g q p with
          | .error (cause, detail, a) =>
            (s.setMatrix r.at { m with last := some r.slot }).finish c g1 .falls (faultAll g.w c.act cause detail a)
          | .ok (w, fs) => (s.setMatrix r.at { m1 with started := m1.started ++ [⟨r, g.uid, w⟩] }).finish c g1 .falls fs
      else s

/-! ### Completing (R266) -/

/-- Accumulator entries and tiles written. -/
def State.putEntries (s : State) (es : List (CoreRef × Nat × Nat × AccEntry)) : State :=
  es.foldl (fun s x => let m := s.matrixOf x.1
    s.setMatrix x.1 { m with acc := Tbl.put m.acc (x.2.1, x.2.2.1) x.2.2.2 }) s

def State.putTiles (s : State) (ts : List (CoreRef × Tile)) : State :=
  ts.foldl (fun s x => s.setMatrix x.1 { s.matrixOf x.1 with tile := x.2 }) s

def State.putBanks (s : State) (bs : List (CoreRef × Fin 2 × List Int)) : State :=
  bs.foldl (fun s x => let m := s.matrixOf x.1
    s.setMatrix x.1 { m with banks := m.banks.set x.2.1.val x.2.2 }) s

/-- A register write of completed work. -/
def RegWrite.asWrite : RegWrite → Write
  | .uni r v => .uni r v
  | .vec r tag ws => .vec r tag ws

/-- Of a write, the part for lanes that have not exited (04 R55, R277). -/
def RegWrite.forLanes (m : Mask) : RegWrite → RegWrite
  | .uni r v => .uni r v
  | .vec r tag ws => .vec r tag (ws.filter fun w => m.getLsbD w.lane)

/-- The registers and flags of completed work; lanes that exited and a group that ended get none (04 R55). -/
def Group.finishWork (g : Group) (w : MxWork) : Group :=
  if g.ended then g else
    let g1 := w.regs.foldl (fun g x => g.land g.seq (x.forLanes g.alive).asWrite) g
    { g1 with fstat := g1.fstat ||| w.flags }

/-- The k-th started instruction of a core completes: every write is made (R266). -/
def State.mxComplete (s : State) (c : CoreRef) (k : Nat) : State :=
  let m := s.matrixOf c
  match m.started[k]? with
  | none => s
  | some w =>
    let s1 := s.setMatrix c { m with started := m.started.eraseIdx k }
    let s2 := ((s1.putEntries w.work.acc).putTiles w.work.tiles).putBanks w.work.banks
    let s3 := match w.work.table with
      | some (bs, scale) => s2.setMatrix c { s2.matrixOf c with table := bs, tscale := scale, tableBad := false }
      | none => s2
    let s4 := w.work.team.foldl (fun s x => s.putTeamWord x.1 x.2.1 x.2.2) s3
    match s4.group w.who with
    | some g => if g.uid = w.uid then s4.setGroup w.who (g.finishWork w.work) else s4
    | none => s4

/-! ### The scoreboard (R266) -/

/-- Register numbers a word's fields may name: a field, and the registers of a pair or quadruple from it. -/
def touchedRegs (w : Word) : List Nat :=
  [wfield w 23 18, wfield w 17 12, wfield w 11 6, wfield w 5 0].flatMap fun n => [n, n + 1, n + 2, n + 3]

/-- The register that a write of completed work names. -/
def RegWrite.regNum : RegWrite → Nat
  | .uni r _ => r.toNat
  | .vec r _ _ => r.toNat

/-- Matrix instructions name up to 16 registers from their d field. -/
def accRange (w : Word) : List Nat := if fldOp w = 0x6B then (List.range 16).map (· + wfield w 23 18) else []

/-- The word reads or clears FSTAT. -/
def readsFstat : Instr → Bool
  | .srdsr _ _ _ n => n == .fstat
  | .sysrd _ _ n => n == .sr .fstat
  | .modef .. | .ctxsv .. | .ctxld .. => true
  | _ => false

/-- A later instruction of the group stalls behind a started one (R266): it may name a register that work will write, or
it reads FSTAT. -/
def State.scoreboardStalls (s : State) (g : Group) (i : Instr) (w : Word) : Bool :=
  let ws := s.startedOf g.uid
  !ws.isEmpty && (readsFstat i || ws.any fun x =>
    (x.regs.map RegWrite.regNum).any fun n => (touchedRegs w ++ accRange w).contains n)

/-! ### The instructions -/

/-- The context of an instruction that issues with every earlier fixed-latency result written, those of the guard among
them (02 R31, 16 R263). -/
def Ctx.settled (c : Ctx) : Ctx := { c with g := c.g.settled, act := activeLanes c.g.settled c.e }

/-- An instruction of the matrix unit at issue (R263): nothing without an active lane; PARTIAL unless the lanes are those
its form asks for; else it waits to start with its operands read after every earlier result. A pair form takes the
follower's unit for its partition. Once a pre-emption is requested it is withdrawn with the rest of its run (R267). -/
def matrixOp (i : Instr) (s : State) (pair : Bool) (d a b : Reg) : Out :=
  s.withCtx i fun c0 =>
    let c := c0.settled
    let g := c.g
    if (s.parts[g.part]).halting then s.withdraw c.r g
    else if c.act = 0 then s.finish c g .falls []
    else if c.serial || (if pair then c.lanes.length != 1 else c.act != g.alive) then s.trapAll c .notAll 0
    else
      let src := (List.range 64).filterMap fun k => if d.toNat + k < g.nv then g.v[d.toNat + k]? else none
      let s1 := if pair && s.leads c.r.at then s.claimMatrix (corePartner c.r.at) g.part else s
      s1.setGroup c.r
        { g with
          mxWait := some ⟨i, g.uni d, g.uni a, g.uni b, g.mode, match i with
            | .accwr _ _ _ => src
            | _ => []⟩ }

/-- BLOAD (R271). -/
def execBload (y : Bool) (d a b : Reg) (n : Bool) (s : State) : Out := matrixOp (.bload y d a b n) s n d a b

/-- MMA (R272). -/
def execMma (y : Bool) (d a b : Reg) (z : Bool) (t : Tag) (s : State) : Out := matrixOp (.mma y d a b z t) s false d a b

/-- MMAP (R273). -/
def execMmap (y : Bool) (d a b : Reg) (z : Bool) (t : Tag) (s : State) : Out := matrixOp (.mmap y d a b z t) s true d a b

/-- ACCZ (R276). -/
def execAccz (y : Bool) (a : Reg) (s : State) : Out := matrixOp (.accz y a) s false 0 a 0

/-- ACCRD (R277). -/
def execAccrd (y : Bool) (d a : Reg) (n : Bool) (t : Tag) (s : State) : Out := matrixOp (.accrd y d a n t) s false d a 0

/-- ACCWR (R277). -/
def execAccwr (y : Bool) (d a : Reg) (s : State) : Out := matrixOp (.accwr y d a) s false d a 0

/-- ACCSCL (R278). -/
def execAccscl (y : Bool) (a b : Reg) (s : State) : Out := matrixOp (.accscl y a b) s false 0 a b

/-- RANK (R280). -/
def execRank (y : Bool) (d a b : Reg) (s : State) : Out := matrixOp (.rank y d a b) s false d a b

/-- RKLD (R281). -/
def execRkld (y : Bool) (a : Reg) (s : State) : Out := matrixOp (.rkld y a) s false 0 a 0

/-- MMAR (R282). -/
def execMmar (y : Bool) (d a b : Reg) (p : Bool) (s : State) : Out := matrixOp (.mmar y d a b p) s p d a b

/-- RKVAL (R283). -/
def execRkval (y : Bool) (d a b : Reg) (s : State) : Out := matrixOp (.rkval y d a b) s false d a b

end Sys2Proof.Machine
end

