-- ==== Sys2Proof/Machine/Sched.lean ====
section
/-! DEFINITION. Slots and grants (04 R352), fills, walks and waits that end (04 R57, 08 R144, R164, 09 R182, R190), the end of
groups (04 R55), service groups (17 R311, 09 R171, 19 R336), pre-emption (09 R192 to R194, 19 R324), starvation swaps
(19 R329), the end of grids (19 R320). -/

namespace Sys2Proof.Machine

/-! ### Grants (04 R352) -/

/-- The wait of an arrival two phases ahead is over: its run can go on (12 R247). -/
def State.aheadOver (s : State) (g : Group) : Bool :=
  match g.wait with
  | some (.ahead b) => (s.nextPhase g b).isSome
  | _ => false

/-- A group can be granted a slot: a live entry is eligible, and no wait, YIELD or run withholds it; or its run can go on. -/
def State.grantable (s : State) (g : Group) : Bool :=
  (g.run.isNone && g.wait.isNone && g.nextLive.isSome && decide (g.yieldUntil ≤ s.clk) || s.aheadOver g) &&
  g.mxWait.isNone && !g.ended && !(s.parts[g.part]).halting

/-- The group with its slot: a new run, or the rest of the run that waited. -/
def Group.granted (g : Group) : Group :=
  match g.wait with
  | some (.ahead _) => { g with wait := none }
  | _ =>
    { g with
      run := some ⟨g.nextLive.getD 0, 0⟩
      yieldUntil := 0 }

/-- The group that is granted the next slot of a scheduler partition: the next after the last one in ascending slot order,
the service reserve's slot last. R352 does not say where the order begins before the first grant: here at place 0 (assumption
68). -/
def State.nextGrant (s : State) (c : CoreRef) (p : Fin 4) : Option (GroupRef × Group) :=
  let from_ := match Tbl.find s.lastGrant (c, p) with
    | some l => slotPlace l + 1
    | none => 0
  let order := (List.range 16).map fun i => 16 * p.val + (from_ + i) % 16
  (order.filterMap fun k =>
    let r : GroupRef := ⟨c.die, c.core, Fin.ofNat 64 k⟩
    (s.group r).bind fun g => if s.grantable g then some (r, g) else none).head?

/-- ISSUE_SLOT_GRANT (04 R352): slot k of a scheduler partition, when it is free; the power controller may withhold the grant
while it throttles (01 R23). -/
def execIssueSlotGrant (c : CoreRef) (p : Fin 4) (k : Fin 2) (s : State) : Out :=
  .next (if (Tbl.find s.slotOf (c, p, k)).isSome || (s.throttled && Config.freeBit s.tick 4) then s
    else
      match s.nextGrant c p with
      | none => s
      | some (r, g) =>
        let s1 := (s.claimMatrix c g.part).setGroup r g.granted
        { s1 with slotOf := Tbl.put s1.slotOf (c, p, k) r.slot, lastGrant := Tbl.put s1.lastGrant (c, p) r.slot })

/-! ### Fills, walks, waits -/

/-- A group changed in its place. -/
def State.onGroup (s : State) (r : GroupRef) (f : Group → State) : State :=
  match s.group r with
  | none => s
  | some g => f g

/-- The top two entries are in hardware again (04 R53, R57). -/
def fillLive : List Entry → List Entry
  | a :: b :: rest => { a with filled := true } :: { b with filled := true } :: rest
  | st => st.map fun e => { e with filled := true }

/-- DIVERGENCE_FILL (04 R57). -/
def execDivergenceFill (r : GroupRef) (s : State) : Out :=
  .next (s.onGroup r fun g => s.setGroup r { g with stack := fillLive g.stack })

/-- Room for one more entry in a cache of so many: which entry leaves is the device's choice. -/
def makeRoom (mine : TlbEntry → Bool) (cap choice : Nat) (t : List TlbEntry) : List TlbEntry :=
  let xs := t.filter mine
  if xs.length < cap then t
  else match xs[choice % xs.length]? with
    | some e => t.erase e
    | none => t

/-- The caches of a core, 64 entries, and of its die, 4,096 entries, hold a translation (08 R144). -/
def State.cacheLeaf (s : State) (r : GroupRef) (g : Group) (block : Nat) (leaf : BitVec 64) (blocks pte : Nat) : State :=
  let base := block / blocks * blocks
  let entry (c : Option (Fin 36)) : TlbEntry := ⟨r.die, c, s.cid g.part, base, blocks, leaf, pte⟩
  let others := s.tlb.filter fun e =>
    !(e.covers r.die (s.cid g.part) block && (e.core == some r.core || e.core == none))
  let t1 := makeRoom (fun e => e.die == r.die && e.core == some r.core) 64 (Config.freeNat s.tick 0) others
  let t2 := makeRoom (fun e => e.die == r.die && e.core == none) 4096 (Config.freeNat s.tick 1) t1
  { s with tlb := entry (some r.core) :: entry none :: t2 }

/-- TRANSLATION_WALK (08 R144): the walk of the first block that the stalled instruction waits for. -/
def execTranslationWalk (r : GroupRef) (s : State) : Out :=
  .next (s.onGroup r fun g =>
    match g.xlate with
    | [] => s
    | b :: rest =>
      let found := s.walk g.part (65536 * b)
      let s1 := match found with
        | some (leaf, blocks, pte) => s.cacheLeaf r g b leaf blocks pte
        | none => s
      s1.setGroup r { g with xlate := rest, walks := g.walks ++ [⟨b, found⟩] })

/-- WAIT_CONDITION_MET (08 R164, R157): the counter has fallen to the threshold. -/
def State.counterMet (s : State) (r : GroupRef) (g : Group) : State :=
  match g.wait, g.waiting with
  | some (.counter k t), some (run, e) =>
    if g.count k ≤ t then
      let ms := g.coveredMarks e k t
      if ms.isEmpty then s.endWait r g else s.deliverMarks r run e { g with wait := none } ms
    else s
  | _, _ => s

/-- WAIT_CONDITION_MET (08 R164). -/
def execWaitConditionMet (r : GroupRef) (s : State) : Out := .next (s.onGroup r (s.counterMet r))

/-- SLEEP_EXPIRY (09 R190). -/
def execSleepExpiry (r : GroupRef) (s : State) : Out :=
  .next (s.onGroup r fun g =>
    match g.wait with
    | some (.sleep t) => if t ≤ s.time then s.endWait r g else s
    | _ => s)

/-- Another group of the scheduler partition has an eligible entry (09 R182). -/
def State.othersEligible (s : State) (r : GroupRef) : Bool :=
  s.groups.any fun x => x.1.at == r.at && slotPart x.1.slot == slotPart r.slot && x.1 != r && !x.2.ended && x.2.nextLive.isSome

/-- YIELD_EXPIRY (09 R182). -/
def execYieldExpiry (r : GroupRef) (s : State) : Out :=
  .next (s.onGroup r fun g =>
    if g.yieldUntil ≤ s.clk || !s.othersEligible r then s.setGroup r { g with yieldUntil := 0 } else s)

/-! ### The end of a group (04 R55, 08 R157) -/

/-- A cluster none of whose groups is left gives up its cores and team memory (08 R138). -/
def State.endCluster (s : State) (grid clu : Nat) : State :=
  let mine (g : Group) : Bool := g.grid == grid && g.clu == clu && g.svc == .none
  if (s.groups.any fun x => mine x.2) || s.parked.any fun x => mine x.grp then s
  else
    { s with
      teams := s.teams.filter fun t => !(t.key.grid == grid && t.key.clu == clu)
      grids := s.grids.map fun x => if x.id = grid then { x with clusters := x.clusters.filter fun c => c.num != clu } else x }

/-- An ended group whose accesses and matrix work are complete releases its slot and registers (04 R55, 16 R266). -/
def State.retireGroup (s : State) (r : GroupRef) (g : Group) : State :=
  if !g.ended || !g.acc.isEmpty || !(s.startedOf g.uid).isEmpty then s
  else
    let s1 : State := { s with groups := Tbl.drop s.groups r }
    if g.svc = .none then s1.endCluster g.grid g.clu else s1

/-- GROUP_RETIRE (04 R55). -/
def execGroupRetire (r : GroupRef) (s : State) : Out := .next (s.onGroup r (s.retireGroup r))

/-! ### Matrix events -/

/-- MATRIX_START (16 R264). -/
def execMatrixStart (r : GroupRef) (s : State) : Out := .next (s.mxStart r)

/-- MATRIX_COMPLETE (16 R266). -/
def execMatrixComplete (c : CoreRef) (k : Nat) (s : State) : Out := .next (s.mxComplete c k)

/-! ### Service groups (17 R311, 09 R171, 19 R336) -/

/-- A handler table entry: its code offset, width and registers, when no field is reserved. -/
def handlerEntryOf (lo hi : Word) : Option (Word × Nat × Nat) :=
  let v := wfield hi 14 8
  if lo.toNat % 4 ≠ 0 ∨ wfield hi 1 0 = 3 ∨ v < 8 ∨ 64 < v ∨ hi.toNat / 4 % 64 ≠ 0 ∨ hi.toNat / 2 ^ 15 ≠ 0 then none
  else some (lo, 16 * 2 ^ wfield hi 1 0, v)

/-- The service store of a scheduler partition of a core (19 R336). -/
def State.serviceBase (s : State) (gr : Grid) (c : CoreRef) (p : Fin 4) : Addr :=
  let k := (gr.dies.findIdx? (· == c.die)).getD 0
  BitVec.ofNat 64 (gr.desc.ppool.toNat + k * gr.desc.ppsz + gr.desc.ppsz - s.serviceBytes c.die gr.desc +
    (4 * s.logical c.die c.core + p.val) * serviceStore gr.desc)

/-- A service group at its start (17 R311, 19 R336). It belongs to no team, and the manual gives GROUP, TEAM and CLUSTER no
value in it: they read 0 here (assumption 12). -/
def State.serviceGroup (s : State) (gr : Grid) (m : Msg) (p : Fin 4) (off : Word) (w v : Nat) : Group :=
  let d := { gr.desc with w := w, nv := v, entry := off, args := Vector.ofFn fun i : Fin 16 => m.payload[i.val]?.getD 0 }
  let g := startGroup s.nextId gr.id gr.part d 0 0 0 0 (s.serviceBase gr m.core p) gr.debug gr.reduced
  { g with
    svc := if m.trapService then .trapService else .message
    s := (g.s.set 16 m.sender).set 17 (BitVec.ofNat 32 m.hidx) }

/-- A service group terminated at its start: ILLEGAL, detail 2, for a bad handler entry (19 R336), and POISON for a message
whose data was lost (09 R195; assumption 77). Its TPC is free (assumption 36). -/
def State.badService (s : State) (m : Msg) (p : Fin 4) (cause : Cause) (detail : Nat) : State :=
  let t : Termination := { cause := cause.code, detail := detail, clk := s.clk, die := m.core.die.val, pcore := m.core.core.val
                           slot := 16 * p.val + 15, gidx := 0, clu := 0
                           tpc := joinWords (Config.freeWord s.tick 0) (Config.freeWord s.tick 1) }
  { s with grids := s.grids.map fun x => if x.id = m.grid then noteTermination t x else x }

/-- Stores that a terminated group issued are still to be performed. -/
def State.storesLeft (s : State) (u : Nat) : Bool :=
  s.groups.any fun x => x.2.uid == u && x.2.acc.any fun a => !a.kind.isPost && !(a.lanes.all LaneAcc.performed)

/-- The message starts its service group in the reserve of scheduler partition p (17 R311). -/
def State.startService (s : State) (gr : Grid) (m : Msg) (p : Fin 4) : State :=
  let va := gr.desc.htab + BitVec.ofNat 64 (8 * m.hidx)
  let s1 : State := { s.devSeen (s.fgt gr.part) gr.part va 2 with msgs := s.msgs.erase m }
  match handlerEntryOf (s.devWord gr.part 0 va) (s.devWord gr.part 1 (va + 4)) with
  | none => s1.badService m p .illegal 2
  | some (off, w, v) =>
    if m.lost then s1.badService m p .poison 0 else
    let s2 := s1.acquire m.core.die gr.part .part
    let r : GroupRef := ⟨m.core.die, m.core.core, Fin.ofNat 64 (16 * p.val + 15)⟩
    { s2.setGroup r (s.serviceGroup gr m p off w v) with
      nextId := s2.nextId + 1
      gated := s2.gated.filter fun x => !(x.1 == r.die && x.2.val == r.core.val) }

/-- A service group is on a core. -/
def State.serving (s : State) (c : CoreRef) : Bool := s.groups.any fun x => x.1.at == c && slotPlace x.1.slot == 15

/-- A service group has started on a core and not ended: it is on it, or out of it (17 R311). -/
def State.serviceLeft (s : State) (c : CoreRef) : Bool :=
  s.serving c || s.parked.any fun x => x.place.at == c && x.grp.svc != .none

/-- The first message of a core's queue starts when the core's service group before it has ended (17 R311); that of a terminated
group behind the release of its stores (09 R171). -/
def State.serviceStart (s : State) (c : CoreRef) (p : Fin 4) : State :=
  match s.msgs.find? fun m => m.core == c with
  | none => s
  | some m =>
    match s.grid m.grid with
    | none => s
    | some gr =>
      if gr.pre.away || (s.parts[m.part]).halting || s.serviceLeft c then s
      else if !m.trapService then s.startService gr m p
      else
        match m.rel with
        | none =>
          if s.storesLeft m.uid then s
          else
            let s1 := s.dieRelease c.die
            { s1 with msgs := s1.msgs.map fun x => if x = m then { x with rel := some (s1.flightOf c.die) } else x }
        | some ids => if s.allApplied ids then s.startService gr m p else s

/-- SERVICE_GROUP_START (17 R311). -/
def execServiceGroupStart (c : CoreRef) (p : Fin 4) (s : State) : Out := .next (s.serviceStart c p)

/-! ### Groups leaving their cores (09 R192, R193, 19 R329) -/

/-- The group's instruction is held at issue: not started in its matrix unit, behind a release half or a recall, stalled at a
full counter, at the partition's request capacity or behind a FENCE, or not translated (09 R192). -/
def Group.heldAtIssue (g : Group) : Bool :=
  g.run.isSome && g.wait.isNone && (g.stalled || g.hold.isSome || !g.xlate.isEmpty || g.mxWait.isSome)

/-- Instructions of a partition held at issue are withdrawn. -/
def State.withdrawHeld (s : State) (p : Fin 12) : State :=
  s.groups.foldl (fun s x => if x.2.part = p ∧ x.2.heldAtIssue then s.withdraw x.1 x.2 else s) s

/-- A wait the pre-emption or swap abandons: all but that of LCKQ, a halt, and the wait to start. -/
def yieldable : Wait → Bool
  | .lock _ _ _ _ _ | .counter _ _ | .arrival _ _ _ _ | .barrier _ _ _ | .ahead _ | .tile _ _ _ _ | .sleep _ => true
  | .halted | .pool => false

/-- What is left of a lock's timeout in µs: none of a wait without one. One that has less than 1 µs left is kept as 1, since 0 would
be no timeout (11 R216, assumption 86). -/
def timeLeft (timeout waited : Nat) : Nat := if timeout = 0 then 0 else max 1 (timeout - waited / 850)

/-- The wait is abandoned: its instruction is executed again on resume; a LCK keeps what is left of its timeout (09 R192,
11 R216). An arrival two phases ahead is withdrawn with the rest of its run (12 R247). A halted group stays halted
(09 R189), and one that waits to start goes on waiting. -/
def Group.abandon (g : Group) (clk : Nat) : Group :=
  match g.wait with
  | none | some .halted | some .pool => g
  | some w =>
    let top := (g.waiting.map fun x => nextTop x.2 x.1.live g.stack).getD g.topFirst
    let g1 := match w with
      | .ahead _ => ({ g with hold := none } : Group).stopRun
      | _ => g
    { g1 with
      run := none, wait := none, topFirst := top
      lockLeft := match w with
        | .lock _ line ea _ t => some ⟨line, ea, timeLeft t (clk - g.waitFrom)⟩
        | _ => g.lockLeft }

/-- The counters G, T and K are 0 and no matrix instruction of the group runs. -/
def State.drained (s : State) (g : Group) : Bool :=
  g.acc.all (fun a => a.path == .e) && (s.startedOf g.uid).isEmpty

/-- A waiting LCKQ has no wait that can be abandoned: its request is on its way (11 R221). -/
def State.askingOnce (s : State) (g : Group) : Bool := s.lockReqs.any fun q => q.uid == g.uid && q.kind == .try_

/-- The group stands still at an instruction boundary. -/
def State.standsStill (s : State) (g : Group) : Bool :=
  g.run.isNone || (g.wait.isSome && !s.askingOnce g)

/-- A group that still holds lanes goes out, its divergence area written and its arrivals recorded. -/
def State.park (s : State) (r : GroupRef) (g : Group) (swapped : Option Nat) : State :=
  let s1 := (s.recordAll g).writeArea g
  { s1 with
    groups := Tbl.drop s1.groups r
    parked := s1.parked ++ [⟨r, { g.areaDone.abandon s.clk with arrivals := [] }, swapped⟩] }

/-! ### The save area (09 R193, 19 R315) -/

/-- The save area of a partition: its first byte and its bytes, when it lies in one of the partition's stacks. -/
def State.saveArea (s : State) (p : Fin 12) : Option (Nat × Nat) :=
  let lo := (s.parts[p]).psave.toNat / 65536 * 65536
  let n := (s.psavesz p).toNat
  if 0 < lo ∧ inStack lo n ∧ s.foreign p lo = false then some (lo, n) else none

/-- Images written at places of the device's choice, none over another. `used` holds those written before. -/
def State.writeImages (s : State) (lo len : Nat) : List Group → List (Nat × Nat) → State
  | [], _ => s
  | g :: rest, used =>
    let im := g.image false g.countsWord (s.lockImage g)
    match pickStore lo len (4 * im.length) (Config.freeNat s.tick (64 + used.length)) used with
    | none => s.writeImages lo len rest used
    | some b => (s.putWords b im).writeImages lo len rest ((b, 4 * im.length) :: used)

/-- The save area is written: it holds the images of the partition's groups that are out, with their counts on E and their
lock-queue wait states; where they lie in it, and what else the area holds, is internal to the device and free (assumption
37). -/
def State.writeSave (s : State) (p : Fin 12) : State :=
  match s.saveArea p with
  | none => s
  | some (lo, n) =>
    let x : Scramble := ⟨lo, n, s.tick⟩
    ({ s with
        mem := s.mem.scramble x
        poison := s.poison.filter fun y => !x.holds y.1 } : State).writeImages lo n
      ((s.parked.map (·.grp)).filter fun g => g.part == p) []

/-! ### Pre-emption (09 R192 to R194, 19 R316, R324) -/

/-- Pre-emption of the grids that `which` selects is requested. Without a save area nothing happens (19 R315). -/
def State.requestPreempt (s : State) (p : Fin 12) (which : Grid → Bool) : State :=
  let x := s.parts[p]
  if !x.en || x.psave.toNat / 65536 = 0 then s
  else
    let s1 : State := { s with grids := s.grids.map fun gr =>
      if gr.part = p ∧ gr.runs ∧ gr.pre = .running ∧ which gr then { gr with pre := .marked } else gr }
    (s1.setPart p { s1.parts[p] with halting := true }).withdrawHeld p

/-- PREEMPT_REQUEST (09 R192, 19 R316): CTLREQ bit 0. -/
def execPreemptRequest (p : Fin 12) (s : State) : Out := .next (s.requestPreempt p fun _ => true)

/-- The cores a grid has clusters on. -/
def Grid.cores (gr : Grid) : List CoreRef := gr.clusters.flatMap fun k => k.cores.map fun c => ⟨k.die, c⟩

/-- The cores whose matrix state goes with a grid (16 R267): those of its clusters, and their followers in pair forms on
which no other running grid has a cluster. -/
def State.mxCores (s : State) (gr : Grid) : List CoreRef :=
  let others := (s.grids.filter fun x => x.id != gr.id && x.runs).flatMap Grid.cores
  gr.cores ++ ((gr.cores.filter s.leads).map corePartner).filter fun c => !gr.cores.contains c && !others.contains c

/-- The last group of the grid has retired (09 R194). -/
def State.lastRetired (s : State) (gr : Grid) : Bool :=
  decide (gr.placed.sum = gr.desc.nclu) && !(s.groups.any fun x => x.2.grid == gr.id) && !(s.parked.any fun x => x.grp.grid == gr.id)

/-- A marked grid is saved: its groups that hold lanes, its matrix state when it is live; one whose last group has retired is
not pre-empted (09 R193, R194). -/
def State.saveGrid (s : State) (n : Nat) : State :=
  match s.grid n with
  | none => s
  | some gr =>
    if s.lastRetired gr then s.setGrid { gr with pre := .running }
    else
      let s1 := (s.groups.filter fun x => x.2.grid == n && !x.2.ended).foldl (fun s x => s.park x.1 x.2 none) s
      (s1.setGrid { gr with
        pre := .out s.clk
        outFrom := s.clk
        savedMx := if gr.desc.liveMx then (s.mxCores gr).map fun c => (c, s.matrixOf c) else [] }).closeSlice gr.part gr.prioQueue

/-- The grid is marked to be saved. -/
def State.isMarked (s : State) (grid : Nat) : Bool := ((s.grid grid).map fun g => g.pre == .marked).getD false

/-- Every core of the partition is halted; of the marked grids the counters are 0 and the started matrix work is complete, that of
ended groups too (09 R192, R193, 16 R267), and no copy request stands between the bytes of a unit and its count (17 R294). -/
def State.saveReady (s : State) (p : Fin 12) : Bool :=
  (s.groups.all fun x => x.2.part != p || (s.standsStill x.2 &&
    ((if x.2.ended then (s.startedOf x.2.uid).isEmpty else s.drained x.2) || !s.isMarked x.2.grid))) &&
  s.jobs.all fun j => j.part != p || j.data.isSome || j.landed.isEmpty || !s.isMarked j.grid

/-- PREEMPT_SAVE (09 R193): the marked grids go out, and the save area is written. -/
def State.preemptSave (s : State) (p : Fin 12) : State :=
  if !(s.parts[p]).halting then s
  else
    let s1 := s.withdrawHeld p
    if !s1.saveReady p then s1
    else
      let s2 := (((s1.grids.filter fun g => g.part == p && g.pre == .marked).map (·.id)).foldl State.saveGrid s1).writeSave p
      s2.setPart p { s2.parts[p] with halting := false }

/-- PREEMPT_SAVE (09 R193). -/
def execPreemptSave (p : Fin 12) (s : State) : Out := .next (s.preemptSave p)

/-- A group is back at a place of a core, which is not gated any more (12 R245). -/
def State.comesBack (s : State) (r : GroupRef) (g : Group) (x : Parked) : State :=
  { s.setGroup r g with
    parked := s.parked.erase x
    gated := s.gated.filter fun y => !(y.1 == r.die && y.2.val == r.core.val) }

/-- Groups come back to their cores, all of them or none; RESUMED is set after a pre-emption (09 R193). -/
def State.unpark (s : State) (resumed : Bool) : List Parked → Option State
  | [] => some s
  | x :: rest =>
    match s.slotFor x.place x.grp with
    | none => none
    | some k =>
      let r : GroupRef := { x.place with slot := k }
      let g := { x.grp with resumed := x.grp.resumed || resumed }
      (s.comesBack r g x).unpark resumed rest

/-- A service group comes back to the reserve it left, when no other one is on its core (17 R311). -/
def State.unparkService (s : State) (resumed : Bool) (xs : List Parked) : Option State :=
  xs.foldl (fun acc x => acc.bind fun s =>
    if s.serving x.place.at then none
    else some (s.comesBack x.place { x.grp with resumed := x.grp.resumed || resumed } x)) (some s)

/-- The team memories of a grid that is out fit on their cores again. -/
def State.teamsFit (s : State) (gr : Grid) : Bool :=
  gr.cores.all fun c =>
    decide (s.teamBytes c + ((s.teams.filter fun t => t.key.core == c && t.key.grid == gr.id).map fun t => round64K t.size).sum ≤
      65536 * gr.tmax)

/-- A selected grid with its groups back on their cores, when they all fit (09 R193, 16 R267). -/
def State.restored (s : State) (gr : Grid) : Option State :=
  if gr.pre != .selected || (s.parts[gr.part]).halting || !s.teamsFit gr ||
      (s.mxCores gr).any (fun c => !(s.startedAt c).isEmpty) then none
  else
    let mine := s.parked.filter fun x => x.grp.grid == gr.id && x.swapped.isNone
    ((s.unparkService true (mine.filter fun x => x.grp.svc != .none)).bind fun s =>
      s.unpark true (mine.filter fun x => x.grp.svc == .none)).map fun s1 =>
        let s2 := (s.mxCores gr).foldl (fun s c =>
          s.setMatrix c { Tbl.findD gr.savedMx c .reset with owner := some gr.part, started := [] }) s1
        (s2.setGrid { gr with pre := .running, savedMx := [] }).openSlice gr.part gr.prioQueue false

/-- PREEMPT_RESTORE (09 R193): the grid selected first among those that can come back. -/
def execPreemptRestore (p : Fin 12) (s : State) : Out :=
  .next ((sortBy (fun a b => decide (a.order ≤ b.order))
    (s.grids.filter fun g => g.part == p && g.pre == .selected)).findSome? s.restored |>.getD s)

/-- A halted group goes on at the next word (09 R181, R189). -/
def Group.resumeHalt (g : Group) : Group := if g.wait = some .halted then { g with wait := none } else g

/-- RESUME_HALTED (19 R316): CTLREQ bit 1. -/
def execResumeHalted (p : Fin 12) (s : State) : Out :=
  .next (if (s.parts[p]).en then
    { s with
      groups := s.groups.map fun (x : GroupRef × Group) => if x.2.part = p then (x.1, x.2.resumeHalt) else x
      parked := s.parked.map fun x => if x.grp.part = p then { x with grp := x.grp.resumeHalt } else x } else s)

/-- A selected grid of the partition that has not started, or has not come back, cannot (19 R324). -/
def State.stuck (s : State) (gr : Grid) : Bool :=
  match gr.pre with
  | .selected => (s.restored gr).isNone
  | .running => gr.placed.all (· == 0) && (gr.dies.head?.map fun d => (s.placement gr d).isNone).getD false
  | .marked | .out _ => false

/-- The counted priority of a grid that waits to start or to come back: it ages in its host queue, one that waits to start with its
command, one that was pre-empted from then on (19 R323, R324, R335). -/
def State.waitingPrio (s : State) (gr : Grid) : Nat :=
  let x := s.parts[gr.part]
  let prio := (x.queues[gr.prioQueue]).prio.toNat
  match gr.queue with
  | none => prio
  | some q =>
    let since := if gr.pre.away then gr.outFrom else (((x.queues[q]).hand.bind fun c => c.ready).getD s.clk)
    aged s.clk since prio

/-- TIME_SLICE_EXPIRY (19 R324, assumption 35). -/
def State.sliceExpires (s : State) (p : Fin 12) (q : Fin 64) : State :=
  let x := s.parts[p]
  let k := x.queues[q]
  let runs (g : Grid) : Bool := g.part == p && g.prioQueue == q && g.runs
  match k.sliceFrom with
  | none => s
  | some t =>
    if k.slice = 0 ∨ s.clk < t + 850 * k.slice.toNat ∨ x.halting ∨ !(s.grids.any runs) then s
    else if x.psave.toNat / 65536 ≠ 0 ∧
        s.grids.any (fun g => g.part == p && g.prioQueue != q && s.stuck g && decide (k.prio.toNat ≤ s.waitingPrio g)) then
      s.requestPreempt p runs
    else s.openSlice p q true

/-- TIME_SLICE_EXPIRY (19 R324). -/
def execTimeSliceExpiry (p : Fin 12) (q : Fin 64) (s : State) : Out := .next (s.sliceExpires p q)

/-! ### Starvation swaps (19 R329) -/

/-- The group has been yieldably waiting for longer than a number of clk. -/
def State.starved (s : State) (n : Nat) (g : Group) : Bool :=
  (g.wait.map yieldable).getD false && !s.askingOnce g && decide (g.waitFrom + n < s.clk)

/-- The group that began waiting earliest. -/
def earliest (gs : List (GroupRef × Group)) : Option (GroupRef × Group) :=
  (sortBy (fun a b => decide (a.2.waitFrom ≤ b.2.waitFrom)) gs).head?

/-- The earliest waiting group of a grid on a core goes out. -/
def State.swapOut (s : State) (c : CoreRef) (n : Nat) : State :=
  match s.grid n with
  | none => s
  | some gr =>
    let here := (s.groupsAt c).filter fun x => x.2.grid == n && x.2.svc == .none && !x.2.ended
    if (s.parts[gr.part]).psave.toNat / 65536 = 0 || (s.parts[gr.part]).halting || here.isEmpty ||
        !(here.all fun x => s.starved (850 * gr.desc.starve) x.2) || !s.moreOut gr 0 then s
    else
      match earliest here with
      | some (r, g) => if s.drained g then (s.park r g (some s.clk)).writeSave gr.part else s
      | none => s

/-- STARVATION_SWAP (19 R329). -/
def execStarvationSwap (c : CoreRef) (g : Nat) (s : State) : Out := .next (s.swapOut c g)

/-- The first swapped-out group of a core that may return does, in swap order, when a slot is free. -/
def State.swapIn (s : State) (c : CoreRef) : State :=
  match s.parked.find? fun x => x.place.at == c && s.mayReturn x && !s.gridOut x.grp.grid with
  | none => s
  | some x => (s.unpark false [x]).getD s

/-- SWAP_RETURN (19 R329). -/
def execSwapReturn (c : CoreRef) (s : State) : Out := .next (s.swapIn c)

/-! ### Clusters and grids (19 R320, R327) -/

/-- CLUSTER_PLACE (19 R327). -/
def execClusterPlace (g : Nat) (d : Fin 12) (s : State) : Out := .next (s.clusterPlace g d)

/-- Nothing of the grid is left to run (19 R320, 17 R311). -/
def State.gridDone (s : State) (gr : Grid) : Bool :=
  decide (gr.placed.sum = gr.desc.nclu) && !(s.groups.any fun x => x.2.grid == gr.id) &&
  !(s.parked.any fun x => x.grp.grid == gr.id) && !(s.msgs.any fun m => m.grid == gr.id)

/-- The grid's end: a release half at `.sys`, then the completion record (19 R320, R321). -/
def State.gridEnds (s : State) (gr : Grid) : State :=
  if !s.gridDone gr then s
  else
    match gr.rel with
    | none =>
      let s1 := gr.dies.foldl (fun s d => s.dieRelease d) s
      s1.setGrid { gr with rel := some (gr.dies.flatMap s1.flightOf) }
    | some ids =>
      if !s.allApplied ids then s
      else
        let s1 := s.putRecord gr.part gr.crec (if gr.term.isSome then .terminated else .complete) 0 gr.id gr.term
        ({ s1 with
          grids := s1.grids.filter fun x => x.id != gr.id
          teams := s1.teams.filter fun t => t.key.grid != gr.id } : State).closeSlice gr.part gr.prioQueue

/-- GRID_COMPLETE (19 R320). -/
def execGridComplete (g : Nat) (s : State) : Out :=
  .next (match s.grid g with
    | none => s
    | some gr => s.gridEnds gr)

end Sys2Proof.Machine
end

