-- ==== Sys2Proof/Machine/Errors.lean ====
section
/-! DEFINITION. Errors and containment (09 R195 to R198), links and power (01 R23, 19 R337, 12 R245), replicas and page
migration (08 R148, R149). -/

namespace Sys2Proof.Machine

/-! ### Containment (09 R197) -/

/-- The partitions a package-scope fatal error on a die affects: its owner, and those a free mask adds. -/
def State.affected (s : State) (die : Fin 12) (more : BitVec 12) : List (Fin 12) :=
  (List.finRange 12).filter fun p =>
    (s.parts[p]).en && ((s.parts[p]).dies.getLsbD die.val || more.getLsbD p.val)

/-- Waiters of grid barriers are released with FAILED (09 R197 step 2, 12 R252). -/
def State.failBarriers (s : State) (ps : List (Fin 12)) : State :=
  let refs := (s.grids.filter fun g => ps.contains g.part).flatMap fun g =>
    (g.bars.filter fun x => x.1.lvl == .grid).map (·.1)
  let s1 : State := { s with grids := s.grids.map fun g =>
    if g.part ∈ ps then
      { g with bars := g.bars.map fun x => if x.1.lvl = .grid then (x.1, { x.2 with failed := true }) else x }
    else g }
  refs.foldl (fun s b => (s.groups.map (·.1)).foldl (fun s r => s.phaseDone r b true) s) s1

/-- The lines that containment poisons: of granules with a twin, a record in flight or a pending directory transaction, whose
stale notices are on their way, and of locks that are held, waited for or asked for (09 R197 step 4). -/
def State.lostLines (s : State) (ps : List (Fin 12)) : List Nat :=
  let dies := ps.flatMap fun p => diesOf (s.parts[p]).dies
  ((s.twins.filter fun x => ((Tbl.find s.copies x).map fun c => ps.contains c.part).getD false).map (·.2)) ++
  ((s.records.filter fun r => ps.contains r.part).map (·.granule)) ++
  ((s.notices.filter fun n => dies.contains n.die || dies.contains n.src).map (·.granule)) ++
  ((s.lockTab.filter fun k => ps.contains k.part && (k.holder.isSome || !k.queue.isEmpty)).map (·.line)) ++
  ((s.lockReqs.filter fun q => ps.contains q.part).map (·.line))

/-- The records that report DISCARDED: of grids, of commands not started, of children (09 R197 step 5). -/
def State.discardedRecords (s : State) (p : Fin 12) : List (Addr × Nat) :=
  let x := s.parts[p]
  ((s.grids.filter fun g => g.part == p).map fun g => (g.crec, g.id)) ++
  ((x.queues.toList.filterMap (·.hand)).filter (fun c => !(c.typ == .launch && c.running))).map (fun c => (c.crec, 0)) ++
  x.children.map fun c => (c.crec, 0)

/-- All in-flight work of partitions is dropped (09 R197 steps 1 to 4). -/
def State.dropWork (s : State) (ps : List (Fin 12)) : State :=
  let dies := ps.flatMap fun p => diesOf (s.parts[p]).dies
  let gone := (s.grids.filter fun g => ps.contains g.part).map (·.id)
  { s with
    groups := s.groups.filter fun x => !ps.contains x.2.part
    parked := s.parked.filter fun x => !ps.contains x.grp.part
    slotOf := s.slotOf.filter fun x => !dies.contains x.1.1.die
    matrix := s.matrix.map fun (x : CoreRef × Matrix) => if x.1.die ∈ dies then (x.1, { x.2 with started := [] }) else x
    grids := s.grids.filter fun g => !ps.contains g.part
    teams := s.teams.filter fun t => !gone.contains t.key.grid
    jobs := s.jobs.filter fun j => !ps.contains j.part
    blends := s.blends.filter fun b => !ps.contains b.part
    msgs := s.msgs.filter fun m => !ps.contains m.part
    lockReqs := s.lockReqs.filter fun q => !ps.contains q.part
    lockTab := s.lockTab.filter fun k => !ps.contains k.part
    syncs := s.syncs.filter fun e => !ps.contains e.part
    copies := s.copies.filter fun x => !ps.contains x.2.part
    twins := s.twins.filter fun x => !((Tbl.find s.copies x).map fun c => ps.contains c.part).getD false
    records := s.records.filter fun r => !ps.contains r.part
    notices := s.notices.filter fun n => !dies.contains n.die && !dies.contains n.src
    poison := (s.lostLines ps).foldl markPoison s.poison
    parts := s.parts.mapFinIdx fun i x h =>
      if ps.contains ⟨i, h⟩ then
        { x with queues := x.queues.map fun q => { q with hand := none, sliceFrom := none }
                 halting := false, children := [], childSel := none, posted := [] }
      else x }

/-- What a partition reports: the records, RECOV, the event (09 R197 steps 5, 6). -/
def State.reportLoss (s : State) (die : Fin 12) (p : Fin 12) (crecs : List (Addr × Nat)) : State :=
  let s1 := crecs.foldl (fun s x => s.putRecord p x.1 .discarded 0 x.2 none) s
  (s1.setPart p { s1.parts[p] with recov := true }).postRecovery p die.val

/-- Containment of a package-scope fatal error (09 R197). -/
def State.contain (s : State) (die : Fin 12) (ps : List (Fin 12)) : State :=
  let crecs := ps.map fun p => (p, s.discardedRecords p)
  crecs.foldl (fun s x => s.reportLoss die x.1 x.2) ((s.failBarriers ps).dropWork ps)

/-! ### Flits (09 R195) -/

/-- FLIT_ERROR_RETRY (09 R195): the flit is sent again, and nothing changes. -/
def execFlitErrorRetry (_ : Fin 46) (s : State) : Out := .next s

/-- The team of a core that byte o names: bits 19:0 the offset, the rest the team's place among those of the core. -/
def State.teamAt (s : State) (c : CoreRef) (o : Nat) : Option Team := (s.teams.filter fun t => t.key.core == c)[o / 2 ^ 20]?

/-- Team memory poisoned. -/
def State.poisonTeam (s : State) (c : CoreRef) (o : Nat) : State :=
  match s.teamAt c o with
  | some t => if o % 2 ^ 20 < t.size then s.setTeam { t with poison := markPoison t.poison (o % 2 ^ 20) } else s
  | none => s

/-- A line of device memory poisoned. -/
def State.poisonLine (s : State) (a : Nat) : State :=
  if (stackOf a).isSome then { s with poison := markPoison s.poison a } else s

/-- The data of lane l of access n arrives poisoned, when it is on its way to the group. -/
def State.loseData (s : State) (r : GroupRef) (n l : Nat) : State :=
  s.onGroup r fun g =>
    match g.access n with
    | none => s
    | some a =>
      match a.laneAcc l with
      | none => s
      | some x =>
        match a.kind, x.st with
        | .load, .done _ | .atomic _ _, .done _ | .reduce _, .done _ | .switchAtomic _ _, .done _ =>
          if x.performed then s.moved r g (a.setLane { x with st := .poisoned }) else s
        | _, _ => s

/-- Of the messages queued at a core the k-th has lost its data. -/
def loseNth (c : CoreRef) : Nat → List Msg → List Msg
  | _, [] => []
  | k, m :: rest =>
    if m.core != c then m :: loseNth c k rest
    else
      match k with
      | 0 => { m with lost := true } :: rest
      | n + 1 => m :: loseNth c n rest

/-- The k-th message queued at a core has lost its data. -/
def State.loseMessage (s : State) (c : CoreRef) (k : Nat) : State := { s with msgs := loseNth c k s.msgs }

/-- FLIT_LOST (09 R195). -/
def execFlitLost (f : LostFlit) (s : State) : Out :=
  .next (match f with
    | .load r n l => s.loseData r n l
    | .line a => s.poisonLine a
    | .team c o => s.poisonTeam c o
    | .unit c k u => s.unitLands c k u true
    | .message c k => s.loseMessage c k
    | .fatal d ps => s.contain d (s.affected d ps))

/-! ### Storage errors (09 R196) -/

/-- ECC_CORRECTED (09 R196, 19 R312). -/
def execEccCorrected (s : State) : Out := .next { s with ecnt := s.ecnt + 1 }

/-- An error in a group's state terminates it: POISON, detail 1 (09 R170, R196). Nothing is left to lose of an ended one. -/
def State.loseGroup (s : State) (r : GroupRef) : State :=
  s.onGroup r fun g =>
    if g.ended then s
    else
      (s.freeSlots r).terminate r { g with
        trap := { g.trap with tcause := tcauseWord (lowest g.alive) 1 Cause.poison.code } }
      Cause.poison.code 1

/-- A matrix unit with a damaged array cell, a damaged scale (16 R269). -/
def Matrix.hurt (m : Matrix) (cells : List (Nat × Nat)) (scales : List Nat) : Matrix :=
  { m with tile := { m.tile with badCells := cells ++ m.tile.badCells, badScales := scales ++ m.tile.badScales } }

/-- ECC_UNCORRECTABLE (09 R196). -/
def execEccUncorrectable (w : EccPlace) (s : State) : Out :=
  .next (match w with
    | .line a => s.poisonLine a
    | .team c o => s.poisonTeam c o
    | .group r => s.loseGroup r
    | .acc c row col =>
      let m := s.matrixOf c
      if row < 256 ∧ col < 1024 then
        s.setMatrix c { m with acc := Tbl.put m.acc (row, col) { m.entry row col with bad := true } } else s
    | .array c row col => if row < 1024 ∧ col < 1024 then s.setMatrix c ((s.matrixOf c).hurt [(row, col)] []) else s
    | .scale c col => if col < 1024 then s.setMatrix c ((s.matrixOf c).hurt [] [col]) else s
    | .table c => s.setMatrix c { s.matrixOf c with tableBad := true }
    | .fatal d ps => s.contain d (s.affected d ps))

/-! ### Rejoining (09 R198) -/

/-- AGENT_REJOIN (09 R198): a die without groups comes back with the next incarnation; what was its own is cleared. -/
def State.rejoin (s : State) (d : Fin 12) : State :=
  if s.groups.any fun x => x.1.die == d then s
  else
    let away := (s.parked.filter fun x => x.place.die == d).map (·.grp.uid)
    { s with
      incs := s.incs.set d (s.incs[d] + 1)
      copies := s.copies.filter fun x => x.1.1 != d
      twins := s.twins.filter fun x => x.1 != d
      tlb := s.tlb.filter fun e => e.die != d
      notices := s.notices.filter fun n => n.die != d
      syncs := (s.syncs.map fun e =>
        { e with dmask := e.dmask &&& ~~~(dieBit d), adding := e.adding &&& ~~~(dieBit d) }).filter fun e => e.dmask != 0
      lockTab := liveLocks (s.lockTab.map fun k => { k with queue := k.queue.filter fun w => !away.contains w.uid })
      replicas := s.replicas.filter fun x => homeOf x.1 != d }

/-- AGENT_REJOIN (09 R198). -/
def execAgentRejoin (d : Fin 12) (s : State) : Out := .next (s.rejoin d)

/-! ### Power and links (01 R23, 12 R245, 19 R337) -/

/-- THROTTLE_WINDOW (01 R23). -/
def execThrottleWindow (t : Bool) (s : State) : Out := .next { s with throttled := t }

/-- POWER_GATE (12 R245): a core without groups, a slice without twins; a gated unit comes back. -/
def execPowerGate (d : Fin 12) (u : Fin 52) (s : State) : Out :=
  .next (
    let busy := if u.val < 36 then s.groups.any fun x => x.1.die == d && x.1.core.val == u.val
      else s.twins.any fun x => x.1 == d && sliceOf x.2 == u.val - 36
    if (d, u) ∈ s.gated then { s with gated := s.gated.filter fun x => x != (d, u) }
    else if busy then s
    else { s with gated := s.gated ++ [(d, u)] })

/-- A die-link steps its clock and opens a retraining window. -/
def State.stepLink (s : State) (k : Fin 46) (up : Bool) : State :=
  let l := s.links[k]
  if !l.trained || l.retraining || (if up then l.level == 3 else l.level == 0) then s
  else { s with links := s.links.set k { l with level := if up then l.level + 1 else l.level - 1, retraining := true } }

/-- LINK_STEP_UP (19 R337). -/
def execLinkStepUp (k : Fin 46) (s : State) : Out := .next (s.stepLink k true)

/-- LINK_STEP_DOWN (19 R337). -/
def execLinkStepDown (k : Fin 46) (s : State) : Out := .next (s.stepLink k false)

/-- RETRAINING_COMPLETE (19 R337): traffic goes on in its order; a link that fails retraining loses flits, which is a
package-scope fatal error on one of its dies, of partitions that a free choice names (09 R195, assumption 38). -/
def execRetrainingComplete (k : Fin 46) (t : Bool) (s : State) : Out :=
  .next (
    let l := s.links[k]
    if !l.retraining then s
    else
      let s1 : State := { s with links := s.links.set k { l with retraining := false, trained := t } }
      if t then s1
      else
        let ends := linkDies k
        let d := ends[Config.freeNat s.tick 0 % ends.length]?.getD 0
        s1.contain d (s1.affected d (BitVec.ofNat 12 (Config.freeNat s.tick 1))))

/-! ### Replicas (08 R148) -/

/-- A cached leaf shows that a line lies on a page with HOME 00, D 0 and HS 0. -/
def State.plainPage (s : State) (a : Nat) : Bool :=
  s.tlb.any fun e => pteHome e.leaf == 0 && !pteD e.leaf && !pteHs e.leaf &&
    decide (pteFrame e.leaf ≤ a ∧ a < pteFrame e.leaf + 65536 * e.blocks)

/-- REPLICA_PUSH (08 R148): one to three helper slices, not the line's own. -/
def execReplicaPush (a : Nat) (h : BitVec 16) (s : State) : Out :=
  .next (
    let n := ((List.range 16).filter fun i => h.getLsbD i).length
    if (stackOf a).isNone || n = 0 || decide (3 < n) || h.getLsbD (sliceOf a) || !s.plainPage a then s
    else { s with replicas := Tbl.put s.replicas (lineOf a) h })

/-! ### Page migration (08 R149) -/

/-- Every entry of the tables of the enabled partitions. -/
def State.allEntries (s : State) : List (Nat × BitVec 64 × Nat) :=
  ((List.finRange 12).filter fun p => (s.parts[p]).en).flatMap s.entriesOf

/-- Where a page goes: its first block, its size in 64 KiB blocks, its first block afterwards. -/
structure PageMove where
  old : Nat
  blocks : Nat
  new : Nat

/-- A block of the page. -/
def PageMove.has (v : PageMove) (block : Nat) : Bool := decide (v.old ≤ block ∧ block < v.old + v.blocks)

/-- A block of the page's new place. -/
def PageMove.takes (v : PageMove) (block : Nat) : Bool := decide (v.new ≤ block ∧ block < v.new + v.blocks)

/-- `n` blocks from a block on overlap the page, its new place. -/
def PageMove.meets (v : PageMove) (lo n : Nat) : Bool := decide (v.old < lo + n ∧ lo < v.old + v.blocks)
def PageMove.lands (v : PageMove) (lo n : Nat) : Bool := decide (v.new < lo + n ∧ lo < v.new + v.blocks)

/-- A block, a physical address, after the move. -/
def PageMove.block (v : PageMove) (n : Nat) : Nat := if v.has n then n - v.old + v.new else n
def PageMove.pa (v : PageMove) (pa : Nat) : Nat := v.block (pa / 65536) * 65536 + pa % 65536

/-- A page-table entry after the move. -/
def PageMove.leaf (v : PageMove) (e : BitVec 64) : BitVec 64 :=
  if v.has (pteFrame e / 65536) then
    (e &&& ~~~(0x000FFFFFFFFF0000 : BitVec 64)) ||| BitVec.ofNat 64 (v.block (pteFrame e / 65536) * 65536)
  else e

def PageMove.place (v : PageMove) : Place → Place
  | .mem pa at_ => .mem (v.pa pa) at_
  | .team k o => .team k o
  | .fab f fg mbr off => .fab f fg mbr off

def PageMove.access (v : PageMove) (x : Access) : Access :=
  { x with
    kind := match x.kind with
      | .unlock line => .unlock (v.pa line)
      | k => k
    lanes := x.lanes.map fun l => { l with places := l.places.map v.place } }

def PageMove.wait (v : PageMove) : Wait → Wait
  | .lock d line ea q t => .lock d (v.pa line) ea q t
  | .tile d x gen p => .tile d (v.place x) gen p
  | w => w

/-- A group's addresses of the page after the move. -/
def Group.move (v : PageMove) (g : Group) : Group :=
  { g with
    acc := g.acc.map v.access
    wait := g.wait.map v.wait
    lockLeft := g.lockLeft.map fun x => { x with line := v.pa x.line }
    locks := g.locks.map v.pa
    walks := g.walks.map fun w => { w with leaf := w.leaf.map fun x => (v.leaf x.1, x.2.1, v.pa x.2.2) } }

/-- Everything the device holds by physical address, after the page has moved: queued accesses, lock requests, records, lock
entries with their queues, in the order they stand (08 R149). -/
def State.rehome (s : State) (v : PageMove) : State :=
  { s with
    poison := s.poison.map fun x => (v.pa x.1, x.2)
    tlb := s.tlb.map fun e => { e with leaf := v.leaf e.leaf, pte := v.pa e.pte }
    replicas := s.replicas.filter fun x => !v.has (x.1 / 65536)
    hostLines := s.hostLines.map fun x => (v.pa x.1, x.2)
    copies := s.copies.map fun (x : (Fin 12 × Nat) × Copy) => ((x.1.1, v.pa x.1.2), x.2)
    twins := s.twins.map fun x => (x.1, v.pa x.2)
    versions := s.versions.map fun x => (v.pa x.1, x.2)
    records := s.records.map fun r => { r with granule := v.pa r.granule }
    notices := s.notices.map fun n => { n with granule := v.pa n.granule }
    syncs := s.syncs.map fun e => { e with line := v.pa e.line }
    lockTab := s.lockTab.map fun k => { k with line := v.pa k.line }
    lockReqs := s.lockReqs.map fun q => { q with line := v.pa q.line }
    vints := s.vints.map fun x => (v.block x.1, x.2)
    groups := s.groups.map fun (x : GroupRef × Group) => (x.1, x.2.move v)
    parked := s.parked.map fun x => { x with grp := x.grp.move v } }

/-- The page's bytes at its new place. -/
def State.copyPage (s : State) (v : PageMove) : State :=
  let put (m : Memory) (i : Nat) : Memory := m.write (v.new * 65536 + i) (s.mem.read (v.old * 65536 + i))
  { s with mem := (List.range (65536 * v.blocks)).foldl put s.mem }

/-- What a die holds of the page as its copies goes to the home and is applied there, since the die becomes the home. -/
def State.foldIn (s : State) (d : Fin 12) (v : PageMove) : State :=
  let s1 := (s.copies.filter fun x => x.1.1 == d && v.has (x.1.2 / 65536)).foldl (fun s x => s.evictTwin d x.1.2) s
  let mine (r : Rec) : Bool := r.die == d && v.has (r.granule / 65536)
  let s2 := (s1.records.filter mine).foldl State.applyRecord { s1 with records := s1.records.filter fun r => !mine r }
  { s2 with
    copies := s2.copies.filter fun x => !(x.1.1 == d && v.has (x.1.2 / 65536))
    notices := s2.notices.filter fun n => !(n.die == d && v.has (n.granule / 65536)) }

/-- The new place is free to take the page: nothing the device holds names it. -/
def State.pageFree (s : State) (v : PageMove) (es : List (Nat × BitVec 64 × Nat)) : Bool :=
  inStack (v.new * 65536) (v.blocks * 65536) && decide (v.new % v.blocks = 0) && !v.meets v.new v.blocks &&
  !(es.any fun x => v.lands (pteFrame x.2.1 / 65536) (max 1 x.2.2)) &&
  !(s.tlb.any fun e => v.lands (pteFrame e.leaf / 65536) e.blocks) &&
  s.parts.all (fun x => !v.takes (x.tbase.toNat / 65536) && !v.lands (16 * wfield x.pwin 51 20) 16) &&
  !(s.poison.any fun x => v.takes (x.1 / 65536)) && !(s.lockTab.any fun k => v.takes (k.line / 65536)) &&
  !(s.syncs.any fun e => v.takes (e.line / 65536)) && !(s.vints.any fun x => v.lands x.1 x.2.blocks) &&
  !(s.copies.any fun x => v.takes (x.1.2 / 65536)) && !(s.records.any fun r => v.takes (r.granule / 65536)) &&
  !(s.hostLines.any fun x => v.takes (x.1 / 65536))

/-- A page is in an enabled partition's memory after its move exactly when it was before (01 R25, 08 R149). -/
def State.staysOwn (s : State) (v : PageMove) : Bool :=
  (List.finRange 12).all fun q => !(s.parts[q]).en || s.foreign q (65536 * v.old) == s.foreign q (65536 * v.new)

/-- The page that holds block a, on its way to block b: the largest that a leaf of an enabled partition maps there, or a page
of the tables. None when no entry names the block, when a page that overlaps it is not within it, when a root table or a
window lies there, or when the new place is not free or not in the memory of its partition (assumption 39). -/
def State.pageMove (s : State) (a b : Nat) : Option PageMove :=
  let es := s.allEntries
  let n := (es.filter fun x => decide (pteFrame x.2.1 / 65536 ≤ a ∧ a < pteFrame x.2.1 / 65536 + max 1 x.2.2)).foldl
    (fun m x => max m (max 1 x.2.2)) 0
  if n = 0 then none
  else
    let v : PageMove := ⟨a / n * n, n, b⟩
    let within (lo k : Nat) : Bool := !v.meets lo k || (decide (v.old ≤ lo) && decide (lo + k ≤ v.old + v.blocks))
    if s.pageFree v es && s.staysOwn v && (es.all fun x => within (pteFrame x.2.1 / 65536) (max 1 x.2.2)) &&
        s.parts.all (fun x => !v.has (x.tbase.toNat / 65536) && !v.meets (16 * wfield x.pwin 51 20) 16) then some v
    else none

/-- Twins beyond each die's Cellar share leave (08 R147, 12 R239), and a slice that holds twins is not gated (12 R245). -/
def State.settleTwins (s : State) : State :=
  let s1 := (List.finRange 12).foldl (fun s d => s.trimDies [d] (s.cellShare d)) s
  { s1 with gated := s1.gated.filter fun x => !(s1.twins.any fun y => y.1 == x.1 && 36 + sliceOf y.2 == x.2.val) }

/-- A page moves to a new home (08 R149): its bytes, what the device holds of it, and the entries that map it. Its twins are
then those of other slices. -/
def State.migrate (s : State) (a b : Nat) : State :=
  match s.pageMove a b with
  | none => s
  | some v =>
    let s1 := s.foldIn (homeOf (b * 65536)) v
    let s2 := (s1.copyPage v).rehome v
    let mine := s1.allEntries.filter fun x => v.has (pteFrame x.2.1 / 65536)
    ({ s2 with mem := mine.foldl (fun m x => m.write64 (v.pa x.1) (v.leaf x.2.1)) s2.mem } : State).settleTwins

/-- PAGE_MIGRATION (08 R149). -/
def execPageMigration (a b : Nat) (s : State) : Out := .next (s.migrate a b)

end Sys2Proof.Machine
end

