-- ==== Sys2Proof/Machine/Functions.lean ====
section
/-! DEFINITION. The function unit (spec 07, R124): the listed special results, and the free results with their error bounds.
A function's real value is computed in integers, as multiples of 2^-192, to within about 2^-180: far below every bound. -/

namespace Sys2Proof.Machine

/-! ### Special results (R124) -/

/-- The functions whose result bits are not architectural. -/
inductive FsfOp where
  | rcp | rsq | exp2 | log2 | sin | cos | tanh | sigm
  deriving DecidableEq, Repr

def FsfOp.num : FsfOp → Nat
  | .rcp => 0 | .rsq => 1 | .exp2 => 3 | .log2 => 4 | .sin => 5 | .cos => 6 | .tanh => 7 | .sigm => 8

/-- ±1, 1/2: small exact values. -/
def oneVal (s : Bool) : FVal := .fin s 1 0
def halfVal : FVal := .fin false 1 (-1)

/-- A listed special result: the value, or an invalid operation, and the flag it sets. The table of R124 lists no result for a
NaN, and NX is set unless the result is a listed one: here a NaN gives the canonical NaN without NX, as R115 propagates it
(assumption 85). -/
def fsfSpecial (op : FsfOp) (v : FVal) : Option (Option FVal × FFlags) :=
  match v with
  | .nan _ => some (some (.nan false), fNone)
  | .inf s =>
    match op with
    | .rcp => some (some (.fin s 0 0), fNone)
    | .rsq => some (if s then none else some (.fin false 0 0), fNone)
    | .exp2 => some (some (if s then .fin false 0 0 else .inf false), fNone)
    | .log2 => some (if s then none else some (.inf false), fNone)
    | .sin | .cos => some (none, fNone)
    | .tanh => some (some (oneVal s), fNone)
    | .sigm => some (some (if s then .fin false 0 0 else oneVal false), fNone)
  | .fin s m e =>
    if m = 0 then
      match op with
      | .rcp | .rsq => some (some (.inf s), fDZ)
      | .exp2 | .cos => some (some (oneVal false), fNone)
      | .log2 => some (some (.inf true), fDZ)
      | .sin | .tanh => some (some (.fin s 0 0), fNone)
      | .sigm => some (some halfVal, fNone)
    else
      let pow := m == 2 ^ (bitLength m - 1)
      let k := e + bitLength m - 1
      match op with
      | .rcp => if pow then some (some (.fin s 1 (-k)), fNone) else none
      | .rsq =>
        if s then some (none, fNone)
        else if pow && k % 2 == 0 then some (some (.fin false 1 (-(k / 2))), fNone) else none
      | .exp2 =>
        if 0 ≤ e ∨ m % 2 ^ (-e).toNat = 0 then
          let n : Int := if 0 ≤ e then m * 2 ^ (min e.toNat 12) else m / 2 ^ (-e).toNat
          some (some (.fin false 1 (if s then -n else n)), fNone)
        else none
      | .log2 => if s then some (none, fNone) else if pow then some (some (finOf k 0), fNone) else none
      | .sin | .cos | .tanh | .sigm => none

/-- The exact result is representable where the table asks for it: 1/2^k normal, 2^x representable. -/
def fsfExact (op : FsfOp) (f : FFmt) (r : FVal) : Bool :=
  match op, r with
  | .rcp, .fin _ 1 k => decide (f.emin ≤ k ∧ k ≤ f.emax)
  | .exp2, .fin _ 1 k => decide (f.emin - f.fb ≤ k ∧ k ≤ f.emax)
  | _, _ => true

/-! ### Values of the functions -/

/-- A real value that is not 0: (−1)^neg · m · 2^e, nearly. -/
structure Approx where
  neg : Bool
  m : Nat
  e : Int
  deriving DecidableEq, Repr

/-- 1 as a multiple of 2^-192. -/
def fixOne : Nat := 2 ^ 192

/-- ⌊ln 2 · 2^192⌋. -/
def fixLn2 : Nat := 4350955369971217654477563090224794165364344896676135745069

/-- ⌊log2 e · 2^320⌋. -/
def wideLog2e : Nat := 3081577904126213121686167198097690134163479766071396094403848907535455306605342191083616308484524

/-- ⌊π/2 · 2^320⌋. -/
def wideHalfPi : Nat := 3355200590106084457577920487110001620402097044713574475363553212175856609335902690049750194457019

/-- m · 2^e as a whole number, its fraction dropped. -/
def fixAt (m : Nat) (e : Int) : Nat := if 0 ≤ e then m * 2 ^ e.toNat else m / 2 ^ (-e).toNat

/-- 1 + t/1 · (1 + t/2 · (1 + … )), the first k factors around acc: the exponential's series. -/
def expSeries (t : Nat) : Nat → Nat → Nat
  | 0, acc => acc
  | k + 1, acc => expSeries t k (fixOne + t * acc / fixOne / (k + 1))

/-- e^t for a multiple t below 1 of 2^-192. -/
def fixExp (t : Nat) : Nat := expSeries t 48 fixOne

/-- 1 − q/(1+o)(2+o) · (1 − q/(3+o)(4+o) · (1 − … )): the cosine's series at q = r² with o = 0, and with o = 1 the sine's
over r. -/
def altSeries (q o : Nat) : Nat → Nat → Nat
  | 0, acc => acc
  | k + 1, acc => altSeries q o k (fixOne - q * acc / fixOne / ((2 * k + 1 + o) * (2 * k + 2 + o)))

/-- The bits of log2 of a multiple t of 2^-192 in [1, 2), by repeated squaring. -/
def log2Bits : Nat → Nat → Nat → Nat
  | 0, _, acc => acc
  | k + 1, t, acc =>
    let u := t * t / fixOne
    if 2 * fixOne ≤ u then log2Bits k (u / 2) (2 * acc + 1) else log2Bits k u (2 * acc)

/-- 2^x for x = n + f, f a multiple of 2^-192 below 1. Beyond 1,000 either way every format overflows or is at its least. -/
def twoTo (n : Int) (f : Nat) : Approx := ⟨false, fixExp (f * fixLn2 / fixOne), imax (-1000) (imin 1000 n) - 192⟩

/-- 2^(±m · 2^e). -/
def valExp2 (s : Bool) (m : Nat) (e : Int) : Approx :=
  let x := fixAt m (e + 192)
  let n := x / fixOne
  let f := x % fixOne
  if s then (if f = 0 then twoTo (-n) 0 else twoTo (-n - 1) (fixOne - f)) else twoTo n f

/-- e^(−m · 2^e) as a multiple m' of 2^e'; beyond 512 it is no nearer to 0 than at 512. -/
def negExp (m : Nat) (e : Int) : Nat × Int :=
  let x := if 9 < e + bitLength m then 512 * fixOne else fixAt m (e + 192)
  let t := x * wideLog2e / 2 ^ 320
  (fixExp ((fixOne - t % fixOne) * fixLn2 / fixOne), -(t / fixOne : Nat) - 193)

/-- log2 of m · 2^e. -/
def valLog2 (m : Nat) (e : Int) : Approx :=
  let b := bitLength m - 1
  let k : Int := e + b
  let z : Int := k * 2 ^ 180 + log2Bits 180 (fixAt m (192 - b)) 0
  ⟨decide (z < 0), z.natAbs, -180⟩

/-- The sine of ±m · 2^e, or with `quarter` = 1 its cosine: the argument is reduced by quarter turns. -/
def valSin (quarter : Nat) (s : Bool) (m : Nat) (e : Int) : Approx :=
  let x := fixAt m (e + 320)
  let q := x / wideHalfPi + quarter
  let r := x % wideHalfPi / 2 ^ 128
  let sq := r * r / fixOne
  let sign := (2 ≤ q % 4) ^^ (s && quarter == 0)
  if q % 2 = 0 then ⟨sign, r * altSeries sq 1 26 fixOne / fixOne, -192⟩ else ⟨sign, altSeries sq 0 26 fixOne, -192⟩

/-- tanh of ±m · 2^e: a small argument by the first two terms of the series. -/
def valTanh (s : Bool) (m : Nat) (e : Int) : Approx :=
  if e + bitLength m < -40 then
    let sq := fixAt (m * m) (2 * e + 192)
    ⟨s, m * fixOne - m * sq / 3 - 1, e - 192⟩
  else
    let x := negExp m (e + 1)
    let y := fixAt x.1 (x.2 + 192)
    ⟨s, min (fixOne - 1) ((fixOne - y) * fixOne / (fixOne + y)), -192⟩

/-- 1/(1 + e^−x) of ±m · 2^e. -/
def valSigm (s : Bool) (m : Nat) (e : Int) : Approx :=
  let x := negExp m e
  let y := fixAt x.1 (x.2 + 192)
  if s then ⟨false, x.1 * fixOne / (fixOne + y), x.2⟩
  else ⟨false, min (fixOne - 1) (fixOne * fixOne / (fixOne + y)), -192⟩

/-- 1/√(m · 2^e). -/
def valRsq (m : Nat) (e : Int) : Approx :=
  let odd := e % 2 == 1
  let m1 := if odd then 2 * m else m
  let e1 := if odd then e - 1 else e
  ⟨false, natSqrt (2 ^ 400 / m1), -(e1 / 2) - 200⟩

/-- The value of a function at ±m · 2^e, m not 0 (R124). -/
def fsfValue (op : FsfOp) (s : Bool) (m : Nat) (e : Int) : Approx :=
  match op with
  | .rcp => ⟨s, 2 ^ 250 / m, -e - 250⟩
  | .rsq => valRsq m e
  | .exp2 => valExp2 s m e
  | .log2 => valLog2 m e
  | .sin => valSin 0 s m e
  | .cos => valSin 1 s m e
  | .tanh => valTanh s m e
  | .sigm => valSigm s m e

/-! ### Error bounds (R124) -/

/-- The exponent of the highest bit of a value. -/
def Approx.top (y : Approx) : Int := y.e + bitLength y.m - 1

/-- The exponent of an ulp of a value in a format. -/
def Approx.ulp (y : Approx) (f : FFmt) : Int := imax y.top f.emin - f.fb

/-- The error bound of a function at m · 2^e, whose value is y: k · 2^q. An absolute bound for FSIN and FCOS, and for FLOG2
within [1/2, 2]; on F16 and B16 elements 1 ulp. -/
def fsfBound (op : FsfOp) (f : FFmt) (m : Nat) (e : Int) (y : Approx) : Nat × Int :=
  if f ≠ fmtF32 then (1, y.ulp f)
  else
    match op with
    | .rcp | .rsq => (1, y.ulp f)
    | .exp2 | .tanh | .sigm => (2, y.ulp f)
    | .sin | .cos => (1, -21)
    | .log2 =>
      let top := e + bitLength m - 1
      if top = -1 ∨ top = 0 ∨ (top = 1 ∧ m = 2 ^ (bitLength m - 1)) then (1, -22) else (2, y.ulp f)

/-- Whether a result lies within the bound of the value y. An infinity does when some number within the bound overflows to
it (R114). -/
def Approx.admits (y : Approx) (f : FFmt) (bound : Nat × Int) (r : FVal) : Bool :=
  match r with
  | .nan _ => false
  | .inf s =>
    let q := imin (imin y.e bound.2) (f.emax - f.fb - 1)
    s == y.neg && decide ((2 ^ (f.fb + 2) - 1) * 2 ^ (f.emax - f.fb - 1 - q).toNat
      ≤ y.m * 2 ^ (y.e - q).toNat + bound.1 * 2 ^ (bound.2 - q).toNat)
  | .fin s m e =>
    let q := imin (imin y.e bound.2) e
    decide ((scaledTo q s m e - scaledTo q y.neg y.m y.e).natAbs ≤ bound.1 * 2 ^ (bound.2 - q).toNat)

/-- A result whose bits are not architectural: the device's own choice when it lies within the bound, else the nearest
number of the format. -/
def fsfPick (op : FsfOp) (f : FFmt) (s : Bool) (m : Nat) (e : Int) (choice : Nat) : Nat :=
  let y := fsfValue op s m e
  if y.admits f (fsfBound op f m e y) (f.value choice) then choice
  else (f.round 0 false false y.neg y.m y.e).1

/-- A free result within the bound, with the flags that follow from it: NX; OF when it is infinite; UF when it is tiny,
flushed under FTZ (R114 to R116, R124). -/
def fsfFree (op : FsfOp) (t : Tag) (k : Rnd) (x : Nat) : Nat × FFlags :=
  let f := fmtOf t
  let choice := (Config.fsf op.num t (BitVec.ofNat 32 x) k.ftz).toNat % 2 ^ f.width
  let r := match f.reads k.ftz x with
    | .fin s m e => fsfPick op f s m e choice
    | .inf _ | .nan _ => choice
  let tiny := r / 2 ^ f.fb % 2 ^ f.eb == 0
  let r1 := if k.ftz && f.subnormal r then f.signBit (nbit r (f.width - 1)) else r
  (r1, fNX ||| flagIf tiny fUF ||| flagIf (r % 2 ^ (f.width - 1) == f.infBits false) fOF)

/-- FRCP, FRSQ, FEXP2, FLOG2, FSIN, FCOS, FTANH, FSIGM (R124). -/
def fFsf (op : FsfOp) (t : Tag) (k : Rnd) (x : Nat) : Nat × FFlags :=
  let f := fmtOf t
  let flags := f.readsFlags k [x]
  let near : Rnd := { k with rnd := 0 }
  match fsfSpecial op (f.reads k.ftz x) with
  | some (none, g) => (f.nanBits, flags ||| g ||| fNV)
  | some (some r, g) =>
    if fsfExact op f r then f.deliver near (flags ||| g) (some r)
    else ((fsfFree op t k x).1, flags ||| (fsfFree op t k x).2)
  | none => ((fsfFree op t k x).1, flags ||| (fsfFree op t k x).2)

end Sys2Proof.Machine
end

