-- ==== Sys2Proof/Machine/Vector.lean ====
section
/-! DEFINITION. Vector integer, logic, bit-field and cross-lane instructions (spec 06). Latencies are those of R93. -/

namespace Sys2Proof.Machine

/-! ### Shared operations -/

/-- A lane computed element by element, with its flags. -/
def elemsOf (w : Nat) (f : Nat → Nat × FFlags) : Word × FFlags :=
  (packWord w ((List.range (32 / w)).map fun i => (f i).1), orFlags ((List.range (32 / w)).map fun i => (f i).2))

/-- A vector result computed element by element in every active lane (R95, 07 R118). -/
def Ctx.writeElems (c : Ctx) (lat : Nat) (d : Reg) (tag : Tag) (w : Nat) (f : Nat → Nat → Nat × FFlags) :
    List (Nat × Write) :=
  withFlags lat (c.write d tag fun l => (elemsOf w (f l)).1) (orFlags (c.lanes.map fun l => (elemsOf w (f l)).2))

/-- Bits of element i of a lane. -/
def Ctx.elem (c : Ctx) (r : Reg) (w l i : Nat) : Nat := elemBits w (c.g.lane r l) i

/-- z brought into an element: clamped when MODE.SAT asks, then modulo 2^w. -/
def intoElem (t : Tag) (sat : Bool) (z : Int) : Nat := wrapNat (tagWidth t) (if sat then clampTag t z else z)

/-- An arithmetic operation on INT elements: `f` gives the exact result, `clamps` says whether SAT applies (R95). -/
def intOp (lat : Nat) (clamps : Bool) (f : Tag → Nat → Nat → Int) (d a b : Reg) (c : Ctx) (t : Tag) :
    List (Nat × Write) :=
  c.writeElems lat d t (tagWidth t) fun l i =>
    (intoElem t (clamps && modeSat c.g.mode) (f t (c.elem a (tagWidth t) l i) (c.elem b (tagWidth t) l i)), fNone)

/-- Elements read as the tag says. -/
def readAs (t : Tag) (n : Nat) : Int := if tagSigned t then signedOf (tagWidth t) n else n

/-- An exact integer operation on elements read as the tag says. -/
def onInts (f : Int → Int → Int) (t : Tag) (x y : Nat) : Int := f (readAs t x) (readAs t y)

/-- An operation on INT only. -/
def intOnly (lat : Nat) (clamps : Bool) (f : Tag → Nat → Nat → Int) (d a b : Reg) (c : Ctx) : Result :=
  (c.oneTag tagInt [a, b]).map (intOp lat clamps f d a b c)

/-- A floating-point operation on elements (R95, 07 R120). -/
def fltOp (lat : Nat) (f : FFmt → Rnd → Nat → Nat → Nat × FFlags) (d a b : Reg) (c : Ctx) (t : Tag) :
    List (Nat × Write) :=
  c.writeElems lat d t (tagWidth t) fun l i =>
    f (fmtOf t) (rndOf c.g.mode) (c.elem a (tagWidth t) l i) (c.elem b (tagWidth t) l i)

/-- VADD, VSUB, VMUL: INT at one latency, FLT as the floating-point instruction. -/
def intOrFlt (lat : Nat) (f : Int → Int → Int) (h : FFmt → Rnd → Nat → Nat → Nat × FFlags) (d a b : Reg) (c : Ctx) :
    Result :=
  (c.oneTag (fun t => tagInt t || tagFlt t) [a, b]).map fun t =>
    if tagInt t then intOp lat true (onInts f) d a b c t else fltOp 4 h d a b c t

/-- A bitwise operation writes RAW (R97). -/
def bitwise (f : Word → Word → Word) (d a b : Reg) (c : Ctx) : Result :=
  .ok [(2, c.write d .raw fun l => f (c.g.lane a l) (c.g.lane b l))]

/-- A shift of the elements of a by those of b (R96). -/
def shiftOp (f : Nat → Nat → Nat → Nat) (d a b : Reg) (c : Ctx) : Result :=
  let t := c.tag a
  let w := tagWidth t
  .ok (c.writeElems 2 d (if tagInt t then t else .raw) w fun l i => (f w (c.elem a w l i) (c.elem b w l i), fNone))

/-- The shifts of an element of w bits (R96). -/
def shlElem (w x n : Nat) : Nat := if n < w then x * 2 ^ n % 2 ^ w else 0
def shrElem (w x n : Nat) : Nat := if n < w then x / 2 ^ n else 0
def sraElem (w x n : Nat) : Nat := wrapNat w (signedOf w x / 2 ^ (min n w))

/-- A per-lane word operation. -/
def laneOp (lat : Nat) (tag : Tag) (d : Reg) (f : Nat → Word) (c : Ctx) : Result := .ok [(lat, c.write d tag f)]

/-! ### VALU (R94 to R97) -/

/-- Element sums (R95). -/
def execVadd (y : Bool) (d : Reg) (a : Reg) (b : Reg) (s : State) : Out :=
  issueRegs (.vadd y d a b) (intOrFlt 2 (· + ·) fAdd d a b) s

/-- Element differences (R95). -/
def execVsub (y : Bool) (d : Reg) (a : Reg) (b : Reg) (s : State) : Out :=
  issueRegs (.vsub y d a b) (intOrFlt 2 (· - ·) fSub d a b) s

/-- Element products (R95). -/
def execVmul (y : Bool) (d : Reg) (a : Reg) (b : Reg) (s : State) : Out :=
  issueRegs (.vmul y d a b) (intOrFlt 4 (· * ·) fMul d a b) s

/-- High halves of element products (R95). -/
def execVmulh (y : Bool) (d : Reg) (a : Reg) (b : Reg) (s : State) : Out :=
  issueRegs (.vmulh y d a b) (intOnly 4 false (fun t x z => onInts (· * ·) t x z / 2 ^ tagWidth t) d a b) s

/-- High halves of unsigned element products (R95). -/
def execVmulhn (y : Bool) (d : Reg) (a : Reg) (b : Reg) (s : State) : Out :=
  issueRegs (.vmulhn y d a b) (intOnly 4 false (fun t x z => (x * z / 2 ^ tagWidth t : Nat)) d a b) s

/-- Element minimum as the tag reads it (R95). -/
def execVmin (y : Bool) (d : Reg) (a : Reg) (b : Reg) (s : State) : Out :=
  issueRegs (.vmin y d a b) (intOnly 2 true (onInts imin) d a b) s

/-- Element maximum as the tag reads it (R95). -/
def execVmax (y : Bool) (d : Reg) (a : Reg) (b : Reg) (s : State) : Out :=
  issueRegs (.vmax y d a b) (intOnly 2 true (onInts imax) d a b) s

/-- Unsigned element minimum, never clamped (R95). -/
def execVminn (y : Bool) (d : Reg) (a : Reg) (b : Reg) (s : State) : Out :=
  issueRegs (.vminn y d a b) (intOnly 2 false (fun _ x z => (min x z : Nat)) d a b) s

/-- Unsigned element maximum, never clamped (R95). -/
def execVmaxn (y : Bool) (d : Reg) (a : Reg) (b : Reg) (s : State) : Out :=
  issueRegs (.vmaxn y d a b) (intOnly 2 false (fun _ x z => (max x z : Nat)) d a b) s

/-- And (R97). -/
def execVand (y : Bool) (d : Reg) (a : Reg) (b : Reg) (s : State) : Out :=
  issueRegs (.vand y d a b) (bitwise (· &&& ·) d a b) s

/-- Or (R97). -/
def execVor (y : Bool) (d : Reg) (a : Reg) (b : Reg) (s : State) : Out :=
  issueRegs (.vor y d a b) (bitwise (· ||| ·) d a b) s

/-- Exclusive or (R97). -/
def execVxor (y : Bool) (d : Reg) (a : Reg) (b : Reg) (s : State) : Out :=
  issueRegs (.vxor y d a b) (bitwise (· ^^^ ·) d a b) s

/-- And with the complement of b (R97). -/
def execVandn (y : Bool) (d : Reg) (a : Reg) (b : Reg) (s : State) : Out :=
  issueRegs (.vandn y d a b) (bitwise (fun x z => x &&& ~~~z) d a b) s

/-- Element left shift (R96). -/
def execVshl (y : Bool) (d : Reg) (a : Reg) (b : Reg) (s : State) : Out :=
  issueRegs (.vshl y d a b) (shiftOp shlElem d a b) s

/-- Element logical right shift (R96). -/
def execVshr (y : Bool) (d : Reg) (a : Reg) (b : Reg) (s : State) : Out :=
  issueRegs (.vshr y d a b) (shiftOp shrElem d a b) s

/-- Element arithmetic right shift (R96). -/
def execVsra (y : Bool) (d : Reg) (a : Reg) (b : Reg) (s : State) : Out :=
  issueRegs (.vsra y d a b) (shiftOp sraElem d a b) s

/-- Element absolute value (R95). -/
def execVabs (y : Bool) (d : Reg) (a : Reg) (s : State) : Out :=
  issueRegs (.vabs y d a) (intOnly 2 true (fun t x _ => ((readAs t x).natAbs : Int)) d a a) s

/-- Element negation (R95). -/
def execVneg (y : Bool) (d : Reg) (a : Reg) (s : State) : Out :=
  issueRegs (.vneg y d a) (intOnly 2 true (fun t x _ => -readAs t x) d a a) s

/-- Complement (R97). -/
def execVnot (y : Bool) (d : Reg) (a : Reg) (s : State) : Out :=
  issueRegs (.vnot y d a) (bitwise (fun x _ => ~~~x) d a a) s

/-! ### Multiply-add, dot product, logic, bit fields, funnels (R98 to R103) -/

/-- Element x × y + z (R98). -/
def execVmad (y : Bool) (d : Reg) (a : Reg) (b : Reg) (c : Reg) (s : State) : Out :=
  issueRegs (.vmad y d a b c) (fun k => (k.oneTag tagInt [a, b, c]).map fun t =>
    k.writeElems 4 d t (tagWidth t) fun l i =>
      let w := tagWidth t
      (intoElem t (modeSat k.g.mode)
        (readAs t (k.elem a w l i) * readAs t (k.elem b w l i) + readAs t (k.elem c w l i)), fNone)) s

/-- The sum VDOT4 adds to c (R99). -/
def dot4 (ta tb : Tag) (x z : Word) : Int :=
  (List.range 4).foldl (fun acc i => acc + elemInt ta x i * elemInt tb z i) 0

/-- c plus the four products of the elements of a and b (R99). -/
def execVdot4 (y : Bool) (d : Reg) (a : Reg) (b : Reg) (c : Reg) (s : State) : Out :=
  issueRegs (.vdot4 y d a b c) (fun k =>
    let t := k.tag c
    let byte : Tag → Bool := fun u => u == .i8x4 || u == .n8x4
    if byte (k.tag a) && byte (k.tag b) && (t == .i32 || t == .n32) then
      laneOp 4 t d (fun l =>
        BitVec.ofNat 32 (intoElem t (modeSat k.g.mode)
          (elemInt t (k.g.lane c l) 0 + dot4 (k.tag a) (k.tag b) (k.g.lane a l) (k.g.lane b l)))) k
    else .error (.format, 0)) s

/-- Any bitwise function of three inputs by its truth table (R100). -/
def logic3 (table x a b : Word) : Word :=
  BitVec.ofNat 32 ((List.range 32).foldl
    (fun acc j => acc + 2 ^ j * bit (table.getLsbD (4 * bit (x.getLsbD j) + 2 * bit (a.getLsbD j) + bit (b.getLsbD j)))) 0)

/-- Three-input logic on d, a and b by the table in s_c (R100). -/
def execLog3 (y : Bool) (d : Reg) (a : Reg) (b : Reg) (c : Reg) (s : State) : Out :=
  issueRegs (.log3 y d a b c) (fun k =>
    laneOp 2 .raw d (fun l => logic3 (k.g.uni c) (k.g.lane d l) (k.g.lane a l) (k.g.lane b l)) k) s

/-- Signed field extract per lane (R101). -/
def execVbfx (y : Bool) (d : Reg) (a : Reg) (b : Reg) (s : State) : Out :=
  issueRegs (.vbfx y d a b) (fun k => laneOp 2 .raw d (fun l => extractS (k.g.lane a l) (k.g.lane b l)) k) s

/-- Unsigned field extract per lane (R101). -/
def execVbfxn (y : Bool) (d : Reg) (a : Reg) (b : Reg) (s : State) : Out :=
  issueRegs (.vbfxn y d a b) (fun k => laneOp 2 .raw d (fun l => extractN (k.g.lane a l) (k.g.lane b l)) k) s

/-- Field insert per lane (R101). -/
def execVbfi (y : Bool) (d : Reg) (a : Reg) (b : Reg) (c : Reg) (s : State) : Out :=
  issueRegs (.vbfi y d a b c) (fun k => laneOp 2 .raw d (fun l => insertField (k.g.lane a l) (k.g.lane b l) (k.g.lane c l)) k) s

/-- Funnel shift right (R102). -/
def execVfsh (y : Bool) (d : Reg) (a : Reg) (b : Reg) (c : Reg) (s : State) : Out :=
  issueRegs (.vfsh y d a b c) (fun k => laneOp 2 .raw d (fun l =>
    loWord ((k.g.lane a l ++ k.g.lane b l) >>> (wfield (k.g.lane c l) 4 0))) k) s

/-- Funnel shift left (R102). -/
def execVfshl (y : Bool) (d : Reg) (a : Reg) (b : Reg) (c : Reg) (s : State) : Out :=
  issueRegs (.vfshl y d a b c) (fun k => laneOp 2 .raw d (fun l =>
    hiWord ((k.g.lane a l ++ k.g.lane b l) <<< (wfield (k.g.lane c l) 4 0))) k) s

/-- Number of 1 bits (R103). -/
def execVpopc (y : Bool) (d : Reg) (a : Reg) (s : State) : Out :=
  issueRegs (.vpopc y d a) (fun k => laneOp 2 .n32 d (fun l => BitVec.ofNat 32 (countOnes (k.g.lane a l))) k) s

/-- Leading 0 bits (R103). -/
def execVclz (y : Bool) (d : Reg) (a : Reg) (s : State) : Out :=
  issueRegs (.vclz y d a) (fun k => laneOp 2 .n32 d (fun l => BitVec.ofNat 32 (leadingZeros (k.g.lane a l))) k) s

/-- Trailing 0 bits (R103). -/
def execVctz (y : Bool) (d : Reg) (a : Reg) (s : State) : Out :=
  issueRegs (.vctz y d a) (fun k => laneOp 2 .n32 d (fun l => BitVec.ofNat 32 (trailingZeros (k.g.lane a l))) k) s

/-- Bits reversed (R103). -/
def execVbrev (y : Bool) (d : Reg) (a : Reg) (s : State) : Out :=
  issueRegs (.vbrev y d a) (fun k => laneOp 2 .raw d (fun l => reverseBits (k.g.lane a l)) k) s

/-! ### Compare and select (R104, R105) -/

/-- The conditions of VCMP on one lane. -/
def vcondHolds (k : VCond) (t : Tag) (x z : Word) : Bool :=
  let p := elemInt t x 0
  let q := elemInt t z 0
  match k with
  | .eq => x == z
  | .ne => x != z
  | .lt => decide (p < q)
  | .le => decide (p ≤ q)
  | .gt => decide (q < p)
  | .ge => decide (q ≤ p)

/-- EQ and NE take any tags; the ordered conditions take I32 or N32, equal in both sources. -/
def vcondTag (k : VCond) (c : Ctx) (a b : Reg) : Except (Cause × Nat) Tag :=
  match k with
  | .eq | .ne => .ok .raw
  | .lt | .le | .gt | .ge => c.oneTag (fun t => t == .i32 || t == .n32) [a, b]

/-- Predicate of the condition in each active lane (R104). -/
def execVcmp (y : Bool) (k : VCond) (d : BitVec 3) (a : Reg) (b : Reg) (s : State) : Out :=
  issueRegs (.vcmp y k d a b) (fun c => (vcondTag k c a b).map fun t =>
    [(2, c.writePred d fun l => vcondHolds k t (c.g.lane a l) (c.g.lane b l))]) s

/-- v_a where the predicate bit is 1, else v_b; the actual tags are compared (R105). -/
def execVsel (y : Bool) (d : Reg) (a : Reg) (b : Reg) (c : BitVec 3) (s : State) : Out :=
  issueRegs (.vsel y d a b c) (fun k =>
    let ta := (k.g.vreg a).tag
    laneOp 2 (if ta = (k.g.vreg b).tag then ta else .raw) d
      (fun l => if (k.g.predicate c).getLsbD l then k.g.lane a l else k.g.lane b l) k) s

/-! ### Moves and shuffles (R106, R107) -/

/-- Move (R106). -/
def execVmov (y : Bool) (d : Reg) (a : Reg) (s : State) : Out :=
  issueRegs (.vmov y d a) (fun c => laneOp 2 (c.g.vreg a).tag d (fun l => c.g.lane a l) c) s

/-- A uniform to every active lane (R106). -/
def execVbcast (y : Bool) (d : Reg) (a : Reg) (t : Tag) (s : State) : Out :=
  issueRegs (.vbcast y d a t) (fun c => laneOp 2 t d (fun _ => c.g.uni a) c) s

/-- One lane to every active lane, whatever its activity (R106). -/
def execVlane (y : Bool) (d : Reg) (a : Reg) (b : Reg) (s : State) : Out :=
  issueRegs (.vlane y d a b) (fun c =>
    laneOp 4 (c.g.vreg a).tag d (fun _ => c.g.lane a ((c.g.uni b).toNat % c.g.w)) c) s

/-- A shuffle: the source lane of each lane, its own when that is out of range. -/
def shuffle (d a : Reg) (source : Nat → Int) (c : Ctx) : Result :=
  laneOp 4 (c.g.vreg a).tag d
    (fun l => if 0 ≤ source l ∧ source l < c.g.w then c.g.lane a (source l).toNat else c.g.lane a l) c

/-- Source lane v_b.l modulo W (R107). -/
def execVshfIdx (y : Bool) (d : Reg) (a : Reg) (b : Reg) (s : State) : Out :=
  issueRegs (.vshfIdx y d a b) (fun c => shuffle d a (fun l => ((c.g.lane b l).toNat % c.g.w : Nat)) c) s

/-- Source lane l − s_b (R107). -/
def execVshfUp (y : Bool) (d : Reg) (a : Reg) (b : Reg) (s : State) : Out :=
  issueRegs (.vshfUp y d a b) (fun c => shuffle d a (fun l => (l : Int) - (c.g.uni b).toNat) c) s

/-- Source lane l + s_b (R107). -/
def execVshfDn (y : Bool) (d : Reg) (a : Reg) (b : Reg) (s : State) : Out :=
  issueRegs (.vshfDn y d a b) (fun c => shuffle d a (fun l => (l : Int) + (c.g.uni b).toNat) c) s

/-- Source lane l XOR (s_b modulo W) (R107). -/
def execVshfXor (y : Bool) (d : Reg) (a : Reg) (b : Reg) (s : State) : Out :=
  issueRegs (.vshfXor y d a b) (fun c => shuffle d a (fun l => (l ^^^ ((c.g.uni b).toNat % c.g.w) : Nat)) c) s

/-! ### Folds (R108) -/

/-- The tags a fold accepts. -/
def foldTag (k : RedOp) (t : Tag) : Bool :=
  match k with
  | .add | .min | .max => tagInt t || tagFlt t
  | .minn | .maxn => tagInt t
  | .and | .or | .xor => true

/-- A fold that is bitwise, on all 32 bits whatever the tag. -/
def foldBitwise : RedOp → Bool
  | .and | .or | .xor => true
  | .add | .min | .max | .minn | .maxn => false

/-- One step on one element. -/
def foldElem (k : RedOp) (t : Tag) (r : Rnd) (x z : Nat) : Nat × FFlags :=
  let w := tagWidth t
  match k with
  | .add => if tagFlt t then fAdd (fmtOf t) r x z else (intoElem t r.sat (onInts (· + ·) t x z), fNone)
  | .min => if tagFlt t then fMinMax false (fmtOf t) r x z else (wrapNat w (onInts imin t x z), fNone)
  | .max => if tagFlt t then fMinMax true (fmtOf t) r x z else (wrapNat w (onInts imax t x z), fNone)
  | .minn => (min x z, fNone)
  | .maxn => (max x z, fNone)
  | .and => (x &&& z, fNone)
  | .or => (x ||| z, fNone)
  | .xor => (x ^^^ z, fNone)

/-- One step on a lane. -/
def foldStep (k : RedOp) (t : Tag) (r : Rnd) (x z : Word) : Word × FFlags :=
  elemsOf (tagWidth t) fun i => foldElem k t r (elemBits (tagWidth t) x i) (elemBits (tagWidth t) z i)

/-- The identity of one element. -/
def foldIdentity (k : RedOp) (t : Tag) : Nat :=
  let w := tagWidth t
  let f := fmtOf t
  match k with
  | .add => if tagFlt t then f.signBit true else 0
  | .min => if tagFlt t then f.infBits false else wrapNat w (clampTag t (2 ^ 40))
  | .max => if tagFlt t then f.infBits true else wrapNat w (clampTag t (-2 ^ 40))
  | .minn | .and => 2 ^ w - 1
  | .maxn | .or | .xor => 0

/-- The left fold over the lanes in ascending order: each lane's inclusive value, and the flags of all steps. -/
def foldLanes (k : RedOp) (t : Tag) (r : Rnd) (value : Nat → Word) : List Nat → Option Word → List (Nat × Word) × FFlags
  | [], _ => ([], fNone)
  | l :: rest, none =>
    let more := foldLanes k t r value rest (some (value l))
    ((l, value l) :: more.1, more.2)
  | l :: rest, some acc =>
    let one := foldStep k t r acc (value l)
    let more := foldLanes k t r value rest (some one.1)
    ((l, one.1) :: more.1, one.2 ||| more.2)

/-- The lanes' values each moved to the next lane, the identity in the first. -/
def shiftFold (first : Word) : List (Nat × Word) → List (Nat × Word)
  | [] => []
  | (l, x) :: rest => (l, first) :: shiftFold x rest

/-- The tag a fold works on: a bitwise one cuts no elements. -/
def Ctx.foldTags (c : Ctx) (k : RedOp) (a : Reg) : Except (Cause × Nat) Tag :=
  if foldBitwise k then .ok .raw else c.oneTag (foldTag k) [a]

/-- Fold of the active lanes to a uniform (R108). -/
def execVred (y : Bool) (k : RedOp) (d : Reg) (a : Reg) (s : State) : Out :=
  issueRegs (.vred y k d a) (fun c => (c.foldTags k a).map fun t =>
    let r := foldLanes k t (rndOf c.g.mode) (c.g.lane a) c.lanes none
    withFlags 8 (.uni d ((r.1.getLast?.map (·.2)).getD 0)) r.2) s

/-- Prefix fold, exclusive when e (R108). -/
def execVscan (y : Bool) (e : Bool) (k : RedOp) (d : Reg) (a : Reg) (s : State) : Out :=
  issueRegs (.vscan y e k d a) (fun c => (c.foldTags k a).map fun t =>
    let r := foldLanes k t (rndOf c.g.mode) (c.g.lane a) c.lanes none
    let vals := if e then shiftFold (mapElems (tagWidth t) fun _ => foldIdentity k t) r.1 else r.1
    withFlags 8 (.vec d (some t) (vals.map fun x => ⟨x.1, BitVec.allOnes 32, x.2⟩)) r.2) s

end Sys2Proof.Machine
end

