-- ==== Sys2Proof/Machine/Float.lean ====
section
/-! DEFINITION. Floating-point and conversion instructions, tags (spec 07, R118 to R135). Latencies are those of R119. -/

namespace Sys2Proof.Machine

/-! ### Shared operations -/

/-- A two-source operation on FLT elements (R120). -/
def flt2 (lat : Nat) (f : FFmt → Rnd → Nat → Nat → Nat × FFlags) (d a b : Reg) (c : Ctx) : Result :=
  (c.oneTag tagFlt [a, b]).map (fltOp lat f d a b c)

/-- A one-source operation on FLT elements. -/
def flt1 (lat : Nat) (f : Tag → Rnd → Nat → Nat × FFlags) (d a : Reg) (c : Ctx) : Result :=
  (c.oneTag tagFlt [a]).map fun t =>
    c.writeElems lat d t (tagWidth t) fun l i => f t (rndOf c.g.mode) (c.elem a (tagWidth t) l i)

/-- A fused multiply-add (R121). -/
def flt3 (negProduct negAddend : Bool) (d a b z : Reg) (c : Ctx) : Result :=
  (c.oneTag tagFlt [a, b, z]).map fun t =>
    let w := tagWidth t
    c.writeElems 4 d t w fun l i =>
      fFused negProduct negAddend (fmtOf t) (rndOf c.g.mode) (c.elem a w l i) (c.elem b w l i) (c.elem z w l i)

/-- The sign bit of an element replaced; nothing else changes and no flag is set (R120). -/
def withSign (f : FFmt) (x : Nat) (s : Bool) : Nat := x % 2 ^ (f.width - 1) + f.signBit s

/-! ### Arithmetic (R120 to R123) -/

/-- Rounded sum (R120). -/
def execFadd (y : Bool) (d : Reg) (a : Reg) (b : Reg) (s : State) : Out :=
  issueRegs (.fadd y d a b) (flt2 4 fAdd d a b) s

/-- Rounded difference (R120). -/
def execFsub (y : Bool) (d : Reg) (a : Reg) (b : Reg) (s : State) : Out :=
  issueRegs (.fsub y d a b) (flt2 4 fSub d a b) s

/-- Rounded product (R120). -/
def execFmul (y : Bool) (d : Reg) (a : Reg) (b : Reg) (s : State) : Out :=
  issueRegs (.fmul y d a b) (flt2 4 fMul d a b) s

/-- Minimum (R120). -/
def execFmin (y : Bool) (d : Reg) (a : Reg) (b : Reg) (s : State) : Out :=
  issueRegs (.fmin y d a b) (flt2 2 (fMinMax false) d a b) s

/-- Maximum (R120). -/
def execFmax (y : Bool) (d : Reg) (a : Reg) (b : Reg) (s : State) : Out :=
  issueRegs (.fmax y d a b) (flt2 2 (fMinMax true) d a b) s

/-- Sign cleared (R120). -/
def execFabs (y : Bool) (d : Reg) (a : Reg) (s : State) : Out :=
  issueRegs (.fabs y d a) (flt1 2 (fun t _ x => (withSign (fmtOf t) x false, fNone)) d a) s

/-- Sign inverted (R120). -/
def execFneg (y : Bool) (d : Reg) (a : Reg) (s : State) : Out :=
  issueRegs (.fneg y d a) (flt1 2 (fun t _ x => (withSign (fmtOf t) x (!nbit x ((fmtOf t).width - 1)), fNone)) d a) s

/-- Sign of b (R120). -/
def execFcpsgn (y : Bool) (d : Reg) (a : Reg) (b : Reg) (s : State) : Out :=
  issueRegs (.fcpsgn y d a b) (flt2 2 (fun f _ x z => (withSign f x (nbit z (f.width - 1)), fNone)) d a b) s

/-- a × b + c, rounded once (R121). -/
def execFma (y : Bool) (d : Reg) (a : Reg) (b : Reg) (c : Reg) (s : State) : Out :=
  issueRegs (.fma y d a b c) (flt3 false false d a b c) s

/-- a × b − c, rounded once (R121). -/
def execFms (y : Bool) (d : Reg) (a : Reg) (b : Reg) (c : Reg) (s : State) : Out :=
  issueRegs (.fms y d a b c) (flt3 false true d a b c) s

/-- c − a × b, rounded once (R121). -/
def execFnma (y : Bool) (d : Reg) (a : Reg) (b : Reg) (c : Reg) (s : State) : Out :=
  issueRegs (.fnma y d a b c) (flt3 true false d a b c) s

/-- c plus the two products of the elements of a and b, in F32, rounded once (R122). -/
def execFdot2 (y : Bool) (d : Reg) (a : Reg) (b : Reg) (c : Reg) (s : State) : Out :=
  issueRegs (.fdot2 y d a b c) (fun k =>
    let t := k.tag a
    if (t == .f16x2 || t == .b16x2) && k.tag b == t && k.tag c == .f32 then
      .ok (k.writeElems 4 d .f32 32 fun l _ =>
        fDot2 (fmtOf t) (rndOf k.g.mode) (k.elem c 32 l 0) (k.elem a 16 l 0) (k.elem b 16 l 0) (k.elem a 16 l 1)
          (k.elem b 16 l 1))
    else .error (.format, 0)) s

/-- Rounded quotient (R123). -/
def execFdiv (y : Bool) (d : Reg) (a : Reg) (b : Reg) (s : State) : Out :=
  issueRegs (.fdiv y d a b) (flt2 20 fDiv d a b) s

/-! ### The function unit (R124) -/

/-- 1/x (R124). -/
def execFrcp (y : Bool) (d : Reg) (a : Reg) (s : State) : Out :=
  issueRegs (.frcp y d a) (flt1 12 (fFsf .rcp) d a) s

/-- 1/√x (R124). -/
def execFrsq (y : Bool) (d : Reg) (a : Reg) (s : State) : Out :=
  issueRegs (.frsq y d a) (flt1 12 (fFsf .rsq) d a) s

/-- √x, correctly rounded (R124). -/
def execFsqrt (y : Bool) (d : Reg) (a : Reg) (s : State) : Out :=
  issueRegs (.fsqrt y d a) (flt1 12 (fun t => fSqrt (fmtOf t)) d a) s

/-- 2^x (R124). -/
def execFexp2 (y : Bool) (d : Reg) (a : Reg) (s : State) : Out :=
  issueRegs (.fexp2 y d a) (flt1 12 (fFsf .exp2) d a) s

/-- log2 x (R124). -/
def execFlog2 (y : Bool) (d : Reg) (a : Reg) (s : State) : Out :=
  issueRegs (.flog2 y d a) (flt1 12 (fFsf .log2) d a) s

/-- sin x (R124). -/
def execFsin (y : Bool) (d : Reg) (a : Reg) (s : State) : Out :=
  issueRegs (.fsin y d a) (flt1 12 (fFsf .sin) d a) s

/-- cos x (R124). -/
def execFcos (y : Bool) (d : Reg) (a : Reg) (s : State) : Out :=
  issueRegs (.fcos y d a) (flt1 12 (fFsf .cos) d a) s

/-- tanh x (R124). -/
def execFtanh (y : Bool) (d : Reg) (a : Reg) (s : State) : Out :=
  issueRegs (.ftanh y d a) (flt1 12 (fFsf .tanh) d a) s

/-- 1/(1 + e^−x) (R124). -/
def execFsigm (y : Bool) (d : Reg) (a : Reg) (s : State) : Out :=
  issueRegs (.fsigm y d a) (flt1 12 (fFsf .sigm) d a) s

/-! ### Compare, class, scale, integral part (R125 to R128) -/

/-- Predicate of the condition in every element of each active lane (R125). -/
def execFcmp (y : Bool) (k : FCond) (d : BitVec 3) (a : Reg) (b : Reg) (s : State) : Out :=
  issueRegs (.fcmp y k d a b) (fun c => (c.oneTag tagFlt [a, b]).map fun t =>
    let w := tagWidth t
    let one (l i : Nat) : Bool × FFlags :=
      fCompare k (fmtOf t) (rndOf c.g.mode) (c.elem a w l i) (c.elem b w l i)
    let elems := List.range (tagCount t)
    withFlags 2 (c.writePred d fun l => elems.all fun i => (one l i).1)
      (orFlags (c.lanes.flatMap fun l => elems.map fun i => (one l i).2))) s

/-- One-hot class of each element (R126). -/
def execFclass (y : Bool) (d : Reg) (a : Reg) (s : State) : Out :=
  issueRegs (.fclass y d a) (fun c => (c.oneTag tagFlt [a]).map fun t =>
    c.writeElems 2 d (if t = .f32 then .n32 else .n16x2) (tagWidth t) fun l i =>
      (fClass (fmtOf t) (c.elem a (tagWidth t) l i), fNone)) s

/-- x · 2^n with n from the matching integer element of b (R127). -/
def execFscale (y : Bool) (d : Reg) (a : Reg) (b : Reg) (s : State) : Out :=
  issueRegs (.fscale y d a b) (fun c =>
    let t := c.tag a
    if tagFlt t && c.tag b == (if t = .f32 then .i32 else .i16x2) then
      let w := tagWidth t
      .ok (c.writeElems 4 d t w fun l i =>
        fScale (fmtOf t) (rndOf c.g.mode) (c.elem a w l i) (signedOf w (c.elem b w l i)))
    else .error (.format, 0)) s

/-- Rounded to an integral value (R128). -/
def execFrint (y : Bool) (d : Reg) (a : Reg) (s : State) : Out :=
  issueRegs (.frint y d a) (flt1 4 (fun t => fRint (fmtOf t)) d a) s

/-- Fraction part (R128). -/
def execFfrac (y : Bool) (d : Reg) (a : Reg) (s : State) : Out :=
  issueRegs (.ffrac y d a) (flt1 4 (fun t => fFrac (fmtOf t)) d a) s

/-! ### Conversion (R129 to R132) -/

/-- A write of some elements of w bits of every active lane, from element p on. -/
def Ctx.writePart (c : Ctx) (d : Reg) (tag : Tag) (w p n : Nat) (f : Nat → Nat → Nat) : Write :=
  .vec d (some tag) (c.lanes.map fun l =>
    ⟨l, BitVec.ofNat 32 ((2 ^ (w * n) - 1) * 2 ^ (w * p)),
      BitVec.ofNat 32 (packBits w ((List.range n).map (f l)) * 2 ^ (w * p))⟩)

/-- CVT and CVTN (R129): equal or narrowing conversions write the elements from p·ns on, widening ones convert the elements
from p·nd on. -/
def convertOp (odd : Bool) (d a : Reg) (p : BitVec 3) (t : Tag) (c : Ctx) : Result :=
  let st := c.tag a
  let ns := tagCount st
  let nd := tagCount t
  let k := max ns nd / min ns nd
  if st = .raw ∨ st = .rix ∨ k ≤ p.toNat then .error (.format, 0)
  else
    let n := min ns nd
    let first := if ns ≤ nd then 0 else p.toNat * nd
    let place := if ns ≤ nd then p.toNat * ns else 0
    let one (l i : Nat) : Nat × FFlags := convert odd st t (rndOf c.g.mode) (c.elem a (tagWidth st) l (first + i))
    .ok (withFlags 4 (c.writePart d t (tagWidth t) place n fun l i => (one l i).1)
      (orFlags (c.lanes.flatMap fun l => (List.range n).map fun i => (one l i).2)))

/-- Conversion to tag t (R129). -/
def execCvt (y : Bool) (d : Reg) (a : Reg) (p : BitVec 3) (t : Tag) (s : State) : Out :=
  issueRegs (.cvt y d a p t) (convertOp false d a p t) s

/-- Conversion to tag t, the F16 step rounded to odd (R131). -/
def execCvtn (y : Bool) (d : Reg) (a : Reg) (p : BitVec 3) (t : Tag) (s : State) : Out :=
  issueRegs (.cvtn y d a p t) (convertOp true d a p t) s

/-- Conversion to PS8 under column scales (R132). -/
def execCvtps (y : Bool) (d : Reg) (a : Reg) (b : Reg) (p : BitVec 2) (s : State) : Out :=
  issueRegs (.cvtps y d a b p) (fun c =>
    if c.tag a = .f32 ∧ c.tag b = .f32 then
      .ok (withFlags 4 (c.writePart d .ps8x4 8 p.toNat 1 fun l _ => (toPs8 (c.elem a 32 l 0) (c.elem b 32 l 0)).1)
        (orFlags (c.lanes.map fun l => (toPs8 (c.elem a 32 l 0) (c.elem b 32 l 0)).2)))
    else .error (.format, 0)) s

/-! ### Packing and tags (R133 to R135) -/

/-- Low half-words of a and b (R133). -/
def execPack (y : Bool) (d : Reg) (a : Reg) (b : Reg) (t : Tag) (s : State) : Out :=
  issueRegs (.pack y d a b t)
    (fun c => laneOp 2 t d (fun l => (c.g.lane b l).extractLsb' 0 16 ++ (c.g.lane a l).extractLsb' 0 16) c) s

/-- The tag of a widened element (R134). -/
def widenTag (t : Tag) : Tag :=
  if t = .rix then .n32 else if tagInt t then (if tagSigned t then .i32 else .n32) else .f32

/-- One element widened exactly (R134). -/
def widen (t : Tag) (bits : Nat) : Nat × FFlags :=
  if t = .rix then (bits, fNone)
  else if tagInt t then (wrapNat 32 (readAs t bits), fNone)
  else
    ((fmtF32.pack ⟨0, false, false⟩ (elemValue t false bits)).1,
      if t = .ps8x4 then fNone else (fmtOf t).readFlags false bits)

/-- Element j widened exactly (R134). -/
def execUnpk (y : Bool) (d : Reg) (a : Reg) (j : BitVec 3) (s : State) : Out :=
  issueRegs (.unpk y d a j) (fun c =>
    let t := c.tag a
    if 4 ≤ t.num.toNat ∧ j.toNat < tagCount t then
      .ok (c.writeElems 4 d (widenTag t) 32 fun l _ => widen t (c.elem a (tagWidth t) l j.toNat))
    else .error (.format, 0)) s

/-- The tag alone (R135). -/
def execTagset (y : Bool) (d : Reg) (t : Tag) (s : State) : Out :=
  issueRegs (.tagset y d t) (fun _ => .ok [(2, .vec d (some t) [])]) s

/-- The actual tag (R135). -/
def execTagrd (y : Bool) (d : Reg) (a : Reg) (s : State) : Out :=
  issueRegs (.tagrd y d a) (fun c => uniResult 3 d ((c.g.vreg a).tag.num.setWidth 32)) s

end Sys2Proof.Machine
end

