-- ==== Sys2Proof/Machine/Dispatch.lean ====
section
/-! DEFINITION. The meaning of every row of the opcode table, one arm per constructor of Instr. -/

namespace Sys2Proof.Machine

def exec (i : Instr) (s : State) : Host.Outcome State Fault Refusal :=
  match i with
  | .nop y => Sys2Proof.Machine.execNop y s
  | .bra y o => Sys2Proof.Machine.execBra y o s
  | .bz y a o => Sys2Proof.Machine.execBz y a o s
  | .bnz y a o => Sys2Proof.Machine.execBnz y a o s
  | .brp y n p o => Sys2Proof.Machine.execBrp y n p o s
  | .setj y o => Sys2Proof.Machine.execSetj y o s
  | .join y => Sys2Proof.Machine.execJoin y s
  | .call y o => Sys2Proof.Machine.execCall y o s
  | .calli y a => Sys2Proof.Machine.execCalli y a s
  | .callv y d a => Sys2Proof.Machine.execCallv y d a s
  | .ret y => Sys2Proof.Machine.execRet y s
  | .retv y a => Sys2Proof.Machine.execRetv y a s
  | .exit y => Sys2Proof.Machine.execExit y s
  | .loop y a o => Sys2Proof.Machine.execLoop y a o s
  | .elect y d => Sys2Proof.Machine.execElect y d s
  | .ballot y d a => Sys2Proof.Machine.execBallot y d a s
  | .voteAny y d a => Sys2Proof.Machine.execVoteAny y d a s
  | .voteAll y d a => Sys2Proof.Machine.execVoteAll y d a s
  | .active y d => Sys2Proof.Machine.execActive y d s
  | .pmovs y d a => Sys2Proof.Machine.execPmovs y d a s
  | .smovp y d a => Sys2Proof.Machine.execSmovp y d a s
  | .pand y d a b => Sys2Proof.Machine.execPand y d a b s
  | .por y d a b => Sys2Proof.Machine.execPor y d a b s
  | .pxor y d a b => Sys2Proof.Machine.execPxor y d a b s
  | .pnot y d a => Sys2Proof.Machine.execPnot y d a s
  | .pandn y d a b => Sys2Proof.Machine.execPandn y d a b s
  | .matchK y d a => Sys2Proof.Machine.execMatchK y d a s
  | .sadd y d a b => Sys2Proof.Machine.execSadd y d a b s
  | .ssub y d a b => Sys2Proof.Machine.execSsub y d a b s
  | .sand y d a b => Sys2Proof.Machine.execSand y d a b s
  | .sor y d a b => Sys2Proof.Machine.execSor y d a b s
  | .sxor y d a b => Sys2Proof.Machine.execSxor y d a b s
  | .sandn y d a b => Sys2Proof.Machine.execSandn y d a b s
  | .sshl y d a b => Sys2Proof.Machine.execSshl y d a b s
  | .sshr y d a b => Sys2Proof.Machine.execSshr y d a b s
  | .ssra y d a b => Sys2Proof.Machine.execSsra y d a b s
  | .smin y d a b => Sys2Proof.Machine.execSmin y d a b s
  | .smax y d a b => Sys2Proof.Machine.execSmax y d a b s
  | .sminn y d a b => Sys2Proof.Machine.execSminn y d a b s
  | .smaxn y d a b => Sys2Proof.Machine.execSmaxn y d a b s
  | .smul y d a b => Sys2Proof.Machine.execSmul y d a b s
  | .smulh y d a b => Sys2Proof.Machine.execSmulh y d a b s
  | .smulhn y d a b => Sys2Proof.Machine.execSmulhn y d a b s
  | .scmp y k d a b => Sys2Proof.Machine.execScmp y k d a b s
  | .ssel y d a b c => Sys2Proof.Machine.execSsel y d a b c s
  | .sseti y d n => Sys2Proof.Machine.execSseti y d n s
  | .sseth y d n => Sys2Proof.Machine.execSseth y d n s
  | .saddi y d n => Sys2Proof.Machine.execSaddi y d n s
  | .sadd64 y d a b => Sys2Proof.Machine.execSadd64 y d a b s
  | .ssub64 y d a b => Sys2Proof.Machine.execSsub64 y d a b s
  | .slea y k d a b => Sys2Proof.Machine.execSlea y k d a b s
  | .sdiv y d a b => Sys2Proof.Machine.execSdiv y d a b s
  | .sdivn y d a b => Sys2Proof.Machine.execSdivn y d a b s
  | .srem y d a b => Sys2Proof.Machine.execSrem y d a b s
  | .sremn y d a b => Sys2Proof.Machine.execSremn y d a b s
  | .spopc y d a => Sys2Proof.Machine.execSpopc y d a s
  | .sclz y d a => Sys2Proof.Machine.execSclz y d a s
  | .sbrev y d a => Sys2Proof.Machine.execSbrev y d a s
  | .sbfx y d a b => Sys2Proof.Machine.execSbfx y d a b s
  | .sbfxn y d a b => Sys2Proof.Machine.execSbfxn y d a b s
  | .sbfi y d a b c => Sys2Proof.Machine.execSbfi y d a b c s
  | .smov y d a => Sys2Proof.Machine.execSmov y d a s
  | .smovv y d a b => Sys2Proof.Machine.execSmovv y d a b s
  | .srdsr y d j n => Sys2Proof.Machine.execSrdsr y d j n s
  | .vadd y d a b => Sys2Proof.Machine.execVadd y d a b s
  | .vsub y d a b => Sys2Proof.Machine.execVsub y d a b s
  | .vmul y d a b => Sys2Proof.Machine.execVmul y d a b s
  | .vmulh y d a b => Sys2Proof.Machine.execVmulh y d a b s
  | .vmulhn y d a b => Sys2Proof.Machine.execVmulhn y d a b s
  | .vmin y d a b => Sys2Proof.Machine.execVmin y d a b s
  | .vmax y d a b => Sys2Proof.Machine.execVmax y d a b s
  | .vminn y d a b => Sys2Proof.Machine.execVminn y d a b s
  | .vmaxn y d a b => Sys2Proof.Machine.execVmaxn y d a b s
  | .vand y d a b => Sys2Proof.Machine.execVand y d a b s
  | .vor y d a b => Sys2Proof.Machine.execVor y d a b s
  | .vxor y d a b => Sys2Proof.Machine.execVxor y d a b s
  | .vandn y d a b => Sys2Proof.Machine.execVandn y d a b s
  | .vshl y d a b => Sys2Proof.Machine.execVshl y d a b s
  | .vshr y d a b => Sys2Proof.Machine.execVshr y d a b s
  | .vsra y d a b => Sys2Proof.Machine.execVsra y d a b s
  | .vabs y d a => Sys2Proof.Machine.execVabs y d a s
  | .vneg y d a => Sys2Proof.Machine.execVneg y d a s
  | .vnot y d a => Sys2Proof.Machine.execVnot y d a s
  | .vmad y d a b c => Sys2Proof.Machine.execVmad y d a b c s
  | .vdot4 y d a b c => Sys2Proof.Machine.execVdot4 y d a b c s
  | .log3 y d a b c => Sys2Proof.Machine.execLog3 y d a b c s
  | .vbfx y d a b => Sys2Proof.Machine.execVbfx y d a b s
  | .vbfxn y d a b => Sys2Proof.Machine.execVbfxn y d a b s
  | .vbfi y d a b c => Sys2Proof.Machine.execVbfi y d a b c s
  | .vfsh y d a b c => Sys2Proof.Machine.execVfsh y d a b c s
  | .vfshl y d a b c => Sys2Proof.Machine.execVfshl y d a b c s
  | .vpopc y d a => Sys2Proof.Machine.execVpopc y d a s
  | .vclz y d a => Sys2Proof.Machine.execVclz y d a s
  | .vctz y d a => Sys2Proof.Machine.execVctz y d a s
  | .vbrev y d a => Sys2Proof.Machine.execVbrev y d a s
  | .vcmp y k d a b => Sys2Proof.Machine.execVcmp y k d a b s
  | .vsel y d a b c => Sys2Proof.Machine.execVsel y d a b c s
  | .vmov y d a => Sys2Proof.Machine.execVmov y d a s
  | .vbcast y d a t => Sys2Proof.Machine.execVbcast y d a t s
  | .vlane y d a b => Sys2Proof.Machine.execVlane y d a b s
  | .vshfIdx y d a b => Sys2Proof.Machine.execVshfIdx y d a b s
  | .vshfUp y d a b => Sys2Proof.Machine.execVshfUp y d a b s
  | .vshfDn y d a b => Sys2Proof.Machine.execVshfDn y d a b s
  | .vshfXor y d a b => Sys2Proof.Machine.execVshfXor y d a b s
  | .vred y k d a => Sys2Proof.Machine.execVred y k d a s
  | .vscan y e k d a => Sys2Proof.Machine.execVscan y e k d a s
  | .fadd y d a b => Sys2Proof.Machine.execFadd y d a b s
  | .fsub y d a b => Sys2Proof.Machine.execFsub y d a b s
  | .fmul y d a b => Sys2Proof.Machine.execFmul y d a b s
  | .fmin y d a b => Sys2Proof.Machine.execFmin y d a b s
  | .fmax y d a b => Sys2Proof.Machine.execFmax y d a b s
  | .fabs y d a => Sys2Proof.Machine.execFabs y d a s
  | .fneg y d a => Sys2Proof.Machine.execFneg y d a s
  | .fcpsgn y d a b => Sys2Proof.Machine.execFcpsgn y d a b s
  | .fma y d a b c => Sys2Proof.Machine.execFma y d a b c s
  | .fms y d a b c => Sys2Proof.Machine.execFms y d a b c s
  | .fnma y d a b c => Sys2Proof.Machine.execFnma y d a b c s
  | .fcmp y k d a b => Sys2Proof.Machine.execFcmp y k d a b s
  | .frcp y d a => Sys2Proof.Machine.execFrcp y d a s
  | .frsq y d a => Sys2Proof.Machine.execFrsq y d a s
  | .fsqrt y d a => Sys2Proof.Machine.execFsqrt y d a s
  | .fexp2 y d a => Sys2Proof.Machine.execFexp2 y d a s
  | .flog2 y d a => Sys2Proof.Machine.execFlog2 y d a s
  | .fsin y d a => Sys2Proof.Machine.execFsin y d a s
  | .fcos y d a => Sys2Proof.Machine.execFcos y d a s
  | .ftanh y d a => Sys2Proof.Machine.execFtanh y d a s
  | .fsigm y d a => Sys2Proof.Machine.execFsigm y d a s
  | .fdiv y d a b => Sys2Proof.Machine.execFdiv y d a b s
  | .fclass y d a => Sys2Proof.Machine.execFclass y d a s
  | .fscale y d a b => Sys2Proof.Machine.execFscale y d a b s
  | .frint y d a => Sys2Proof.Machine.execFrint y d a s
  | .ffrac y d a => Sys2Proof.Machine.execFfrac y d a s
  | .fdot2 y d a b c => Sys2Proof.Machine.execFdot2 y d a b c s
  | .cvt y d a p t => Sys2Proof.Machine.execCvt y d a p t s
  | .cvtn y d a p t => Sys2Proof.Machine.execCvtn y d a p t s
  | .cvtps y d a b p => Sys2Proof.Machine.execCvtps y d a b p s
  | .pack y d a b t => Sys2Proof.Machine.execPack y d a b t s
  | .unpk y d a j => Sys2Proof.Machine.execUnpk y d a j s
  | .tagset y d t => Sys2Proof.Machine.execTagset y d t s
  | .tagrd y d a => Sys2Proof.Machine.execTagrd y d a s
  | .ldg y d b j q p => Sys2Proof.Machine.execLdg y d b j q p s
  | .stg y d b j q p => Sys2Proof.Machine.execStg y d b j q p s
  | .ldt y d b j q p => Sys2Proof.Machine.execLdt y d b j q p s
  | .stt y d b j q p => Sys2Proof.Machine.execStt y d b j q p s
  | .ldk y d b j q p => Sys2Proof.Machine.execLdk y d b j q p s
  | .stk y d b j q p => Sys2Proof.Machine.execStk y d b j q p s
  | .ldgw y d b j q p => Sys2Proof.Machine.execLdgw y d b j q p s
  | .stgw y d b j q p => Sys2Proof.Machine.execStgw y d b j q p s
  | .pref y l b j => Sys2Proof.Machine.execPref y l b j s
  | .waitc y a k => Sys2Proof.Machine.execWaitc y a k s
  | .cvta y d a t => Sys2Proof.Machine.execCvta y d a t s
  | .space y d a => Sys2Proof.Machine.execSpace y d a s
  | .flushl y m b j p => Sys2Proof.Machine.execFlushl y m b j p s
  | .atom y d b j k q => Sys2Proof.Machine.execAtom y d b j k q s
  | .atomu y d b j k q => Sys2Proof.Machine.execAtomu y d b j k q s
  | .red y d b j k q => Sys2Proof.Machine.execRed y d b j k q s
  | .lck y d b j q => Sys2Proof.Machine.execLck y d b j q s
  | .ulck y d b j q => Sys2Proof.Machine.execUlck y d b j q s
  | .lckq y d b j q => Sys2Proof.Machine.execLckq y d b j q s
  | .fence y q p => Sys2Proof.Machine.execFence y q p s
  | .bara y d a l => Sys2Proof.Machine.execBara y d a l s
  | .barw y d a b l => Sys2Proof.Machine.execBarw y d a b l s
  | .bar y d a l => Sys2Proof.Machine.execBar y d a l s
  | .barq y d a l => Sys2Proof.Machine.execBarq y d a l s
  | .svdecl y d a b => Sys2Proof.Machine.execSvdecl y d a b s
  | .svdrop y d a => Sys2Proof.Machine.execSvdrop y d a s
  | .grfl y b j p => Sys2Proof.Machine.execGrfl y b j p s
  | .bload y d a b n => Sys2Proof.Machine.execBload y d a b n s
  | .mma y d a b z t => Sys2Proof.Machine.execMma y d a b z t s
  | .mmap y d a b z t => Sys2Proof.Machine.execMmap y d a b z t s
  | .accz y a => Sys2Proof.Machine.execAccz y a s
  | .accrd y d a n t => Sys2Proof.Machine.execAccrd y d a n t s
  | .accwr y d a => Sys2Proof.Machine.execAccwr y d a s
  | .accscl y a b => Sys2Proof.Machine.execAccscl y a b s
  | .rank y d a b => Sys2Proof.Machine.execRank y d a b s
  | .rkld y a => Sys2Proof.Machine.execRkld y a s
  | .mmar y d a b p => Sys2Proof.Machine.execMmar y d a b p s
  | .rkval y d a b => Sys2Proof.Machine.execRkval y d a b s
  | .cpkick y d a => Sys2Proof.Machine.execCpkick y d a s
  | .waita y d a b => Sys2Proof.Machine.execWaita y d a b s
  | .blend y d a => Sys2Proof.Machine.execBlend y d a s
  | .amsend y d a b n => Sys2Proof.Machine.execAmsend y d a b n s
  | .stmc y d b j q p => Sys2Proof.Machine.execStmc y d b j q p s
  | .ldred y d b j q p => Sys2Proof.Machine.execLdred y d b j q p s
  | .fatom y d b j k q => Sys2Proof.Machine.execFatom y d b j k q s
  | .sealPage y d a => Sys2Proof.Machine.execSeal y d a s
  | .sealOpen y d a => Sys2Proof.Machine.execSealOpen y d a s
  | .vintrd y d a => Sys2Proof.Machine.execVintrd y d a s
  | .launch y d a b => Sys2Proof.Machine.execLaunch y d a b s
  | .tilesig y d a b p => Sys2Proof.Machine.execTilesig y d a b p s
  | .tilew y d a b p => Sys2Proof.Machine.execTilew y d a b p s
  | .setmode y a => Sys2Proof.Machine.execSetmode y a s
  | .modef y d a b => Sys2Proof.Machine.execModef y d a b s
  | .getmode y d => Sys2Proof.Machine.execGetmode y d s
  | .sysrd y d n => Sys2Proof.Machine.execSysrd y d n s
  | .syswr y d n => Sys2Proof.Machine.execSyswr y d n s
  | .tlbinv y a => Sys2Proof.Machine.execTlbinv y a s
  | .tlbinvAll y => Sys2Proof.Machine.execTlbinvAll y s
  | .ctxsv y d a => Sys2Proof.Machine.execCtxsv y d a s
  | .ctxld y a => Sys2Proof.Machine.execCtxld y a s
  | .halt y => Sys2Proof.Machine.execHalt y s
  | .sleep y a => Sys2Proof.Machine.execSleep y a s
  | .trap y n => Sys2Proof.Machine.execTrap y n s
  | .rett y => Sys2Proof.Machine.execRett y s
  | .rettNext y => Sys2Proof.Machine.execRettNext y s
  | .rettKill y => Sys2Proof.Machine.execRettKill y s
  | .yield y => Sys2Proof.Machine.execYield y s
  | .brkpt y n => Sys2Proof.Machine.execBrkpt y n s
  | .emu y d a b c => Sys2Proof.Machine.execEmu y d a b c s
  | .ill y n => Sys2Proof.Machine.execIll y n s
  | .issueSlotGrant c p k => Sys2Proof.Machine.execIssueSlotGrant c p k s
  | .divergenceFill r => Sys2Proof.Machine.execDivergenceFill r s
  | .translationWalk r => Sys2Proof.Machine.execTranslationWalk r s
  | .loadDataLanding r n l => Sys2Proof.Machine.execLoadDataLanding r n l s
  | .accessCompletion r n l => Sys2Proof.Machine.execAccessCompletion r n l s
  | .atomicExecute r n l => Sys2Proof.Machine.execAtomicExecute r n l s
  | .waitConditionMet r => Sys2Proof.Machine.execWaitConditionMet r s
  | .sleepExpiry r => Sys2Proof.Machine.execSleepExpiry r s
  | .yieldExpiry r => Sys2Proof.Machine.execYieldExpiry r s
  | .groupRetire r => Sys2Proof.Machine.execGroupRetire r s
  | .lockRequestArrival k => Sys2Proof.Machine.execLockRequestArrival k s
  | .lockGrant a => Sys2Proof.Machine.execLockGrant a s
  | .lockTimeout r => Sys2Proof.Machine.execLockTimeout r s
  | .diffRecordApply k => Sys2Proof.Machine.execDiffRecordApply k s
  | .staleNotice k => Sys2Proof.Machine.execStaleNotice k s
  | .barrierPhaseComplete b => Sys2Proof.Machine.execBarrierPhaseComplete b s
  | .replicaPush a h => Sys2Proof.Machine.execReplicaPush a h s
  | .pageMigration a b => Sys2Proof.Machine.execPageMigration a b s
  | .powerGate d u => Sys2Proof.Machine.execPowerGate d u s
  | .hostSnoop a => Sys2Proof.Machine.execHostSnoop a s
  | .hostMemoryAccess p a w => Sys2Proof.Machine.execHostMemoryAccess p a w s
  | .matrixStart r => Sys2Proof.Machine.execMatrixStart r s
  | .matrixComplete c k => Sys2Proof.Machine.execMatrixComplete c k s
  | .copyRequestAccept r n => Sys2Proof.Machine.execCopyRequestAccept r n s
  | .arrivalUnitCount c k u => Sys2Proof.Machine.execArrivalUnitCount c k u s
  | .waitaSatisfied r => Sys2Proof.Machine.execWaitaSatisfied r s
  | .blendInstance p g => Sys2Proof.Machine.execBlendInstance p g s
  | .fabricRefusal r n l w => Sys2Proof.Machine.execFabricRefusal r n l w s
  | .messageEnqueue r n => Sys2Proof.Machine.execMessageEnqueue r n s
  | .serviceGroupStart c p => Sys2Proof.Machine.execServiceGroupStart c p s
  | .tilewSatisfied r => Sys2Proof.Machine.execTilewSatisfied r s
  | .preemptRequest p => Sys2Proof.Machine.execPreemptRequest p s
  | .preemptSave p => Sys2Proof.Machine.execPreemptSave p s
  | .preemptRestore p => Sys2Proof.Machine.execPreemptRestore p s
  | .resumeHalted p => Sys2Proof.Machine.execResumeHalted p s
  | .timeSliceExpiry p q => Sys2Proof.Machine.execTimeSliceExpiry p q s
  | .starvationSwap c g => Sys2Proof.Machine.execStarvationSwap c g s
  | .swapReturn c => Sys2Proof.Machine.execSwapReturn c s
  | .throttleWindow t => Sys2Proof.Machine.execThrottleWindow t s
  | .linkStepUp k => Sys2Proof.Machine.execLinkStepUp k s
  | .linkStepDown k => Sys2Proof.Machine.execLinkStepDown k s
  | .flitErrorRetry k => Sys2Proof.Machine.execFlitErrorRetry k s
  | .flitLost f => Sys2Proof.Machine.execFlitLost f s
  | .eccCorrected => Sys2Proof.Machine.execEccCorrected s
  | .eccUncorrectable w => Sys2Proof.Machine.execEccUncorrectable w s
  | .agentRejoin d => Sys2Proof.Machine.execAgentRejoin d s
  | .reset => Sys2Proof.Machine.execReset s
  | .selftestPass u => Sys2Proof.Machine.execSelftestPass u s
  | .selftestTimeout => Sys2Proof.Machine.execSelftestTimeout s
  | .linkTrained k => Sys2Proof.Machine.execLinkTrained k s
  | .linkTrainFail k => Sys2Proof.Machine.execLinkTrainFail k s
  | .firmwareVerified k => Sys2Proof.Machine.execFirmwareVerified k s
  | .partitionEnable p v => Sys2Proof.Machine.execPartitionEnable p v s
  | .partitionTeardown p v => Sys2Proof.Machine.execPartitionTeardown p v s
  | .plimitWrite p v => Sys2Proof.Machine.execPlimitWrite p v s
  | .tbaseWrite p v => Sys2Proof.Machine.execTbaseWrite p v s
  | .qctlWrite p q v => Sys2Proof.Machine.execQctlWrite p q v s
  | .pstatRecovClear p => Sys2Proof.Machine.execPstatRecovClear p s
  | .registerWrite w a v => Sys2Proof.Machine.execRegisterWrite w a v s
  | .launchCommand p q => Sys2Proof.Machine.execLaunchCommand p q s
  | .marker p q => Sys2Proof.Machine.execMarker p q s
  | .enumCmd p q => Sys2Proof.Machine.execEnumCmd p q s
  | .attest p q => Sys2Proof.Machine.execAttest p q s
  | .fwload p q => Sys2Proof.Machine.execFwload p q s
  | .dependenceMet p q => Sys2Proof.Machine.execDependenceMet p q s
  | .commandSelect p => Sys2Proof.Machine.execCommandSelect p s
  | .clusterPlace g d => Sys2Proof.Machine.execClusterPlace g d s
  | .gridComplete g => Sys2Proof.Machine.execGridComplete g s
  | .fabricAccessArrival p g a w => Sys2Proof.Machine.execFabricAccessArrival p g a w s
  | .retrainingComplete k t => Sys2Proof.Machine.execRetrainingComplete k t s

end Sys2Proof.Machine
end

