-- ==== Sys2Proof/Machine/Step.lean ====
section
/-! DEFINITION. One step of the machine: the turn is performed, then time passes. -/

namespace Sys2Proof.Machine

/-- The instruction a group issues: fetched, decoded, executed. A group that has no run in progress or waits
does nothing, and one whose instruction stalls behind started matrix work stays at it (16 R266). -/
def issue (r : GroupRef) (s : State) : Host.Outcome State Fault Refusal :=
  match s.group r with
  | none => .next s
  | some g =>
    match g.issuing with
    | none => .next s
    | some (run, e) =>
      match s.fetch r g e with
      | .miss b => .next (s.setGroup r { g with xlate := [b] })
      | .fault c va => .next (s.fetchTrap r g run e c va)
      | .word w t =>
        match decode (decCtxOf g e) w with
        | .ok i => if s.scoreboardStalls g i w then .next s else exec i (s.touched t false)
        | .error x => .next (State.rejectWord (s.touched t false) r g run e w x)

/-- The turn of the state: an issue, or an event of the device. -/
def turnOf (s : State) : Host.Outcome State Fault Refusal :=
  match s.turn with
  | .issue r => issue r s
  | .event i => if i.isEvent then exec i s else .next s

/-- One step. -/
def step (s : State) : Host.Outcome State Fault Refusal :=
  match turnOf s with
  | .next t => .next t.advance
  | .fault f => .fault f
  | .refused x => .refused x

/-- The host's question: an instruction of the opcode table placed where the next step fetches. -/
def State.withFetchWord (s : State) (nbits w : Nat) : State := s.placeWord (BitVec.ofNat 32 (w % 2 ^ nbits))

end Sys2Proof.Machine
end

