-- ==== Sys2Proof/Safety.lean ====
section
/-! DEFINITION. What counts as a safe run: steps that go on, runs of them, and the invariants claims speak of. -/

namespace Sys2Proof.Machine

/-- One step goes from a state to another. -/
def StepsTo (s t : State) : Prop := step s = .next t

/-- A run: zero or more steps. -/
inductive Execution : State → State → Prop where
  | here (s : State) : Execution s s
  | more {s t u : State} (h : StepsTo s t) (r : Execution t u) : Execution s u

/-- A step goes on from the state: no fault, no refusal. -/
def Goes (s : State) : Prop := ∃ t, StepsTo s t

/-- The memory keeps its canonical form: addresses rising, no entry equal to what an unlisted address reads as. -/
def MemoryCanonical (s : State) : Prop := s.mem.wf = true

/-- A write that a group may have pending: one of MODE holds no reserved value (03 R40). -/
def Write.legal : Write → Bool
  | .mode v => modeLegal v
  | .uni _ _ | .pred _ _ _ | .vec _ _ _ | .flags _ => true

/-- Every pending result was issued before instruction `n`, and is legal. -/
def PendingBefore (n : Nat) (l : List Pending) : Prop := ∀ p ∈ l, p.seq < n ∧ p.what.legal = true

/-- No predicate bit of a lane at or above W is set (03 R37). -/
def PredicatesFit (w : Nat) (p : Vector Mask 8) : Prop := ∀ i : Fin 8, p[i] &&& ~~~(fullMask w) = 0

/-- What holds of a group before its instruction `n` issues: its pending results are older, MODE holds no reserved value
(03 R40), predicate bits of lanes that do not exist are 0 (03 R37). -/
structure Group.SoundAt (n : Nat) (g : Group) : Prop where
  pending : PendingBefore n g.pend
  mode : modeLegal g.mode = true
  preds : PredicatesFit g.w g.p

/-- What holds of every group. -/
abbrev Group.Sound (g : Group) : Prop := g.SoundAt g.seq

/-- What holds of every state a run reaches: canonical memory, and sound groups, in their cores and out of them. -/
structure State.Sound (s : State) : Prop where
  mem : MemoryCanonical s
  groups : ∀ x ∈ s.groups, x.2.Sound
  parked : ∀ x ∈ s.parked, x.grp.Sound

/-! ### What an issued instruction does -/

/-- The machine issues an instruction of a group: whose turn it is, the group, its run, the entry that issues, which holds
lanes, and the lanes active after the guard. -/
structure Issuing (s : State) (r : GroupRef) (g : Group) (run : Run) (e : Entry) (act : Mask) : Prop where
  turn : s.turn = .issue r
  found : s.group r = some g
  running : g.run = some run
  entry : g.stack[run.live]? = some e
  lanes : e.mask ≠ 0
  active : activeLanes g e = act

/-- What holds of every group that issues with a lane active after the guard, in every sound state. -/
def WhenActive (P : State → GroupRef → Group → Run → Entry → Mask → Prop) : Prop :=
  ∀ s r g run e act, s.Sound → Issuing s r g run e act → act ≠ 0 → P s r g run e act

/-- The registers a fixed-latency result can write. -/
inductive RegName where
  | uni (r : Reg)
  | vec (r : Reg)
  | pred (p : BitVec 3)
  | mode
  | fstat
  deriving DecidableEq, Repr

/-- The register a result writes. -/
def Write.target : Write → RegName
  | .uni r _ => .uni r
  | .pred p _ _ => .pred p
  | .vec r _ _ => .vec r
  | .mode _ => .mode
  | .flags _ => .fstat

/-- No result in flight is to write the register. -/
def Group.Quiet (g : Group) (x : RegName) : Prop := ∀ p ∈ g.pend, p.what.target ≠ x

/-- The register holds in `h` what it holds in `g`. -/
def Group.Agrees (g h : Group) : RegName → Prop
  | .uni r => h.uni r = g.uni r
  | .vec r => h.vreg r = g.vreg r
  | .pred p => h.p[p.toNat] = g.p[p.toNat]
  | .mode => h.mode = g.mode
  | .fstat => h.fstat = g.fstat

/-- Every register but those of `dests`: one that no result in flight is to write keeps its value, and no result in flight
is to write it afterwards. -/
def Group.KeepsRegisters (g h : Group) (dests : List RegName) : Prop :=
  ∀ x, x ∉ dests → g.Quiet x → g.Agrees h x ∧ h.Quiet x

/-- An access without the marks of a superseded destination (06 R92). -/
def Access.core (a : Access) : Access :=
  { a with dest := .none, lanes := a.lanes.map fun l => { l with drop := 0 } }

/-- What a group holds besides what every instruction may change: its registers and results in flight, its stacks, the state
of its run, its accesses, what it holds at issue. -/
def Group.still (g : Group) : Group :=
  { g with
    s := Vector.replicate 64 0, v := Vector.replicate 64 ⟨.raw, Vector.replicate 64 0⟩, p := Vector.replicate 8 0
    mode := 0, fstat := 0, forcedB := false, stack := [], rets := [], run := none, topFirst := false, seq := 0
    pend := [], acc := [], hold := none, xlate := [], walks := [], stalled := false }

/-- The stacks after an instruction left them as `st` and `rets`: arrivals, merges and discards made (04 R53, R56). -/
def stackAfter (st : List Entry) : List Entry := spill 0 (settleStack (st.length + 1) st)
def retsAfter (st : List Entry) (rets : List RetEntry) : List RetEntry := discard (stackAfter st).length rets

/-- An instruction changes nothing of the device but its group, whose issue slot it may free, and of its group nothing but
the registers of `dests`, the stacks (left as `st` and `rets`), the state of its run and what it holds at issue. -/
structure Frame (s t : State) (r : GroupRef) (g h : Group) (dests : List RegName) (st : List Entry)
    (rets : List RetEntry) : Prop where
  device : { t with groups := s.groups, slotOf := s.slotOf } = s
  others : ∀ q, q ≠ r → t.group q = s.group q
  slots : t.slotOf = s.slotOf ∨ t.slotOf = (s.freeSlots r).slotOf
  group : h.still = g.still
  accesses : h.acc.map Access.core = g.acc.map Access.core
  number : h.seq = g.seq + 1
  registers : g.KeepsRegisters h dests
  stack : h.stack = stackAfter st
  returns : h.rets = retsAfter st rets

/-- The instruction goes on to a state in which its group has the stacks `st` and `rets` brought to rest, nothing but the
registers of `dests` changed, and what is asked holds of its registers once every result in flight is written. -/
def GoesTo (i : Instr) (s : State) (r : GroupRef) (g : Group) (dests : List RegName) (st : List Entry)
    (rets : List RetEntry) (post : Group → Prop) : Prop :=
  ∃ t h, exec i s = .next t ∧ t.group r = some h ∧ Frame s t r g h dests st rets ∧ post h.settled

/-- The same for an instruction after which its entry stands at the next word. -/
def Completes (i : Instr) (s : State) (r : GroupRef) (g : Group) (run : Run) (e : Entry) (dests : List RegName)
    (post : Group → Prop) : Prop :=
  GoesTo i s r g dests (g.stack.set run.live { e with pc := e.pc + 4 }) g.rets post

/-! ### Vector registers after a write -/

/-- Where no other result is in flight to vector register `d`, its lanes outside `act` keep what they held (06 R90). -/
def Group.KeepsLanes (g h : Group) (act : Mask) (d : Reg) : Prop :=
  g.Quiet (.vec d) → ∀ l, (l < g.w → act.getLsbD l = false) → h.lane d l = g.lane d l

/-- Vector register `d` after a write of the active lanes: its tag, the value of each active lane; the other lanes keep what
they held. -/
def Group.Written (g h : Group) (act : Mask) (d : Reg) (tag : Tag) (f : Nat → Word) : Prop :=
  (h.vreg d).tag = tag ∧ (∀ l, l < g.w → act.getLsbD l = true → h.lane d l = f l) ∧ g.KeepsLanes h act d

/-- The same, element by element, for elements of `w` bits. -/
def Group.WrittenElems (g h : Group) (act : Mask) (d : Reg) (tag : Tag) (w : Nat) (f : Nat → Nat → Nat) : Prop :=
  (h.vreg d).tag = tag ∧
  (∀ l, l < g.w → act.getLsbD l = true → ∀ i, i < 32 / w → elemBits w (h.lane d l) i = f l i % 2 ^ w) ∧
  g.KeepsLanes h act d

/-- The same with the status flags that the elements raise. -/
def Group.WrittenFloat (g h : Group) (act : Mask) (d : Reg) (tag : Tag) (w : Nat) (f : Nat → Nat → Nat × FFlags) : Prop :=
  g.WrittenElems h act d tag w (fun l i => (f l i).1) ∧
  (g.Quiet .fstat → h.fstat = g.fstat ||| orFlags ((lanesOf g.w act).map fun l => (elemsOf w (f l)).2))

/-- The effective tag of a source register (03 R42). -/
def Group.tagOf (g : Group) (r : Reg) : Tag := effTag g.mode (g.vreg r).tag

/-! ### Traps -/

/-- The instruction traps: each lane of `m` faults with a cause, a detail and an address, and nothing else happens. -/
def Traps (i : Instr) (s : State) (r : GroupRef) (g : Group) (run : Run) (e : Entry) (m : Mask) (c : Cause) (detail : Nat)
    (addr : Addr) : Prop :=
  let word := encodeWord i
  let x : Ctx := ⟨r, g, run, e, activeLanes g e, e.kind == .handler, word⟩
  exec i s = .next ((s.freeSlots r).afterDelivery r ((g.issued x true).stopRun.deliver run.live e.pc
    ⟨g.codeBase + e.pc.setWidth 64, some word⟩ (faultAll g.w m c detail addr) 0))

/-- A lane of the mask exists in the group. -/
def Group.Holds (g : Group) (m : Mask) : Prop := ∃ l, l < g.w ∧ m.getLsbD l = true

/-- The stack when the lanes `m` enter the handler from entry `e` at position `live`: the handler entry, and the lanes that
go on at the next word (09 R167). -/
def enterStack (g : Group) (live : Nat) (e : Entry) (m : Mask) : List Entry :=
  let rest := { e with mask := e.mask &&& ~~~m, pc := e.pc + 4 }
  { pathEntry (loWord (g.handler - g.codeBase) &&& 0xFFFFFFFC) m e.join with kind := .handler } ::
    (if rest.mask = 0 then g.stack.eraseIdx live else g.stack.set live rest)

/-- The device after a step that brings a group's stacks to rest with its divergence area written: it differs from `s` in the
group, in its issue slot, and in the slots of that area, with the A and M bits of their pages (04 R57, 08 R142). -/
def AreaWritten (s t : State) (r : GroupRef) (g h : Group) : Prop :=
  { t with groups := s.groups } = (s.freeSlots r).writeArea { h with area := g.area } ∧ h.area = h.areaSlots ∧
  ∀ q, q ≠ r → t.group q = s.group q

/-- The lanes `m` of a group enter its handler (09 R167, R169, R173, R174): registers and accesses as they were, the trap
registers for the lowest lane, a record for each lane. -/
structure Enters (s t : State) (r : GroupRef) (g h : Group) (run : Run) (e : Entry) (m : Mask) (c : Cause) (detail : Nat)
    (word : Word) : Prop where
  device : AreaWritten s t r g h
  group : ({ h with trap := g.trap, laneTraps := g.laneTraps, hstart := g.hstart, htpc := g.htpc,
                    area := g.area } : Group).still = g.still
  accesses : h.acc.map Access.core = g.acc.map Access.core
  registers : g.KeepsRegisters h []
  running : h.run = none
  number : h.seq = g.seq + 1
  stack : h.stack = stackAfter (enterStack g run.live e m)
  returns : h.rets = retsAfter (enterStack g run.live e m) g.rets
  tcause : h.trap.tcause = tcauseWord (lowest m) detail c.code
  tpc : h.trap.tpc = g.codeBase + e.pc.setWidth 64
  tword : h.trap.tword = word
  operands : (h.trap.topa, h.trap.topb, h.trap.topc) = trapOperands word
  tlanes : h.trap.tlanes = m
  taddr : h.trap.taddr = 0
  tstack : h.trap.tstack = ({ g with stack := arrive (enterStack g run.live e m) } : Group).tstackWord
  hstart : h.hstart = loWord (g.handler - g.codeBase) &&& 0xFFFFFFFC
  htpc : h.htpc = g.codeBase + e.pc.setWidth 64
  records : ∀ l, l < 64 → h.laneTraps[l]? =
    if l < g.w ∧ m.getLsbD l then some ⟨tcauseWord l detail c.code, 1, 0, 0⟩ else g.laneTraps[l]?

/-- The instruction makes the lanes `m` enter the handler. -/
def TakesTrap (i : Instr) (s : State) (r : GroupRef) (g : Group) (run : Run) (e : Entry) (m : Mask) (c : Cause)
    (detail : Nat) : Prop :=
  ∃ t h, exec i s = .next t ∧ t.group r = some h ∧ Enters s t r g h run e m c detail (encodeWord i)

/-- The lanes of an entry can enter the handler: the group has one, no entry of it stands, the issuing entry is no handler
entry, and the stacks have room (09 R167, 04 R57). -/
def Group.CanEnter (g : Group) (run : Run) (e : Entry) (m : Mask) : Prop :=
  g.handler ≠ 0 ∧ g.handlerEntry = none ∧ e.kind ≠ .handler ∧ g.fits (enterStack g run.live e m).length g.rets.length = true

/-! ### Waits -/

/-- The instruction begins a wait on a device that is `u` but for its group: its entry stays at its word, its slot is free,
and what the group had in flight to its registers is written (08 R164). -/
def Waits (i : Instr) (s u : State) (r : GroupRef) (g : Group) (w : Wait) : Prop :=
  ∃ t h, exec i s = .next t ∧ t.group r = some h ∧ { t with groups := u.groups, slotOf := u.slotOf } = u ∧
    (∀ q, q ≠ r → t.group q = u.group q) ∧ t.slotOf = (u.freeSlots r).slotOf ∧
    h.wait = some w ∧ h.waitFrom = u.clk ∧ h.run = g.run ∧ h.stack = g.stack ∧ h.rets = g.rets ∧
    ({ h with wait := g.wait, waitFrom := g.waitFrom } : Group).still = g.still ∧
    h.acc.map Access.core = g.acc.map Access.core ∧ g.KeepsRegisters h []

/-- A wait of a group ends on a device that is `u` but for it: its entry goes on at the next word, its run is over, nothing
of its registers changes but `dests` (08 R164). -/
def WaitEnds (i : Instr) (s u : State) (r : GroupRef) (g : Group) (run : Run) (e : Entry) (dests : List RegName)
    (post : Group → Prop) : Prop :=
  ∃ t h, exec i s = .next t ∧ t.group r = some h ∧ { t with groups := u.groups, slotOf := u.slotOf } = u ∧
    (∀ q, q ≠ r → t.group q = u.group q) ∧ t.slotOf = (u.freeSlots r).slotOf ∧ h.wait = none ∧ h.run = none ∧
    h.stack = stackAfter (g.stack.set run.live { e with pc := e.pc + 4 }) ∧
    ({ h with wait := g.wait } : Group).still = g.still ∧ h.acc.map Access.core = g.acc.map Access.core ∧
    g.KeepsRegisters h dests ∧ post h

/-- The instruction of a group is withdrawn with the rest of its run: its entry stays at its word, its slot is free, what the
group had in flight to its registers is written, and nothing else changes (09 R192, 16 R267). -/
def Withdraws (s t : State) (r : GroupRef) (g : Group) : Prop :=
  ∃ h, t.group r = some h ∧ { t with groups := s.groups, slotOf := s.slotOf } = s ∧ (∀ q, q ≠ r → t.group q = s.group q) ∧
    t.slotOf = (s.freeSlots r).slotOf ∧ h.run = none ∧ h.stack = g.stack ∧ h.rets = g.rets ∧ h.mxWait = none ∧
    ({ h with mxWait := g.mxWait } : Group).still = g.still ∧ h.acc.map Access.core = g.acc.map Access.core ∧
    g.KeepsRegisters h []

/-- A group of a sound state waits at an entry that holds lanes. -/
structure Waiting (s : State) (r : GroupRef) (g : Group) (w : Wait) (run : Run) (e : Entry) : Prop where
  sound : s.Sound
  found : s.group r = some g
  wait : g.wait = some w
  running : g.run = some run
  entry : g.stack[run.live]? = some e
  lanes : e.mask ≠ 0

/-- `GoesTo` on a device that is `u` but for the group. -/
def GoesFrom (i : Instr) (s u : State) (r : GroupRef) (g : Group) (dests : List RegName) (st : List Entry)
    (rets : List RetEntry) (post : Group → Prop) : Prop :=
  ∃ t h, exec i s = .next t ∧ t.group r = some h ∧ Frame u t r g h dests st rets ∧ post h.settled

/-! ### Accesses -/

/-- The context of the instruction that issues. -/
def ctxOf (i : Instr) (r : GroupRef) (g : Group) (run : Run) (e : Entry) (act : Mask) : Ctx :=
  ⟨r, g, run, e, act, e.kind == .handler, encodeWord i⟩

/-- The access that an instruction issues: nothing of it performed yet. -/
def accessOf (i : Instr) (g : Group) (e : Entry) (act : Mask) (path : Path) (kind : AccKind) (dest : Dest)
    (lanes : List LaneAcc) (acq : Option Acq) : Access :=
  { id := g.seq, path := path, kind := kind, dest := dest, word := encodeWord i, pc := g.codeBase + e.pc.setWidth 64
    act := act, lanes := lanes, acq := acq, mode := g.mode, flags := 0, done := false }

/-- The instruction issues an access on a device that is `u` but for it: its group has one more access, counted, and nothing
else but what a `Frame` allows changes. -/
def Issues (i : Instr) (s u : State) (r : GroupRef) (g : Group) (run : Run) (e : Entry) (a : Access) : Prop :=
  ∃ t h, exec i s = .next t ∧ t.group r = some h ∧ h.acc.getLast? = some a ∧
    Frame u t r (g.addAccess a) h [] (g.stack.set run.live { e with pc := e.pc + 4 }) g.rets

/-- Room on a counter (08 R151) and for the requests, one for each line, of the scheduler partition, which holds 384 (01
R15, 08 R153); no started matrix work of the group on the bytes (16 R266). -/
def State.Room (s : State) (r : GroupRef) (g : Group) (path : Path) (ps : List (Place × Option Trans)) : Prop :=
  g.count path < 63 ∧ s.requestsAt r + (ps.map fun x => x.1.line).eraseDups.length ≤ 384 ∧
  ∀ x ∈ ps, s.matrixHolds g.uid x.1 = false

/-- The lines of device memory among places. -/
def lines (ps : List (Place × Option Trans)) : List Nat :=
  (ps.filterMap fun x => match x.1 with
    | .mem pa _ => some (lineOf pa)
    | .team _ _ | .fab .. => none).eraseDups

/-- An instruction that accesses one address for each active lane issues, when every lane passes its checks `check`, some
with places to access, and its ordering halves let it. -/
def IssuesLanes (i : Instr) (s : State) (r : GroupRef) (g : Group) (run : Run) (e : Entry) (act : Mask) (path : Path)
    (kind : AccKind) (dest : Dest) (store : Bool) (q : Order) (sc : Scope) (syncs : Bool) (ea : Nat → Addr)
    (check : Nat → Addr → Checked) (data : Nat → List Word) : Prop :=
  ∀ ps : Nat → List (Place × Option Trans),
    (∀ l, l < g.w → act.getLsbD l = true → check l (ea l) = .ok (ps l)) →
    let used := (lanesOf g.w act).filter fun l => !(ps l).isEmpty
    let all := used.flatMap ps
    used ≠ [] → s.Room r g path all →
    ∀ u p, s.holdFor (ctxOf i r g run e act) q sc (if syncs then lines all else []) = .goes u p →
    Issues i s (u.touchAll (all.filterMap (·.2)) store) r g run e
      (accessOf i g e act path kind dest (used.map fun l => ⟨l, ea l, (ps l).map (·.1), data l, .waiting, 0⟩)
        (owedAcquire q p))

/-- Every active lane of the instruction fails its checks: each takes the trap of its own fault (08 R155). -/
def FaultsLanes (i : Instr) (s : State) (r : GroupRef) (g : Group) (run : Run) (e : Entry) (act : Mask) (ea : Nat → Addr)
    (check : Nat → Addr → Checked) : Prop :=
  ∀ cause : Nat → Cause, (∀ l, l < g.w → act.getLsbD l = true → check l (ea l) = .fault (cause l)) → g.Holds act →
    exec i s = .next ((s.freeSlots r).afterDelivery r ((g.issued (ctxOf i r g run e act) true).stopRun.deliver run.live e.pc
      ⟨g.codeBase + e.pc.setWidth 64, some (encodeWord i)⟩ ((lanesOf g.w act).map fun l => ⟨l, cause l, 0, ea l⟩) 0))

/-- Some active lanes of the instruction fail their checks and the others pass, some with places to access: the access of
the lanes that pass is issued, they go on at the next word, and each failing lane takes the trap of its own fault (08 R155,
R156, 09 R167). -/
def SplitsLanes (i : Instr) (s : State) (r : GroupRef) (g : Group) (run : Run) (e : Entry) (act : Mask) (path : Path)
    (kind : AccKind) (dest : Dest) (store : Bool) (q : Order) (sc : Scope) (syncs : Bool) (ea : Nat → Addr)
    (check : Nat → Addr → Checked) (data : Nat → List Word) : Prop :=
  ∀ (bad : Nat → Bool) (cause : Nat → Cause) (ps : Nat → List (Place × Option Trans)),
    (∀ l, l < g.w → act.getLsbD l = true → check l (ea l) = if bad l then .fault (cause l) else .ok (ps l)) →
    let used := (lanesOf g.w act).filter fun l => !bad l && !(ps l).isEmpty
    let all := used.flatMap ps
    used ≠ [] → (∃ l, l < g.w ∧ act.getLsbD l = true ∧ bad l = true) → s.Room r g path all →
    ∀ u p, s.holdFor (ctxOf i r g run e act) q sc (if syncs then lines all else []) = .goes u p →
    exec i s = .next (((u.touchAll (all.filterMap (·.2)) store).freeSlots r).afterDelivery r
      (((g.addAccess (accessOf i g e act path kind dest
        (used.map fun l => ⟨l, ea l, (ps l).map (·.1), data l, .waiting, 0⟩) (owedAcquire q p))).issued
          (ctxOf i r g run e act) true).stopRun.deliver run.live e.pc
        ⟨g.codeBase + e.pc.setWidth 64, some (encodeWord i)⟩
        (((lanesOf g.w act).filter bad).map fun l => ⟨l, cause l, 0, ea l⟩) 0))

/-- The same for an access made once for the group. -/
def IssuesWhole (i : Instr) (s : State) (r : GroupRef) (g : Group) (run : Run) (e : Entry) (act : Mask) (kind : AccKind)
    (dest : Dest) (store : Bool) (q : Order) (sc : Scope) (syncs : Bool) (ea : Addr) (check : Checked)
    (data : List Word) : Prop :=
  ∀ ps : List (Place × Option Trans), check = .ok ps → ps ≠ [] → s.Room r g .k ps →
    ∀ u p, s.holdFor (ctxOf i r g run e act) q sc (if syncs then lines ps else []) = .goes u p →
    Issues i s (u.touchAll (ps.filterMap (·.2)) store) r g run e
      (accessOf i g e act .k kind dest [⟨wholeLane, ea, ps.map (·.1), data, .waiting, 0⟩]
        (owedAcquire q p))

/-- The address of a lane: the pair plus the lane's signed index, none for register 63 (08 R158). -/
def Group.laneAt (g : Group) (b j : Reg) (l : Nat) : Addr :=
  g.pair b + (if j = 0x3F then 0 else (g.lane j l).signExtend 64)

/-- The address of an access made once for the group (08 R158, R161). -/
def Group.wholeAt (g : Group) (b j : Reg) : Addr := g.pair b + (if j = 0x3F then 0 else (g.uni j).signExtend 64)

/-- The team offset of a lane (08 R158). -/
def Group.teamAt (g : Group) (b j : Reg) (l : Nat) : Word := g.uni b + (if j = 0x3F then 0 else g.lane j l)

/-! ### Words -/

/-- Instructions that act once for the group's entry, whatever the guard leaves active (09 R177, R183, R189 to R191). -/
def unguarded : Instr → Bool
  | .syswr .. | .emu .. | .ill .. | .halt .. | .sleep .. | .rett .. | .rettNext .. | .rettKill .. | .tlbinv .. | .tlbinvAll ..
  | .ctxsv .. | .ctxld .. => true
  | _ => false

/-- SETMODE and MODEF with a reserved value, refused before the guard (03 R40, R45, R46). -/
def reservedMode (g : Group) : Instr → Bool
  | .setmode _ a => !modeLegal (g.uni a)
  | .modef _ _ a b => !modeLegal ((g.mode &&& ~~~(g.uni b)) ||| (g.uni a &&& g.uni b))
  | _ => false

/-- Instructions of the matrix unit, which read their guard behind every earlier result (16 R263). -/
def matrixWord : Instr → Bool
  | .bload .. | .mma .. | .mmap .. | .accz .. | .accrd .. | .accwr .. | .accscl .. | .rank .. | .rkld .. | .mmar .. | .rkval .. => true
  | _ => false

/-- A finite value is the real number x. -/
def FVal.Is (v : FVal) (x : ℝ) : Prop :=
  ∃ s m e, v = .fin s m e ∧ x = (if s then -1 else 1) * (m : ℝ) * (2 : ℝ) ^ e

/-- An element of a format stands for the real number x (07 R109, R110). -/
def FFmt.Number (f : FFmt) (b : Nat) (x : ℝ) : Prop := b < 2 ^ f.width ∧ (f.value b).Is x

/-- A number within a format's finite range, rounded by a mode: the number itself where the format has it, else one of the
two numbers beside it (07 R114). -/
def FFmt.RoundsFinite (f : FFmt) (rnd : Nat) (x : ℝ) (b : Nat) : Prop :=
  ∃ y, f.Number b y ∧ nbit b (f.width - 1) = decide (x < 0) ∧
    (∀ c z, f.Number c z → min x y ≤ z → z ≤ max x y → z = y) ∧
    (rnd = 0 → ∀ c z, f.Number c z → |x - y| ≤ |x - z| ∧ (|x - y| = |x - z| → z ≠ y → b % 2 = 0)) ∧
    (rnd = 1 → |y| ≤ |x|) ∧ (rnd = 2 → x ≤ y) ∧ (rnd = 3 → y ≤ x) ∧ (rnd = 4 → y ≠ x → b % 2 = 1)

/-- A number x other than 0 rounded to the format's significand with an unbounded exponent has the magnitude z (07 R114). -/
def FFmt.Unbounded (f : FFmt) (rnd : Nat) (x z : ℝ) : Prop :=
  ∃ (n : Nat) (q : Int), 2 ^ f.fb ≤ n ∧ n < 2 ^ (f.fb + 1) ∧ n * (2 : ℝ) ^ q ≤ |x| ∧ |x| < (n + 1) * (2 : ℝ) ^ q ∧
    let up : Prop := |x| ≠ n * (2 : ℝ) ^ q ∧
      ((rnd = 0 ∧ ((n + 1 / 2) * (2 : ℝ) ^ q < |x| ∨ (|x| = (n + 1 / 2) * (2 : ℝ) ^ q ∧ n % 2 = 1))) ∨
        (rnd = 2 ∧ 0 < x) ∨ (rnd = 3 ∧ x < 0) ∨ (rnd = 4 ∧ n % 2 = 0))
    (up → z = (n + 1) * (2 : ℝ) ^ q) ∧ (¬ up → z = n * (2 : ℝ) ^ q)

/-- What a mode delivers for a number whose rounded magnitude exceeds the largest finite one (07 R110, R114). -/
def FFmt.overflowed (f : FFmt) (k : Rnd) (s : Bool) : Nat :=
  if f.e4 then (if k.sat then f.signBit s + f.maxBits else f.nanBits)
  else if k.rnd = 0 ∨ (k.rnd = 2 ∧ s = false) ∨ (k.rnd = 3 ∧ s = true) then f.infBits s
  else f.signBit s + f.maxBits

/-- One rounding of a number other than 0 (07 R114). -/
def FFmt.Rounds (f : FFmt) (k : Rnd) (x : ℝ) (b : Nat) : Prop :=
  ∃ top z, f.Number f.maxBits top ∧ f.Unbounded k.rnd x z ∧ (|x| ≤ top → f.RoundsFinite k.rnd x b) ∧
    (top < |x| → z ≤ top → b = f.signBit (decide (x < 0)) + f.maxBits) ∧ (top < z → b = f.overflowed k (decide (x < 0)))

/-- The flags of a number other than 0 rounded to `b` (07 R117). -/
def FFmt.Flagged (f : FFmt) (rnd : Nat) (x : ℝ) (b : Nat) (fl : FFlags) : Prop :=
  ∃ top z, f.Number f.maxBits top ∧ f.Unbounded rnd x z ∧ (top < z → fl = fOF ||| fNX) ∧
    (z ≤ top → f.Number b x → fl = 0) ∧
    (z ≤ top → ¬ f.Number b x → fl = if z < (2 : ℝ) ^ f.emin then fUF ||| fNX else fNX)

/-- An operand, or an exact result: the result of an invalid operation, a NaN, an infinity, a zero of a sign, or a number
other than 0. -/
inductive XVal where
  | invalid
  | nan
  | inf (s : Bool)
  | zero (s : Bool)
  | num (x : ℝ)

/-- What a value stands for. -/
def FVal.Means : FVal → XVal → Prop
  | .nan _, r => r = .nan
  | .inf s, r => r = .inf s
  | .fin s m e, r => if m = 0 then r = .zero s else ∃ x, (FVal.fin s m e).Is x ∧ r = .num x

/-- An integer as a value. -/
def XVal.ofInt (z : Int) : XVal := if z = 0 then .zero false else .num z

/-- FTZ takes the element for a zero (07 R116). -/
def FFmt.flushed (f : FFmt) (ftz : Bool) (b : Nat) : Bool :=
  ftz && (f == fmtF32 || f == fmtF16 || f == fmtB16) && f.subnormal b

/-- What an element stands for as an instruction reads it (07 R116). -/
def FFmt.Reads (f : FFmt) (ftz : Bool) (b : Nat) (r : XVal) : Prop :=
  b < 2 ^ f.width ∧ (f.flushed ftz b = true → r = .zero (nbit b (f.width - 1))) ∧ (f.flushed ftz b = false → (f.value b).Means r)

/-- The flags of reading elements: FZ for a flushed one, NV for a signalling NaN (07 R115, R116). -/
def FFmt.inFlags (f : FFmt) (ftz : Bool) (xs : List Nat) : FFlags :=
  orFlags (xs.map fun b => (if f.flushed ftz b then fFZ else 0) ||| (if f.value b = .nan true then fNV else 0))

/-- An exact result delivered in a format, with the flags of its rounding (07 R110, R114 to R117). -/
def FFmt.Delivers (f : FFmt) (k : Rnd) (r : XVal) (b : Nat) (fl : FFlags) : Prop :=
  match r with
  | .invalid => b = f.nanBits ∧ fl = fNV
  | .nan => b = f.nanBits ∧ fl = 0
  | .inf s => (f.e4 = false → b = f.infBits s ∧ fl = 0) ∧
    (f.e4 = true → b = (if k.sat then f.signBit s + f.maxBits else f.nanBits) ∧ fl = fOF ||| fNX)
  | .zero s => b = f.signBit s ∧ fl = 0
  | .num x => ∃ b0 fl0, f.Rounds k x b0 ∧ f.Flagged k.rnd x b0 fl0 ∧
    (f.flushed k.ftz b0 = true → b = f.signBit (decide (x < 0)) ∧ fl = fUF ||| fNX) ∧
    (f.flushed k.ftz b0 = false → b = b0 ∧ fl = fl0)

/-- An operation delivers an exact result beside the flags `given` of its operands. -/
def FFmt.Gives (f : FFmt) (k : Rnd) (given : FFlags) (r : XVal) (out : Nat × FFlags) : Prop :=
  ∃ fl, f.Delivers k r out.1 fl ∧ out.2 = given ||| fl

/-- The negative of a value. -/
def XVal.Neg : XVal → XVal → Prop
  | .invalid, r => r = .invalid
  | .nan, r => r = .nan
  | .inf s, r => r = .inf (!s)
  | .zero s, r => r = .zero (!s)
  | .num x, r => r = .num (-x)

/-- An exact sum (07 R115): a NaN, infinities of unlike signs, a zero sum. -/
structure SumIs (rnd : Nat) (ts : List XVal) (r : XVal) : Prop where
  invalid : .invalid ∈ ts → r = .invalid
  nan : .invalid ∉ ts → .nan ∈ ts → r = .nan
  unlike : .invalid ∉ ts → .nan ∉ ts → .inf true ∈ ts → .inf false ∈ ts → r = .invalid
  inf : ∀ s, .invalid ∉ ts → .nan ∉ ts → .inf s ∈ ts → .inf (!s) ∉ ts → r = .inf s
  zeros : ∀ s, ts ≠ [] → (∀ t ∈ ts, t = .zero s) → r = .zero s
  number : ∀ xs : List ℝ, ts.Forall₂ (fun t x => t = .num x ∨ ((∃ s, t = .zero s) ∧ x = 0)) xs →
    (∀ s, ∃ t ∈ ts, t ≠ .zero s) → (xs.sum = 0 → r = .zero (rnd == 3)) ∧ (xs.sum ≠ 0 → r = .num xs.sum)

/-- The sign of a value that is no NaN. -/
def XVal.Sign : XVal → Bool → Prop
  | .invalid, _ | .nan, _ => False
  | .inf s, t | .zero s, t => s = t
  | .num x, t => t = decide (x < 0)

/-- An exact product (07 R115): 0 · ∞, a NaN, and otherwise the signs multiply. -/
structure ProductIs (a b r : XVal) : Prop where
  nan : a = .nan ∨ b = .nan → r = .nan
  invalid : ∀ s t, (a = .zero s ∧ b = .inf t) ∨ (a = .inf s ∧ b = .zero t) → r = .invalid
  inf : ∀ s t, a.Sign s → b.Sign t → ((∃ u, a = .inf u) ∧ ∀ u, b ≠ .zero u) ∨ ((∃ u, b = .inf u) ∧ ∀ u, a ≠ .zero u) →
    r = .inf (s ^^ t)
  zero : ∀ s t, a.Sign s → b.Sign t → ((∃ u, a = .zero u) ∧ ∀ u, b ≠ .inf u) ∨ ((∃ u, b = .zero u) ∧ ∀ u, a ≠ .inf u) →
    r = .zero (s ^^ t)
  number : ∀ x y, a = .num x → b = .num y → r = .num (x * y)

/-- An exact quotient (07 R115, R123), with DZ where a number is divided by a zero. -/
structure QuotientIs (a b r : XVal) (fl : FFlags) : Prop where
  nan : a = .nan ∨ b = .nan → r = .nan ∧ fl = 0
  invalid : ∀ s t, (a = .zero s ∧ b = .zero t) ∨ (a = .inf s ∧ b = .inf t) → r = .invalid ∧ fl = 0
  infinite : ∀ s t, a = .inf s → b.Sign t → (∀ u, b ≠ .inf u) → r = .inf (s ^^ t) ∧ fl = 0
  byZero : ∀ s t x, a = .num x → a.Sign s → b = .zero t → r = .inf (s ^^ t) ∧ fl = fDZ
  zero : ∀ s t, a.Sign s → b.Sign t → (∃ u, a = .zero u) ∧ (∀ u, b ≠ .zero u) ∨ (∃ u, b = .inf u) ∧ (∀ u, a ≠ .inf u) →
    r = .zero (s ^^ t) ∧ fl = 0
  number : ∀ x y, a = .num x → b = .num y → r = .num (x / y) ∧ fl = 0

/-- The place of an element that is no NaN in the order of its format, −0 below +0 (07 R115). -/
def FFmt.rank (f : FFmt) (b : Nat) : Int :=
  let m : Int := b % 2 ^ (f.width - 1)
  if nbit b (f.width - 1) then -m - 1 else m

/-- The same order with the zeros equal (07 R125). -/
def FFmt.level (f : FFmt) (b : Nat) : Int :=
  let m : Int := b % 2 ^ (f.width - 1)
  if nbit b (f.width - 1) then -m else m

/-- The element after FTZ (07 R116). -/
def FFmt.kept (f : FFmt) (ftz : Bool) (b : Nat) : Nat := if f.flushed ftz b then f.signBit (nbit b (f.width - 1)) else b

/-- A number rounded to an integer by a mode (07 R114, R128, R130). -/
def RoundsInt (rnd : Nat) (x : ℝ) (z : Int) : Prop :=
  |x - z| < 1 ∧ (rnd = 0 → |x - z| ≤ 1 / 2 ∧ (|x - z| = 1 / 2 → z % 2 = 0)) ∧ (rnd = 1 → |(z : ℝ)| ≤ |x|) ∧
    (rnd = 2 → x ≤ z) ∧ (rnd = 3 → (z : ℝ) ≤ x) ∧ (rnd = 4 → (z : ℝ) ≠ x → z % 2 = 1)

/-- The results that R124 lists for a function at a value, in a format, with the flag each sets. A NaN gives a NaN without NX
(log entry 85, the model's choice). -/
inductive FsfListed (f : FFmt) : FsfOp → XVal → XVal → FFlags → Prop
  | ofNan (op) : FsfListed f op .nan .nan 0
  | rcpInf (s) : FsfListed f .rcp (.inf s) (.zero s) 0
  | rcpZero (s) : FsfListed f .rcp (.zero s) (.inf s) fDZ
  | rcpPower (x : ℝ) (k : Int) : |x| = (2 : ℝ) ^ (-k) → f.emin ≤ k → k ≤ f.emax → FsfListed f .rcp (.num x) (.num (1 / x)) 0
  | rsqInf : FsfListed f .rsq (.inf false) (.zero false) 0
  | rsqBelow : FsfListed f .rsq (.inf true) .invalid 0
  | rsqZero (s) : FsfListed f .rsq (.zero s) (.inf s) fDZ
  | rsqNegative (x : ℝ) : x < 0 → FsfListed f .rsq (.num x) .invalid 0
  | rsqPower (x : ℝ) (k : Int) : x = (4 : ℝ) ^ (-k) → FsfListed f .rsq (.num x) (.num ((2 : ℝ) ^ k)) 0
  | exp2Inf : FsfListed f .exp2 (.inf false) (.inf false) 0
  | exp2Below : FsfListed f .exp2 (.inf true) (.zero false) 0
  | exp2Zero (s) : FsfListed f .exp2 (.zero s) (.num 1) 0
  | exp2Integer (n : Int) : n ≠ 0 → f.emin - f.fb ≤ n → n ≤ f.emax → FsfListed f .exp2 (.num n) (.num ((2 : ℝ) ^ n)) 0
  | log2Inf : FsfListed f .log2 (.inf false) (.inf false) 0
  | log2Below : FsfListed f .log2 (.inf true) .invalid 0
  | log2Zero (s) : FsfListed f .log2 (.zero s) (.inf true) fDZ
  | log2Negative (x : ℝ) : x < 0 → FsfListed f .log2 (.num x) .invalid 0
  | log2Power (x : ℝ) (k : Int) : x = (2 : ℝ) ^ k → FsfListed f .log2 (.num x) (.ofInt k) 0
  | sinInf (s) : FsfListed f .sin (.inf s) .invalid 0
  | sinZero (s) : FsfListed f .sin (.zero s) (.zero s) 0
  | cosInf (s) : FsfListed f .cos (.inf s) .invalid 0
  | cosZero (s) : FsfListed f .cos (.zero s) (.num 1) 0
  | tanhInf (s) : FsfListed f .tanh (.inf s) (.num (if s then -1 else 1)) 0
  | tanhZero (s) : FsfListed f .tanh (.zero s) (.zero s) 0
  | sigmInf : FsfListed f .sigm (.inf false) (.num 1) 0
  | sigmBelow : FsfListed f .sigm (.inf true) (.zero false) 0
  | sigmZero (s) : FsfListed f .sigm (.zero s) (.num (1 / 2)) 0

/-- The function's result is a free value there. -/
def FsfOp.Free (op : FsfOp) (f : FFmt) (a : XVal) : Prop := ∀ r fl, ¬ FsfListed f op a r fl

/-- What an element of a typed tag stands for as an instruction reads it, and the flags of reading it (07 R109 to R112,
R116): PS8 is the sum of two terms in eighths. -/
def ElemReads (t : Tag) (ftz : Bool) (b : Nat) (r : XVal) (fl : FFlags) : Prop :=
  let term (s k : Nat) : Int := if k = 0 then 0 else (if s = 1 then -1 else 1) * 2 ^ (k - 1)
  let eighths := term (b / 128 % 2) (b / 16 % 8) + term (b / 8 % 2) (b % 8)
  b < 2 ^ tagWidth t ∧
  (t = .ps8x4 → (eighths = 0 → r = .zero false) ∧ (eighths ≠ 0 → r = .num (eighths / 8)) ∧ fl = 0) ∧
  (tagInt t = true → r = .ofInt (if tagSigned t then signedOf (tagWidth t) b else b) ∧ fl = 0) ∧
  (t ∈ [Tag.f32, .f16x2, .b16x2, .e4x4, .e5x4] → (fmtOf t).Reads ftz b r ∧ fl = (fmtOf t).inFlags ftz [b])

/-- An accumulator entry after one contribution in A48: the exact sum rounded to odd, +0 for a zero sum; a NaN stays one, an
infinity stays as it is (16 R261). -/
def A48Adds (e : BitVec 48) (p : FVal) (e' : BitVec 48) : Prop :=
  (∀ u x, fmtA48.Number e.toNat u → p.Is x → u + x ≠ 0 → fmtA48.Rounds ⟨4, false, false⟩ (u + x) e'.toNat) ∧
  (∀ u x, fmtA48.Number e.toNat u → p.Is x → u + x = 0 → e' = 0) ∧
  (∀ q x, fmtA48.value e.toNat = .nan q → p.Is x → e' = BitVec.ofNat 48 fmtA48.nanBits) ∧
  (∀ s x, fmtA48.value e.toNat = .inf s → p.Is x → e' = BitVec.ofNat 48 (fmtA48.infBits s))

end Sys2Proof.Machine
end

