-- ==== Sys2Proof/Certificates/Slice0/Obligations.lean ====
section
/-! DEFINITION. The statements for the provers. -/

open Sys2Proof Sys2Proof.Machine

/-! ### All instructions -/

/-- 03 R46, 05 R72, 06 R90, 08 R155, 16 R263: with no lane active after the guard an instruction has no effect but to pass,
save those that act for the entry itself and a MODE write that is refused; a matrix instruction judges its lanes behind
every earlier result. -/
def Obligations.NothingWithoutLanes : Prop :=
  ∀ (s : State) (r : GroupRef) (g : Group) (run : Run) (e : Entry) (act : Mask), s.Sound → Issuing s r g run e act →
    ∀ i : Instr, i.isEvent = false →
      (act = 0 → unguarded i = false → matrixWord i = false → reservedMode g i = false → Completes i s r g run e [] fun _ => True) ∧
      (matrixWord i = true → (s.parts[g.part]).halting = false → activeLanes g.settled e = 0 → GoesFrom i s s r g.settled []
        (g.settled.stack.set run.live { e with pc := e.pc + 4 }) g.settled.rets fun _ => True)

/-- 03 R33, R43 to R45, 00 R3: every instruction word that holds no reserved value decodes, from its four bytes in memory
order, to the instruction it encodes, wherever its registers fit; opcode 0x7C is refused outside serial mode with detail 4,
whatever its other bits hold. -/
def Obligations.WordsRoundTrip : Prop :=
  (∀ (k : DecCtx) (i : Instr) (rest : List (BitVec 8)), i.isEvent = false → i.wf = true → i.fits k = true →
    (fldOp (encodeWord i) = 0x7C ∨ i.serialOnly = true → k.serial = true) →
    (k.reduced = true → absentReduced (fldOp (encodeWord i)) = false) →
    let w := encodeWord i
    decode k w = .ok i ∧
    decodeBytes k (w.extractLsb' 0 8 :: w.extractLsb' 8 8 :: w.extractLsb' 16 8 :: w.extractLsb' 24 8 :: rest) =
      some (.ok i, rest)) ∧
  ∀ (k : DecCtx) (w : Word), fldOp w = 0x7C → k.serial = false → decode k w = .error .priv

/-- Words that spec/ writes out decode to the instructions they stand for, and reserved ones are refused by detail. -/
def Obligations.WrittenWordsDecode : Prop :=
  let k : DecCtx := ⟨64, false, false, false⟩
  let serial : DecCtx := { k with serial := true }
  decode k 0x00000000 = .ok (.nop false) ∧ decode k 0x80000000 = .ok (.nop true) ∧
  decode k 0x69511000 = .error .sub ∧ decode k 0xE9515588 = .ok (.mma true 20 21 22 false .i8x4) ∧
  decode k 0x6951559A = .ok (.mma false 20 21 22 true .e4x4) ∧
  decode k 0xEA515588 = .ok (.mmap true 20 21 22 false .i8x4) ∧
  decode serial 0x7C000005 = .ok (.halt false) ∧ decode serial 0x7C008006 = .ok (.sleep false 8) ∧
  decode k 0x7C000005 = .error .priv ∧ decode k 0x7E000000 = .ok (.emu false 0 0 0 0) ∧ decode k 0x01FC0000 = .error .field

/-- 04 R50 to R52, 03 R45, R46, 16 R266, 02 R31: when the word at a group's entry decodes to an instruction, a step at its
turn is that instruction, its page marked as read, and then the choice of the next turn; a stall behind matrix work changes
nothing; a word that fails decoding, a miss and a failing fetch are what they are; an event's turn is the event. -/
def Obligations.StepRunsTheDecodedInstruction : Prop :=
  (∀ (s : State) (r : GroupRef) (g : Group) (run : Run) (e : Entry), s.turn = .issue r → s.group r = some g →
    g.issuing = some (run, e) →
    (∀ w t i, s.fetch r g e = .word w t → decode (decCtxOf g e) w = .ok i → s.scoreboardStalls g i w = false →
      (∀ u, exec i (s.touched t false) = .next u → step s = .next u.advance) ∧
      (s.touched t false).turn = .issue r ∧ (s.touched t false).group r = some g) ∧
    (∀ w t i, s.fetch r g e = .word w t → decode (decCtxOf g e) w = .ok i → s.scoreboardStalls g i w = true →
      step s = .next s.advance) ∧
    (∀ w t x, s.fetch r g e = .word w t → decode (decCtxOf g e) w = .error x →
      step s = .next (State.rejectWord (s.touched t false) r g run e w x).advance) ∧
    (∀ b, s.fetch r g e = .miss b → step s = .next (s.setGroup r { g with xlate := [b] }).advance) ∧
    (∀ c va, s.fetch r g e = .fault c va → step s = .next (s.fetchTrap r g run e c va).advance) ∧
    (∀ v t, windowOf (g.codeBase + e.pc.setWidth 64) = .glob v → s.look r g v = .hit t → pteX t.leaf = true →
      fabricPa t.pa = false → remoteD r.die (attrOf g.reduced t.leaf) t.pa = false →
      s.fetch r g e = .word (wordOfBytes (s.mem.read t.pa) (s.mem.read (t.pa + 1)) (s.mem.read (t.pa + 2))
        (s.mem.read (t.pa + 3))) t)) ∧
  (∀ (s : State) (i : Instr) (u : State), s.turn = .event i → i.isEvent = true → exec i s = .next u → step s = .next u.advance) ∧
  ∀ s : State, s.advance.mem = s.mem ∧ s.advance.groups = s.groups ∧ s.advance.parts = s.parts ∧ s.advance.grids = s.grids ∧
    s.advance.tick = s.tick + 1 ∧ s.clk ≤ s.advance.clk

/-- Every step goes on, and keeps the memory canonical, MODE without a reserved value (03 R40), predicate bits of absent
lanes 0 (03 R37), and results in flight older than the next instruction. -/
def Obligations.StepsGoOnSoundly : Prop :=
  (∀ s : State, Goes s) ∧ ∀ s t : State, s.Sound → StepsTo s t → t.Sound

/-- The state after reset is sound, with the values 01 R26, R87 and 19 R312 to R317 give (those of log entries 4 to 6 are
the model's): PHASE, BDIE, DIEOK, IOOK, FWST 0, links untrained, no partition enabled, nothing running. -/
def Obligations.ResetIsSound : Prop :=
  let s := State.reset
  s.Sound ∧ s.svcstat = 0 ∧ s.clk = 0 ∧ s.ecnt = 0 ∧ (∀ k : Fin 46, (s.links[k]).trained = false) ∧
  (∀ p : Fin 12, (s.parts[p]).en = false ∧ (s.parts[p]).plimit = 0 ∧ (s.parts[p]).tbase = 0 ∧ (s.parts[p]).psave = 0 ∧
    (s.parts[p]).evhead = 0 ∧ (s.parts[p]).recov = false ∧
    ∀ q : Fin 64, ((s.parts[p]).queues[q]).en = false ∧ ((s.parts[p]).queues[q]).qhead = 0) ∧
  s.groups = [] ∧ s.grids = [] ∧ s.mem.cells = []

/-- A byte reads as it was last written and no write reaches another; a word is little-endian (00 R3); writing keeps the
canonical form. -/
def Obligations.MemoryReadsAsWritten : Prop :=
  ∀ (m : Memory) (a b : Nat) (x : BitVec 8) (w : Word), m.wf = true →
    (m.write a x).wf = true ∧ (m.write a x).read a = x ∧ (b ≠ a → (m.write a x).read b = m.read b) ∧
    (m.writeWord a w).wf = true ∧ (m.writeWord a w).readWord a = w ∧
    (∀ i, i < 4 → (m.writeWord a w).read (a + i) = w.extractLsb' (8 * i) 8) ∧
    (b < a ∨ a + 4 ≤ b → (m.writeWord a w).read b = m.read b) ∧
    (∀ n : Memory, n.wf = true → n.epochs = m.epochs → (∀ k, n.read k = m.read k) → n = m)

/-! ### Rules stated whole -/

/-- R69: NOP has no effect; it counts toward its run's length. -/
def Obligations.NopHasNoEffect : Prop :=
  (∀ k : DecCtx, decode k 0x00000000 = .ok (.nop false) ∧ decode k 0x80000000 = .ok (.nop true) ∧
    ∀ w : Word, fldOp w = 0 → w.extractLsb' 0 24 ≠ 0 → decode k w = .error .field) ∧
  ∀ (s : State) (r : GroupRef) (g : Group) (run : Run) (e : Entry) (act : Mask) (y : Bool), s.Sound → Issuing s r g run e act →
    Completes (.nop y) s r g run e [] (fun _ => True) ∧
    ∃ t h, exec (.nop y) s = .next t ∧ t.group r = some h ∧ (∀ x, h.run = some x → x = ⟨run.live, run.pos + 1⟩) ∧
      (y = true ∨ run.pos = 23 → h.run = none)

/-- R77: SSEL gives s_a when s_c is not 0, else s_b; every value of every field is legal. -/
def Obligations.SselSelects : Prop :=
  (∀ (k : DecCtx) (w : Word), fldOp w = 0x12 → decode k w =
    .ok (.ssel (w.getLsbD 31) (w.extractLsb' 18 6) (w.extractLsb' 12 6) (w.extractLsb' 6 6) (w.extractLsb' 0 6))) ∧
  WhenActive fun s r g run e _ => ∀ (y : Bool) (d a b c : Reg),
    Completes (.ssel y d a b c) s r g run e [.uni d] fun h => h.uni d = if g.uni c ≠ 0 then g.uni a else g.uni b

/-! ### Uniform registers -/

/-- R75: two-source arithmetic and logic on uniform registers. -/
def Obligations.UniformArithmetic : Prop :=
  WhenActive fun s r g run e _ => ∀ (y : Bool) (d a b : Reg),
    let x := g.uni a
    let z := g.uni b
    Completes (.sadd y d a b) s r g run e [.uni d] (fun h => h.uni d = x + z) ∧
    Completes (.ssub y d a b) s r g run e [.uni d] (fun h => h.uni d = x - z) ∧
    Completes (.sand y d a b) s r g run e [.uni d] (fun h => h.uni d = x &&& z) ∧
    Completes (.sor y d a b) s r g run e [.uni d] (fun h => h.uni d = x ||| z) ∧
    Completes (.sxor y d a b) s r g run e [.uni d] (fun h => h.uni d = x ^^^ z) ∧
    Completes (.sandn y d a b) s r g run e [.uni d] (fun h => h.uni d = x &&& ~~~z) ∧
    Completes (.sshl y d a b) s r g run e [.uni d]
      (fun h => h.uni d = if z.toNat < 32 then x <<< z.toNat else 0) ∧
    Completes (.sshr y d a b) s r g run e [.uni d]
      (fun h => h.uni d = if z.toNat < 32 then x >>> z.toNat else 0) ∧
    Completes (.ssra y d a b) s r g run e [.uni d]
      (fun h => h.uni d = if z.toNat < 32 then x.sshiftRight z.toNat else if x.getLsbD 31 then 0xFFFFFFFF else 0) ∧
    Completes (.smin y d a b) s r g run e [.uni d] (fun h => h.uni d = if x.toInt ≤ z.toInt then x else z) ∧
    Completes (.smax y d a b) s r g run e [.uni d] (fun h => h.uni d = if z.toInt ≤ x.toInt then x else z) ∧
    Completes (.sminn y d a b) s r g run e [.uni d] (fun h => h.uni d = if x.toNat ≤ z.toNat then x else z) ∧
    Completes (.smaxn y d a b) s r g run e [.uni d] (fun h => h.uni d = if z.toNat ≤ x.toNat then x else z) ∧
    Completes (.smul y d a b) s r g run e [.uni d] (fun h => h.uni d = x * z) ∧
    Completes (.smulh y d a b) s r g run e [.uni d]
      (fun h => h.uni d = (x.signExtend 64 * z.signExtend 64).extractLsb' 32 32) ∧
    Completes (.smulhn y d a b) s r g run e [.uni d]
      (fun h => h.uni d = (x.setWidth 64 * z.setWidth 64).extractLsb' 32 32)

/-- R30, R76, R77, R78: immediates, comparison, selection. R81 to R84: bit counts, bit fields, moves. -/
def Obligations.UniformBitsAndChoice : Prop :=
  (WhenActive fun s r g run e _ => ∀ (y : Bool) (d a b c : Reg) (n : BitVec 18),
     let x := g.uni a
     let z := g.uni b
     Completes (.sseti y d n) s r g run e [.uni d] (fun h => h.uni d = n.signExtend 32) ∧
     Completes (.saddi y d n) s r g run e [.uni d] (fun h => h.uni d = g.uni d + n.signExtend 32) ∧
     Completes (.sseth y d n) s r g run e [.uni d]
       (fun h => h.uni d = (n.setWidth 32 <<< 14) ||| (g.uni d &&& 0x3FFF)) ∧
     Completes (.scmp y .eq d a b) s r g run e [.uni d] (fun h => h.uni d = if x = z then 1 else 0) ∧
     Completes (.scmp y .ne d a b) s r g run e [.uni d] (fun h => h.uni d = if x ≠ z then 1 else 0) ∧
     Completes (.scmp y .lt d a b) s r g run e [.uni d] (fun h => h.uni d = if x.toInt < z.toInt then 1 else 0) ∧
     Completes (.scmp y .le d a b) s r g run e [.uni d] (fun h => h.uni d = if x.toInt ≤ z.toInt then 1 else 0) ∧
     Completes (.scmp y .ltn d a b) s r g run e [.uni d] (fun h => h.uni d = if x.toNat < z.toNat then 1 else 0) ∧
     Completes (.scmp y .len d a b) s r g run e [.uni d] (fun h => h.uni d = if x.toNat ≤ z.toNat then 1 else 0) ∧
     Completes (.ssel y d a b c) s r g run e [.uni d] (fun h => h.uni d = if g.uni c ≠ 0 then x else z)) ∧
  (WhenActive fun s r g run e _ => ∀ (y : Bool) (d a b c : Reg),
     let x := g.uni a
     let pos (z : Word) : Nat := z.toNat % 32
     let len (z : Word) : Nat := min (min (z.toNat / 256 % 64) 32) (32 - pos z)
     let f (z : Word) : Nat := x.toNat / 2 ^ pos z % 2 ^ len z
     Completes (.spopc y d a) s r g run e [.uni d]
       (fun h => (h.uni d).toNat = ((List.range 32).filter fun i => x.getLsbD i).length) ∧
     Completes (.sclz y d a) s r g run e [.uni d]
       (fun h => (h.uni d).toNat ≤ 32 ∧ x.toNat < 2 ^ (32 - (h.uni d).toNat) ∧
         (x ≠ 0 → 2 ^ (31 - (h.uni d).toNat) ≤ x.toNat) ∧ (x = 0 → h.uni d = 32)) ∧
     Completes (.sbrev y d a) s r g run e [.uni d]
       (fun h => ∀ i, i < 32 → (h.uni d).getLsbD i = x.getLsbD (31 - i)) ∧
     Completes (.sbfxn y d a b) s r g run e [.uni d] (fun h => (h.uni d).toNat = f (g.uni b)) ∧
     Completes (.sbfx y d a b) s r g run e [.uni d] (fun h => h.uni d =
       if len (g.uni b) = 0 then 0
       else if f (g.uni b) < 2 ^ (len (g.uni b) - 1) then BitVec.ofNat 32 (f (g.uni b))
       else BitVec.ofInt 32 ((f (g.uni b) : Int) - 2 ^ len (g.uni b))) ∧
     Completes (.sbfi y d a b c) s r g run e [.uni d] (fun h => ∀ i, i < 32 → (h.uni d).getLsbD i =
       if pos (g.uni c) ≤ i ∧ i < pos (g.uni c) + len (g.uni c) then (g.uni b).getLsbD (i - pos (g.uni c))
       else x.getLsbD i) ∧
     Completes (.smov y d a) s r g run e [.uni d] (fun h => h.uni d = x) ∧
     Completes (.smovv y d a b) s r g run e [.uni d] (fun h => h.uni d = g.lane a ((g.uni b).toNat % g.w)))

/-- R79: 64-bit values in pairs. R80: division truncates toward zero; a division by zero gives the table's results. -/
def Obligations.UniformPairsAndDivision : Prop :=
  (WhenActive fun s r g run e _ => ∀ (y : Bool) (k : BitVec 3) (d a b : Reg),
     Completes (.sadd64 y d a b) s r g run e [.uni d, .uni (d + 1)] (fun h => h.pair d = g.pair a + g.pair b) ∧
     Completes (.ssub64 y d a b) s r g run e [.uni d, .uni (d + 1)] (fun h => h.pair d = g.pair a - g.pair b) ∧
     Completes (.slea y k d a b) s r g run e [.uni d, .uni (d + 1)]
       (fun h => h.pair d = g.pair a + ((g.uni b).signExtend 64 <<< k.toNat))) ∧
  (WhenActive fun s r g run e _ => ∀ (y : Bool) (d a b : Reg),
     let x := g.uni a
     let z := g.uni b
     Completes (.sdiv y d a b) s r g run e [.uni d]
       (fun h => h.uni d = if z = 0 then 0xFFFFFFFF else BitVec.ofInt 32 (x.toInt.tdiv z.toInt)) ∧
     Completes (.srem y d a b) s r g run e [.uni d]
       (fun h => h.uni d = if z = 0 then x else BitVec.ofInt 32 (x.toInt - z.toInt * x.toInt.tdiv z.toInt)) ∧
     Completes (.sdivn y d a b) s r g run e [.uni d]
       (fun h => h.uni d = if z = 0 then 0xFFFFFFFF else BitVec.ofNat 32 (x.toNat / z.toNat)) ∧
     Completes (.sremn y d a b) s r g run e [.uni d]
       (fun h => h.uni d = if z = 0 then x else BitVec.ofNat 32 (x.toNat % z.toNat)))

/-! ### Lane sets -/

/-- R70: predicates, votes and the moves between predicates and pairs. R71: each active lane gets the mask of active lanes
that hold its key, in one register, or in two at width 64. -/
def Obligations.LaneSetsAndMatches : Prop :=
  (WhenActive fun s r g run e act => ∀ (y : Bool) (d a b : BitVec 3) (u v : Reg),
     let p := g.predicate a
     let q := g.predicate b
     let kept (h : Group) : Prop := g.Quiet (.pred d) → h.predicate d &&& ~~~act = g.predicate d &&& ~~~act
     Completes (.elect y d) s r g run e [.pred d] (fun h => ∀ l, l < 64 → ((h.predicate d).getLsbD l = true ↔
       (fullMask g.w).getLsbD l = true ∧ act.getLsbD l = true ∧ ∀ k, k < l → act.getLsbD k = false)) ∧
     Completes (.ballot y u v) s r g run e [.uni u, .uni (u + 1)] (fun h => ∀ l, l < 64 →
       ((h.pair u).getLsbD l = true ↔ l < g.w ∧ act.getLsbD l = true ∧ g.lane v l ≠ 0)) ∧
     Completes (.voteAny y u a) s r g run e [.uni u] (fun h => h.uni u = if p &&& act ≠ 0 then 1 else 0) ∧
     Completes (.voteAll y u a) s r g run e [.uni u] (fun h => h.uni u = if p &&& act = act then 1 else 0) ∧
     Completes (.active y d) s r g run e [.pred d] (fun h => h.predicate d = act &&& fullMask g.w) ∧
     Completes (.pmovs y u a) s r g run e [.uni u, .uni (u + 1)] (fun h => h.pair u = p) ∧
     Completes (.smovp y d u) s r g run e [.pred d] (fun h => h.predicate d = g.pair u &&& fullMask g.w) ∧
     Completes (.pand y d a b) s r g run e [.pred d] (fun h => h.predicate d &&& act = p &&& q &&& act ∧ kept h) ∧
     Completes (.por y d a b) s r g run e [.pred d] (fun h => h.predicate d &&& act = (p ||| q) &&& act ∧ kept h) ∧
     Completes (.pxor y d a b) s r g run e [.pred d] (fun h => h.predicate d &&& act = (p ^^^ q) &&& act ∧ kept h) ∧
     Completes (.pnot y d a) s r g run e [.pred d]
       (fun h => h.predicate d &&& act = ~~~p &&& act &&& fullMask g.w ∧ kept h) ∧
     Completes (.pandn y d a b) s r g run e [.pred d] (fun h => h.predicate d &&& act = p &&& ~~~q &&& act ∧ kept h)) ∧
  (WhenActive fun s r g run e act => ∀ (y : Bool) (d a : Reg),
     Completes (.matchK y d a) s r g run e (if g.w = 64 then [.vec d, .vec (d + 1)] else [.vec d]) (fun h =>
       (h.vreg d).tag = .n32 ∧ g.KeepsLanes h act d ∧
       (∀ l, l < g.w → act.getLsbD l = true → ∀ k, k < 32 → ((h.lane d l).getLsbD k = true ↔
         k < g.w ∧ act.getLsbD k = true ∧ g.lane a k = g.lane a l)) ∧
       (g.w = 64 → (h.vreg (d + 1)).tag = .n32 ∧ g.KeepsLanes h act (d + 1) ∧ ∀ l, l < 64 → act.getLsbD l = true → ∀ k, k < 32 →
         ((h.lane (d + 1) l).getLsbD k = true ↔ act.getLsbD (k + 32) = true ∧ g.lane a (k + 32) = g.lane a l))))

/-! ### Vector integers -/

/-- R95, R98: element-wise integer arithmetic on one tag of INT, exact, clamped where MODE.SAT asks, then modulo 2^w. R99: c
plus the four products of the bytes of a and b. -/
def Obligations.VectorIntegers : Prop :=
  (WhenActive fun s r g run e act => ∀ (y : Bool) (d a b c : Reg) (t : Tag),
     tagInt t = true → g.tagOf a = t → g.tagOf b = t →
     let w := tagWidth t
     let sat := modeSat g.mode
     let at_ (q : Reg) (l i : Nat) : Nat := elemBits w (g.lane q l) i
     let int (q : Reg) (l i : Nat) : Int := elemInt t (g.lane q l) i
     let into (k : Bool) (z : Int) : Nat := ((if k then clampTag t z else z) % 2 ^ w).toNat
     let gives (i : Instr) (k : Bool) (f : Nat → Nat → Int) : Prop :=
       Completes i s r g run e [.vec d] fun h => g.WrittenElems h act d t w fun l j => into k (f l j)
     gives (.vadd y d a b) sat (fun l i => int a l i + int b l i) ∧
     gives (.vsub y d a b) sat (fun l i => int a l i - int b l i) ∧
     gives (.vmul y d a b) sat (fun l i => int a l i * int b l i) ∧
     gives (.vmulh y d a b) false (fun l i => int a l i * int b l i / 2 ^ w) ∧
     gives (.vmulhn y d a b) false (fun l i => (at_ a l i * at_ b l i / 2 ^ w : Nat)) ∧
     gives (.vmin y d a b) sat (fun l i => if int a l i ≤ int b l i then int a l i else int b l i) ∧
     gives (.vmax y d a b) sat (fun l i => if int a l i ≤ int b l i then int b l i else int a l i) ∧
     gives (.vminn y d a b) false (fun l i => (min (at_ a l i) (at_ b l i) : Nat)) ∧
     gives (.vmaxn y d a b) false (fun l i => (max (at_ a l i) (at_ b l i) : Nat)) ∧
     gives (.vabs y d a) sat (fun l i => if int a l i < 0 then -int a l i else int a l i) ∧
     gives (.vneg y d a) sat (fun l i => -int a l i) ∧
     (g.tagOf c = t → gives (.vmad y d a b c) sat (fun l i => int a l i * int b l i + int c l i))) ∧
  (WhenActive fun s r g run e act => ∀ (y : Bool) (d a b c : Reg),
     (g.tagOf a = .i8x4 ∨ g.tagOf a = .n8x4) → (g.tagOf b = .i8x4 ∨ g.tagOf b = .n8x4) →
     (g.tagOf c = .i32 ∨ g.tagOf c = .n32) →
     let t := g.tagOf c
     let byte (q : Reg) (l i : Nat) : Int := elemInt (g.tagOf q) (g.lane q l) i
     let z (l : Nat) : Int := elemInt t (g.lane c l) 0 + (byte a l 0 * byte b l 0 + byte a l 1 * byte b l 1 +
       byte a l 2 * byte b l 2 + byte a l 3 * byte b l 3)
     Completes (.vdot4 y d a b c) s r g run e [.vec d] fun h => g.Written h act d t fun l =>
       BitVec.ofInt 32 (if modeSat g.mode then clampTag t (z l) else z l))

/-- R96, R97, R100 to R103: shifts, bitwise logic, bit fields, funnels and bit counts of each lane. R104 to R107:
comparison, selection, moves and shuffles. -/
def Obligations.VectorBitsAndMoves : Prop :=
  (WhenActive fun s r g run e act => ∀ (y : Bool) (d a b c : Reg),
     let w := tagWidth (g.tagOf a)
     let st := if tagInt (g.tagOf a) then g.tagOf a else .raw
     let x (l : Nat) : Word := g.lane a l
     let z (l : Nat) : Word := g.lane b l
     let ea (l i : Nat) : Nat := elemBits w (x l) i
     let eb (l i : Nat) : Nat := elemBits w (z l) i
     let gives (i : Instr) (t : Tag) (f : Nat → Word) : Prop :=
       Completes i s r g run e [.vec d] fun h => g.Written h act d t f
     Completes (.vshl y d a b) s r g run e [.vec d] (fun h => g.WrittenElems h act d st w fun l i =>
       if eb l i < w then ea l i * 2 ^ eb l i else 0) ∧
     Completes (.vshr y d a b) s r g run e [.vec d] (fun h => g.WrittenElems h act d st w fun l i =>
       if eb l i < w then ea l i / 2 ^ eb l i else 0) ∧
     Completes (.vsra y d a b) s r g run e [.vec d] (fun h => g.WrittenElems h act d st w fun l i =>
       if eb l i < w then (signedOf w (ea l i) / 2 ^ eb l i % 2 ^ w).toNat
       else if 2 ^ (w - 1) ≤ ea l i then 2 ^ w - 1 else 0) ∧
     gives (.vand y d a b) .raw (fun l => x l &&& z l) ∧
     gives (.vor y d a b) .raw (fun l => x l ||| z l) ∧
     gives (.vxor y d a b) .raw (fun l => x l ^^^ z l) ∧
     gives (.vandn y d a b) .raw (fun l => x l &&& ~~~(z l)) ∧
     gives (.vnot y d a) .raw (fun l => ~~~(x l)) ∧
     Completes (.log3 y d a b c) s r g run e [.vec d] (fun h => (h.vreg d).tag = .raw ∧ g.KeepsLanes h act d ∧
       ∀ l, l < g.w → act.getLsbD l = true → ∀ j, j < 32 → (h.lane d l).getLsbD j =
         (g.uni c).getLsbD (4 * bit ((g.lane d l).getLsbD j) + 2 * bit ((x l).getLsbD j) + bit ((z l).getLsbD j))) ∧
     gives (.vbfx y d a b) .raw (fun l => extractS (x l) (z l)) ∧
     gives (.vbfxn y d a b) .raw (fun l => extractN (x l) (z l)) ∧
     gives (.vbfi y d a b c) .raw (fun l => insertField (x l) (z l) (g.lane c l)) ∧
     gives (.vfsh y d a b c) .raw
       (fun l => BitVec.ofNat 32 (((x l).toNat * 2 ^ 32 + (z l).toNat) / 2 ^ ((g.lane c l).toNat % 32))) ∧
     gives (.vfshl y d a b c) .raw
       (fun l => BitVec.ofNat 32 (((x l).toNat * 2 ^ 32 + (z l).toNat) * 2 ^ ((g.lane c l).toNat % 32) / 2 ^ 32)) ∧
     gives (.vpopc y d a) .n32 (fun l => BitVec.ofNat 32 ((List.range 32).filter fun i => (x l).getLsbD i).length) ∧
     Completes (.vclz y d a) s r g run e [.vec d] (fun h => (h.vreg d).tag = .n32 ∧ g.KeepsLanes h act d ∧
       ∀ l, l < g.w → act.getLsbD l = true → (h.lane d l).toNat ≤ 32 ∧ (x l).toNat < 2 ^ (32 - (h.lane d l).toNat) ∧
         (x l ≠ 0 → 2 ^ (31 - (h.lane d l).toNat) ≤ (x l).toNat) ∧ (x l = 0 → h.lane d l = 32)) ∧
     Completes (.vctz y d a) s r g run e [.vec d] (fun h => (h.vreg d).tag = .n32 ∧ g.KeepsLanes h act d ∧
       ∀ l, l < g.w → act.getLsbD l = true → (h.lane d l).toNat ≤ 32 ∧ (x l).toNat % 2 ^ (h.lane d l).toNat = 0 ∧
         (x l ≠ 0 → (x l).getLsbD (h.lane d l).toNat = true) ∧ (x l = 0 → h.lane d l = 32)) ∧
     Completes (.vbrev y d a) s r g run e [.vec d] (fun h => (h.vreg d).tag = .raw ∧ g.KeepsLanes h act d ∧
       ∀ l, l < g.w → act.getLsbD l = true → ∀ j, j < 32 → (h.lane d l).getLsbD j = (x l).getLsbD (31 - j))) ∧
  (WhenActive fun s r g run e act => ∀ (y : Bool) (d a b : Reg) (p : BitVec 3) (t : Tag),
     let x (l : Nat) : Word := g.lane a l
     let n (q : Reg) : Nat := (g.uni q).toNat
     let within (l : Nat) (k : Int) : Word := if 0 ≤ k ∧ k < g.w then g.lane a k.toNat else x l
     let gives (i : Instr) (t : Tag) (f : Nat → Word) : Prop :=
       Completes i s r g run e [.vec d] fun h => g.Written h act d t f
     let tests (k : VCond) (f : Nat → Prop) : Prop :=
       Completes (.vcmp y k p a b) s r g run e [.pred p] fun h =>
         (∀ l, l < g.w → act.getLsbD l = true → ((h.predicate p).getLsbD l = true ↔ f l)) ∧
         (g.Quiet (.pred p) → h.predicate p &&& ~~~act = g.predicate p &&& ~~~act)
     let u := g.tagOf a
     tests .eq (fun l => x l = g.lane b l) ∧
     tests .ne (fun l => x l ≠ g.lane b l) ∧
     ((u = .i32 ∨ u = .n32) → g.tagOf b = u →
       tests .lt (fun l => elemInt u (x l) 0 < elemInt u (g.lane b l) 0) ∧
       tests .le (fun l => elemInt u (x l) 0 ≤ elemInt u (g.lane b l) 0) ∧
       tests .gt (fun l => elemInt u (g.lane b l) 0 < elemInt u (x l) 0) ∧
       tests .ge (fun l => elemInt u (g.lane b l) 0 ≤ elemInt u (x l) 0)) ∧
     gives (.vsel y d a b p) (if (g.vreg a).tag = (g.vreg b).tag then (g.vreg a).tag else .raw)
       (fun l => if (g.predicate p).getLsbD l then x l else g.lane b l) ∧
     gives (.vmov y d a) (g.vreg a).tag x ∧
     gives (.vbcast y d a t) t (fun _ => g.uni a) ∧
     gives (.vlane y d a b) (g.vreg a).tag (fun _ => g.lane a (n b % g.w)) ∧
     gives (.vshfIdx y d a b) (g.vreg a).tag (fun l => within l ((g.lane b l).toNat % g.w : Nat)) ∧
     gives (.vshfUp y d a b) (g.vreg a).tag (fun l => within l ((l : Int) - n b)) ∧
     gives (.vshfDn y d a b) (g.vreg a).tag (fun l => within l ((l : Int) + n b)) ∧
     gives (.vshfXor y d a b) (g.vreg a).tag (fun l => within l ((l ^^^ (n b % g.w) : Nat) : Int)))

/-- R108: reduction and scan of the active lanes: each element a left fold in ascending lane order, from its identity in an
exclusive scan; a floating step raises the flags of FADD, FMIN or FMAX; a tag that the operation does not accept raises
FORMAT. -/
def Obligations.VectorFolds : Prop :=
  WhenActive fun s r g run e act => ∀ (y : Bool) (k : RedOp) (d a : Reg) (t : Tag),
    let bitwise := k = .and ∨ k = .or ∨ k = .xor
    let accepted := tagInt t = true ∨ (tagFlt t = true ∧ (k = .add ∨ k = .min ∨ k = .max))
    let w := tagWidth t
    let f := fmtOf t
    let m := rndOf g.mode
    let int (n : Nat) : Int := if tagSigned t then signedOf w n else n
    let into (z : Int) : Nat := (z % 2 ^ w).toNat
    let elem (x z : Nat) : Nat × FFlags := match k with
      | .add => if tagFlt t then fAdd f m x z else (into (if m.sat then clampTag t (int x + int z) else int x + int z), 0)
      | .min => if tagFlt t then fMinMax false f m x z else (if int x ≤ int z then x else z, 0)
      | .max => if tagFlt t then fMinMax true f m x z else (if int x ≤ int z then z else x, 0)
      | .minn => (if x ≤ z then x else z, 0)
      | .maxn => (if x ≤ z then z else x, 0)
      | .and => (x &&& z, 0)
      | .or => (x ||| z, 0)
      | .xor => (x ^^^ z, 0)
    let identity : Nat := match k with
      | .add => if tagFlt t then 2 ^ (w - 1) else 0
      | .min => if tagFlt t then (2 ^ f.eb - 1) * 2 ^ f.fb else if tagSigned t then 2 ^ (w - 1) - 1 else 2 ^ w - 1
      | .max => if tagFlt t then 2 ^ (w - 1) + (2 ^ f.eb - 1) * 2 ^ f.fb else if tagSigned t then 2 ^ (w - 1) else 0
      | .minn | .and => 2 ^ w - 1
      | .maxn | .or | .xor => 0
    let step (x : Word) (l : Nat) : Word × FFlags :=
      elemsOf w fun i => elem (elemBits w x i) (elemBits w (g.lane a l) i)
    let ls := lanesOf g.w act
    let fold (p : Nat → Bool) : Option Word := match ls.filter p with
      | [] => none
      | k :: rest => some (rest.foldl (fun x l => (step x l).1) (g.lane a k))
    let upTo (l : Nat) : Word := (fold fun j => decide (j ≤ l)).getD 0
    let before (l : Nat) : Word := (fold fun j => decide (j < l)).getD (mapElems w fun _ => identity)
    let raised (h : Group) : Prop :=
      g.Quiet .fstat → h.fstat = g.fstat ||| orFlags ((ls.drop 1).map fun l => (step (before l) l).2)
    ((if bitwise then t = .raw else g.tagOf a = t ∧ accepted) →
      (ls ≠ [] → Completes (.vred y k d a) s r g run e [.uni d, .fstat] fun h => h.uni d = upTo 63 ∧ raised h) ∧
      Completes (.vscan y false k d a) s r g run e [.vec d, .fstat] (fun h => g.Written h act d t upTo ∧ raised h) ∧
      Completes (.vscan y true k d a) s r g run e [.vec d, .fstat] (fun h => g.Written h act d t before ∧ raised h)) ∧
    (¬ bitwise → g.tagOf a = t → ¬ accepted → g.Holds act →
      Traps (.vred y k d a) s r g run e act .format 0 0 ∧
      ∀ ex, Traps (.vscan y ex k d a) s r g run e act .format 0 0)

/-! ### Floating point -/

/-- R120 to R123: arithmetic on FLT elements of one tag, rounded once as MODE says, with the flags each element raises.
R109, R110, R113 to R117, R120 to R124, R127: what the elements of each format are, and the sum, difference, product, fused
product, dot product, quotient, square root and scaling of elements: the exact result rounded once, the zero, infinite and
NaN results, the flags raised; FMIN and FMAX by the order of the format. A NaN among the terms of FDOT2 goes before unlike
infinities, and FSQRT of a NaN leaves NX (log entry 85, the model's choice). -/
def Obligations.FloatArithmetic : Prop :=
  (WhenActive fun s r g run e act => ∀ (y : Bool) (d a b c : Reg) (t : Tag),
     tagFlt t = true → g.tagOf a = t → g.tagOf b = t →
     let w := tagWidth t
     let f := fmtOf t
     let k := rndOf g.mode
     let at_ (q : Reg) (l i : Nat) : Nat := elemBits w (g.lane q l) i
     let gives (i : Instr) (op : Nat → Nat → Nat × FFlags) : Prop :=
       Completes i s r g run e [.vec d, .fstat] fun h => g.WrittenFloat h act d t w fun l j => op l j
     gives (.fadd y d a b) (fun l i => fAdd f k (at_ a l i) (at_ b l i)) ∧
     gives (.fsub y d a b) (fun l i => fSub f k (at_ a l i) (at_ b l i)) ∧
     gives (.fmul y d a b) (fun l i => fMul f k (at_ a l i) (at_ b l i)) ∧
     gives (.vadd y d a b) (fun l i => fAdd f k (at_ a l i) (at_ b l i)) ∧
     gives (.vsub y d a b) (fun l i => fSub f k (at_ a l i) (at_ b l i)) ∧
     gives (.vmul y d a b) (fun l i => fMul f k (at_ a l i) (at_ b l i)) ∧
     gives (.fdiv y d a b) (fun l i => fDiv f k (at_ a l i) (at_ b l i)) ∧
     gives (.fmin y d a b) (fun l i => fMinMax false f k (at_ a l i) (at_ b l i)) ∧
     gives (.fmax y d a b) (fun l i => fMinMax true f k (at_ a l i) (at_ b l i)) ∧
     (g.tagOf c = t →
       gives (.fma y d a b c) (fun l i => fFused false false f k (at_ a l i) (at_ b l i) (at_ c l i)) ∧
       gives (.fms y d a b c) (fun l i => fFused false true f k (at_ a l i) (at_ b l i) (at_ c l i)) ∧
       gives (.fnma y d a b c) (fun l i => fFused true false f k (at_ a l i) (at_ b l i) (at_ c l i))) ∧
     ((t = .f16x2 ∨ t = .b16x2) → g.tagOf c = .f32 →
       Completes (.fdot2 y d a b c) s r g run e [.vec d, .fstat] fun h => g.WrittenFloat h act d .f32 32 fun l _ =>
         fDot2 f k (g.lane c l).toNat (at_ a l 0) (at_ b l 0) (at_ a l 1) (at_ b l 1))) ∧
  (([fmtF32, fmtF16, fmtB16, fmtE5, fmtE4, fmtA48].map fun f => (f.bias, f.emin, f.maxBits, f.nanBits)) =
     [(127, -126, 0x7F7FFFFF, 0x7FC00000), (15, -14, 0x7BFF, 0x7E00), (127, -126, 0x7F7F, 0x7FC0), (15, -14, 0x7B, 0x7E),
      (7, -6, 0x7E, 0x7F), (255, -254, 0x7FBFFFFFFFFF, 0x7FFE00000000)] ∧
   (∀ (f : FFmt) (b : Nat), f ∈ [fmtF32, fmtF16, fmtB16, fmtE5, fmtE4, fmtA48] → b < 2 ^ f.width →
     let s := decide (2 ^ (f.width - 1) ≤ b)
     let ex := b / 2 ^ f.fb % 2 ^ f.eb
     let fr := b % 2 ^ f.fb
     (f.e4 = false → ex = 2 ^ f.eb - 1 → f.value b = if fr = 0 then .inf s else .nan (decide (fr < 2 ^ (f.fb - 1)))) ∧
     (f.e4 = true → ex = 15 → fr = 7 → f.value b = .nan false) ∧
     ((f.e4 = false → ex ≠ 2 ^ f.eb - 1) → (f.e4 = true → ¬ (ex = 15 ∧ fr = 7)) →
       ((f.value b).Means (.zero s) ↔ ex = 0 ∧ fr = 0) ∧
       ∀ x : ℝ, f.Number b x ↔ x = (if s then -1 else 1) * (if ex = 0 then (2 : ℝ) ^ (1 - f.bias) * (fr / 2 ^ f.fb)
         else (2 : ℝ) ^ (ex - f.bias) * (1 + fr / 2 ^ f.fb)))) ∧
   (∀ (f : FFmt) (k : Rnd) (v : FVal) (r : XVal), f ∈ [fmtF32, fmtF16, fmtB16, fmtE5, fmtE4, fmtA48] → k.rnd ≤ 4 →
     v.Means r → f.Delivers k r (f.pack k v).1 (f.pack k v).2) ∧
   (∀ (f : FFmt) (k : Rnd) (x y z : Nat) (a b c : XVal), f ∈ [fmtF32, fmtF16, fmtB16] → k.rnd ≤ 4 →
     f.Reads k.ftz x a → f.Reads k.ftz y b → f.Reads k.ftz z c →
     let two := f.inFlags k.ftz [x, y]
     let three := f.inFlags k.ftz [x, y, z]
     (∀ r, SumIs k.rnd [a, b] r → f.Gives k two r (fAdd f k x y)) ∧
     (∀ n r, b.Neg n → SumIs k.rnd [a, n] r → f.Gives k two r (fSub f k x y)) ∧
     (∀ p, ProductIs a b p → f.Gives k two p (fMul f k x y) ∧
       (∀ r, SumIs k.rnd [p, c] r → f.Gives k three r (fFused false false f k x y z)) ∧
       (∀ n r, c.Neg n → SumIs k.rnd [p, n] r → f.Gives k three r (fFused false true f k x y z)) ∧
       ∀ n r, p.Neg n → SumIs k.rnd [n, c] r → f.Gives k three r (fFused true false f k x y z)) ∧
     (∀ r fl, QuotientIs a b r fl → f.Gives k (two ||| fl) r (fDiv f k x y)) ∧
     (let one := f.inFlags k.ftz [x]
      (a = .nan → f.Gives k one .nan (fSqrt f k x)) ∧
      (a = .inf false → f.Gives k one (.inf false) (fSqrt f k x)) ∧
      (a = .inf true ∨ (∃ u, a = .num u ∧ u < 0) → f.Gives k one .invalid (fSqrt f k x)) ∧
      (∀ s, a = .zero s → f.Gives k one (.zero s) (fSqrt f k x)) ∧
      (∀ u, a = .num u → 0 < u → f.Gives k (one ||| fNX) (.num (Real.sqrt u)) (fSqrt f k x)) ∧
      (∀ n : Int, ((∀ u, a ≠ .num u) → f.Gives k one a (fScale f k x n)) ∧
        ∀ u, a = .num u → f.Gives k one (.num (u * (2 : ℝ) ^ n)) (fScale f k x n))) ∧
     (let u := f.kept k.ftz x
      let v := f.kept k.ftz y
      ∀ m : Bool, (fMinMax m f k x y).2 = two ∧
        (a = .nan → b = .nan → (fMinMax m f k x y).1 = f.nanBits) ∧
        (a = .nan → b ≠ .nan → (fMinMax m f k x y).1 = v) ∧
        (a ≠ .nan → b = .nan → (fMinMax m f k x y).1 = u) ∧
        (a ≠ .nan → b ≠ .nan → (fMinMax m f k x y).1 = if (f.rank u ≤ f.rank v ↔ m = true) then v else u))) ∧
   ∀ (f : FFmt) (k : Rnd) (z x0 y0 x1 y1 : Nat) (c a0 b0 a1 b1 p q r : XVal), f ∈ [fmtF16, fmtB16] → k.rnd ≤ 4 →
     fmtF32.Reads k.ftz z c → f.Reads k.ftz x0 a0 → f.Reads k.ftz y0 b0 → f.Reads k.ftz x1 a1 → f.Reads k.ftz y1 b1 →
     ProductIs a0 b0 p → ProductIs a1 b1 q → SumIs k.rnd [c, p, q] r →
     fmtF32.Gives k (fmtF32.inFlags k.ftz [z] ||| f.inFlags k.ftz [x0, y0, x1, y1]) r (fDot2 f k z x0 y0 x1 y1))

/-- R120: FABS, FNEG and FCPSGN replace the sign bit of each element and change no other bit and no flag. R125 to R128:
comparison, class, scaling, integral and fraction part of FLT elements. R125, R126, R128: what the tests and the integral
and fraction parts of one element are. -/
def Obligations.FloatSignsAndTests : Prop :=
  (WhenActive fun s r g run e act => ∀ (y : Bool) (d a b : Reg) (t : Tag), tagFlt t = true → g.tagOf a = t →
     let w := tagWidth t
     let at_ (q : Reg) (l i : Nat) : Nat := elemBits w (g.lane q l) i
     let sign (n : Nat) : Nat := n / 2 ^ (w - 1) % 2
     let gives (i : Instr) (f : Nat → Nat → Nat) : Prop :=
       Completes i s r g run e [.vec d] fun h => g.WrittenElems h act d t w fun l j => at_ a l j % 2 ^ (w - 1) + f l j * 2 ^ (w - 1)
     gives (.fabs y d a) (fun _ _ => 0) ∧
     gives (.fneg y d a) (fun l i => 1 - sign (at_ a l i)) ∧
     (g.tagOf b = t → gives (.fcpsgn y d a b) (fun l i => sign (at_ b l i)))) ∧
  ((WhenActive fun s r g run e act => ∀ (y : Bool) (k : FCond) (p : BitVec 3) (d a b : Reg) (t : Tag),
      tagFlt t = true → g.tagOf a = t →
      let w := tagWidth t
      let f := fmtOf t
      let m := rndOf g.mode
      let at_ (q : Reg) (l i : Nat) : Nat := elemBits w (g.lane q l) i
      (g.tagOf b = t → Completes (.fcmp y k p a b) s r g run e [.pred p, .fstat] fun h =>
        (∀ l, l < g.w → act.getLsbD l = true → ((h.predicate p).getLsbD l = true ↔
          ∀ i, i < tagCount t → (fCompare k f m (at_ a l i) (at_ b l i)).1 = true)) ∧
        (g.Quiet .fstat → h.fstat = g.fstat ||| orFlags ((lanesOf g.w act).flatMap fun l =>
          (List.range (tagCount t)).map fun i => (fCompare k f m (at_ a l i) (at_ b l i)).2)) ∧
        (g.Quiet (.pred p) → h.predicate p &&& ~~~act = g.predicate p &&& ~~~act)) ∧
      Completes (.fclass y d a) s r g run e [.vec d] (fun h =>
        g.WrittenElems h act d (if t = .f32 then .n32 else .n16x2) w fun l i => fClass f (at_ a l i)) ∧
      (g.tagOf b = (if t = .f32 then .i32 else .i16x2) → Completes (.fscale y d a b) s r g run e [.vec d, .fstat] fun h =>
        g.WrittenFloat h act d t w fun l i => fScale f m (at_ a l i) (signedOf w (at_ b l i))) ∧
      Completes (.frint y d a) s r g run e [.vec d, .fstat] (fun h =>
        g.WrittenFloat h act d t w fun l i => fRint f m (at_ a l i)) ∧
      Completes (.ffrac y d a) s r g run e [.vec d, .fstat] (fun h =>
        g.WrittenFloat h act d t w fun l i => fFrac f m (at_ a l i))) ∧
   (∀ (f : FFmt) (k : Rnd) (x y : Nat) (a b : XVal), f ∈ [fmtF32, fmtF16, fmtB16] → k.rnd ≤ 4 →
      f.Reads k.ftz x a → f.Reads k.ftz y b →
      let two := f.inFlags k.ftz [x, y]
      let one := f.inFlags k.ftz [x]
      let un := a = .nan ∨ b = .nan
      let u := f.level (f.kept k.ftz x)
      let v := f.level (f.kept k.ftz y)
      (∀ c, ((fCompare c f k x y).1 = true ↔ match c with
          | .eq => ¬ un ∧ u = v
          | .ne => un ∨ u ≠ v
          | .lt => ¬ un ∧ u < v
          | .le => ¬ un ∧ u ≤ v
          | .un => un
          | .ord => ¬ un) ∧
        (un ∧ (c = .lt ∨ c = .le) → (fCompare c f k x y).2 = two ||| fNV) ∧
        (¬ (un ∧ (c = .lt ∨ c = .le)) → (fCompare c f k x y).2 = two)) ∧
      (let s := decide (2 ^ (f.width - 1) ≤ x)
       let ex := x / 2 ^ f.fb % 2 ^ f.eb
       let fr := x % 2 ^ f.fb
       fClass f x = 2 ^ (if ex = 2 ^ f.eb - 1 then
           (if fr = 0 then (if s then 0 else 7) else if fr < 2 ^ (f.fb - 1) then 8 else 9)
         else if ex = 0 then (if fr = 0 then (if s then 3 else 4) else if s then 2 else 5)
         else if s then 1 else 6)) ∧
      (fRint f k x).2 = one ∧ (a = .nan → (fRint f k x).1 = f.nanBits) ∧
      (∀ s, a = .inf s → (fRint f k x).1 = f.infBits s) ∧ (∀ s, a = .zero s → (fRint f k x).1 = f.signBit s) ∧
      (∀ w, a = .num w → ∃ z : Int, RoundsInt k.rnd w z ∧ f.Number (fRint f k x).1 z ∧
        nbit (fRint f k x).1 (f.width - 1) = decide (w < 0)) ∧
      (a = .nan → f.Gives k one .nan (fFrac f k x)) ∧ (∀ s, a = .inf s → f.Gives k one .invalid (fFrac f k x)) ∧
      (∀ s, a = .zero s → f.Gives k one (.zero s) (fFrac f k x)) ∧
      (∀ w, a = .num w → ∃ z : Int, RoundsInt 1 w z ∧ (fFrac f k x).2 = one ∧ f.Number (fFrac f k x).1 (w - z) ∧
        nbit (fFrac f k x).1 (f.width - 1) = decide (w < 0))))

/-- R124: the function unit. The results of all but FSQRT that no rule states exactly are free values (log entry 1); FSQRT
sets NX on every root but the listed ones (log entry 10). R124: the listed results of the functions and their flags; any
other result sets NX, UF when it is tiny or flushed, OF when it is infinite, and is no NaN. R124: with FTZ clear, a free
result of a function lies within its error bound of the function's value, computed in integers (log entry 10); for FRCP and
FRSQ that value is the reciprocal and the reciprocal root to within 2^-180 of itself. -/
def Obligations.FloatFunctions : Prop :=
  ((WhenActive fun s r g run e act => ∀ (y : Bool) (d a : Reg) (t : Tag), tagFlt t = true → g.tagOf a = t →
      let w := tagWidth t
      let k := rndOf g.mode
      let gives (i : Instr) (op : Nat → Nat × FFlags) : Prop :=
        Completes i s r g run e [.vec d, .fstat] fun h => g.WrittenFloat h act d t w fun l j => op (elemBits w (g.lane a l) j)
      gives (.frcp y d a) (fFsf .rcp t k) ∧
      gives (.frsq y d a) (fFsf .rsq t k) ∧
      gives (.fsqrt y d a) (fSqrt (fmtOf t) k) ∧
      gives (.fexp2 y d a) (fFsf .exp2 t k) ∧
      gives (.flog2 y d a) (fFsf .log2 t k) ∧
      gives (.fsin y d a) (fFsf .sin t k) ∧
      gives (.fcos y d a) (fFsf .cos t k) ∧
      gives (.ftanh y d a) (fFsf .tanh t k) ∧
      gives (.fsigm y d a) (fFsf .sigm t k)) ∧
   (∀ (op : FsfOp) (t : Tag) (k : Rnd) (x : Nat) (a : XVal), tagFlt t = true → (fmtOf t).Reads k.ftz x a →
      let f := fmtOf t
      let one := f.inFlags k.ftz [x]
      let out := fFsf op t k x
      (∀ r fl, FsfListed f op a r fl → f.Gives { k with rnd := 0 } (one ||| fl) r out) ∧
      (op.Free f a → (∀ q, f.value out.1 ≠ .nan q) ∧ (k.ftz = true → f.subnormal out.1 = false) ∧
        out.2 = one ||| fNX ||| (if out.1 / 2 ^ f.fb % 2 ^ f.eb = 0 then fUF else 0) |||
          (if ∃ s, f.value out.1 = .inf s then fOF else 0)))) ∧
  ((∀ (op : FsfOp) (t : Tag) (k : Rnd) (x : Nat) (s : Bool) (m : Nat) (e : Int),
     let f := fmtOf t
     let v : FVal := .fin s m e
     tagFlt t = true → k.ftz = false → x < 2 ^ f.width → f.value x = v → m ≠ 0 → (∀ u, v.Is u → op.Free f (.num u)) →
       let y := fsfValue op s m e
       y.admits f (fsfBound op f m e y) (f.value (fFsf op t k x).1) = true) ∧
   ∀ (s : Bool) (m : Nat) (e : Int) (x y : ℝ), m ≠ 0 → m < 2 ^ 24 → (FVal.fin s m e).Is x →
     ((FVal.fin (fsfValue .rcp s m e).neg (fsfValue .rcp s m e).m (fsfValue .rcp s m e).e).Is y → |y * x - 1| ≤ (2 : ℝ) ^ (-180 : Int)) ∧
     (s = false → (FVal.fin false (fsfValue .rsq s m e).m (fsfValue .rsq s m e).e).Is y →
       0 < y ∧ |y * y * x - 1| ≤ (2 : ℝ) ^ (-180 : Int)))

/-- R129 to R135: conversion, packing, widening, and the tag alone. R110, R111, R130 to R132, R134: what one element
converts to, packs to as PS8, and widens to, with the flags raised. -/
def Obligations.ConversionAndTags : Prop :=
  (WhenActive fun s r g run e act => ∀ (y odd : Bool) (d a b : Reg) (p : BitVec 3) (q : BitVec 2) (t : Tag),
     let u := g.tagOf a
     let ns := tagCount u
     let nd := tagCount t
     let n := min ns nd
     let from_ (l i : Nat) : Nat := elemBits (tagWidth u) (g.lane a l) (if ns ≤ nd then i else p.toNat * nd + i)
     let to_ (i : Nat) : Nat := if ns ≤ nd then p.toNat * ns + i else i
     let one (l i : Nat) : Nat × FFlags := convert odd u t (rndOf g.mode) (from_ l i)
     let kept (h : Group) (w : Nat) (wrote : Nat → Prop) : Prop := g.Quiet (.vec d) →
       (∀ l, (l < g.w → act.getLsbD l = false) → h.lane d l = g.lane d l) ∧
       ∀ l j, j < 32 / w → ¬ wrote j → elemBits w (h.lane d l) j = elemBits w (g.lane d l) j
     (u ≠ .raw → u ≠ .rix → p.toNat < max ns nd / n →
       Completes (if odd then .cvtn y d a p t else .cvt y d a p t) s r g run e [.vec d, .fstat] fun h =>
         (h.vreg d).tag = t ∧ (∀ l, l < g.w → act.getLsbD l = true → ∀ i, i < n →
           elemBits (tagWidth t) (h.lane d l) (to_ i) = (one l i).1 % 2 ^ tagWidth t) ∧
         kept h (tagWidth t) (fun j => ∃ i, i < n ∧ to_ i = j) ∧
         (g.Quiet .fstat → h.fstat = g.fstat ||| orFlags ((lanesOf g.w act).flatMap fun l =>
           (List.range n).map fun i => (one l i).2))) ∧
     (u = .f32 → g.tagOf b = .f32 → Completes (.cvtps y d a b q) s r g run e [.vec d, .fstat] fun h =>
       (h.vreg d).tag = .ps8x4 ∧ (∀ l, l < g.w → act.getLsbD l = true →
         elemBits 8 (h.lane d l) q.toNat = (toPs8 (g.lane a l).toNat (g.lane b l).toNat).1 % 256) ∧
       kept h 8 (fun j => q.toNat = j)) ∧
     Completes (.pack y d a b t) s r g run e [.vec d] (fun h =>
       g.Written h act d t fun l => (g.lane b l <<< 16) ||| (g.lane a l &&& 0xFFFF)) ∧
     (4 ≤ u.num.toNat → p.toNat < ns → Completes (.unpk y d a p) s r g run e [.vec d, .fstat] fun h =>
       g.WrittenFloat h act d (widenTag u) 32 fun l _ => widen u (elemBits (tagWidth u) (g.lane a l) p.toNat)) ∧
     Completes (.tagset y d t) s r g run e [.vec d]
       (fun h => (h.vreg d).tag = t ∧ (g.Quiet (.vec d) → (h.vreg d).lanes = (g.vreg d).lanes)) ∧
     Completes (.tagrd y d a) s r g run e [.uni d] (fun h => h.uni d = (g.vreg a).tag.num.setWidth 32)) ∧
  ((∀ (odd : Bool) (u t : Tag) (k : Rnd) (x : Nat) (a : XVal) (given : FFlags), u ≠ .raw → u ≠ .rix → k.rnd ≤ 4 →
     ElemReads u k.ftz x a given →
     let out := convert odd u t k x
     let flt (q : Tag) : Prop := q ∈ [Tag.f32, .f16x2, .b16x2, .e4x4, .e5x4]
     let w := tagWidth t
     let low : Int := if tagSigned t then -2 ^ (w - 1) else 0
     let high : Int := if tagSigned t then 2 ^ (w - 1) - 1 else 2 ^ w - 1
     let through := (u = .f32 ∨ u = .b16x2) ∧ (t = .e4x4 ∨ t = .e5x4)
     (flt t → ¬ through → (fmtOf t).Gives k given a out) ∧
     (through → ∃ mid r fl, fmtF16.Delivers ⟨if odd then 4 else k.rnd, false, false⟩ a mid fl ∧
       (fmtF16.value mid).Means r ∧ (fmtOf t).Gives k (given ||| fl) r out) ∧
     (flt t → odd = true → ∃ fl, (fmtOf t).Delivers k a out.1 fl) ∧
     (tagInt t = true → tagInt u = false →
       (a = .nan → out = (0, given ||| fNV)) ∧
       (a = .inf true → out = ((low % 2 ^ w).toNat, given ||| fNV)) ∧
       (a = .inf false → out = (high.toNat, given ||| fNV)) ∧
       (∀ s, a = .zero s → out = (0, given)) ∧
       ∀ v, a = .num v → ∃ z, RoundsInt k.rnd v z ∧
         (z < low → out = ((low % 2 ^ w).toNat, given ||| fNV)) ∧
         (high < z → out = (high.toNat, given ||| fNV)) ∧
         (low ≤ z → z ≤ high → out = ((z % 2 ^ w).toNat, given ||| (if v = z then 0 else fNX)))) ∧
     (tagInt t = true → tagInt u = true → ∀ z, a = .ofInt z →
       out = (((if k.sat then min (max low z) high else z) % 2 ^ w).toNat, given))) ∧
   (∀ (x y : Nat) (a c : XVal), fmtF32.Reads false x a → fmtF32.Reads false y c →
     let out := toPs8 x y
     let val (b : Nat) (v : ℝ) : Prop := ∃ r, ElemReads .ps8x4 false b r 0 ∧ (r = .num v ∨ (r = .zero false ∧ v = 0))
     let canonical (b : Nat) : Prop :=
       (b / 16 % 8 = 0 → b = 0) ∧ (b % 8 ≠ 0 → b % 8 ≤ b / 16 % 8) ∧ (val b 0 → b = 0)
     (a = .nan ∨ (∀ v, c = .num v → v < 0) → out = (0, fNV)) ∧
     (∀ v, c = .num v → 0 < v →
       (∀ s, a = .inf s → out = (if s then 0xFF else 0x77, fOF ||| fNX)) ∧ (∀ s, a = .zero s → out = (0, 0)) ∧
       ∀ u, a = .num u →
         (16 < |u / v| → out = (if u < 0 then 0xFF else 0x77, fOF ||| fNX)) ∧
         (|u / v| ≤ 16 → ∃ p, val out.1 p ∧ canonical out.1 ∧ out.2 = (if p = u / v then 0 else fNX) ∧
           ∀ b q, val b q → |u / v - p| ≤ |u / v - q| ∧ (|u / v - p| = |u / v - q| → |p| ≤ |q|) ∧
             (q = p → canonical b → out.1 ≤ b)))) ∧
   ∀ (t : Tag) (x : Nat) (a : XVal) (given : FFlags), 4 ≤ t.num.toNat →
     (t = .rix → x < 2 ^ 16 → widen t x = (x, 0)) ∧
     (t ≠ .rix → ElemReads t false x a given →
       (tagInt t = true → widen t x = (((if tagSigned t then signedOf (tagWidth t) x else x) % 2 ^ 32).toNat, 0)) ∧
       (tagInt t = false → (widen t x).2 = given ∧ (a = .nan → (widen t x).1 = 0x7FC00000) ∧
         (∀ s, a = .inf s → (widen t x).1 = fmtF32.infBits s) ∧ (∀ s, a = .zero s → (widen t x).1 = fmtF32.signBit s) ∧
         ∀ v, a = .num v → fmtF32.Number (widen t x).1 v)) ∧
     widenTag t = if t = .rix then .n32 else if tagInt t then (if tagSigned t then .i32 else .n32) else .f32)

/-! ### Control -/

/-- R60, R63, R69: uniform transfers go to pc + 4 + 4 times the signed immediate, or to the next word. R61, R67: BRP and
RETV split their entry where it stands; a handler entry goes where its serviced lane goes (log entry 21, the model's
choice). -/
def Obligations.TransfersOfControl : Prop :=
  (WhenActive fun s r g run e _ => ∀ (y : Bool) (a : Reg) (o : BitVec 18),
     let target := e.pc + 4 + 4 * o.signExtend 32
     let next := e.pc + 4
     let goes (i : Instr) (dests : List RegName) (pc : Word) (post : Group → Prop) : Prop :=
       GoesTo i s r g dests (g.stack.set run.live { e with pc := pc }) g.rets post
     goes (.bra y o) [] target (fun _ => True) ∧
     goes (.bz y a o) [] (if g.uni a = 0 then target else next) (fun _ => True) ∧
     goes (.bnz y a o) [] (if g.uni a = 0 then next else target) (fun _ => True) ∧
     goes (.loop y a o) [.uni a] (if g.uni a = 1 then next else target) (fun h => h.uni a = g.uni a - 1) ∧
     goes (.join y) [] next (fun _ => True) ∧
     goes (.nop y) [] next (fun _ => True)) ∧
  (WhenActive fun s r g run e act => ∀ (y n : Bool) (p : BitVec 3) (a : Reg) (o : BitVec 18),
     g.Holds e.mask →
     let target := e.pc + 4 + 4 * o.signExtend 32
     let splits (i : Instr) (dest : Nat → Word) : Prop :=
       let st := splitEntries g.w e.mask e.join dest ++ g.stack.eraseIdx run.live
       (e.kind ≠ .handler → g.fits st.length g.rets.length = true → GoesTo i s r g [] st g.rets fun _ => True) ∧
       (e.kind ≠ .handler → g.fits st.length g.rets.length = false → g.Holds act → Traps i s r g run e act .stackOvf 0 0) ∧
       (e.kind = .handler →
         GoesTo i s r g [] (g.stack.set run.live { e with pc := dest (lowest e.mask) }) g.rets fun _ => True)
     splits (.brp y n p o) (fun l =>
       if act.getLsbD l = true ∧ (g.predicate p).getLsbD l = !n then target else e.pc + 4) ∧
     splits (.retv y a) (fun l => if act.getLsbD l then g.lane a l &&& 0xFFFFFFFC else e.pc + 4))

/-- R54: the pieces of a split: one for each destination, the lowest on top, each with the lanes that go there. -/
def Obligations.SplitByDestination : Prop :=
  ∀ (w : Nat) (m : Mask) (join : Option Word) (dest : Nat → Word),
    let ps := splitEntries w m join dest
    ps.Pairwise (fun a b => a.pc.toNat < b.pc.toNat) ∧
    (∀ p ∈ ps, p.kind = .path ∧ p.join = join ∧ p.mask ≠ 0 ∧ p.arrived = false ∧
      ∀ l, l < 64 → (p.mask.getLsbD l = true ↔ l < w ∧ m.getLsbD l = true ∧ dest l = p.pc)) ∧
    ∀ l, l < w → m.getLsbD l = true → ∃ p ∈ ps, p.pc = dest l

/-- R56, R62, R64 to R66: the issuing entry changes places with the top one; SETJ puts a path above a continuation at the
target, CALLV the pieces of a split above one at the next word, CALL and CALLI push a return entry. R65: RET goes to the
newest return offset, and takes it off; without one it traps, and at another depth. -/
def Obligations.CallsAndReturns : Prop :=
  (WhenActive fun s r g run e act => ∀ (y : Bool) (d a : Reg) (o : BitVec 18) (below : List Entry),
     e.kind ≠ .handler → g.Holds e.mask →
     (run.live = 0 ∧ g.stack = e :: below ∨ run.live = 1 ∧ ∃ x rest, g.stack = x :: e :: rest ∧ below = x :: rest) →
     let target := e.pc + 4 + 4 * o.signExtend 32
     let next := e.pc + 4
     let leaves (i : Instr) (dests : List RegName) (st : List Entry) (rets : List RetEntry) (post : Group → Prop) : Prop :=
       (g.fits st.length rets.length = true → GoesTo i s r g dests st rets post) ∧
       (g.fits st.length rets.length = false → g.Holds act → Traps i s r g run e act .stackOvf 0 0)
     leaves (.setj y o) [] (pathEntry next e.mask (some target) :: { e with kind := .cont, pc := target } :: below) g.rets (fun _ => True) ∧
     leaves (.call y o) [] ({ e with pc := target } :: below) (⟨next, below.length⟩ :: g.rets) (fun _ => True) ∧
     leaves (.calli y a) [] ({ e with pc := g.uni a &&& 0xFFFFFFFC } :: below) (⟨next, below.length⟩ :: g.rets) (fun _ => True) ∧
     leaves (.callv y d a) [.vec d] (splitEntries g.w e.mask (some next)
         (fun l => if act.getLsbD l then g.lane a l &&& 0xFFFFFFFC else next) ++
       { e with kind := .cont, pc := next } :: below) g.rets (fun h => g.Written h act d .n32 fun _ => next)) ∧
  (WhenActive fun s r g run e act => ∀ (y : Bool) (t : RetEntry) (rest : List RetEntry),
     (g.rets = t :: rest → t.depth + 1 + run.live = g.stack.length →
       GoesTo (.ret y) s r g [] (g.stack.set run.live { e with pc := t.off }) rest fun _ => True) ∧
     (g.rets = t :: rest → t.depth + 1 + run.live ≠ g.stack.length → g.Holds act →
       Traps (.ret y) s r g run e act .retDiv 0 0) ∧
     (g.rets = [] → g.Holds act → Traps (.ret y) s r g run e act .retEmpty 0 0))

/-- R55, R68: EXIT takes its active lanes out of every entry; with the last lane the group ends. -/
def Obligations.LanesExit : Prop :=
  WhenActive fun s r g run e act => ∀ (y : Bool),
    e.kind ≠ .handler → (∀ m ∈ g.marks, act.getLsbD m.lane = false) →
    let st := (g.stack.set run.live { e with pc := e.pc + 4 }).map fun x => { x with mask := x.mask &&& ~~~act }
    ((∃ x ∈ st, x.mask ≠ 0) → GoesTo (.exit y) s r g [] st g.rets fun _ => True) ∧
    ((∀ x ∈ st, x.mask = 0) → ∃ t h, exec (.exit y) s = .next t ∧ t.group r = some h ∧ h.ended = true ∧ h.stack = [] ∧
      h.rets = [] ∧ h.run = none ∧ h.locks = [] ∧ h.acc.map Access.core = g.acc.map Access.core ∧
      g.KeepsRegisters h [] ∧ t.mem = s.mem ∧ t.parts = s.parts ∧ (∀ q, q ≠ r → t.group q = s.group q))

/-! ### Traps and their service -/

/-- R167, R169, R173, R174, R180, R181, R48, R49: TRAP n, BRKPT n, EMU and ILL make lanes enter the handler. That the
divergence area is written then, and that TSTACK is taken after arrivals, are the model's choices (log entries 22, 47), and
so are the operand fields of an ILL word (log entry 84). -/
def Obligations.TrapsEnterTheHandler : Prop :=
  WhenActive fun s r g run e act => ∀ (y : Bool) (n : BitVec 6) (k : BitVec 24) (a b c d : Reg),
    act &&& ~~~(fullMask g.w) = 0 → e.mask &&& ~~~(fullMask g.w) = 0 →
    (g.CanEnter run e act → TakesTrap (.trap y n) s r g run e act .trap n.toNat) ∧
    (g.CanEnter run e act → g.debug = false → TakesTrap (.brkpt y n) s r g run e act .brkpt n.toNat) ∧
    (g.CanEnter run e e.mask → TakesTrap (.emu y d a b c) s r g run e e.mask .illegal 6) ∧
    (g.CanEnter run e e.mask → TakesTrap (.ill y k) s r g run e e.mask .illegal 7)

/-- R167: lanes that trap while the handler entry stands leave their entry for a held entry at the trapping word, and the
trap registers stay; when the divergence area is written is the model's choice (log entry 22). R170, R167: without a
handler, and in serial mode, a trap terminates the group: its lanes are gone, its trap registers describe the trap, and its
grid keeps the earliest termination, by clk, die, core and slot (19 R321). -/
def Obligations.TrapsAreHeldOrTerminate : Prop :=
  (WhenActive fun s r g run e act => ∀ (y : Bool) (n : BitVec 6),
     act &&& ~~~(fullMask g.w) = 0 → g.handler ≠ 0 → g.handlerEntry.isSome → e.kind ≠ .handler →
     let rest := { e with mask := e.mask &&& ~~~act, pc := e.pc + 4 }
     let st := { pathEntry e.pc act e.join with held := true } ::
       (if rest.mask = 0 then g.stack.eraseIdx run.live else g.stack.set run.live rest)
     g.fits st.length g.rets.length = true →
     ∃ t h, exec (.trap y n) s = .next t ∧ t.group r = some h ∧ h.stack = stackAfter st ∧ h.trap = g.trap ∧
       h.laneTraps = g.laneTraps ∧ h.run = none ∧ ({ h with area := g.area } : Group).still = g.still ∧ g.KeepsRegisters h [] ∧
       AreaWritten s t r g h) ∧
  (WhenActive fun s r g _ e act => ∀ (y : Bool) (n : BitVec 6) (gr : Grid),
     act &&& ~~~(fullMask g.w) = 0 → (g.handler = 0 ∨ e.kind = .handler) → s.grid g.grid = some gr →
     ∃ t h, exec (.trap y n) s = .next t ∧ t.group r = some h ∧ h.ended = true ∧ h.stack = [] ∧ h.run = none ∧
       h.trap.tcause = tcauseWord (lowest act) n.toNat 13 ∧ h.trap.tpc = g.codeBase + e.pc.setWidth 64 ∧
       h.trap.tword = encodeWord (.trap y n) ∧ h.trap.tlanes = act ∧ t.mem = s.mem ∧
       (∀ q, q ≠ r → t.group q = s.group q) ∧
       ∃ gr' : Grid, t.grid g.grid = some gr' ∧
         (let mine : Termination := ⟨13, n.toNat, s.clk, r.die.val, r.core.val, r.slot.val, g.gidx, g.clu,
           g.codeBase + e.pc.setWidth 64⟩
          (gr.term = none → gr'.term = some mine) ∧
          ∀ u, gr.term = some u → gr'.term = if mine.before u then some mine else some u))

/-- R169, R183: RETT, RETT_NEXT and RETT_KILL end service of the lowest lane: the handler entry starts again for the next
lane with its cause and address; when the divergence area is written is the model's choice (log entry 22). R169, R183: after
the last lane the handler entry is removed, held entries go on, and the lanes that resume are split by their resume offsets. -/
def Obligations.HandlerService : Prop :=
  (WhenActive fun s r g run e _ => ∀ (y : Bool),
     let l := lowest e.mask
     let left := e.mask &&& ~~~(laneBit l)
     e.kind = .handler → left ≠ 0 →
     let back := loWord (g.trap.tpc - g.codeBase) &&& 0xFFFFFFFC
     let serves (i : Instr) (state : BitVec 2) (resume : Word) (kills : Bool) : Prop :=
       ∃ t h, exec i s = .next t ∧ t.group r = some h ∧
         AreaWritten s t r g h ∧
         h.run = none ∧ g.KeepsRegisters h [] ∧
         h.stack = stackAfter (((if kills then
             g.stack.map fun x => if x.kind = .handler then x else { x with mask := x.mask &&& ~~~(laneBit l) }
           else g.stack)).set run.live { e with mask := left, pc := g.hstart }) ∧
         h.trap = { g.trap with
           tcause := ((g.laneTraps[lowest left]?).map LaneTrap.cause).getD 0
           taddr := ((g.laneTraps[lowest left]?).map LaneTrap.addr).getD 0
           tpc := g.htpc } ∧
         h.laneTraps[l]? = (g.laneTraps[l]?).map (fun x => { x with state := state, resume := resume }) ∧
         ∀ k, k ≠ l → h.laneTraps[k]? = g.laneTraps[k]?
     serves (.rett y) 2 back false ∧ serves (.rettNext y) 2 (back + 4) false ∧ serves (.rettKill y) 3 0 true) ∧
  (WhenActive fun s r g run e _ => ∀ (y : Bool),
     let l := lowest e.mask
     e.kind = .handler → e.mask = laneBit l →
     let back := loWord (g.trap.tpc - g.codeBase) &&& 0xFFFFFFFC
     let ends (i : Instr) (state : BitVec 2) (resume : Word) (kills : Bool) : Prop :=
       let done := g.laneTraps.setIfInBounds l
         { (g.laneTraps[l]?).getD ⟨0, 0, 0, 0⟩ with state := state, resume := resume }
       let again := maskOf ((List.range g.w).filter fun k => ((done[k]?).map LaneTrap.state).getD 0 == 2)
       let below := (((if kills then
             g.stack.map fun x => if x.kind = .handler then x else { x with mask := x.mask &&& ~~~(laneBit l) }
           else g.stack)).eraseIdx run.live).map fun x => { x with held := false }
       let st := splitEntries g.w again e.join (fun k => ((done[k]?).map LaneTrap.resume).getD 0) ++ below
       g.fits st.length g.rets.length = true → (∃ x ∈ st, x.mask ≠ 0) →
       ∃ t h, exec i s = .next t ∧ t.group r = some h ∧
         AreaWritten s t r g h ∧
         h.run = none ∧ g.KeepsRegisters h [] ∧ h.stack = stackAfter st ∧ h.trap = g.trap ∧
         h.laneTraps = done.map fun x => { x with state := 0 }
     ends (.rett y) 2 back false ∧ ends (.rettNext y) 2 (back + 4) false ∧ ends (.rettKill y) 3 0 true)

/-- R42, R47, R118: a typed operand outside the accepted tags, or operands of different tags, trap FORMAT in every active
lane, with no other effect. -/
def Obligations.FormatTraps : Prop :=
  WhenActive fun s r g run e act => ∀ (y : Bool) (d a b c : Reg), g.Holds act →
    let int (x : Reg) : Bool := tagInt (g.tagOf x)
    let flt (x : Reg) : Bool := tagFlt (g.tagOf x)
    let traps (i : Instr) : Prop := Traps i s r g run e act .format 0 0
    (g.tagOf a ≠ g.tagOf b ∨ (int a = false ∧ flt a = false) →
      traps (.vadd y d a b) ∧ traps (.vsub y d a b) ∧ traps (.vmul y d a b)) ∧
    (g.tagOf a ≠ g.tagOf b ∨ int a = false →
      traps (.vmulh y d a b) ∧ traps (.vmulhn y d a b) ∧ traps (.vmin y d a b) ∧ traps (.vmax y d a b) ∧
      traps (.vminn y d a b) ∧ traps (.vmaxn y d a b)) ∧
    (int a = false → traps (.vabs y d a) ∧ traps (.vneg y d a)) ∧
    (g.tagOf a ≠ g.tagOf b ∨ g.tagOf a ≠ g.tagOf c ∨ int a = false → traps (.vmad y d a b c)) ∧
    (g.tagOf a ≠ g.tagOf b ∨ flt a = false →
      traps (.fadd y d a b) ∧ traps (.fsub y d a b) ∧ traps (.fmul y d a b) ∧ traps (.fdiv y d a b) ∧
      traps (.fmin y d a b) ∧ traps (.fmax y d a b) ∧ traps (.fcpsgn y d a b)) ∧
    (g.tagOf a ≠ g.tagOf b ∨ g.tagOf a ≠ g.tagOf c ∨ flt a = false →
      traps (.fma y d a b c) ∧ traps (.fms y d a b c) ∧ traps (.fnma y d a b c)) ∧
    (flt a = false → traps (.fabs y d a) ∧ traps (.fneg y d a) ∧ traps (.frcp y d a) ∧ traps (.fsqrt y d a) ∧
      traps (.fclass y d a) ∧ traps (.frint y d a) ∧ traps (.ffrac y d a))

/-! ### System and special registers -/

/-- R40, R45, R46, R176 to R178: SETMODE, MODEF and GETMODE; a reserved value traps ILLEGAL, detail 2, in every lane of the
entry, whatever the guard leaves active (log entry 40), and changes nothing. That MODEF does not wait for the flags of
atomics in flight is the model's choice (log entry 81). -/
def Obligations.ModeInstructions : Prop :=
  (WhenActive fun s r g run e _ => ∀ (y : Bool) (d a b : Reg),
    let x := g.uni a
    let m := g.uni b
    let mixed := (g.mode &&& ~~~m) ||| (x &&& m)
    (modeLegal x = true → Completes (.setmode y a) s r g run e [.mode] fun h => h.mode = x) ∧
    (modeLegal mixed = true → Completes (.modef y d a b) s r g run e [.uni d, .mode, .fstat] fun h =>
      h.mode = mixed ∧ h.uni d = (g.fstat ||| g.pendingFlags).setWidth 32 ∧ h.fstat = 0) ∧
    Completes (.getmode y d) s r g run e [.uni d] (fun h => h.uni d = g.mode)) ∧
  ∀ (s : State) (r : GroupRef) (g : Group) (run : Run) (e : Entry) (act : Mask), s.Sound → Issuing s r g run e act →
    e.kind ≠ .handler → g.Holds e.mask → ∀ (i : Instr) (y : Bool) (d a b : Reg), (i = .setmode y a ∨ i = .modef y d a b) →
      reservedMode g i = true → Traps i s r g run e e.mask .illegal 2 0

/-- R38, R85 to R88, R175, R185: SRDSR and SYSRD read a special or system register into a register or a pair, LANE outside
serial mode into every active lane. R175, R183, R185: SYSWR writes HANDLER, TPC and TADDR from a pair, TCAUSE's low half and
GSTAT's RESUMED and FORCEDB from a register. -/
def Obligations.SpecialRegisters : Prop :=
  (WhenActive fun s r g run e act => ∀ (y : Bool) (d : Reg) (j : BitVec 10) (n : SReg) (m : SysReg),
     let word (x : Nat) : Addr := (BitVec.ofNat 32 x).setWidth 64
     let serial := e.kind == .handler
     let value (index : Nat) (n : SReg) : Addr := match n with
       | .lane => word (lowest act)
       | .width => word g.w
       | .group => word g.idx
       | .team => word g.team
       | .cluster => word (g.clu / s.gridDies g)
       | .die => word r.die.val
       | .ndie => word (s.gridDies g)
       | .grid => word g.grid
       | .core => word (s.logical r.die r.core)
       | .pcore => word r.core.val
       | .part => word g.part.val
       | .clk => BitVec.ofNat 64 s.clk
       | .time => BitVec.ofNat 64 (s.clk * 20 / 17)
       | .lpt => (s.lptEntry index).setWidth 64
       | .fstat => g.fstat.setWidth 64
       | .handler => g.handler
       | .tcause => g.trap.tcause.setWidth 64
       | .tpc => g.trap.tpc
       | .tword => g.trap.tword.setWidth 64
       | .topa => g.trap.topa.setWidth 64
       | .topb => g.trap.topb.setWidth 64
       | .topc => g.trap.topc.setWidth 64
       | .tlanes => g.trap.tlanes
       | .taddr => g.trap.taddr
       | .tstack => g.trap.tstack.setWidth 64
       | .gstat => word (8 * bit g.resumed + 4 * bit g.hasHeld + 2 * bit serial + bit g.forcedB)
       | .hmap k => if s.dieok.getLsbD k.val then (s.harvest[k]).setWidth 64 else 0
     let reads (i : Instr) (wide : Bool) (x : Addr) : Prop :=
       if wide then Completes i s r g run e [.uni d, .uni (d + 1)] fun h => h.pair d = x
       else Completes i s r g run e [.uni d] fun h => h.uni d = x.setWidth 32
     ((n ≠ .lane ∨ serial = true) → reads (.srdsr y d j n) n.wide
       (value (if j = 0x3FF then (g.uni d).toNat % 1024 else j.toNat) n)) ∧
     (serial = false → Completes (.srdsr y d j .lane) s r g run e [.vec d] fun h =>
       g.Written h act d .n32 fun l => BitVec.ofNat 32 l) ∧
     reads (.sysrd y d m) m.wide (match m with
       | .sr n => value 0 n
       | .tbase => (s.parts[g.part]).tbase
       | .codebase => g.codeBase
       | .pstore => g.store)) ∧
  (WhenActive fun s r g run e _ => ∀ (y : Bool) (d : Reg),
     let writes (n : SReg) (g' : Group) : Prop :=
       GoesTo (.syswr y d (.sr n)) s r g' [] (g.stack.set run.live { e with pc := e.pc + 4 }) g.rets fun _ => True
     writes .handler { g with handler := g.pair d } ∧
     writes .tpc { g with trap := { g.trap with tpc := g.pair d } } ∧
     writes .taddr { g with trap := { g.trap with taddr := g.pair d } } ∧
     writes .tcause { g with trap := { g.trap with
       tcause := (g.trap.tcause &&& 0xFFFF0000) ||| (g.uni d &&& 0x0000FFFF) } } ∧
     ∃ t h, exec (.syswr y d (.sr .gstat)) s = .next t ∧ t.group r = some h ∧ h.resumed = (g.uni d).getLsbD 3 ∧
       h.forcedB = ((g.uni d).getLsbD 0 || forcesB (encodeWord (.syswr y d (.sr .gstat))) true (run.pos + 1)) ∧ g.KeepsRegisters h [] ∧ t.mem = s.mem ∧
       ∀ q, q ≠ r → t.group q = s.group q)

/-- R181, R182, R189, R190: YIELD withholds grants for 64 clk; SLEEP passes or waits for TIME; HALT, and BRKPT where the
grid may be debugged, halt the group at the next word and report it to the host; that the divergence area is written at a
halt is the model's choice (log entry 22). R186: TLBINV and TLBINV_ALL are accesses of counter G that drop translations; an
address that is not global traps RANGE. -/
def Obligations.WaitsHaltsAndDrops : Prop :=
  (WhenActive fun s r g run e _ => ∀ (y : Bool) (a : Reg) (n : BitVec 6),
     let falls := g.stack.set run.live { e with pc := e.pc + 4 }
     let halts (i : Instr) : Prop := ∃ t h, exec i s = .next t ∧ t.group r = some h ∧ h.wait = some .halted ∧
       h.waitFrom = s.clk ∧ h.run = none ∧ h.stack = stackAfter falls ∧ g.KeepsRegisters h [] ∧
       (t.parts[g.part]).evhead = (s.parts[g.part]).evhead + 1 ∧
       (let at_ := 8 * (s.parts[g.part]).evhead.toNat
        Tbl.find (t.parts[g.part]).events at_ = some (BitVec.ofNat 32 (2 ^ 24 + r.die.val * 2 ^ 20 + r.core.val * 2 ^ 14)) ∧
        Tbl.find (t.parts[g.part]).events (at_ + 1) = some (BitVec.ofNat 32 g.grid) ∧
        Tbl.find (t.parts[g.part]).events (at_ + 2) = some (loWord (g.codeBase + e.pc.setWidth 64)) ∧
        Tbl.find (t.parts[g.part]).events (at_ + 3) = some (hiWord (g.codeBase + e.pc.setWidth 64))) ∧
       t.mem = (s.writeArea { h with area := g.area }).mem ∧ (∀ q, q ≠ r → t.group q = s.group q)
     GoesTo (.yield y) s r { g with yieldUntil := s.clk + 64 } [] falls g.rets (fun _ => True) ∧
     ((g.pair a).toNat ≤ s.clk * 20 / 17 → Completes (.sleep y a) s r g run e [] fun _ => True) ∧
     (s.clk * 20 / 17 < (g.pair a).toNat → Waits (.sleep y a) s s r g (.sleep (g.pair a).toNat)) ∧
     halts (.halt y) ∧ (g.debug = true → halts (.brkpt y n))) ∧
  (WhenActive fun s r g run e act => ∀ (y : Bool) (a : Reg),
     let ea := g.pair a
     let drops (i : Instr) (ea : Addr) (va : Option Nat) : Prop := g.count .g < 63 →
       Issues i s s r g run e (accessOf i g e act .g (.dropTlb (s.cid g.part) va) .none
         [⟨wholeLane, ea, [], [], .waiting, 0⟩] none)
     (ea.toNat < 2 ^ 57 → drops (.tlbinv y a) ea (some ea.toNat)) ∧
     (2 ^ 57 ≤ ea.toNat → g.Holds act → Traps (.tlbinv y a) s r g run e act .range 0 ea) ∧
     drops (.tlbinvAll y) 0 none)

/-- R187, R188, R191, R195: CTXSV stores the group's image and clears s_d; CTXLD takes an image that no case of R188 fails,
traps DESC, detail 1, on another, and POISON on a poisoned one; both wait until nothing of the group is outstanding. The
model's choices: the image holds the results in flight, s_d as 1 and the next word (log entry 27); reserved MODE values,
tags and return counts fail an image, and a poisoned image raises POISON as any use of poisoned data does, of which R188
says nothing (log entry 28); TSTACK counts the deeper entries read back from the divergence area (log entry 29); that area
is written before CTXSV and CTXLD (log entry 22). -/
def Obligations.GroupImages : Prop :=
  (WhenActive fun s r g run e act => ∀ (y : Bool) (d a : Reg) (ps : List (Place × Option Trans)),
    let ea := g.pair a
    let c (i : Instr) := ctxOf i r g run e act
    let places := ps.map (·.1)
    let ts := ps.filterMap (·.2)
    let none_owned := ∀ x ∈ places, s.ownedByEngine x = false
    let dirty := ∃ x ∈ places, ∃ pa, placePa x = some pa ∧ poisoned s.poison pa = true
    (g.acc ≠ [] → exec (.ctxsv y d a) s = .next s ∧ exec (.ctxld y a) s = .next s) ∧
    (∀ cause, g.acc = [] → s.checkImage (c (.ctxsv y d a)) ⟨true, false, 1⟩ ea = .fault cause → g.Holds act →
      Traps (.ctxsv y d a) s r g run e act cause 0 ea) ∧
    (∀ cause, g.acc = [] → s.checkImage (c (.ctxld y a)) ⟨false, false, 1⟩ ea = .fault cause → g.Holds act →
      Traps (.ctxld y a) s r g run e act cause 0 ea) ∧
    (g.acc = [] → s.checkImage (c (.ctxsv y d a)) ⟨true, false, 1⟩ ea = .ok ps → none_owned →
      GoesFrom (.ctxsv y d a) s (((s.writeArea g).touchAll ts true).storePlaces r.die g.part places
          (({ g.settled with
              s := g.settled.s.set d.toNat 1
              stack := g.stack.set run.live { e with pc := e.pc + 4 } } : Group).image true 0 0))
          r { g with area := g.areaSlots } [.uni d] (g.stack.set run.live { e with pc := e.pc + 4 }) g.rets
          fun h => h.uni d = 0) ∧
    (g.acc = [] → s.checkImage (c (.ctxld y a)) ⟨false, false, 1⟩ ea = .ok ps → none_owned →
      let u := (s.touchAll ts false).loadPlaces r.die g.part places
      let n := imDeep g u.2
      let deep := (u.1.writeArea g).areaAt g (List.range n.1)
      let back := deep.1.areaAt g ((List.range n.2).map fun i => g.depth - 1 - i)
      let x := loadImage g u.2 deep.2 back.2
      (imageGood g u.2 = true → ¬ dirty → (∃ z ∈ x.stack, z.mask ≠ 0) →
        GoesFrom (.ctxld y a) s back.1 r x [] x.stack x.rets fun h =>
          h.mode = imWord u.2 4 ∧ h.resumed = true ∧ h.fstat.setWidth 32 = imWord u.2 8 ∧
          h.trap.tcause = imWord u.2 0x14 ∧ h.trap.tpc = imPair u.2 0x20 ∧ h.handler = imPair u.2 0x38 ∧
          (∀ k : Reg, h.uni k = imWord u.2 (0x100 + 4 * k.toNat)) ∧
          ∀ j : Reg, j.toNat < g.nv → ∀ l, l < g.w → l < 64 → h.lane j l = imWord u.2 (0x680 + 4 * (j.toNat * g.w + l))) ∧
      (imageGood g u.2 = false → ¬ dirty → exec (.ctxld y a) s = .next (u.1.trapAll (c (.ctxld y a)) .desc 1)) ∧
      (dirty → exec (.ctxld y a) s = .next (u.1.trapAll (c (.ctxld y a)) .poison 0 ea)))) ∧
  ∀ (g : Group) (serial : Bool) (counts : Word) (lock : BitVec 128), g.nv ≤ 64 → g.w ≤ 64 →
    let im := g.image serial counts lock
    im.length = (0x680 + 4 * g.nv * g.w) / 4 ∧
    imWord im 0 = BitVec.ofNat 32 (2 ^ 24 + g.nv * 65536 + g.w * 256 + min 8 g.rets.length) ∧
    imWord im 4 = g.mode ∧ imWord im 0x10 = counts ∧ imWord im 0x14 = g.trap.tcause ∧ imWord im 0x18 = g.trap.tword ∧
    imPair im 0x20 = g.trap.tpc ∧ imPair im 0x28 = g.trap.taddr ∧ imPair im 0x30 = g.trap.tlanes ∧ imPair im 0x38 = g.handler ∧
    imSlot im 0x50 = lock ∧ (∀ k, k < 2 → imSlot im (0x60 + 16 * k) = ((g.stack[k]?).map Entry.slot).getD 0) ∧
    (∀ k, k < 8 → imSlot im (0x80 + 16 * k) = ((g.rets[k]?).map RetEntry.slot).getD 0) ∧
    (∀ k : Reg, imWord im (0x100 + 4 * k.toNat) = g.uni k) ∧ (∀ k : Fin 8, imPair im (0x200 + 8 * k.val) = g.p[k]) ∧
    ∀ j : Reg, j.toNat < g.nv → ∀ l, l < g.w → imWord im (0x680 + 4 * (j.toNat * g.w + l)) = g.lane j l

/-! ### Memory accesses -/

/-- R151, R158 to R161, R300: loads issue one access on the counter of their path, with the address of each active lane, a
register for each word, under MODE.LDFMT. R151, R158 to R161, R299: stores issue one access on the counter of their path
with their data, read as they issue. -/
def Obligations.LoadsAndStoresIssue : Prop :=
  (WhenActive fun s r g run e act => ∀ (y : Bool) (d b j : Reg) (q : Order) (p : Scope),
     let t := modeLdfmt g.mode
     let one (i : Instr) (n : Nat) : Prop :=
       IssuesLanes i s r g run e act .g .load (.vec d (List.replicate n (some t))) false q p true (g.laneAt b j)
         (fun l ea => s.checkGeneric r g loadNeed l ea n (4 * n) (4 * n)) fun _ => []
     one (.ldg y d b j q p) 1 ∧ one (.ldgw y d b j q p) 4 ∧
     IssuesLanes (.ldt y d b j q p) s r g run e act .t .load (.vec d [some t]) false q p true
       (fun l => (g.teamAt b j l).setWidth 64) (fun _ ea => s.checkTeam r g (loWord ea) 4 4) (fun _ => []) ∧
     IssuesWhole (.ldk y d b j q p) s r g run e act .load (.uni d) false q p true (g.wholeAt b j)
       (s.checkWhole (ctxOf (.ldk y d b j q p) r g run e act) loadNeed (g.wholeAt b j)) [] ∧
     (reduceTag t = true → IssuesLanes (.ldred y d b j q p) s r g run e act .g (.reduce t) (.vec d [some t]) false q p true
       (g.laneAt b j) (fun l ea => s.checkGeneric r g ⟨false, false, 2⟩ l ea 1 4 4) fun _ => []) ∧
     (reduceTag t = false → g.Holds act → Traps (.ldred y d b j q p) s r g run e act .format 0 0)) ∧
  (WhenActive fun s r g run e act => ∀ (y : Bool) (d b j : Reg) (q : Order) (p : Scope),
     let data (n l : Nat) : List Word := (List.range n).map fun k => g.lane (d + BitVec.ofNat 6 k) l
     let one (i : Instr) (n : Nat) : Prop :=
       IssuesLanes i s r g run e act .g .store .none true q p true (g.laneAt b j)
         (fun l ea => s.checkGeneric r g storeNeed l ea n (4 * n) (4 * n)) (data n)
     one (.stg y d b j q p) 1 ∧ one (.stgw y d b j q p) 4 ∧
     IssuesLanes (.stt y d b j q p) s r g run e act .t .store .none true q p true
       (fun l => (g.teamAt b j l).setWidth 64) (fun _ ea => s.checkTeam r g (loWord ea) 4 4) (data 1) ∧
     IssuesWhole (.stk y d b j q p) s r g run e act .store .none true q p true (g.wholeAt b j)
       (s.checkWhole (ctxOf (.stk y d b j q p) r g run e act) storeNeed (g.wholeAt b j)) [g.uni d] ∧
     IssuesLanes (.stmc y d b j q p) s r g run e act .g .multicast .none true q p true (g.laneAt b j)
       (fun l ea => s.checkGeneric r g ⟨true, false, 2⟩ l ea 1 4 4) (data 1))

/-- R199, R203 to R206, 17 R302: atomics issue with the operand of each lane and the swap value of CAS, at MODE.SCOPE, to
land under the tag that d carries as they issue; a floating operation on a register that is not FLT traps FORMAT. -/
def Obligations.AtomicsIssue : Prop :=
  WhenActive fun s r g run e act => ∀ (y : Bool) (d b j : Reg) (op : AtomOp) (q : Order),
    let float := op = .fadd ∨ op = .fmin ∨ op = .fmax
    let data (l : Nat) : List Word := if op = .cas then [g.lane d l, g.lane (d + 1) l] else [g.lane d l]
    let sc := modeScope g.mode
    let one (i : Instr) (n : Need) (dest : Dest) (kind : Tag → AccKind) : Prop :=
      (∀ t, (float → g.tagOf d = t ∧ (t = .f32 ∨ t = .f16x2 ∨ t = .b16x2)) → (¬ float → t = .raw) →
        IssuesLanes i s r g run e act .g (kind t) dest true q sc true (g.laneAt b j)
          (fun l ea => s.checkGeneric r g n l ea 1 4 4) data) ∧
      (float → tagFlt (g.tagOf d) = false → g.Holds act → Traps i s r g run e act .format 0 0)
    one (.atom y d b j op q) ⟨true, true, 1⟩ (.vec d [some (g.vreg d).tag]) (.atomic op) ∧
    one (.red y d b j op q) ⟨true, true, 1⟩ .none (.atomic op) ∧
    one (.fatom y d b j op q) ⟨true, false, 3⟩ (.vec d [some (g.vreg d).tag]) (.switchAtomic op) ∧
    IssuesWhole (.atomu y d b j op q) s r g run e act (.atomic op .f32) (.uni d) true q sc true (g.wholeAt b j)
      (s.checkWhole (ctxOf (.atomu y d b j op q) r g run e act) ⟨true, true, 1⟩ (g.wholeAt b j))
      (if op = .cas then [g.uni d, g.uni (d + 1)] else [g.uni d])

/-- R155, R156, R160, R161, 09 R167: each lane whose address fails a check traps with its own cause and address, whether
every active lane fails or only some: then the access of the lanes that pass is issued and they go on at the next word. An
access made once for the group traps every active lane. An address of the global window that is not a multiple of the
access's size fails with ALIGN, a team offset that is no multiple of 4 with ALIGN or RANGE, one with reserved bits set with
RANGE. -/
def Obligations.FailingLanesTrap : Prop :=
  WhenActive fun s r g run e act => ∀ (y : Bool) (d b j : Reg) (op : AtomOp) (q : Order) (p : Scope),
    let t := modeLdfmt g.mode
    let data (n l : Nat) : List Word := (List.range n).map fun k => g.lane (d + BitVec.ofNat 6 k) l
    let lanes (i : Instr) (path : Path) (kind : AccKind) (dest : Dest) (store : Bool) (q : Order) (sc : Scope)
        (ea : Nat → Addr) (check : Nat → Addr → Checked) (data : Nat → List Word) : Prop :=
      FaultsLanes i s r g run e act ea check ∧
      SplitsLanes i s r g run e act path kind dest store q sc true ea check data
    let global (i : Instr) (kind : AccKind) (dest : Dest) (store : Bool) (q : Order) (sc : Scope) (n : Need) (words : Nat)
        (data : Nat → List Word) : Prop :=
      lanes i .g kind dest store q sc (g.laneAt b j) (fun l ea => s.checkGeneric r g n l ea words (4 * words) (4 * words)) data
    let team (i : Instr) (kind : AccKind) (dest : Dest) (store : Bool) (data : Nat → List Word) : Prop :=
      lanes i .t kind dest store q p (fun l => (g.teamAt b j l).setWidth 64) (fun _ ea => s.checkTeam r g (loWord ea) 4 4) data
    let whole (i : Instr) (n : Need) : Prop := ∀ c,
      s.checkWhole (ctxOf i r g run e act) n (g.wholeAt b j) = .fault c → g.Holds act →
      Traps i s r g run e act c 0 (g.wholeAt b j)
    global (.ldg y d b j q p) .load (.vec d [some t]) false q p loadNeed 1 (fun _ => []) ∧
    global (.ldgw y d b j q p) .load (.vec d (List.replicate 4 (some t))) false q p loadNeed 4 (fun _ => []) ∧
    global (.stg y d b j q p) .store .none true q p storeNeed 1 (data 1) ∧
    global (.stgw y d b j q p) .store .none true q p storeNeed 4 (data 4) ∧
    global (.stmc y d b j q p) .multicast .none true q p ⟨true, false, 2⟩ 1 (data 1) ∧
    (reduceTag t = true → global (.ldred y d b j q p) (.reduce t) (.vec d [some t]) false q p ⟨false, false, 2⟩ 1 fun _ => []) ∧
    (op ≠ .fadd → op ≠ .fmin → op ≠ .fmax →
      let data (l : Nat) : List Word := if op = .cas then [g.lane d l, g.lane (d + 1) l] else [g.lane d l]
      let old : Dest := .vec d [some (g.vreg d).tag]
      let sc := modeScope g.mode
      global (.atom y d b j op q) (.atomic op .raw) old true q sc ⟨true, true, 1⟩ 1 data ∧
      global (.red y d b j op q) (.atomic op .raw) .none true q sc ⟨true, true, 1⟩ 1 data ∧
      global (.fatom y d b j op q) (.switchAtomic op .raw) old true q sc ⟨true, false, 3⟩ 1 data) ∧
    team (.ldt y d b j q p) .load (.vec d [some t]) false (fun _ => []) ∧
    team (.stt y d b j q p) .store .none true (data 1) ∧
    whole (.ldk y d b j q p) loadNeed ∧ whole (.stk y d b j q p) storeNeed ∧ whole (.atomu y d b j op q) ⟨true, true, 1⟩ ∧
    (∀ (n : Need) (l : Nat) (ea : Addr) (words : Nat), 0 < words → ea.toNat + 4 * words ≤ 2 ^ 57 →
      ea.toNat % (4 * words) ≠ 0 → s.checkGeneric r g n l ea words (4 * words) (4 * words) = .fault .align) ∧
    ∀ o : Word,
      (o.extractLsb' 28 4 ≠ 0 ∨ o.extractLsb' 20 4 ≠ 0 → s.checkTeam r g o 4 4 = .fault .range) ∧
      (o.toNat % 4 ≠ 0 → s.checkTeam r g o 4 4 = .fault .align ∨ s.checkTeam r g o 4 4 = .fault .range)

/-- R163, 12 R253, R254, 17 R307, R309: flushes act on the lines of device memory the lanes name, GRFL on those of D pages;
the requests about a line or page are one access of counter K with a status. That SEAL, SEAL_OPEN and VINTRD take the global
window only is the model's reading (log entry 53); GRFL at a constant address is its choice (log entry 83). -/
def Obligations.LineRequestsIssue : Prop :=
  WhenActive fun s r g run e act => ∀ (y m : Bool) (d a b j : Reg) (p : Scope),
    let flushes (i : Instr) (kind : AccKind) (check : Nat → Addr → Checked) : Prop :=
      IssuesLanes i s r g run e act .g kind .none false .none .grp false (g.laneAt b j) check (fun _ => []) ∧
      ((∀ l, l < g.w → act.getLsbD l = true → check l (g.laneAt b j l) = .ok []) →
        Completes i s r g run e [] fun _ => True)
    let ea := g.pair a
    let page (fabric : Nat) : Checked := match windowOf ea with
      | .glob va => s.checkPage r g ⟨false, false, fabric⟩ false va
      | .priv _ | .team _ | .const _ | .none => .fault .range
    let asks (i : Instr) (kind : AccKind) (q : Order) (sc : Scope) (fabric : Nat) : Prop :=
      IssuesWhole i s r g run e act kind (.uni d) false q sc false ea (page fabric) [] ∧
      (2 ^ 57 ≤ ea.toNat → g.Holds act → Traps i s r g run e act .range 0 ea)
    flushes (.flushl y m b j p) (.flush m p) (fun l ea => (s.checkGeneric r g loadNeed l ea 1 1 4).onMemory) ∧
    flushes (.grfl y b j p) .granules (fun l ea => (s.checkGeneric r g ⟨false, false, 4⟩ l ea 1 1 4).onD p) ∧
    asks (.svdecl y d a b) (.declare ((g.uni b).extractLsb' 0 12 ||| dieBit r.die)) .none .grp 1 ∧
    asks (.svdrop y d a) .undeclare .none .grp 1 ∧
    asks (.sealPage y d a) (.sealing false) .rel .fab 1 ∧
    asks (.sealOpen y d a) (.sealing true) .none .fab 1 ∧
    asks (.vintrd y d a) .vintRead .none .fab 0

/-- R162, R164 to R166: PREF fetches lines and changes no register; WAITC passes once its counter is at the threshold, or
waits; CVTA and SPACE read pointers in pairs of vector registers. -/
def Obligations.PrefetchWaitAndPointers : Prop :=
  WhenActive fun s r g run e act => ∀ (y m : Bool) (d a b j : Reg) (path : Path),
    let falls := g.stack.set run.live { e with pc := e.pc + 4 }
    let n := (g.uni a).toNat
    let x (l : Nat) : Addr := g.lane (a + 1) l ++ g.lane a l
    let top (l : Nat) : Nat := (x l).toNat / 2 ^ 56
    let plain (l : Nat) : Prop := (x l).toNat / 2 ^ 32 % 2 ^ 24 = 0
    let marks := g.marks.filter fun m => m.path == path && e.heldLanes.getLsbD m.lane && decide (n ≤ m.after)
    let cs := (lanesOf g.w act).map fun l => s.checkGeneric r g loadNeed l (g.laneAt b j l) 1 1 4
    let offset (i : Instr) (code : Nat) : Prop := Completes i s r g run e [.vec d] fun h =>
      (h.vreg d).tag = .n32 ∧ ∀ l, l < g.w → act.getLsbD l = true →
        (top l = code ∧ plain l → h.lane d l = g.lane a l) ∧ (¬ (top l = code ∧ plain l) → h.lane d l = 0xFFFFFFFF)
    ((∀ x ∈ cs, ∀ k, x ≠ .miss k) → 
      GoesFrom (.pref y m b j) s
        ((cs.flatMap Checked.places).foldl (fun s x => s.prefetch (ctxOf (.pref y m b j) r g run e act) x) s)
        r g [] falls g.rets fun _ => True) ∧
    (g.count path ≤ n → marks = [] → Completes (.waitc y a path) s r g run e [] fun _ => True) ∧
    (n < g.count path → Waits (.waitc y a path) s s r g (.counter path n)) ∧
    offset (.cvta y d a .priv) 0xFC ∧ offset (.cvta y d a .team) 0xFD ∧ offset (.cvta y d a .const) 0xFE ∧
    Completes (.cvta y d a .glob) s r g run e [.vec d, .vec (d + 1)] (fun h =>
      (h.vreg d).tag = .n32 ∧ (h.vreg (d + 1)).tag = .n32 ∧ ∀ l, l < g.w → act.getLsbD l = true →
        (h.lane (d + 1) l ++ h.lane d l : Addr) =
          if top l ≤ 1 then x l
          else if top l = 0xFE ∧ (x l).toNat / 2 ^ 32 % 2 ^ 24 = 0 ∧ (g.lane a l).toNat < g.csize then
            g.cbase + (g.lane a l).setWidth 64
          else if top l = 0xFC ∧ (x l).toNat / 2 ^ 32 % 2 ^ 24 = 0 ∧ (g.lane a l).toNat < g.priv ∧ g.exposePriv = true then
            BitVec.ofNat 64 (privBacking g l (g.lane a l).toNat)
          else 0xFF00000000000000) ∧
    Completes (.space y d a) s r g run e [.vec d] (fun h =>
      (h.vreg d).tag = .n32 ∧ ∀ l, l < g.w → act.getLsbD l = true →
        (top l ≤ 1 → h.lane d l = 2) ∧ (top l = 0xFC ∧ plain l → h.lane d l = 0) ∧
        (top l = 0xFD ∧ plain l → h.lane d l = 1) ∧ (top l = 0xFE ∧ plain l → h.lane d l = 3) ∧
        (1 < top l → ¬ (0xFC ≤ top l ∧ top l ≤ 0xFE ∧ plain l) → h.lane d l = 4))

/-! ### Locks, fences and barriers -/

/-- R215 to R222: LCK and LCKQ answer HELD for a line on the list, else they send their request and wait, with the timeout
of s_d, or what is left of an abandoned wait whose record the group rejoins, an LCK whose first request is still on its way
sending no second; ULCK takes the line off the list and sends its release behind that, or answers NOT_HELD. -/
def Obligations.LockInstructions : Prop :=
  WhenActive fun s r g run e act => ∀ (y : Bool) (d b j : Reg) (q : Order) (line : Nat) (at_ : Attr) (ts : List Trans),
    let ea := g.wholeAt b j
    let sc := modeScope g.mode
    let takes (i : Instr) (kind : LockReqKind) (timeout : Nat) : Prop :=
      s.checkLock (ctxOf i r g run e act) ea true = .ok line at_ ts →
      (line ∈ g.locks → Completes i s r g run e [.uni d] fun h => h.uni d = 5) ∧
      (line ∉ g.locks → ∀ u p, s.holdFor (ctxOf i r g run e act) q sc [line] = .goes u p →
        let v := u.touchAll ts false
        let sent := kind = .take ∧ ∃ x ∈ v.lockReqs, x.uid = g.uid ∧ x.line = line ∧ x.kind = .take
        (¬ sent → Waits i s { v with lockReqs := v.lockReqs ++ [⟨kind, g.uid, r.at, v.incs[r.die], line, ea, g.part⟩] } r
          { g with lockLeft := none } (.lock d line ea (owedAcquire q p) timeout)) ∧
        (sent → Waits i s v r { g with lockLeft := none } (.lock d line ea (owedAcquire q p) timeout)))
    let frees (i : Instr) : Prop :=
      s.checkLock (ctxOf i r g run e act) ea false = .ok line at_ ts → g.count .k < 63 →
      let a (st : LaneSt) := accessOf i g e act .k (.unlock line) (.uni d) [⟨wholeLane, ea, [.mem line at_], [], st, 0⟩] none
      (line ∉ g.locks → Issues i s (s.touchAll ts false) r g run e (a (.done [6]))) ∧
      (line ∈ g.locks → s.requestsAt r + 1 ≤ 384 → ∀ u p, s.holdFor (ctxOf i r g run e act) q sc [line] = .goes u p →
        Issues i s (u.touchAll ts false) r { g with locks := g.locks.filter (· != line) } run e (a .waiting))
    (g.lockLeft = none → takes (.lck y d b j q) .take ((g.uni d).toNat % 2 ^ 24)) ∧
    (∀ x, g.lockLeft = some x → takes (.lck y d b j q) .take
      (if x.line = line ∧ s.rejoins g.uid line = true then x.left else (g.uni d).toNat % 2 ^ 24)) ∧
    takes (.lckq y d b j q) .try_ 0 ∧ frees (.ulck y d b j q)

/-- R209 to R213, R220: a request reaches its home behind the group's earlier ones and in port order; one that meets a free
line takes the lock with status 0 (the mark of poison is code 1); one that meets a held line waits in its queue, where LCKQ
is answered BUSY; a free line goes to its first waiter; a timeout answers 2, unless a grant is due. -/
def Obligations.LockEvents : Prop :=
  ∀ (s : State) (r : GroupRef) (g : Group) (run : Run) (e : Entry) (d : Reg) (line n m : Nat) (ea : Addr)
    (timeout : Nat) (x : LockReq) (k : Lock) (w : Waiter) (rest : List Waiter) (pu : PortUse),
    Waiting s r g (.lock d line ea none timeout) run e → s.byUid g.uid = some (r, g) →
    let took (k : Lock) (u : State) : State := u.setLock { k with holder := some g.uid, poisoned := false }
    let given (i : Instr) (u : State) (code : Nat) (left : Nat) : Prop :=
      WaitEnds i s u r { g with locks := g.locks ++ [line] } run e [.uni d]
        fun h => h.uni d = BitVec.ofNat 32 (left % 65536 * 65536 + code)
    let runsOn := timeout = 0 ∨ s.clk ≤ g.waitFrom + 850 * timeout
    (s.lockReqs[n]? = some x → x.uid = g.uid → x.line = line → s.earlierRequest n x = true →
      exec (.lockRequestArrival n) s = .next s) ∧
    (s.lockReqs[n]? = some x → x.uid = g.uid → x.line = line → s.earlierRequest n x = false → s.portFor x = some pu →
      x.inc = s.incs[x.src.die] →
      let s1 : State := { s with
        lockReqs := s.lockReqs.eraseIdx n
        ports := Tbl.put s.ports (homeOf line, sliceOf line) pu }
      (x.kind ≠ .release → (x.kind = .take → runsOn) → s.lockOf line = none → s.lockFull line = false →
        given (.lockRequestArrival n) (took ⟨line, none, s.clk, [], false, x.part⟩ s1) 0 0) ∧
      (x.kind = .take → runsOn → s.lockOf line = some k → k.holder.isSome → k.holder ≠ some g.uid →
        (k.queue.any fun z => z.uid == g.uid) = false → s1.freeRecord line = some m →
        (k.holder.bind fun h => chase (s1.setLock { k with queue := k.queue ++ [⟨m, g.uid⟩] }).lockTab g.uid 16 1 h) = none →
        exec (.lockRequestArrival n) s = .next (s1.setLock { k with queue := k.queue ++ [⟨m, g.uid⟩] })) ∧
      (x.kind = .try_ → s.lockOf line = some k → k.holder.isSome →
        WaitEnds (.lockRequestArrival n) s s1 r g run e [.uni d]
          fun h => h.uni d = BitVec.ofNat 32 (k.queue.length % 65536 * 65536 + 4))) ∧
    (line = lineOf line → s.lockOf line = some k → k.line = line → k.holder = none → k.queue = w :: rest → w.uid = g.uid →
      (∀ z ∈ rest, z.uid ≠ g.uid) → g.ended = false → s.endedStores line = false →
      (runsOn ∨ k.since ≤ g.waitFrom + 850 * timeout) →
      given (.lockGrant line) (took { k with queue := rest } s) (if k.poisoned then 1 else 0) rest.length) ∧
    (timeout ≠ 0 → g.waitFrom + 850 * timeout ≤ s.clk →
      (s.grantDue line g.uid = false → WaitEnds (.lockTimeout r) s { s with
        lockTab := liveLocks (s.lockTab.map fun k =>
          if k.line = line then { k with queue := k.queue.filter fun w => w.uid != g.uid } else k)
        lockReqs := s.lockReqs.filter fun q => !(q.uid == g.uid && q.line == line && q.kind == .take) } r g run e [.uni d]
        fun h => h.uni d = 2) ∧
      (s.grantDue line g.uid = true → exec (.lockTimeout r) s = .next s))

/-- R246 to R251: FENCE passes once its halves are complete; BARA arrives and gives the phase; BARW and BAR wait for a phase
or find it complete; BARQ gives the open phase and its arrivals. When the arrival of a BARA is recorded is the model's
choice (log entry 18). -/
def Obligations.FencesAndBarriers : Prop :=
  WhenActive fun s r g run e act => ∀ (y : Bool) (d n b : Reg) (q : Order) (p : Scope) (l : Level) (u : State) (p' : Acq),
    let falls := g.stack.set run.live { e with pc := e.pc + 4 }
    let x : BarRef := ⟨g.grid, l, barUnit r g l, n.toNat⟩
    let sc := s.barScope g l
    let at_ (v : State) (t : BitVec 16) : Bool := decide (1 ≤ ((v.barrier x).cur - t).toNat ∧ ((v.barrier x).cur - t).toNat ≤ 32767)
    let awaits (i : Instr) (v : State) (g' : Group) (t : BitVec 16) : Prop :=
      (at_ v t = true → GoesFrom i s (v.acquire r.die g.part (v.barScope g l)) r { g' with arrived := none } [.uni d] falls g.rets
        fun h => h.uni d = t.setWidth 32) ∧
      (at_ v t = false → Waits i s v r g' (.barrier d x t))
    (s.holdFor (ctxOf (.fence y q p) r g run e act) q p [] = .goes u p' → u.startedOf g.uid = [] →
      (q.acquires = true → g.valuesReturned = true) →
      GoesFrom (.fence y q p) s (if q.acquires then u.acquire r.die g.part p else u) r g [] falls g.rets fun _ => True) ∧
    (∀ t, s.holdFor (ctxOf (.bara y d n l) r g run e act) .rel sc [] = .goes u p' →
      (u.barrier x).nextPhase g.uid (g.pendingAt x) = some t →
      GoesFrom (.bara y d n l) s u r (if g.svc = .none then { g with arrivals := g.arrivals ++ [(g.seq, x)] } else g) [.uni d]
        falls g.rets fun h => h.uni d = t.setWidth 32) ∧
    awaits (.barw y d n b l) s g ((g.uni b).extractLsb' 0 16) ∧
    (∀ t, (∀ z, g.arrived ≠ some (x, z)) → s.holdFor (ctxOf (.bar y d n l) r g run e act) .rel sc [] = .goes u p' →
      (u.barrier x).nextPhase g.uid (g.pendingAt x) = some t →
      awaits (.bar y d n l) (u.arriveNow g x)
        { g with arrived := some (x, t), arrivals := g.arrivals.filter fun z => z.2 != x } t) ∧
    (∀ t, g.arrived = some (x, t) → awaits (.bar y d n l) s g t) ∧
    Completes (.barq y d n l) s r g run e [.uni d] (fun h => h.uni d = BitVec.ofNat 32
      ((if (s.barrier x).failed then 2 ^ 31 else 0) + min (s.barrier x).now.length 32767 * 65536 + (s.barrier x).cur.toNat))

/-- R247, R249: an arrival is recorded in the open phase, or in the next one for a member that has arrived in it; the phase
that a new arrival gives counts those of the group still to be recorded; one that a BARA sent is recorded later, at
ACCESS_COMPLETION, behind the group's earlier ones at that barrier (log entry 18, the model's choice of the event). 12 R247,
R250: a phase with every arrival completes: the next one opens with those who arrived ahead, and a waiter goes on with the
barrier word. -/
def Obligations.BarrierArrivalsAndPhases : Prop :=
  ((∀ (s : State) (g : Group) (x : BarRef) (gr : Grid), s.grid x.grid = some gr → g.svc = .none →
     let b := s.barrier x
     let phases (first second : Option (BitVec 16)) : Prop :=
       b.nextPhase g.uid 0 = first ∧ b.nextPhase g.uid 1 = second ∧ ∀ p, 2 ≤ p → b.nextPhase g.uid p = none
     (g.uid ∉ b.now → phases (some b.cur) (some (b.cur + 1)) ∧ (s.arrive g x).barrier x = { b with now := b.now ++ [g.uid] }) ∧
     (g.uid ∈ b.now → g.uid ∉ b.ahead →
       phases (some (b.cur + 1)) none ∧ (s.arrive g x).barrier x = { b with ahead := b.ahead ++ [g.uid] }) ∧
     (g.uid ∈ b.now → g.uid ∈ b.ahead → phases none none) ∧
     (∀ z, z ≠ x → (s.arrive g x).barrier z = s.barrier z) ∧
     (g.pendingAt x = 0 → s.arriveNow g x = s.arrive g x) ∧
     (g.pendingAt x = 1 → s.arriveNow g x = (s.arrive g x).arrive g x)) ∧
   ∀ (s : State) (r : GroupRef) (g : Group) (n l : Nat) (x : BarRef) (before after : List (Nat × BarRef)),
     s.group r = some g → g.arrivals = before ++ (n, x) :: after → (∀ y ∈ before, y.1 ≠ n) →
     (s.hasAccess r n = false → (∀ y ∈ before, y.2 ≠ x) →
       exec (.accessCompletion r n l) s = .next ((s.arrive g x).setGroup r { g with arrivals := before ++ after })) ∧
     (s.hasAccess r n = false → (∃ y ∈ before, y.2 = x) → exec (.accessCompletion r n l) s = .next s)) ∧
  (∀ (s : State) (b : BarRef) (gr : Grid), s.grid b.grid = some gr →
     let x := gr.barrier b
     (gr.expected b = 0 ∨ x.now.length ≠ gr.expected b → exec (.barrierPhaseComplete b) s = .next s) ∧
     (gr.expected b ≠ 0 → x.now.length = gr.expected b →
       let s1 := s.setGrid { gr with bars := Tbl.put gr.bars b ⟨x.cur + 1, x.ahead, [], x.failed⟩ }
       ((∀ y ∈ s.groups, ∀ d t, y.2.wait ≠ some (.barrier d b t)) → exec (.barrierPhaseComplete b) s = .next s1) ∧
       ∀ r g run e d t, Waiting s r g (.barrier d b t) run e → s.groups.map (·.1) = [r] → 1 ≤ (x.cur + 1 - t).toNat →
         (x.cur + 1 - t).toNat ≤ 32767 → WaitEnds (.barrierPhaseComplete b) s (s1.acquire r.die g.part (s1.barScope g b.lvl)) r
           { g with arrived := none } run e [.uni d] fun h => h.uni d = t.setWidth 32))

/-! ### The matrix unit -/

/-- 16 R262 to R266: a matrix instruction reads its operands once every earlier result is written and waits to start; other
active lanes than its form asks for, and serial mode, raise PARTIAL. A pair form takes the follower's unit for the
partition. Once a pre-emption is requested it is withdrawn instead (R267). -/
def Obligations.MatrixInstructionsWait : Prop :=
  ∀ (s : State) (r : GroupRef) (g : Group) (run : Run) (e : Entry) (before : Mask), s.Sound → Issuing s r g run e before →
    let h := g.settled
    let act := activeLanes h e
    act ≠ 0 → ∀ (y z p : Bool) (d a b : Reg) (t : Tag),
    let asks (i : Instr) (pair : Bool) (d a b : Reg) (src : List VReg) : Prop :=
      let halting := (s.parts[h.part]).halting
      (halting = true → ∃ t, exec i s = .next t ∧ Withdraws s t r h) ∧
      (halting = false → e.kind ≠ .handler → (pair = true → (lanesOf h.w act).length = 1) → (pair = false → act = h.alive) →
        exec i s = .next ((if pair && s.leads r.at then s.claimMatrix (corePartner r.at) h.part else s).setGroup r
          { h with mxWait := some ⟨i, h.uni d, h.uni a, h.uni b, h.mode, src⟩ })) ∧
      (halting = false → e.kind = .handler ∨ (pair = true ∧ (lanesOf h.w act).length ≠ 1) ∨ (pair = false ∧ act ≠ h.alive) →
        h.Holds act →
        Traps i s r h run e act .notAll 0 0)
    asks (.bload y d a b p) p d a b [] ∧ asks (.mma y d a b z t) false d a b [] ∧ asks (.mmap y d a b z t) true d a b [] ∧
    asks (.mmar y d a b p) p d a b [] ∧ asks (.rkld y a) false 0 a 0 [] ∧ asks (.accz y a) false 0 a 0 [] ∧
    asks (.accrd y d a p t) false d a 0 [] ∧
    asks (.accwr y d a) false d a 0
      ((List.range 64).filterMap fun k => if d.toNat + k < h.nv then h.v[d.toNat + k]? else none) ∧
    asks (.accscl y a b) false 0 a b [] ∧ asks (.rank y d a b) false d a b [] ∧ asks (.rkval y d a b) false d a b []

/-- 16 R264, R265, R267: unless a pre-emption is requested, the waiting instruction whose turn it is starts when its unit is
free and nothing it depends on runs: its work is computed and its group goes on, or its checks fail and every active lane
traps; lanes whose columns hold a poisoned entry trap beside the work (R269). It is ready when its unit is free and, as the
model reads 16 R264, when the earlier accesses of its group are performed as well (log entry 44, the model's choice). -/
def Obligations.MatrixInstructionsStart : Prop :=
  ∀ (s : State) (r : GroupRef) (g : Group) (q : MxReq) (run : Run) (e : Entry), s.Sound → s.group r = some g →
    g.mxWait = some q → g.run = some run → g.stack[run.live]? = some e → e.mask ≠ 0 →
    let m := s.matrixOf r.at
    let p := s.mxPlan r g q
    let g1 : Group := { g with mxWait := none }
    let act := activeLanes g e
    (s.mxReady r g = false ∨ (s.parts[g.part]).halting = true → exec (.matrixStart r) s = .next s) ∧
    (s.mxReady r g = true → (s.parts[g.part]).halting = false → s.mxTurn r.at = some r.slot →
      (∀ w, s.mxCompute r g q p = .ok (w, []) →
        GoesFrom (.matrixStart r) s (s.setMatrix r.at { m with
            last := some r.slot, rankFrom := if p.unit = .rank then s.clk + 64 else m.rankFrom
            started := m.started ++ [⟨r, g.uid, w⟩] })
          r g1 [] (g.stack.set run.live { e with pc := e.pc + 4 }) g.rets fun _ => True) ∧
      (∀ w fs, s.mxCompute r g q p = .ok (w, fs) → fs ≠ [] →
        exec (.matrixStart r) s = .next (((s.setMatrix r.at { m with
            last := some r.slot, rankFrom := if p.unit = .rank then s.clk + 64 else m.rankFrom
            started := m.started ++ [⟨r, g.uid, w⟩] }).freeSlots r).afterDelivery r
          ((g1.issued (ctxOf q.instr r g run e act) true).stopRun.deliver run.live e.pc
            ⟨g.codeBase + e.pc.setWidth 64, some (encodeWord q.instr)⟩ fs 0))) ∧
      (∀ cause detail a, s.mxCompute r g q p = .error (cause, detail, a) → g.Holds act →
        exec (.matrixStart r) s = .next (((s.setMatrix r.at { m with last := some r.slot }).freeSlots r).afterDelivery r
          ((g1.issued (ctxOf q.instr r g run e act) true).stopRun.deliver run.live e.pc
            ⟨g.codeBase + e.pc.setWidth 64, some (encodeWord q.instr)⟩ (faultAll g.w act cause detail a) 0))))

/-- 16 R266, R276: at completion every entry, tile, register and table the work holds is written, in lanes that have not
exited (04 R55), the others are as they were; the work of ACCZ is zero in every entry of its tile, unmarked. 16 R261, R269,
R272, R282: a row of A adds the four pass sums of each column to its entry, in order: in I48 wrapped to 48 bits, or clamped
to -2^47 and 2^47 - 1 at each step under SAT; in A48 each contribution S · 2^(Y - 10) · 2^(X - 6) is added and rounded to
odd. `.Z` starts from zero; a damaged cell of the column, or a marked entry that is not zeroed, marks the result; a NaN in
the row makes it NaN. MMAR adds S · 2^(X - 6) · tscale / 256. 16 R258 to R261, R270 to R283: what an instruction computes
once its checks pass. BLOAD: the tile, its cells aligned to odd for F8, its scales. MMA, MMAP: every entry of the tile on
each array from the rows of A, aligned for floating A. MMAR: from rank-list records and the leader's table. RKLD: the table.
ACCRD: the converted entries of unmarked columns, in lanes that have not exited, the others trapping with POISON (a damaged
scale among the marks is log entry 76). That MODE.FTZ leaves scale factors alone is the model's reading (log entry 46).
ACCWR: the exact values. ACCSCL: the products rounded to odd. RANK: the order by value and the count of NaNs. RKVAL: the
dense vector. -/
def Obligations.MatrixResults : Prop :=
  (((∀ (s : State) (c : CoreRef) (k : Nat) (w : Started), (s.matrixOf c).started[k]? = some w →
      (w.work.acc.map fun x => (x.1, x.2.1, x.2.2.1)).Nodup →
      ∃ t, exec (.matrixComplete c k) s = .next t ∧ t.mem = s.mem ∧
        (∀ c', (∀ x ∈ w.work.banks, x.1 ≠ c') → (t.matrixOf c').banks = (s.matrixOf c').banks) ∧
        (t.matrixOf c).started = (s.matrixOf c).started.eraseIdx k ∧
        (∀ x ∈ w.work.acc, (t.matrixOf x.1).entry x.2.1 x.2.2.1 = x.2.2.2) ∧
        (∀ c' row col, (∀ x ∈ w.work.acc, (x.1, x.2.1, x.2.2.1) ≠ (c', row, col)) →
          (t.matrixOf c').entry row col = (s.matrixOf c').entry row col) ∧
        (∀ c', (∀ x ∈ w.work.tiles, x.1 ≠ c') → (t.matrixOf c').tile = (s.matrixOf c').tile) ∧
        (∀ c' tile, w.work.tiles = [(c', tile)] → (t.matrixOf c').tile = tile) ∧
        (∀ bs scale, w.work.table = some (bs, scale) →
          (t.matrixOf c).table = bs ∧ (t.matrixOf c).tscale = scale ∧ (t.matrixOf c).tableBad = false) ∧
        (∀ q, q ≠ w.who → t.group q = s.group q) ∧
        (∀ g, s.group w.who = some g → g.uid ≠ w.uid ∨ g.ended = true → t.group w.who = some g) ∧
        (∀ g, s.group w.who = some g → g.uid = w.uid → g.ended = false → w.work.regs = [] →
          t.group w.who = some { g with fstat := g.fstat ||| w.work.flags }) ∧
        (∀ g, s.group w.who = some g → g.uid = w.uid → g.ended = false →
          ∃ h, t.group w.who = some h ∧ h.fstat = g.fstat ||| w.work.flags ∧
            (∀ d v, w.work.regs = [.uni d v] → h.uni d = v) ∧
            ∀ (i : Nat) d tag ws, w.work.regs[i]? = some (RegWrite.vec d tag ws) →
              (∀ (j : Nat) x, j ≠ i → w.work.regs[j]? = some x → ∃ d' tag' ws', x = RegWrite.vec d' tag' ws' ∧ d' ≠ d) →
              (ws.map (·.lane)).Nodup → (∀ x ∈ ws, x.bits = BitVec.allOnes 32 ∧ x.lane < 64) →
              (h.vreg d).tag = tag.getD (g.vreg d).tag ∧
              (∀ x ∈ ws, g.alive.getLsbD x.lane = true → h.lane d x.lane = x.val) ∧
              ∀ l, (∀ x ∈ ws, x.lane = l → g.alive.getLsbD l = false) → h.lane d l = g.lane d l)) ∧
    (∀ (s : State) (r : GroupRef) (g : Group) (q : MxReq) (y : Bool) (a : Reg), q.instr = .accz y a →
      let p := s.mxPlan r g q
      (tileRect q.a = none → s.mxCompute r g q p = .error (.desc, 0x20, 0)) ∧
      ∀ rect, tileRect q.a = some rect → ∃ w, s.mxCompute r g q p = .ok (w, []) ∧ w.regs = [] ∧ w.team = [] ∧ w.tiles = [] ∧
        w.table = none ∧ w.flags = 0 ∧ (w.acc.map fun x => (x.1, x.2.1, x.2.2.1)).Nodup ∧
        ∀ x, x ∈ w.acc ↔ x.1 = r.at ∧ rect.row ≤ x.2.1 ∧ x.2.1 < rect.row + rect.rows ∧ rect.col ≤ x.2.2.1 ∧
          x.2.2.1 < rect.col + rect.cols ∧ x.2.2.2 = ⟨0, false⟩)) ∧
   (∀ (t : Tile) (a : ARow) (z : Bool) (mode : Word) (old : AccEntry) (j : Nat) (lead : Matrix) (q : List Int),
      let e := mmaEntry t a z mode old j
      let start : BitVec 48 := if z then 0 else old.val
      let y (n : Nat) : Int := match a.ys with
        | some ys => (ys[n]?).getD 0 - 10
        | none => 0
      let x (n : Nat) : Int := if cellsF8 t.cfmt then t.exp n j - 6 else if t.cfmt = .ps8x4 then -3 else 0
      let h := rankEntry t lead q old j
      (e.bad = true ↔ t.damaged j = true ∨ (old.bad = true ∧ z = false)) ∧
      (a.nan = true → e.val = BitVec.ofNat 48 fmtA48.nanBits) ∧
      (a.nan = false → modeI48 mode = true → modeSat mode = false →
        e.val = start + BitVec.ofInt 48 ((List.range 4).map fun n => passSum t a.q j n).sum) ∧
      (a.nan = false → modeI48 mode = true → modeSat mode = true → ∃ c : Nat → Int, c 0 = start.toInt ∧ e.val.toInt = c 4 ∧
        ∀ n, n < 4 → c (n + 1) = max (-2 ^ 47) (min (2 ^ 47 - 1) (c n + passSum t a.q j n))) ∧
      (a.nan = false → modeI48 mode = false → ∃ c : Nat → BitVec 48, c 0 = start ∧ e.val = c 4 ∧
        ∀ n, n < 4 → ∃ p : FVal, p.Is ((passSum t a.q j n : ℝ) * (2 : ℝ) ^ (y n + x n)) ∧ A48Adds (c n) p (c (n + 1))) ∧
      (h.bad = true ↔ old.bad = true ∨ t.damaged j = true ∨ lead.tableBad = true) ∧
      (∀ scale, fmtF32.Number lead.tscale.toNat scale → ∃ c : Nat → BitVec 48, c 0 = old.val ∧ h.val = c 4 ∧
        ∀ n, n < 4 → ∃ p : FVal, p.Is ((passSum t q j n : ℝ) * (2 : ℝ) ^ x n * scale / 256) ∧ A48Adds (c n) p (c (n + 1))))) ∧
  ((∀ (n : Int) (v : FVal) (x : ℝ), v.Is x →
     |(toOdd n v : ℝ) - x * (2 : ℝ) ^ n| < 1 ∧ ((toOdd n v : ℝ) ≠ x * (2 : ℝ) ^ n → toOdd n v % 2 = 1)) ∧
   (∀ (vs : List FVal), (topExp vs = none ↔ ∀ v ∈ vs, ∀ x, v.Is x → x = 0) ∧
     ∀ k, topExp vs = some k → (∀ v ∈ vs, ∀ x, v.Is x → |x| < (2 : ℝ) ^ (k + 1)) ∧ ∃ v ∈ vs, ∃ x, v.Is x ∧ (2 : ℝ) ^ k ≤ |x|) ∧
   (∀ (u v : FVal) (x y : ℝ), u.Is x → v.Is y → (0 < compareVal u v ↔ y < x) ∧ (compareVal u v = 0 ↔ x = y)) ∧
   ∀ (s : State) (r : GroupRef) (g : Group) (q : MxReq) (y z n : Bool) (d a b : Reg) (t : Tag) (rect : TileRect),
     let m := s.matrixOf r.at
     let gives (post : MxWork → Prop) : Prop := ∃ w, s.mxCompute r g q (s.mxPlan r g q) = .ok (w, []) ∧ post w
     let cores (pair : Bool) : List CoreRef := if pair then [r.at, corePartner r.at] else [r.at]
     let fills (pair : Bool) (e : CoreRef → Nat → Nat → Nat → AccEntry → Prop) (w : MxWork) : Prop :=
       (w.acc.map fun x => (x.1, x.2.1, x.2.2.1)).Nodup ∧
       (∀ c row col, (∃ v, (c, row, col, v) ∈ w.acc) ↔ c ∈ cores pair ∧ rect.row ≤ row ∧ row < rect.row + rect.rows ∧
         rect.col ≤ col ∧ col < rect.col + rect.cols) ∧
       ∀ c row col v, (c, row, col, v) ∈ w.acc → e c (row - rect.row) row col v
     (∀ cf ws ss, q.instr = .bload y d a b n → cellFormat q.mode = some cf → bloadGood q.d cf = true →
       (n = true → s.leads r.at = true) →
       let kb := wfield q.d 10 0
       let nb := wfield q.d 26 16
       let val (k j : Nat) : FVal := (fmtOf cf).value (s.weight cf ws nb k j)
       s.needSpans r g [(q.a, weightBytes cf kb nb), (q.b, 2 * nb)] = .ok [ws, ss] → s.spansPoisoned [ws, ss] = false →
       gives fun w => w.acc = [] ∧ w.regs = [] ∧ w.team = [] ∧ w.table = none ∧
         w.flags = flagIf (cellsF8 cf && (List.range kb).any fun k => (List.range nb).any fun j => !(val k j).isFinite) fNV ∧
         ∃ x : Tile, w.tiles = [(if n then corePartner r.at else r.at, x)] ∧ x.cfmt = cf ∧ x.kb = kb ∧ x.nb = nb ∧
           x.badCells = [] ∧ x.badScales = [] ∧ (∀ k j, kb ≤ k ∨ nb ≤ j → x.cell k j = 0) ∧
           (∀ j, j < nb → x.scale j = BitVec.ofNat 16 (s.spanHalf ss (2 * j))) ∧
           ∀ k j, k < kb → j < nb →
             let bits := s.weight cf ws nb k j
             let seg := ((List.range kb).filter fun i => decide (i / 128 = k / 128)).map fun i => val i j
             (cf = .i8x4 → x.cell k j = signedOf 8 bits) ∧ (cf = .i4x8 → x.cell k j = signedOf 4 bits) ∧
             (cf = .ps8x4 → x.cell k j = ps8Eighths bits) ∧
             (cellsF8 cf = true → (topExp seg = none → x.exp (k / 128) j = -16 ∧ x.cell k j = 0) ∧
               ∀ u, topExp seg = some u → x.exp (k / 128) j = u ∧ x.cell k j = toOdd (6 - u) (val k j))) ∧
     (∀ (row : TeamSpan) (ftz : Bool) (kb k : Nat), k < kb → (aFloat t = true → kb ≤ 512) →
       let x := s.aRow t ftz row kb
       let elem (i : Nat) : Nat := s.aElem t row i
       let val (i : Nat) : FVal := (fmtOf t).reads ftz (elem i)
       let seg := ((List.range kb).filter fun i => decide (i / 128 = k / 128)).map val
       (aFloat t = false → x.nan = false ∧ x.ys = none ∧
         x.q[k]? = some (if t = .n8x4 then (elem k : Int) else signedOf (aBits t) (elem k))) ∧
       (aFloat t = true → (x.nan = true ↔ ∃ i, i < kb ∧ (val i).isFinite = false) ∧ ∃ ys, x.ys = some ys ∧
         ∀ u, topExp seg = some u → x.q[k]? = some (toOdd (10 - u) (val k)) ∧ ys[k / 128]? = some u)) ∧
     (∀ (pair : Bool) (ts : List TeamSpan),
       (q.instr = .mma y d a b z t ∧ pair = false) ∨ (q.instr = .mmap y d a b z t ∧ pair = true) →
       tileRect q.d = some rect → (pair = true → s.leads r.at = true) →
       (∀ c ∈ cores pair, mmaFormat (s.matrixOf c).tile t q.mode = false) →
       s.needSpans r g ((strided q.a q.b rect.rows).map fun o => (o, rowBytes t (s.mmaKb r pair))) = .ok ts →
       s.spansPoisoned ts = false →
       let row (c : CoreRef) (u : TeamSpan) : ARow := s.aRow t (modeFtz q.mode) u (s.matrixOf c).tile.kb
       gives fun w => w.regs = [] ∧ w.team = [] ∧ w.tiles = [] ∧ w.table = none ∧
         (w.flags = fNV ∨ w.flags = 0) ∧ (w.flags = fNV ↔ ∃ c ∈ cores pair, ∃ u ∈ ts, (row c u).nan = true) ∧
         fills pair (fun c i at_ col v => ∃ u, ts[i]? = some u ∧
           v = mmaEntry (s.matrixOf c).tile (row c u) z q.mode ((s.matrixOf c).entry at_ col) col) w) ∧
     (∀ (os : List Word) (kl : Nat) recs ts, s.rankRecords r g os kl (fun _ => []) = .ok (recs, ts) →
       recs.length = os.length ∧ ∀ (i : Nat) (o : Word), os[i]? = some o → ∃ (u : TeamSpan) (k : Nat) (es : List Nat), ts[i]? = some u ∧ recs[i]? = some (k, es) ∧
         s.needSpan r g o (4 + 4 * ((es.length + 1) / 2)) = .ok u ∧ wfield (s.spanWord u 0) 31 21 = es.length ∧
         wfield (s.spanWord u 0) 20 10 = k ∧ k ≤ kl ∧ (∀ x ∈ es, x < k) ∧
         ∀ j, j < es.length → es[j]? = some (s.spanHalf u (4 + 2 * j))) ∧
     (∀ (es : List Nat) (k : Nat), k < 1024 →
       (k ∉ es → (rankRow m 1024 es)[k]? = some 0) ∧
       ∀ j, es[j]? = some k → (∀ i, j < i → es[i]? ≠ some k) → (rankRow m 1024 es)[k]? = some (m.att j : Int)) ∧
     (∀ recs ts, q.instr = .mmar y d a b n → modeI48 q.mode = false → tileRect q.d = some rect →
       (n = true → s.leads r.at = true) →
       s.rankRecords r g (strided q.a q.b rect.rows)
         ((cores n).foldl (fun k c => min k (rowLength (s.matrixOf c).tile.cfmt)) 1024) (fun _ => []) = .ok (recs, ts) →
       s.spansPoisoned ts = false →
       gives fun w => w.regs = [] ∧ w.team = [] ∧ w.tiles = [] ∧ w.table = none ∧ w.flags = 0 ∧
         fills n (fun c i at_ col v => ∃ rec_, recs[i]? = some rec_ ∧
           v = rankEntry (s.matrixOf c).tile m (rankRow m 1024 rec_.2) ((s.matrixOf c).entry at_ col) col) w) ∧
     (∀ u, q.instr = .rkld y a → s.needSpan r g q.a 68 = .ok u → (fmtF32.value (s.spanWord u 64).toNat).isFinite = true →
       s.spansPoisoned [u] = false →
       gives fun w => w.acc = [] ∧ w.regs = [] ∧ w.team = [] ∧ w.tiles = [] ∧ w.flags = 0 ∧ ∃ bs : List (BitVec 8),
         w.table = some (bs, s.spanWord u 64) ∧ bs.length = 64 ∧ ∀ j, j < 64 → bs[j]? = some (s.teamByte u.key (u.off + j))) ∧
     (q.instr = .accrd y d a n t → tileRect q.a = some rect → accShape g rect (accPacked t) d = true →
       let marked (l : Nat) : Prop := (n = false ∧ m.tile.badScales.contains (rect.col + l) = true) ∨
         ∃ i, i < rect.rows ∧ (m.entry (rect.row + i) (rect.col + l)).bad = true
       let elem (i l : Nat) : Nat :=
         (accElem q.mode n t (m.entry (rect.row + i) (rect.col + l)).val (m.tile.scale (rect.col + l))).1
       ∃ w fs, s.mxCompute r g q (s.mxPlan r g q) = .ok (w, fs) ∧ w.acc = [] ∧ w.team = [] ∧ w.tiles = [] ∧ w.table = none ∧
         (∀ x, x ∈ fs ↔ ∃ l, l < g.w ∧ g.alive.getLsbD l = true ∧ marked l ∧ x = ⟨l, .poison, 0, 0⟩) ∧
         w.regs.length = accRegs (accPacked t) rect.rows ∧
         ∀ i, i < w.regs.length → ∃ ws, w.regs[i]? = some (.vec (d + BitVec.ofNat 6 i) (some t) ws) ∧
           (∀ l, (∃ x ∈ ws, x.lane = l) ↔ l < g.w ∧ g.alive.getLsbD l = true ∧ ¬ marked l) ∧
           ∀ x ∈ ws, x.bits = BitVec.allOnes 32 ∧
             (accPacked t = false → x.val = BitVec.ofNat 32 (elem i x.lane)) ∧
             (accPacked t = true → elemBits 16 x.val 0 = elem (2 * i) x.lane % 2 ^ 16 ∧
               elemBits 16 x.val 1 = elem (2 * i + 1) x.lane % 2 ^ 16)) ∧
     (∀ (mode : Word) (e : BitVec 48) (sc : BitVec 16) (u v : ℝ), modeRnd mode ≤ 4 → modeFtz mode = false →
       (if modeI48 mode then u = e.toInt else fmtA48.Number e.toNat u) →
       (if n then v = 1 else fmtF16.Number sc.toNat v) → u * v ≠ 0 → t ∈ [Tag.f32, .f16x2, .b16x2] →
       (fmtOf t).Rounds (rndOf mode) (u * v) (accElem mode n t e sc).1) ∧
     (∀ (mode : Word) (e : BitVec 48) (sc : BitVec 16), modeI48 mode = true →
       (-2 ^ 31 ≤ e.toInt → e.toInt < 2 ^ 31 → accElem mode true .i32 e sc = (wrapNat 32 e.toInt, 0)) ∧
       (modeSat mode = true → 2 ^ 31 ≤ e.toInt → accElem mode true .i32 e sc = (0x7FFFFFFF, 0)) ∧
       (modeSat mode = true → e.toInt < -2 ^ 31 → accElem mode true .i32 e sc = (0x80000000, 0)) ∧
       (modeSat mode = false → accElem mode true .i32 e sc = (e.toNat % 2 ^ 32, 0))) ∧
     (q.instr = .accwr y d a → tileRect q.a = some rect → accShape g rect false d = true → rect.rows ≤ q.src.length →
       let tag (i : Nat) : Tag := effTag q.mode (((q.src[i]?).map (·.tag)).getD .raw)
       let word (i l : Nat) : Word := (((q.src[i]?).map (·.lanes)).bind fun v => v[l]?).getD 0
       (∀ i, i < rect.rows → if modeI48 q.mode then tag i = .i32 ∨ tag i = .n32 else tag i = .f32) →
       gives fun w => w.regs = [] ∧ w.team = [] ∧ w.tiles = [] ∧ w.table = none ∧ w.flags = 0 ∧
         (w.acc.map fun x => (x.1, x.2.1, x.2.2.1)).Nodup ∧
         (∀ c row col, (∃ v, (c, row, col, v) ∈ w.acc) ↔ c = r.at ∧ rect.row ≤ row ∧ row < rect.row + rect.rows ∧
           rect.col ≤ col ∧ col < rect.col + g.w ∧ g.alive.getLsbD (col - rect.col) = true) ∧
         ∀ c row col v, (c, row, col, v) ∈ w.acc → v.bad = false ∧
           let x := word (row - rect.row) (col - rect.col)
           (tag (row - rect.row) = .i32 → v.val.toInt = x.toInt) ∧
           (tag (row - rect.row) = .n32 → v.val.toInt = (x.toNat : Int)) ∧
           (tag (row - rect.row) = .f32 → ∀ u, fmtF32.Number x.toNat u → fmtA48.Number v.val.toNat u)) ∧
     (∀ u, q.instr = .accscl y a b → modeI48 q.mode = false → tileRect q.a = some rect →
       s.needSpan r g q.b (4 * rect.rows) = .ok u → s.spansPoisoned [u] = false →
       gives fun w => w.regs = [] ∧ w.team = [] ∧ w.tiles = [] ∧ w.table = none ∧
         fills false (fun _ i at_ col v =>
           let e := m.entry at_ col
           let f := s.spanWord u (4 * i)
           v.bad = e.bad ∧
           (∀ x k, fmtA48.Number e.val.toNat x → fmtF32.Number f.toNat k → x * k ≠ 0 →
             fmtA48.Rounds ⟨4, false, false⟩ (x * k) v.val.toNat) ∧
           ((fmtA48.value e.val.toNat).isNan = true ∨ (fmtF32.value f.toNat).isNan = true →
             v.val = BitVec.ofNat 48 fmtA48.nanBits ∧ w.flags = fNV)) w) ∧
     (∀ src rec_, q.instr = .rank y d a b → rankGood q.d = true →
       let k := wfield q.d 10 0
       let typ := wfield q.d 29 28
       let val (i : Nat) : FVal := s.rankValue typ src i
       s.needSpans r g [(q.a, (if typ = 1 then 2 else 4) * k), (q.b, recordBytes (min (wfield q.d 26 16) k))] = .ok [src, rec_] →
       s.spansPoisoned [src] = false →
       gives fun w => w.acc = [] ∧ w.tiles = [] ∧ w.table = none ∧ w.flags = 0 ∧ ∃ order : List Nat, order.Nodup ∧
         (∀ i, i ∈ order ↔ i < k ∧ (val i).isNan = false) ∧
         (order.Pairwise fun i j => 0 < compareVal (val i) (val j) ∨ (compareVal (val i) (val j) = 0 ∧ i < j)) ∧
         w.regs = [.uni d (BitVec.ofNat 32 (k - order.length))] ∧
         let cnt := min (wfield q.d 26 16) order.length
         w.team.length = recordBytes cnt / 4 ∧
         w.team[0]? = some (rec_.key, rec_.off, BitVec.ofNat 32 (cnt * 2 ^ 21 + k * 2 ^ 10)) ∧
         (∀ j, j < cnt → ∃ x, w.team[1 + j / 2]? = some (rec_.key, rec_.off + 4 * (1 + j / 2), x) ∧
           order[j]? = some (elemBits 16 x (j % 2))) ∧
         (cnt % 2 = 1 → ∃ x, w.team[1 + cnt / 2]? = some (rec_.key, rec_.off + 4 * (1 + cnt / 2), x) ∧ elemBits 16 x 1 = 0)) ∧
     ∀ k es u o, q.instr = .rkval y d a b →
       s.rankRecords r g [q.a] 1024 (fun hs => hs.map fun h => (q.b, 4 * h.2)) = .ok ([(k, es)], [u, o]) →
       s.spansPoisoned [u] = false →
       let scaled (j : Nat) : Nat × FFlags := match fmtF32.value m.tscale.toNat with
         | .fin sg c e => fmtF32.pack (rndOf q.mode) (.fin sg (m.att j * c) (e - 8))
         | .nan _ | .inf _ => (0, 0)
       gives fun w => w.acc = [] ∧ w.regs = [] ∧ w.tiles = [] ∧ w.table = none ∧ w.team.length = k ∧
         w.flags = orFlags ((List.range es.length).map fun j => (scaled j).2) ∧
         ∀ i, i < k → ∃ x, w.team[i]? = some (o.key, o.off + 4 * i, x) ∧ (i ∉ es → x = q.d) ∧
           ∀ j, es[j]? = some i → (∀ l, j < l → es[l]? ≠ some i) → x = BitVec.ofNat 32 (scaled j).1)

/-! ### Posts, launches, waits of engines -/

/-- 17 R284 to R286, R292, R306, R310, 19 R335: posts add one to counter E behind their release half, with their operands
read at issue; LAUNCH judges its descriptor behind its own and queues a child when it is good and there is room; that a bad
descriptor is reported though the queue is full is the model's reading (log entry 54). -/
def Obligations.PostsAndLaunches : Prop :=
  WhenActive fun s r g run e act => ∀ (y : Bool) (d a b : Reg) (n : BitVec 5),
    let once (i : Instr) (path : Path) (kind : AccKind) (ea : Addr) : Access :=
      accessOf i g e act path kind (.uni d) [⟨wholeLane, ea, [], [], .waiting, 0⟩] none
    let posts (i : Instr) (sc : Scope) (kind : AccKind) : Prop := g.count .e < 63 →
      ∀ u p, s.holdFor (ctxOf i r g run e act) .rel sc [] = .goes u p → Issues i s u r g run e (once i .e kind 0)
    let l : Instr := .launch y d a b
    let c := ctxOf l r g run e act
    let desc := g.pair a
    let record := g.pair b
    posts (.cpkick y d a) .die (.copyPost (s.parts[g.part]).fgt (g.uni a) ((g.uni d).toNat % 128) 0 0 none) ∧
    posts (.blend y d a) .part (.blendPost (s.parts[g.part]).fgt (g.uni a)) ∧
    posts (.amsend y d a b n) .part (.message (g.uni a) (g.uni b) n.toNat) ∧
    (∀ cause x, s.checkLaunch c desc record = (.fault cause, x) → (∀ k, x ≠ .miss k) → g.Holds act →
      Traps l s r g run e act cause 0 desc) ∧
    (∀ cause ps, s.checkLaunch c desc record = (.ok ps, .fault cause) → g.Holds act →
      Traps l s r g run e act cause 0 record) ∧
    (∀ ps qs u p, s.checkLaunch c desc record = (.ok ps, .ok qs) → g.count .k < 63 → s.holdFor c .rel .part [] = .goes u p →
      let v := (u.touchAll (ps.filterMap (·.2)) false).touchAll (qs.filterMap (·.2)) true
      let x := v.parts[g.part]
      let ws := v.devWords g.part desc 36
      let detail := v.descDetail x.dies (wfield x.plimit 27 24) ws
      (detail ≠ 0 →
        Issues l s (v.putRecord g.part record .badcmd detail 0 none) r g run e (once l .k (.launch 1) desc)) ∧
      (detail = 0 → 256 ≤ x.children.length → Issues l s v r g run e (once l .k (.launch 2) desc)) ∧
      (detail = 0 → x.children.length < 256 → Issues l s (v.setPart g.part { x with
          children := x.children ++ [⟨descOf ws, record, v.inheritedQueue g, wfield x.plimit 27 24, v.phase != 3⟩] })
        r g run e (once l .k (.launch 0) desc)))

/-- 17 R293: WAITA reads its arrival object once it is satisfied, at issue or at the event that ends its wait; an object out
of range or not on 8 bytes traps. 19 R330 to R333, 12 R242: TILESIG waits while an engine owns a line of its entry, then
stores its generation behind its own release half; TILEW reads the generation once it has reached the one it waits for, at
issue or at the event that ends its wait. -/
def Obligations.ArrivalAndTileWaits : Prop :=
  ((WhenActive fun s r g run e act => ∀ (y : Bool) (d a b : Reg),
     let i : Instr := .waita y d a b
     let o := g.uni a
     (s.teamPlace r g o.toNat 8 = none → g.Holds act → Traps i s r g run e act .range 0 (o.setWidth 64)) ∧
     ∀ k x, s.teamPlace r g o.toNat 8 = some (k, x) →
       let met := (s.teamWord k x).toInt ≤ (g.uni b).toInt ∨ (s.teamWord k (x + 4)).getLsbD 31 = true
       (x % 8 ≠ 0 → g.Holds act → Traps i s r g run e act .align 0 (o.setWidth 64)) ∧
       (x % 8 = 0 → (objPlaces k x).any (s.matrixHolds g.uid) = false →
         (g.clearFor (objPlaces k x) = true ∧ met → GoesFrom i s (s.acquire r.die g.part .part) r g [.uni d]
           (g.stack.set run.live { e with pc := e.pc + 4 }) g.rets fun h => h.uni d = s.teamWord k (x + 4)) ∧
         (¬ (g.clearFor (objPlaces k x) = true ∧ met) → Waits i s s r g (.arrival d k x (g.uni b))))) ∧
   (∀ (s : State) (r : GroupRef) (g : Group) (run : Run) (e : Entry) (d : Reg) (k : TeamKey) (o : Nat) (t : Word),
     Waiting s r g (.arrival d k o t) run e →
     let ready := g.clearFor (objPlaces k o) = true ∧ ((s.teamWord k o).toInt ≤ t.toInt ∨ (s.teamWord k (o + 4)).getLsbD 31 = true)
     (ready → WaitEnds (.waitaSatisfied r) s (s.acquire r.die g.part .part) r g run e [.uni d]
       fun h => h.uni d = s.teamWord k (o + 4)) ∧
     (¬ ready → exec (.waitaSatisfied r) s = .next s))) ∧
  ((WhenActive fun s r g run e act => ∀ (y : Bool) (d a b : Reg) (p : Scope) (ps : List (Place × Option Trans)),
     let sig : Instr := .tilesig y d a b p
     let wait : Instr := .tilew y d a b p
     let ea := g.pair a + BitVec.ofNat 64 (16 * (g.uni b).toNat)
     let ts := ps.filterMap (·.2)
     let store := accessOf sig g e act .k .store .none [⟨wholeLane, ea, (ps.map (·.1)).drop 3, [g.uni d], .waiting, 0⟩] none
     (∀ cause, s.checkTile (ctxOf sig r g run e act) ea true = .fault cause → g.Holds act →
       Traps sig s r g run e act cause 0 ea) ∧
     (∀ cause, s.checkTile (ctxOf wait r g run e act) ea false = .fault cause → g.Holds act →
       Traps wait s r g run e act cause 0 ea) ∧
     (s.checkTile (ctxOf sig r g run e act) ea true = .ok ps → g.count .k < 63 → s.requestsAt r + 1 ≤ 384 →
       (∀ x ∈ ps, s.ownedByEngine x.1 = false) →
       (∀ hold, g.hold = some hold → s.allApplied hold.ids = true → Issues sig s (s.touchAll ts true) r g run e store) ∧
       (g.hold = none → s.earlierDone g = true →
         (p.crossDie = false → Issues sig s (s.touchAll ts true) r g run e store) ∧
         (p.crossDie = true →
           let span := s.tileSpan r.die g.part (ps.map (·.1))
           let u := s.spanRelease r.die (s.spanBlocks g.part span.1 span.2)
           (u.1.allApplied u.2 = true → Issues sig s (u.1.touchAll ts true) r g run e store) ∧
           (u.1.allApplied u.2 = false → exec sig s = .next (u.1.setGroup r
             { g with stalled := true, hold := some ⟨u.2, [], ⟨p, false⟩⟩ }))))) ∧
     (s.checkTile (ctxOf sig r g run e act) ea true = .ok ps → g.count .k < 63 → s.requestsAt r + 1 ≤ 384 →
       (∃ x ∈ ps, s.ownedByEngine x.1 = true) → exec sig s = .next s) ∧
     (∀ x, s.checkTile (ctxOf wait r g run e act) ea false = .ok ps → (ps.map (·.1))[3]? = some x →
       let v := s.touchAll ts false
       (∀ t w, v.genReady r g x (g.uni d) p = some (t, w) → GoesFrom wait s t r g [.uni d]
         (g.stack.set run.live { e with pc := e.pc + 4 }) g.rets fun h => h.uni d = w) ∧
       (v.genReady r g x (g.uni d) p = none → Waits wait s v r g (.tile d x (g.uni d) p)))) ∧
   (∀ (s : State) (r : GroupRef) (g : Group) (run : Run) (e : Entry) (d : Reg) (x : Place) (gen : Word) (p : Scope),
     Waiting s r g (.tile d x gen p) run e →
     (∀ t w, s.genReady r g x gen p = some (t, w) → (w - gen).toNat < 2 ^ 31 ∧
       WaitEnds (.tilewSatisfied r) s t r g run e [.uni d] fun h => h.uni d = w) ∧
     (s.genReady r g x gen p = none → exec (.tilewSatisfied r) s = .next s)))

/-! ### Memory events -/

/-- 08 R151 to R154, R157, 17 R296: a lane that may be performed moves its word; a word that returns lands in its register,
with its tag; a poisoned or refused one marks its lane, with POISON, RANGE or PERM, and writes nothing. That a load through
a die's own copy finds the mark of the home line is the model's reading (log entry 14). -/
def Obligations.AccessesPerformAndLand : Prop :=
  ∀ (s : State) (r : GroupRef) (g : Group) (n l : Nat) (a : Access) (x : LaneAcc), s.group r = some g → g.access n = some a →
    a.laneAcc l = some x → g.ended = false →
    let to_ (st : LaneSt) : Access := a.setLane { x with st := st }
    (x.st = .waiting → x.places ≠ [] → s.mayPerform g a x = false → exec (.accessCompletion r n l) s = .next s) ∧
    (x.st = .waiting → s.mayPerform g a x = true →
      (∀ k o team, a.kind = .load → x.places = [.team k o] → s.team k = some team → poisoned team.poison o = false →
        exec (.accessCompletion r n l) s = .next (s.moved r g (to_ (.done [team.readWord o])))) ∧
      (∀ pa at_, a.kind = .load → x.places = [.mem pa at_] → s.foreign g.part pa = false → poisoned s.poison pa = false →
        remoteD r.die at_ pa = false →
        exec (.accessCompletion r n l) s = .next ((s.snoopRead pa).moved r g (to_ (.done [s.mem.readWord pa])))) ∧
      (∀ pa at_, a.kind = .load → x.places = [.mem pa at_] → s.foreign g.part pa = false → poisoned s.poison pa = true →
        exec (.accessCompletion r n l) s = .next (s.moved r g (to_ .poisoned))) ∧
      (∀ k o w, a.kind = .store → x.places = [.team k o] → x.data = [w] →
        exec (.accessCompletion r n l) s = .next ((s.putTeamWord k o w).moved r g (to_ (.done [w])))) ∧
      (∀ pa at_ w, a.kind = .store → x.places = [.mem pa at_] → x.data = [w] → s.foreign g.part pa = false →
        remoteD r.die at_ pa = false → at_.d = false →
        exec (.accessCompletion r n l) s = .next (({ s with
          mem := s.mem.writeWord pa w, poison := cleanPoison s.poison pa, replicas := Tbl.drop s.replicas (lineOf pa)
          hostLines := Tbl.drop s.hostLines (lineOf pa) } : State).moved r g (to_ (.done [w]))))) ∧
    (x.performed = true → a.kind = .load → x.st ≠ .landed → x.drop = 0 → a.id = n → a.lanes = [x] → x.lane = l →
      ∃ t h, exec (.loadDataLanding r n l) s = .next t ∧ t.group r = some h ∧ t.mem = s.mem ∧
        (∀ d w, a.dest = .uni d → x.st = .done [w] → l = wholeLane → h.uni d = w) ∧
        (∀ d w tag, a.dest = .vec d [some tag] → x.st = .done [w] → l < 64 → g.alive.getLsbD l = true →
          h.lane d l = w ∧ (h.vreg d).tag = tag ∧ ∀ k, k ≠ l → h.lane d k = g.lane d k) ∧
        (∀ c, (x.st = .poisoned ∧ c = .poison) ∨ x.st = .refused c →
          h.s = g.s ∧ h.v = g.v ∧ h.pend = g.pend ∧ (g.killed = false → g.alive.getLsbD l = true → l < 64 →
            ∃ m ∈ h.marks, m.lane = l ∧ m.acc = n ∧ m.cause = c ∧ m.word = a.word ∧ m.pc = a.pc ∧ m.ea = x.ea))) ∧
    (∀ w, x.performed = false → x.toPeer = true → (w = true → a.kind.writes = true) →
      exec (.fabricRefusal r n l w) s = .next (s.moved r g (to_ (.refused (if w then .perm else .range))))) ∧
    (∀ ws, x.st = .done ws → x.performed = true → a.kind = .load →
      exec (.flitLost (.load r n l)) s = .next (s.moved r g (to_ .poisoned)))

/-- 11 R199 to R203: the waiting lanes of an atomic that address one word are executed on it one after the other in
ascending order, in one step: each returns the value it finds, after the lanes below it, and the word is left with the value
after the last. The operations on words, and on the elements of the floating ones. That an atomic on a poisoned line leaves
memory and marks its lanes is the model's reading (log entry 15). -/
def Obligations.AtomicsExecute : Prop :=
  (∀ (s : State) (r : GroupRef) (g : Group) (n l : Nat) (a : Access) (x : LaneAcc) (op : AtomOp) (t : Tag),
    s.group r = some g → g.access n = some a → a.laneAcc l = some x → a.kind = .atomic op t → x.st = .waiting →
    (a.lanes.map (·.lane)).Pairwise (· < ·) → s.mayPerform g a x = true →
    let ls := a.lanes.filter fun y => y.st == .waiting && y.places.any fun p => x.places.any p.sameWord
    let new (m : Word) (y : LaneAcc) := atomicNew op t a.mode m (y.data[0]?.getD 0) (y.data[1]?.getD 0)
    let found (m : Word) (k : Nat) : Word := (ls.take k).foldl (fun m y => (new m y).1) m
    let after (m : Word) (b : Access) : Prop :=
      { b with lanes := a.lanes, flags := a.flags } = a ∧
      b.flags = a.flags ||| orFlags (ls.zipIdx.map fun y => (new (found m y.2) y.1).2) ∧
      b.lanes.length = a.lanes.length ∧
      (∀ (k : Nat) (y : LaneAcc), ls[k]? = some y → b.laneAcc y.lane = some { y with st := .done [found m k] }) ∧
      ∀ y ∈ a.lanes, y ∉ ls → b.laneAcc y.lane = some y
    (∀ k o team, x.places = [.team k o] → s.team k = some team → poisoned team.poison o = false →
      let m := team.readWord o
      ∃ b, after m b ∧ exec (.atomicExecute r n l) s = .next ((s.putTeamWord k o (found m ls.length)).moved r g b)) ∧
    (∀ pa at_, x.places = [.mem pa at_] → s.foreign g.part pa = false → poisoned s.poison pa = false →
      remoteD r.die at_ pa = false →
      let m := s.mem.readWord pa
      ∃ b, after m b ∧ exec (.atomicExecute r n l) s = .next ((s.atomicStore r.die at_ pa (found m ls.length)).moved r g b)) ∧
    (∀ pa at_, x.places = [.mem pa at_] → s.foreign g.part pa = false → poisoned s.poison pa = true →
      exec (.atomicExecute r n l) s = .next (s.moved r g (ls.foldl (fun b y => b.setLane { y with st := .poisoned }) a)))) ∧
  ∀ (t : Tag) (mode m v w : Word),
    let new (op : AtomOp) := (atomicNew op t mode m v w).1
    (new .add).toNat = (m.toNat + v.toNat) % 2 ^ 32 ∧ (new .min).toInt = min m.toInt v.toInt ∧
    (new .max).toInt = max m.toInt v.toInt ∧ (new .minn).toNat = min m.toNat v.toNat ∧
    (new .maxn).toNat = max m.toNat v.toNat ∧ new .and = m &&& v ∧ new .or = m ||| v ∧ new .xor = m ^^^ v ∧ new .xchg = v ∧
    (new .incw).toNat = (if m.toNat ≥ v.toNat then 0 else m.toNat + 1) ∧
    (new .decw).toNat = (if m.toNat = 0 ∨ m.toNat > v.toNat then v.toNat else m.toNat - 1) ∧
    new .cas = (if m = v then w else m) ∧
    (t ∈ [Tag.f32, .f16x2, .b16x2] → ∀ i, i < tagCount t →
      let b := tagWidth t
      let k := rndOf mode
      elemBits b (new .fadd) i = (fAdd (fmtOf t) k (elemBits b m i) (elemBits b v i)).1 % 2 ^ b ∧
      elemBits b (new .fmin) i = (fMinMax false (fmtOf t) k (elemBits b m i) (elemBits b v i)).1 % 2 ^ b ∧
      elemBits b (new .fmax) i = (fMinMax true (fmtOf t) k (elemBits b m i) (elemBits b v i)).1 % 2 ^ b)

/-! ### Engines -/

/-- 17 R288, R290 to R294, 12 R236: requests of a post are taken one by one; a unit that lands is counted down on its
object, with the code of its first failure, once no stale notice of its write is in flight; while the core of its object is
saved a copy pauses, and a unit written has its decrement held, to be applied in order. -/
def Obligations.CopiesAndArrivals : Prop :=
  (∀ (s : State) (r : GroupRef) (g : Group) (n : Nat) (a : Access) (tab : Vector (BitVec 128) 64) (off : Word)
    (count next acc : Nat) (rej : Option (Nat × Nat)), s.group r = some g → g.access n = some a →
    a.kind = .copyPost tab off count next acc rej →
    a.lanes.all LaneAcc.performed = false →
    let reply (s : State) (a : Access) (w : Word) : State := s.moved r g (a.answer w)
    let one := s.judgeRequest r g tab (off + BitVec.ofNat 32 (32 * next))
    ((count = 0 ∨ 64 < count) → exec (.copyRequestAccept r n) s = .next (reply s a (postWord 2 0 0))) ∧
    (1 ≤ count ∧ count ≤ 64 → (s.copyJobs r.at).length < 64 →
      (∀ j, one = .ok j →
        let s1 : State := { s with jobs := s.jobs ++ [j], nextId := s.nextId + 1 }
        let a1 : Access := { a with kind := .copyPost tab off count (next + 1) (acc + 1) rej }
        (next + 1 ≠ count → exec (.copyRequestAccept r n) s = .next (s1.setGroup r (g.setAccess a1))) ∧
        (next + 1 = count → rej = none → exec (.copyRequestAccept r n) s = .next (reply s1 a1 (postWord 0 0 (acc + 1))))) ∧
      (∀ code, one = .error code → rej = none → next + 1 = count → exec (.copyRequestAccept r n) s =
        .next (reply s { a with kind := .copyPost tab off count (next + 1) acc (some (code, next)) } (postWord code next acc))))) ∧
  (∀ (s : State) (c : CoreRef) (k u : Nat) (j : Job) (x : ArrUnit), (s.jobs.filter fun j => j.core == c)[k]? = some j →
    j.units[u]? = some x → j.counted.contains u = false → j.counted.length < j.units.length →
    let event : Instr := .arrivalUnitCount c k u
    let only (v t : State) : Prop := t = { v with jobs := t.jobs }
    let counted (t : State) : Prop :=
      (j.counted.length + 1 = j.units.length → ∀ y ∈ t.jobs, y.id ≠ j.id) ∧
      (j.counted.length + 1 ≠ j.units.length → ∃ y ∈ t.jobs, y.id = j.id ∧ y.counted = j.counted ++ [u])
    let kept (t : State) (has : Job → Prop) : Prop := ∃ y ∈ t.jobs, y.id = j.id ∧ y.counted = j.counted ∧ has y
    let away (s : State) : Prop := s.gridOut j.obj.key.grid = true
    ((∀ y ∈ j.landed ++ j.due, y.unit ≠ u) →
      (j.data = none → away s → exec event s = .next s) ∧
      (s.jobPaused j = false →
        let ms := s.unitMoves j x
        let code := if j.err ≠ 0 then j.err else unitCode ms
        let s1 := (s.jobSeen j x).writeUnit j code ms
        let quiet := ∀ n ∈ s1.notices, n.cause < s.nextId
        ∃ t, exec event s = .next t ∧
          (quiet → ¬ away s1 → (∀ i ∈ s1.jobs, i.obj = j.obj → i.due = []) → only (s1.countDown j.obj x.len code) t ∧ counted t) ∧
          (quiet → away s1 → only s1 t ∧
            kept t fun y => y.landed = j.landed ∧ y.due = j.due ++ [⟨u, code, [], s1.tick⟩]) ∧
          (¬ quiet → only s1 t ∧ kept t fun y => y.due = j.due ∧
            ∃ ids, (∀ n ∈ s1.notices, s.nextId ≤ n.cause → n.cause ∈ ids) ∧ y.landed = j.landed ++ [⟨u, code, ids, 0⟩]))) ∧
    ∀ y, ((j.landed ++ j.due).find? fun z => z.unit == u) = some y → ∃ t, exec event s = .next t ∧
      (s.allApplied y.ids = false → only s t ∧ kept t fun i => y ∈ i.landed) ∧
      (s.allApplied y.ids = true → away s → only s t ∧ kept t fun i => ∃ z ∈ i.due, z.unit = u ∧ z.code = y.code) ∧
      (s.allApplied y.ids = true → ¬ away s →
        (∀ i ∈ s.jobs, i.obj = j.obj → ∀ z ∈ i.due, (if y ∈ j.due then y.since else s.tick) ≤ z.since) →
        only (s.countDown j.obj x.len y.code) t ∧ counted t)) ∧
  (∀ (s : State) (o : ObjRef) (len code : Nat),
    let hi := s.teamWord o.key (o.off + 4)
    s.countDown o len code =
      (s.putTeamWord o.key o.off (s.teamWord o.key o.off - BitVec.ofNat 32 len)).putTeamWord o.key (o.off + 4)
        (if code = 0 ∨ hi.getLsbD 31 = true then hi
         else (hi &&& 0xFF00FFFF) ||| BitVec.ofNat 32 (2 ^ 31 + code * 65536)))

/-- 17 R303 to R305, R310, R311, 09 R195: a collective of one member runs with this member's words; a good message enters
its target's queue when it has room, a bad one is answered with its code; a message starts its service group; a retried flit
changes nothing; a peer's access acts at the home. The order in which AMSEND's checks are made is the model's reading (log
entry 52). -/
def Obligations.CollectivesAndMessages : Prop :=
  (∀ (s : State) (p : Fin 12) (fg : Fin 64) (b : Blend),
    (s.blends.find? fun b => b.part == p && b.desc.fg == fg.val) = some b →
    let f := fgtIn b.tab fg.val
    f.nmbr = 1 → f.self = 0 →
    let n := b.desc.srcBytes 1 / 4
    let own := s.devWordsIn (fgtIn b.tab) p b.desc.src n
    ∃ t j, exec (.blendInstance p fg) s = .next t ∧ t.blends = s.blends.erase b ∧ t.jobs = s.jobs ++ [j] ∧
      t.mem = (s.devSeen (fgtIn b.tab) p b.desc.src n).mem ∧ j.tab = b.tab ∧
      j.part = p ∧ j.dst = b.desc.dst ∧ j.len = b.desc.dstBytes 1 ∧ j.rows = 1 ∧ j.obj = b.obj ∧ j.counted = [] ∧
      j.err = s.blendCheck b 1 ∧ j.data = some (b.desc.result 0 [own])) ∧
  (∀ (s : State) (r : GroupRef) (g : Group) (n : Nat) (a : Access) (w off : Word) (words : Nat), s.group r = some g →
    g.access n = some a → a.kind = .message w off words → a.lanes.all LaneAcc.performed = false → g.earlierMessage a w = false →
    let reply (s : State) (code acc : Nat) : State := s.moved r g (a.answer (postWord code 0 acc))
    let hcount := ((s.grid g.grid).map fun x => x.desc.hcount).getD 0
    let hidx := w.toNat % 256
    (s.targetCore g w = none → exec (.messageEnqueue r n) s = .next (reply s 15 0)) ∧
    ∀ c, s.targetCore g w = some c →
      (hcount ≤ hidx → exec (.messageEnqueue r n) s = .next (reply s 16 0)) ∧
      (hidx < hcount → s.ownPlace r g off (4 * words) 4 = none → exec (.messageEnqueue r n) s = .next (reply s 4 0)) ∧
      ∀ k b, hidx < hcount → s.ownPlace r g off (4 * words) 4 = some (k, b) →
        ((s.queued g.part c).length < 16 → exec (.messageEnqueue r n) s = .next (reply { s with msgs := s.msgs ++
            [⟨g.part, g.grid, c, hidx, g.uid, (List.range words).map fun i => s.teamWord k (b + 4 * i),
              BitVec.ofNat 32 (r.die.val * 2 ^ 24 + r.core.val * 65536 + r.slot.val), false, none, false⟩] } 0 1)) ∧
        (16 ≤ (s.queued g.part c).length → g.svc = .none → exec (.messageEnqueue r n) s = .next s) ∧
        (16 ≤ (s.queued g.part c).length → g.svc ≠ .none → exec (.messageEnqueue r n) s = .next (reply s 17 0))) ∧
  (∀ (s : State) (c : CoreRef) (p : Fin 4) (m : Msg) (gr : Grid) (off : Word) (w v : Nat),
    (s.msgs.find? fun m => m.core == c) = some m → s.grid m.grid = some gr → gr.pre.away = false →
    (s.parts[m.part]).halting = false → (∀ x ∈ s.groups, x.1.at = c → slotPlace x.1.slot ≠ 15) →
    (∀ x ∈ s.parked, x.place.at = c → x.grp.svc = .none) → m.trapService = false →
    m.lost = false →
    let va := gr.desc.htab + BitVec.ofNat 64 (8 * m.hidx)
    handlerEntryOf (s.devWord gr.part 0 va) (s.devWord gr.part 1 (va + 4)) = some (off, w, v) →
    ∃ t h, exec (.serviceGroupStart c p) s = .next t ∧ t.group ⟨c.die, c.core, Fin.ofNat 64 (16 * p.val + 15)⟩ = some h ∧
      t.msgs = s.msgs.erase m ∧ t.mem = (s.devSeen (s.fgt gr.part) gr.part va 2).mem ∧ h.svc = .message ∧ h.w = w ∧ h.nv = v ∧ h.uid = s.nextId ∧ h.grid = m.grid ∧
      h.run = none ∧ h.stack = [pathEntry off (fullMask w) none] ∧
      (∀ i, i < 16 → h.uni (BitVec.ofNat 6 i) = m.payload[i]?.getD 0) ∧ h.uni 16 = m.sender ∧
      h.uni 17 = BitVec.ofNat 32 m.hidx) ∧
  (∀ (s : State) (k : Fin 46), exec (.flitErrorRetry k) s = .next s) ∧
  (∀ (s : State) (p : Fin 12) (fg : Fin 64) (o pa : Nat) (v : Word), apertureOf (s.fgt p fg.val) (o / 4 * 4) = some pa →
    (s.fgt p fg.val).valid = true → s.engineOwns pa = false → s.foreign p pa = false →
    exec (.fabricAccessArrival p fg o .read) s = .next s ∧
    (s.isSealed pa = false → exec (.fabricAccessArrival p fg o (.write v)) s = .next (s.homeStore none pa v)) ∧
    (s.isSealed pa = true → exec (.fabricAccessArrival p fg o (.write v)) s = .next s))

/-! ### Scheduling -/

/-- 04 R352, R57, R55, 08 R144, R164, 09 R182, R190: a slot is granted to the next group; the live entries are filled; a
walk answers the stalled instruction; counters and sleeps end their waits; a YIELD ends; an ended group with nothing in
flight leaves. That an arrival two phases ahead gives up its slot, and takes one again by a grant, is the model's reading
(log entry 42). -/
def Obligations.SchedulingEvents : Prop :=
  ∀ (s : State) (r : GroupRef) (g : Group), s.group r = some g →
    (∀ c p k, Tbl.find s.slotOf (c, p, k) = none → s.throttled = false → s.nextGrant c p = some (r, g) →
      ∃ t h, exec (.issueSlotGrant c p k) s = .next t ∧ t.group r = some h ∧
        (∀ live, g.wait = none → g.nextLive = some live → h = { g with run := some ⟨live, 0⟩, yieldUntil := 0 }) ∧
        (∀ b, g.wait = some (.ahead b) → h = { g with wait := none }) ∧ (∀ q, q ≠ r → t.group q = s.group q) ∧
        Tbl.find t.slotOf (c, p, k) = some r.slot ∧ Tbl.find t.lastGrant (c, p) = some r.slot ∧ t.mem = s.mem) ∧
    exec (.divergenceFill r) s = .next (s.setGroup r { g with stack := fillLive g.stack }) ∧
    (∀ x, x ∈ (fillLive g.stack).take 2 → x.filled = true) ∧
    (∀ b rest, g.xlate = b :: rest →
      (s.walk g.part (65536 * b) = none → exec (.translationWalk r) s =
        .next (s.setGroup r { g with xlate := rest, walks := g.walks ++ [⟨b, none⟩] })) ∧
      ∀ leaf blocks pte, s.walk g.part (65536 * b) = some (leaf, blocks, pte) → exec (.translationWalk r) s =
        .next ((s.cacheLeaf r g b leaf blocks pte).setGroup r
          { g with xlate := rest, walks := g.walks ++ [⟨b, some (leaf, blocks, pte)⟩] })) ∧
    (∀ run e path n, Waiting s r g (.counter path n) run e →
      (g.count path ≤ n → g.coveredMarks e path n = [] →
        WaitEnds (.waitConditionMet r) s s r g run e [] fun _ => True) ∧
      (n < g.count path → exec (.waitConditionMet r) s = .next s)) ∧
    (∀ run e n, Waiting s r g (.sleep n) run e →
      (n ≤ s.time → WaitEnds (.sleepExpiry r) s s r g run e [] fun _ => True) ∧
      (s.time < n → exec (.sleepExpiry r) s = .next s)) ∧
    ((g.yieldUntil ≤ s.clk ∨ s.othersEligible r = false) →
      exec (.yieldExpiry r) s = .next (s.setGroup r { g with yieldUntil := 0 })) ∧
    (s.clk < g.yieldUntil → s.othersEligible r = true → exec (.yieldExpiry r) s = .next s) ∧
    (g.ended = true → g.acc = [] → s.startedOf g.uid = [] → g.endMark = none → ∃ t, exec (.groupRetire r) s = .next t ∧
      t.group r = none ∧ (∀ q, q ≠ r → t.group q = s.group q) ∧ t.mem = s.mem) ∧
    (g.ended = false ∨ g.acc ≠ [] → exec (.groupRetire r) s = .next s)

/-! ### Coherence -/

/-- 12 R236, R242, R243, R245, 08 R148, R149, 01 R29: a record of the die's incarnation is applied, bumps the version and
sends a notice to every other die that holds a copy; a notice of the incarnation marks its target's copy; helpers take a
replica of a plain line; a page moves with its words, the locks, requests, records and accesses that name it, and the
entries that map it, its twins then within each slice's Cellar share and in no gated slice; idle units are gated; the host
takes lines of HS pages and writes them in plaintext, and a snoop takes one. When a page can move is the model's choice (log
entry 39), and so are what the host finds and leaves elsewhere (log entry 34), of which lines replicas are made, and that
POWER_GATE gates an idle unit and ungates a gated one (log entry 73). -/
def Obligations.CoherenceEvents : Prop :=
  ∀ (s : State),
    (∀ k rec, s.records[k]? = some rec → (∀ x ∈ s.records.take k, x.die = rec.die → x.granule ≠ rec.granule) →
      (rec.inc ≠ s.incs[rec.die] → exec (.diffRecordApply k) s = .next { s with records := s.records.eraseIdx k }) ∧
      (rec.inc = s.incs[rec.die] → ∃ t ns, exec (.diffRecordApply k) s = .next t ∧ t.records = s.records.eraseIdx k ∧
        t.mem = rec.runs.foldl (fun m run => run.2.zipIdx.foldl (fun m x =>
          m.writeWord (rec.granule + 4 * run.1 + 4 * x.2) x.1) m) s.mem ∧
        Tbl.findD t.versions rec.granule 0 = Tbl.findD s.versions rec.granule 0 + 1 ∧ t.copies = s.copies ∧
        t.groups = s.groups ∧ t.notices = s.notices ++ ns ∧
        (ns.map (·.die)) = (List.finRange 12).filter (fun d => d != rec.die && (Tbl.find s.copies (d, rec.granule)).isSome) ∧
        ∀ n ∈ ns, n.granule = rec.granule ∧ n.src = rec.die ∧ n.inc = s.incs[rec.die] ∧ n.cause = rec.id)) ∧
    (∀ k, s.records[k]? = none → exec (.diffRecordApply k) s = .next s) ∧
    (∀ k n, s.notices[k]? = some n → ∃ t, exec (.staleNotice k) s = .next t ∧ { t with copies := s.copies, notices := s.notices } = s ∧
      t.notices = s.notices.eraseIdx k ∧
      ∀ x, Tbl.find t.copies x = if x = (n.die, n.granule) ∧ n.inc = s.incs[n.src] then
          (Tbl.find s.copies x).map fun c => { c with stale := true }
        else Tbl.find s.copies x) ∧
    (∀ k, s.notices[k]? = none → exec (.staleNotice k) s = .next s) ∧
    (∀ a h, (stackOf a).isSome = true → s.plainPage a = true → h ≠ 0 → h.getLsbD (sliceOf a) = false →
      ((List.range 16).filter fun i => h.getLsbD i).length ≤ 3 →
      exec (.replicaPush a h) s = .next { s with replicas := Tbl.put s.replicas (lineOf a) h }) ∧
    (∀ a h, (stackOf a).isSome = false ∨ s.plainPage a = false ∨ h = 0 ∨ h.getLsbD (sliceOf a) = true →
      exec (.replicaPush a h) s = .next s) ∧
    (∀ a b, s.pageMove a b = none → exec (.pageMigration a b) s = .next s) ∧
    (∀ a b v, MemoryCanonical s → s.pageMove a b = some v →
      let home := homeOf (b * 65536)
      let es := s.allEntries
      let mine := es.filter fun x => v.has (pteFrame x.2.1 / 65536)
      let entry (z : Nat) : Prop := ∃ x ∈ mine, v.pa x.1 ≤ z ∧ z < v.pa x.1 + 8
      (∀ x ∈ s.copies, x.1.1 = home → v.has (x.1.2 / 65536) = false) →
      (∀ x ∈ s.records, x.die = home → v.has (x.granule / 65536) = false) →
      v.old ≤ a ∧ a < v.old + v.blocks ∧ v.new = b ∧
      ∃ t, exec (.pageMigration a b) s = .next t ∧
        (∀ i, i < 65536 * v.blocks → ¬ entry (v.new * 65536 + i) →
          t.mem.read (v.new * 65536 + i) = s.mem.read (v.old * 65536 + i)) ∧
        (∀ z, z < v.new * 65536 ∨ v.new * 65536 + 65536 * v.blocks ≤ z → ¬ entry z → t.mem.read z = s.mem.read z) ∧
        (∀ x ∈ mine, (∀ y ∈ mine, y = x ∨ v.pa y.1 + 8 ≤ v.pa x.1 ∨ v.pa x.1 + 8 ≤ v.pa y.1) →
          t.mem.read64 (v.pa x.1) = v.leaf x.2.1 ∧ pteFrame (v.leaf x.2.1) = pteFrame x.2.1 / 65536 * 65536 - v.old * 65536 + b * 65536) ∧
        t.lockTab = s.lockTab.map (fun k => { k with line := v.pa k.line }) ∧
        t.lockReqs = s.lockReqs.map (fun k => { k with line := v.pa k.line }) ∧
        t.syncs = s.syncs.map (fun e => { e with line := v.pa e.line }) ∧
        (∃ sent, t.records = s.records.map (fun k => { k with granule := v.pa k.granule }) ++ sent) ∧
        (∀ d slice, slice < 16 → t.twinBytes d slice ≤ t.cellShare d) ∧
        (∀ x ∈ t.twins, ∀ u : Fin 52, u.val = 36 + sliceOf x.2 → (x.1, u) ∉ t.gated) ∧
        t.poison = s.poison.map (fun x => (v.pa x.1, x.2)) ∧
        t.groups = s.groups.map (fun x => (x.1, x.2.move v)) ∧
        ∀ pa at_, v.place (.mem pa at_) = .mem (v.pa pa) at_ ∧
          (v.pa pa = if v.old * 65536 ≤ pa ∧ pa < v.old * 65536 + 65536 * v.blocks then pa - v.old * 65536 + b * 65536 else pa)) ∧
    (∀ d u, (d, u) ∈ s.gated → exec (.powerGate d u) s = .next { s with gated := s.gated.filter fun x => x != (d, u) }) ∧
    (∀ d (u : Fin 52), (d, u) ∉ s.gated →
      let busy := if u.val < 36 then ∃ x ∈ s.groups, x.1.die = d ∧ x.1.core.val = u.val
        else ∃ x ∈ s.twins, x.1 = d ∧ sliceOf x.2 = u.val - 36
      (¬ busy → exec (.powerGate d u) s = .next { s with gated := s.gated ++ [(d, u)] }) ∧
      (busy → exec (.powerGate d u) s = .next s)) ∧
    (∀ a, (s.hsPage a = false ∨ (Tbl.find s.hostLines (lineOf a)).isSome = true → exec (.hostSnoop a) s = .next s) ∧
      (s.hsPage a = true → Tbl.find s.hostLines (lineOf a) = none →
        exec (.hostSnoop a) s = .next { s with hostLines := Tbl.put s.hostLines (lineOf a) .exclusive })) ∧
    ∀ p (a : BitVec 64) v leaf blocks pte, a.toNat < 2 ^ 57 → s.walk p a.toNat = some (leaf, blocks, pte) →
      let pa := leafPa leaf blocks a.toNat / 4 * 4
      fabricPa pa = false → s.foreign p pa = false →
      (pteHs leaf = false → exec (.hostMemoryAccess p a none) s = .next s) ∧
      (pteHs leaf = true → Tbl.find s.hostLines (lineOf pa) = none → ∃ h, (h = .exclusive ∨ h = .shared) ∧
        exec (.hostMemoryAccess p a none) s = .next { s with hostLines := Tbl.put s.hostLines (lineOf pa) h }) ∧
      (pteHs leaf = true → ∃ t, exec (.hostMemoryAccess p a (some v)) s = .next t ∧ t.mem = s.mem.writeWord pa v ∧
        t.groups = s.groups ∧ Tbl.find t.hostLines (lineOf pa) = some .modified) ∧
      (pteHs leaf = false → ∃ t w, exec (.hostMemoryAccess p a (some v)) s = .next t ∧ t.mem = s.mem.writeWord pa w ∧
        t.groups = s.groups)

/-! ### Pre-emption and swaps -/

/-- 09 R189, R192, R193, 11 R216, 16 R267, 19 R315, R316, R324, R329, 01 R23: a request marks the running grids and halts
the partition; once all stand still the marked grids leave their cores, their groups' images standing in the save area
(where in it, and what else it holds, is free: log entry 37); a selected grid comes back with its groups, RESUMED set, and
its matrix state; halted groups resume; an idle slice goes on (log entry 35 says which grid keeps a slice from going on); a
starved group leaves and comes back; a group that waited for a lock keeps what is left of its timeout, 1 µs where less is
left (log entry 86, the model's choice); its divergence area is written when it goes (log entry 22, the model's choice). An
expired slice pre-empts the grids of its queue when a grid of another queue of equal or higher counted priority waits and
cannot be placed; otherwise it starts anew. -/
def Obligations.PreemptionEvents : Prop :=
  ∀ (s : State) (p : Fin 12),
    let x := s.parts[p]
    let withdrawn (t : State) : Prop := ∀ r g, s.group r = some g →
      let held := g.run.isSome = true ∧ g.wait = none ∧
        (g.stalled = true ∨ g.hold ≠ none ∨ g.xlate ≠ [] ∨ g.mxWait ≠ none)
      (g.part ≠ p ∨ ¬ held → t.group r = some g) ∧
      (∀ run e, g.part = p → held → g.run = some run → g.stack[run.live]? = some e →
        ∃ h, t.group r = some h ∧ h.run = none ∧ h.stack = g.stack ∧ h.rets = g.rets ∧ h.stalled = false ∧ h.hold = none ∧
          h.xlate = [] ∧ h.mxWait = none ∧ g.KeepsRegisters h [])
    (x.en = false ∨ x.psave.toNat < 65536 → exec (.preemptRequest p) s = .next s) ∧
    (x.en = true → 65536 ≤ x.psave.toNat → (s.groups.map (·.1)).Nodup → ∃ t, exec (.preemptRequest p) s = .next t ∧
      (t.parts[p]).halting = true ∧ t.mem = s.mem ∧ withdrawn t ∧
      t.grids = s.grids.map fun gr =>
        if gr.part = p ∧ gr.runs = true ∧ gr.pre = .running then { gr with pre := .marked } else gr) ∧
    (x.halting = false → exec (.preemptSave p) s = .next s) ∧
    (∀ r g gr, MemoryCanonical s → x.halting = true → s.groups = [(r, g)] → s.parked = [] → g.part = p → g.run = none →
      g.wait = none → g.acc = [] → g.arrivals = [] → s.jobs = [] → g.lockLeft = none → g.stack.length ≤ 2 → g.rets.length ≤ 8 → s.startedOf g.uid = [] →
      g.ended = false → s.grids = [gr] → gr.id = g.grid → gr.part = p → gr.pre = .marked →
      ∃ t, exec (.preemptSave p) s = .next t ∧ t.groups = [] ∧ t.parked = [⟨r, { g with area := [] }, none⟩] ∧
        (t.parts[p]).halting = false ∧ ((t.parts[p]).queues[gr.prioQueue]).sliceFrom = none ∧
        (∃ gr', t.grids = [gr'] ∧ gr'.pre = .out s.clk ∧ gr'.id = gr.id ∧
          gr'.savedMx = if gr.desc.liveMx = true then (s.mxCores gr).map fun c => (c, s.matrixOf c) else []) ∧
        (s.saveArea p = none → t.mem = s.mem) ∧
        ∀ lo n, s.saveArea p = some (lo, n) →
          let im := g.image false 0 0
          (∀ a, a < lo ∨ lo + n ≤ a → t.mem.read a = s.mem.read a) ∧
          (4 * im.length ≤ n → ∃ b, lo ≤ b ∧ b + 4 * im.length ≤ lo + n ∧
            ∀ i w, im[i]? = some w → t.mem.readWord (b + 4 * i) = w)) ∧
    ((∀ g ∈ s.grids, g.part = p → g.pre ≠ .selected) → exec (.preemptRestore p) s = .next s) ∧
    (∀ gr r g, (s.grids.filter fun g => g.part == p && g.pre == .selected) = [gr] → x.halting = false → s.teamsFit gr = true →
      (∀ c ∈ s.mxCores gr, s.startedAt c = []) → s.parked = [⟨r, g, none⟩] → g.grid = gr.id → g.svc = .none →
      (s.slotFor r g = none → exec (.preemptRestore p) s = .next s) ∧
      ∀ k, s.slotFor r g = some k → ∃ t, exec (.preemptRestore p) s = .next t ∧ t.parked = [] ∧ t.mem = s.mem ∧
        t.group { r with slot := k } = some { g with resumed := true } ∧
        (∀ c ∈ s.mxCores gr, t.matrixOf c =
          { Tbl.findD gr.savedMx c .reset with owner := some gr.part, started := [] }) ∧
        (∀ y ∈ t.grids, y.id = gr.id → y.pre = .running ∧ y.savedMx = [] ∧ y.clusters = gr.clusters) ∧
        ((t.parts[p]).queues[gr.prioQueue]).sliceFrom = some (((x.queues[gr.prioQueue]).sliceFrom).getD s.clk)) ∧
    (x.en = true → ∃ t, exec (.resumeHalted p) s = .next t ∧
      ∀ r g, s.group r = some g → t.group r = some (if g.part = p ∧ g.wait = some .halted then { g with wait := none } else g)) ∧
    (∀ q, (x.queues[q]).sliceFrom = none → exec (.timeSliceExpiry p q) s = .next s) ∧
    (∀ q t0, (x.queues[q]).sliceFrom = some t0 → (x.queues[q]).slice ≠ 0 → t0 + 850 * (x.queues[q]).slice.toNat ≤ s.clk →
      x.halting = false → (∃ g ∈ s.grids, g.part = p ∧ g.prioQueue = q ∧ g.runs = true) →
      let kept := ∃ t, exec (.timeSliceExpiry p q) s = .next t ∧ ((t.parts[p]).queues[q]).sliceFrom = some s.clk ∧
        t.grids = s.grids ∧ t.groups = s.groups
      let waiting (g : Grid) := g.part = p ∧ g.prioQueue ≠ q ∧ s.stuck g = true
      (x.psave.toNat < 65536 → kept) ∧
      ((∀ g ∈ s.grids, waiting g → s.waitingPrio g < (x.queues[q]).prio.toNat) → kept) ∧
      (x.en = true → 65536 ≤ x.psave.toNat → (s.groups.map (·.1)).Nodup →
        (∃ g ∈ s.grids, waiting g ∧ (x.queues[q]).prio.toNat ≤ s.waitingPrio g) →
        ∃ t, exec (.timeSliceExpiry p q) s = .next t ∧ (t.parts[p]).halting = true ∧ t.mem = s.mem ∧ withdrawn t ∧
          t.grids = s.grids.map fun gr => if gr.part = p ∧ gr.runs = true ∧ gr.pre = .running ∧ gr.prioQueue = q
            then { gr with pre := .marked } else gr)) ∧
    (∀ q t0, (x.queues[q]).sliceFrom = some t0 → ((x.queues[q]).slice = 0 ∨ s.clk < t0 + 850 * (x.queues[q]).slice.toNat ∨
        ∀ g ∈ s.grids, g.part = p → g.prioQueue = q → g.runs = false) → exec (.timeSliceExpiry p q) s = .next s) ∧
    (∀ gr, let prio := ((s.parts[gr.part]).queues[gr.prioQueue]).prio.toNat
      (gr.queue = none → s.waitingPrio gr = prio) ∧
      (∀ q, gr.queue = some q → gr.pre.away = true →
        s.waitingPrio gr = if gr.outFrom + 850000 ≤ s.clk then min 3 (prio + 1) else prio) ∧
      ∀ q c t0, gr.queue = some q → gr.pre.away = false → ((s.parts[gr.part]).queues[q]).hand = some c → c.ready = some t0 →
        s.waitingPrio gr = if t0 + 850000 ≤ s.clk then min 3 (prio + 1) else prio) ∧
    (∀ r g gr w, s.groups = [(r, g)] → s.grid g.grid = some gr → g.svc = .none → g.ended = false →
      65536 ≤ (s.parts[gr.part]).psave.toNat → (s.parts[gr.part]).halting = false → g.wait = some w → yieldable w = true →
      g.waitFrom + 850 * gr.desc.starve < s.clk → s.askingOnce g = false → gr.placed.sum < gr.desc.nclu → s.drained g = true →
      ∃ t, exec (.starvationSwap r.at g.grid) s = .next t ∧ t.groups = [] ∧
        t.parked = s.parked ++
          [⟨r, { ({ g with area := g.areaSlots } : Group).abandon s.clk with arrivals := [] }, some s.clk⟩]) ∧
    (∀ (g : Group) d line ea q n clk, g.wait = some (.lock d line ea q n) →
      (g.abandon clk).wait = none ∧ (g.abandon clk).run = none ∧
      (g.abandon clk).lockLeft = some ⟨line, ea, if n = 0 then 0 else max 1 (n - (clk - g.waitFrom) / 850)⟩) ∧
    (∀ g : Group, g.lockLeft = none → s.lockImage g = 0) ∧
    (∀ (g : Group) y, g.lockLeft = some y → y.left < 2 ^ 24 →
      (s.lockImage g).getLsbD 127 = true ∧ (s.lockImage g).toNat % 2 ^ 24 = y.left) ∧
    (∀ c y, s.parked = [y] → y.place.at = c → s.mayReturn y = true → s.gridOut y.grp.grid = false → s.slotFor y.place y.grp = none →
      exec (.swapReturn c) s = .next s) ∧
    (∀ c y k, s.parked = [y] → y.place.at = c → s.mayReturn y = true → s.gridOut y.grp.grid = false →
      s.slotFor y.place y.grp = some k →
      ∃ t, exec (.swapReturn c) s = .next t ∧ t.group { y.place with slot := k } = some y.grp ∧ t.parked = []) ∧
    ∀ b, exec (.throttleWindow b) s = .next { s with throttled := b }

/-! ### Links and errors -/

/-- 19 R337, 09 R195 to R198: links step by a quarter clock and retrain; corrected errors are counted; uncorrectable ones
mark a line, an entry, an array cell, a scale, a table, or end a group; a lost unit is counted with poison, a lost message
starts no service; a fatal error discards all work of its partitions, as a failed retraining does on a die of the link (log
entry 38); a die rejoins with its next incarnation. Which partitions and lines containment takes (log entry 72), that a
group's error keeps TPC and that a die rejoins while no group runs on it (log entry 73), and that the grid of a lost message
reports POISON (log entry 77) are the model's choices. -/
def Obligations.LinksAndErrors : Prop :=
  ∀ (s : State) (k : Fin 46) (d : Fin 12) (c : CoreRef) (ps : BitVec 12) (a : Nat),
    let l := s.links[k]
    let m := s.matrixOf c
    let link (x : Link) : State := { s with links := s.links.set k x }
    let discards (i : Instr) : Prop := ∃ t, exec i s = .next t ∧
      (∀ p, (s.parts[p]).en = true → (s.parts[p]).dies.getLsbD d.val = true ∨ ps.getLsbD p.val = true →
        (∀ x ∈ t.groups, x.2.part ≠ p) ∧ (∀ x ∈ t.grids, x.part ≠ p) ∧ (∀ x ∈ t.jobs, x.part ≠ p) ∧
        (∀ x ∈ t.msgs, x.part ≠ p) ∧ (∀ x ∈ t.lockTab, x.part ≠ p) ∧ (∀ x ∈ t.records, x.part ≠ p) ∧
        (t.parts[p]).recov = true)
    (l.trained = true → l.retraining = false → l.level ≠ 3 →
      exec (.linkStepUp k) s = .next (link { l with level := l.level + 1, retraining := true })) ∧
    (l.trained = true → l.retraining = false → l.level ≠ 0 →
      exec (.linkStepDown k) s = .next (link { l with level := l.level - 1, retraining := true })) ∧
    (l.trained = false ∨ l.retraining = true → exec (.linkStepUp k) s = .next s ∧ exec (.linkStepDown k) s = .next s) ∧
    (l.retraining = true →
      exec (.retrainingComplete k true) s = .next (link { l with retraining := false, trained := true })) ∧
    (l.retraining = true → linkDies k ≠ [] → ∃ e ∈ linkDies k, ∃ more,
      let t := link { l with retraining := false, trained := false }
      exec (.retrainingComplete k false) s = .next (t.contain e (t.affected e more))) ∧
    (l.retraining = false → ∀ b, exec (.retrainingComplete k b) s = .next s) ∧
    exec .eccCorrected s = .next { s with ecnt := s.ecnt + 1 } ∧
    ((stackOf a).isSome = true → ∀ i, i = .eccUncorrectable (.line a) ∨ i = .flitLost (.line a) →
      exec i s = .next { s with poison := Tbl.put s.poison (lineOf a) 0 }) ∧
    (∀ row col, row < 256 → col < 1024 → exec (.eccUncorrectable (.acc c row col)) s =
      .next (s.setMatrix c { m with acc := Tbl.put m.acc (row, col) ⟨(m.entry row col).val, true⟩ })) ∧
    (∀ row col, row < 1024 → col < 1024 →
      exec (.eccUncorrectable (.array c row col)) s =
        .next (s.setMatrix c { m with tile := { m.tile with badCells := (row, col) :: m.tile.badCells } }) ∧
      exec (.eccUncorrectable (.scale c col)) s =
        .next (s.setMatrix c { m with tile := { m.tile with badScales := col :: m.tile.badScales } })) ∧
    (∀ n u j y, (s.jobs.filter fun j => j.core == c)[n]? = some j → j.units[u]? = some y → j.err = 0 →
      j.counted.contains u = false → j.counted.length < j.units.length → (∀ z ∈ j.landed ++ j.due, z.unit ≠ u) →
      s.jobPaused j = false →
      let ms := (s.unitMoves j y).map WordMove.lose
      let s1 := (s.jobSeen j y).writeUnit j (unitCode ms) ms
      (∀ z ∈ s1.notices, z.cause < s.nextId) → s1.gridOut j.obj.key.grid = false →
      (∀ i ∈ s1.jobs, i.obj = j.obj → i.due = []) →
      ∃ t, exec (.flitLost (.unit c n u)) s = .next t ∧
        t = { s1.countDown j.obj y.len (unitCode ms) with jobs := t.jobs }) ∧
    (∀ z tr w, (WordMove.moves z tr w).lose = .poison z tr) ∧
    (∀ n, let queue (s : State) : List Msg := s.msgs.filter fun m => m.core == c
      ∃ t, exec (.flitLost (.message c n)) s = .next t ∧ { t with msgs := s.msgs } = s ∧
        (t.msgs.filter fun m => m.core != c) = (s.msgs.filter fun m => m.core != c) ∧
        ∀ i, (queue t)[i]? = ((queue s)[i]?).map fun m => if i = n then { m with lost := true } else m) ∧
    (∀ (q : Fin 4) (z : Msg) (gr : Grid), (s.msgs.find? fun m => m.core == c) = some z → s.grid z.grid = some gr →
      gr.pre.away = false → (s.parts[z.part]).halting = false → (∀ x ∈ s.groups, x.1.at = c → slotPlace x.1.slot ≠ 15) →
      (∀ x ∈ s.parked, x.place.at = c → x.grp.svc = .none) → z.trapService = false → z.lost = true →
      ∃ t, exec (.serviceGroupStart c q) s = .next t ∧ t.groups = s.groups ∧ t.msgs = s.msgs.erase z ∧
        ∀ x ∈ t.grids, x.id = z.grid → x.term.isSome = true) ∧
    exec (.eccUncorrectable (.table c)) s = .next (s.setMatrix c { m with tableBad := true }) ∧
    (∀ r g, s.group r = some g → g.ended = false → ∃ t h, exec (.eccUncorrectable (.group r)) s = .next t ∧
      t.group r = some h ∧ h.ended = true ∧ h.stack = [] ∧ h.trap.tpc = g.trap.tpc ∧
      h.trap.tcause = tcauseWord (lowest g.alive) 1 Cause.poison.code) ∧
    discards (.eccUncorrectable (.fatal d ps)) ∧ discards (.flitLost (.fatal d ps)) ∧
    ((∀ x ∈ s.groups, x.1.die ≠ d) → ∃ t, exec (.agentRejoin d) s = .next t ∧ t.incs = s.incs.set d (s.incs[d] + 1) ∧
      t.mem = s.mem ∧ t.groups = s.groups ∧ (∀ x ∈ t.copies, x.1.1 ≠ d) ∧ (∀ x ∈ t.twins, x.1 ≠ d) ∧
      (∀ x ∈ t.tlb, x.die ≠ d) ∧ (∀ x ∈ t.notices, x.die ≠ d) ∧
      (∀ x ∈ t.syncs, x.dmask.getLsbD d.val = false ∧ x.adding.getLsbD d.val = false) ∧
      (let away (u : Nat) : Prop := ∃ y ∈ s.parked, y.place.die = d ∧ y.grp.uid = u
       (∀ x ∈ t.lockTab, ∀ w ∈ x.queue, ¬ away w.uid) ∧
       ∀ x ∈ s.lockTab, x.holder.isSome = true → ∃ y ∈ t.lockTab, y.line = x.line ∧ y.holder = x.holder ∧
         ∀ w, w ∈ y.queue ↔ w ∈ x.queue ∧ ¬ away w.uid))

/-! ### Bring-up -/

/-- 01 R26, R28, R29, 19 R338, R339: reset; self-tests set DIEOK and IOOK, and the first die with io 0 begins reduced
service, the lowest of those that pass in one clk (of several that passed before io 0, the lowest: log entry 56); PHASE
becomes 3 when all are up after the firmware, 0xE when a unit or a link fails or passes late; a FWLOAD ends as its image
verifies, one of PHASE 2 as well (log entry 56). That RESET re-keys every die is the model's choice (log entry 57). -/
def Obligations.BringUp : Prop :=
  ∀ (s : State),
    let limit := 425000000
    let up (t : State) : Prop := t.phase = 2 ∧ t.dieok = 0xFFF ∧ t.iook = 3 ∧ t.links.all (·.trained) = true
    exec .reset s = .next { State.reset with
      tick := s.tick, turn := s.turn, harvest := s.harvest
      mem := { cells := [], epochs := s.mem.epochs.map (· + 1), own := [] } } ∧
    (∀ u : Fin 14,
      let passed := if u.val < 12 then s.dieok.getLsbD u.val else s.iook.getLsbD (u.val - 12)
      let late := limit < s.clk ∧ u.val ≠ 12 ∧ passed = false
      ∃ t, exec (.selftestPass u) s = .next t ∧ t.mem = s.mem ∧
      t.dieok = (if u.val < 12 then s.dieok ||| BitVec.ofNat 12 (2 ^ u.val) else s.dieok) ∧
      t.iook = (if u.val < 12 then s.iook else s.iook ||| BitVec.ofNat 2 (2 ^ (u.val - 12))) ∧
      (late → t.phase = 14) ∧
      (s.phase ≠ 3 → (s.parts[(0 : Fin 12)]).en = false →
        (t.iook.getLsbD 0 = true → t.dieok ≠ 0 → (¬ late → s.phase = 0 → t.phase = 1) ∧ t.bdieAt = some s.clk ∧
          (t.parts[(0 : Fin 12)]).en = true ∧ (t.parts[(0 : Fin 12)]).gen = (s.parts[(0 : Fin 12)]).gen + 1 ∧
          ∃ d : Fin 12, t.dieok.getLsbD d.val = true ∧ (∀ e : Fin 12, e.val < d.val → t.dieok.getLsbD e.val = false) ∧
            t.bdie = BitVec.ofNat 4 d.val ∧ (t.parts[(0 : Fin 12)]).dies = BitVec.ofNat 12 (2 ^ d.val)) ∧
        (t.iook.getLsbD 0 = false ∨ t.dieok = 0 → t.parts = s.parts ∧ (¬ late → s.phase = 0 → t.phase = 0))) ∧
      (s.phase ≠ 3 → (s.parts[(0 : Fin 12)]).en = true → s.iook.getLsbD 0 = true → u.val < 12 → u.val < s.bdie.toNat →
        (∀ e : Fin 12, e.val < u.val → s.dieok.getLsbD e.val = false) →
        (s.bdieAt = some s.clk → t.bdie = BitVec.ofNat 4 u.val ∧
          (t.parts[(0 : Fin 12)]).dies = BitVec.ofNat 12 (2 ^ u.val)) ∧
        (s.bdieAt ≠ some s.clk → t.bdie = s.bdie ∧ t.parts = s.parts)) ∧
      (s.phase = 2 → ¬ late → (s.parts[(0 : Fin 12)]).en = true →
        t.phase = if t.dieok = 0xFFF ∧ t.iook = 3 ∧ s.links.all (·.trained) = true then 3 else 2)) ∧
    (limit < s.clk → s.phase ≠ 3 → s.dieok ≠ 0xFFF ∨ s.iook.getLsbD 1 = false →
      exec .selftestTimeout s = .next { s with phase := 14 }) ∧
    (s.clk ≤ limit ∨ s.phase = 3 ∨ (s.dieok = 0xFFF ∧ s.iook.getLsbD 1 = true) → exec .selftestTimeout s = .next s) ∧
    (∀ k : Fin 46, let t : State := { s with links := s.links.set k { s.links[k] with trained := true } }
      (up t → exec (.linkTrained k) s = .next { t with phase := 3 }) ∧ (¬ up t → exec (.linkTrained k) s = .next t) ∧
      (s.phase ≠ 3 → (s.links[k]).trained = false → exec (.linkTrainFail k) s = .next { s with phase := 14 }) ∧
      ((s.links[k]).trained = true → exec (.linkTrainFail k) s = .next s)) ∧
    (∀ k, s.fwst ≠ 1 ∨ s.firmware = none → exec (.firmwareVerified k) s = .next s) ∧
    ∀ f, s.fwst = 1 → s.firmware = some f →
      let good := Config.imageVerifies f.image
      let phase : BitVec 4 := if good = true ∧ s.phase = 1 then 2 else s.phase
      let t : State := { s with fwst := if good then 2 else 3, phase := phase }
      let last (x : BitVec 4) : Prop := x = if phase = 2 ∧ s.dieok = 0xFFF ∧ s.iook = 3 ∧ s.links.all (·.trained) = true then 3 else phase
      exec (.firmwareVerified !good) s = .next s ∧
      (s.handOf 0 f.queue .fwload = none → ∃ x, last x ∧ exec (.firmwareVerified good) s = .next { t with phase := x }) ∧
      ∀ c, s.handOf 0 f.queue .fwload = some c → s.twins = [] → s.records = [] → s.notices = [] →
        ∃ u, exec (.firmwareVerified good) s = .next u ∧ last u.phase ∧ u.fwst = t.fwst ∧
          (u.parts[(0 : Fin 12)].queues[f.queue]).hand = none ∧
          u.mem = (t.putRecord 0 c.crec (if good then .complete else .badcmd) (if good then 0 else 0x39) 0 none).mem

/-! ### Host registers -/

/-- 19 R312 to R317, 08 R146, R147: what a write to each register of the management and command windows does, and when it is
ignored, reserved offsets among them. The manual gives keys at enabling: the new keys of dies that join an enabled partition
are the model's choice, and so is what becomes of what dies that leave one hold (log entry 57). -/
def Obligations.HostRegisters : Prop :=
  ∀ (s : State) (p : Fin 12) (v : BitVec 12) (w : BitVec 32),
    let x := s.parts[p]
    let only (t : State) : Prop := (∀ q, q ≠ p → t.parts[q] = s.parts[q]) ∧ t.grids = s.grids
    let busy := x.queues.any (fun q => q.hand.isSome) = true ∨ x.children ≠ [] ∨ x.childSel ≠ none ∨ ∃ g ∈ s.grids, g.part = p
    (s.phase ≠ 3 ∨ busy → exec (.partitionEnable p v) s = .next s ∧ exec (.partitionTeardown p v) s = .next s) ∧
    (s.phase = 3 → ¬ busy →
      ((∃ q, q ≠ p ∧ (s.parts[q]).en = true ∧ (s.parts[q]).dies &&& v ≠ 0) ∨ x.pwin.toNat / 2 ^ 20 % 2 ^ 32 = 0 →
        exec (.partitionEnable p v) s = .next s) ∧
      ((∀ q, q ≠ p → (s.parts[q]).en = true → (s.parts[q]).dies &&& v = 0) → x.pwin.toNat / 2 ^ 20 % 2 ^ 32 ≠ 0 →
        (x.en = false → ∃ t, exec (.partitionEnable p v) s = .next t ∧ only t ∧
          t.mem = (diesOf v).foldl (fun m d => m.rekey d) s.mem ∧ t.parts[p] = { Partition.reset with
            en := true, dies := v, plimit := x.plimit, pwin := x.pwin, gen := x.gen + 1 }) ∧
        (x.en = true → ∃ t, exec (.partitionEnable p v) s = .next t ∧ only t ∧
          t.mem = (diesOf (v &&& ~~~x.dies)).foldl (fun m d => m.rekey d) s.mem ∧ t.parts[p] = { x with dies := v } ∧
          ∀ d : Fin 12, x.dies.getLsbD d.val = true → v.getLsbD d.val = false →
            (∀ k ∈ t.twins, k.1 ≠ d) ∧ (∀ k ∈ t.copies, k.1.1 ≠ d ∧ homeOf k.1.2 ≠ d) ∧ (∀ k ∈ t.tlb, k.die ≠ d) ∧
            (∀ k ∈ t.notices, k.die ≠ d) ∧ (∀ k ∈ t.records, homeOf k.granule ≠ d) ∧
            (∀ k ∈ t.lockTab, homeOf k.line ≠ d) ∧ ∀ k ∈ t.syncs, homeOf k.line ≠ d ∧ k.dmask.getLsbD d.val = false)) ∧
      (x.en = true → ∃ t, exec (.partitionTeardown p v) s = .next t ∧ only t ∧
        t.mem = (diesOf x.dies).foldl (fun m d => m.rekey d) s.mem ∧ (t.parts[p]).en = false ∧ (t.parts[p]).dies = v ∧
        (∀ k ∈ t.copies, k.2.part ≠ p) ∧ (∀ k ∈ t.records, k.part ≠ p) ∧ (∀ k ∈ t.syncs, k.part ≠ p) ∧
        (∀ k ∈ t.lockTab, k.part ≠ p) ∧ (∀ k ∈ t.msgs, k.part ≠ p) ∧ (∀ k ∈ t.jobs, k.part ≠ p) ∧
        (∀ k ∈ t.tlb, k.cid.toNat / 256 ≠ p.val) ∧ (∀ k ∈ t.vcache, k.part ≠ p) ∧
        (∀ k ∈ t.replicas, s.foreign p k.1 = true))) ∧
    (x.en = false → ∃ t, exec (.plimitWrite p w) s = .next t ∧ t = s.setPart p { x with plimit := (t.parts[p]).plimit } ∧
      wfield (t.parts[p]).plimit 27 24 = min 11 (wfield w 27 24) ∧
      wfield (t.parts[p]).plimit 23 16 = min 64 (wfield w 23 16) ∧
      wfield (t.parts[p]).plimit 15 12 = min 8 (wfield w 15 12)) ∧
    (x.en = true → ∃ t, exec (.plimitWrite p w) s = .next t ∧ only t ∧ t.mem = s.mem ∧ t.groups = s.groups ∧
      t.parts[p] = { x with plimit := (t.parts[p]).plimit } ∧
      wfield (t.parts[p]).plimit 27 24 = min 11 (wfield w 27 24) ∧
      wfield (t.parts[p]).plimit 23 16 = min 64 (wfield w 23 16) ∧
      wfield (t.parts[p]).plimit 15 12 = min 8 (wfield w 15 12) ∧
      ∀ (d : Fin 12) (slice : Nat), x.dies.getLsbD d.val = true → slice < 16 →
        t.twinBytes d slice ≤ 65536 * min 8 (wfield w 15 12)) ∧
    (∀ z : BitVec 64, (x.en = true → (∀ g ∈ s.grids, g.part = p → g.runs = false) → ∃ t, exec (.tbaseWrite p z) s = .next t ∧
        only t ∧ t.parts[p] = { x with tbase := z, gen := x.gen + 1 }) ∧
      (x.en = false ∨ (∃ g ∈ s.grids, g.part = p ∧ g.runs = true) → exec (.tbaseWrite p z) s = .next s)) ∧
    (∀ q, (x.en = false → exec (.qctlWrite p q w) s = .next s) ∧
      (x.en = true → exec (.qctlWrite p q w) s = .next (s.setPart p { x with queues := x.queues.set q { x.queues[q] with
        en := w.getLsbD 31, prio := w.extractLsb' 26 2, slice := w.extractLsb' 0 16,
        qhead := if w.getLsbD 31 = true ∧ (x.queues[q]).en = false then 0 else (x.queues[q]).qhead } }))) ∧
    exec (.pstatRecovClear p) s = .next (s.setPart p { x with recov := false }) ∧
    (x.en = false → exec (.registerWrite .mgmt (0x200 + 8 * p.val) w) s = .next (s.setPart p { x with pwin := hiWord x.pwin ++ w }) ∧
      exec (.registerWrite .mgmt (0x204 + 8 * p.val) w) s = .next (s.setPart p { x with pwin := w ++ loWord x.pwin }) ∧
      ∀ a, exec (.registerWrite (.win p) a w) s = .next s) ∧
    (∀ a, a < 0x200 ∨ 0x260 ≤ a ∨ a % 4 ≠ 0 → exec (.registerWrite .mgmt a w) s = .next s) ∧
    (∀ a, a % 4 ≠ 0 ∨ (a ≠ 0x20 ∧ a ≠ 0x24 ∧ (a < 0x800 ∨ 0xC00 ≤ a) ∧ (a < 0x80000 ∨ 0x100000 ≤ a)) →
      exec (.registerWrite (.win p) a w) s = .next s) ∧
    (x.en = true →
      exec (.registerWrite .mgmt (0x200 + 8 * p.val) w) s = .next s ∧
      exec (.registerWrite .mgmt (0x204 + 8 * p.val) w) s = .next s ∧
      ((∃ g ∈ s.grids, g.part = p ∧ (g.runs = true ∨ g.pre.away = true)) →
        exec (.registerWrite (.win p) 0x20 w) s = .next s ∧ exec (.registerWrite (.win p) 0x24 w) s = .next s) ∧
      (∀ (k : Fin 64) (i : Fin 4), ∃ y : BitVec 128,
        exec (.registerWrite (.win p) (0x800 + 16 * k.val + 4 * i.val) w) s =
          .next (s.setPart p { x with fgt := x.fgt.set k y }) ∧
        ∀ j : Fin 4, y.extractLsb' (32 * j.val) 32 =
          (if j = i then w else (x.fgt[k]).extractLsb' (32 * j.val) 32) &&& fgtBits.extractLsb' (32 * j.val) 32) ∧
      ((∀ g ∈ s.grids, g.part = p → g.runs = false ∧ g.pre.away = false) →
        exec (.registerWrite (.win p) 0x20 w) s = .next (s.setPart p { x with psave := hiWord x.psave ++ w }) ∧
        exec (.registerWrite (.win p) 0x24 w) s = .next (s.setPart p { x with psave := w ++ loWord x.psave })) ∧
      ∀ a, 0x80000 ≤ a → a < 0x100000 → a % 4 = 0 →
        exec (.registerWrite (.win p) a w) s = .next (s.setPart p { x with slots := Tbl.put x.slots (a / 4) w }))

/-! ### Commands and grids -/

/-- 19 R317 to R321, R338, R339: the record at a queue's head whose SEQ is QHEAD is taken: a good one is in hand, a bad one
is answered with BADCMD, one without a record address with an event. -/
def Obligations.CommandsAreTaken : Prop :=
  ∀ (s : State) (p : Fin 12) (q : Fin 64) (ws : List Word) (t : CmdType), (s.parts[p]).headRecord q = some ws →
    cmdType (wfield (ws[0]?.getD 0) 31 28) = some t →
    let x := s.parts[p]
    let k := x.queues[q]
    let c := cmdOf t ws s.clk (wfield x.plimit 27 24) (s.phase != 3)
    let passed := s.setPart p { x with queues := x.queues.set q { k with qhead := k.qhead + 1 } }
    let i : Instr := match t with
      | .launch => .launchCommand p q
      | .marker => .marker p q
      | .enum => .enumCmd p q
      | .attest => .attest p q
      | .fwload => .fwload p q
    (s.devOk p true c.crec 8 32 = false → exec i s = .next (passed.postBadCrec p q.val c.seq c.crec)) ∧
    (s.devOk p true c.crec 8 32 = true →
      (cmdFields c ws = false → exec i s = .next (passed.putRecord p c.crec .badcmd 1 0 none)) ∧
      (cmdFields c ws = true → s.cmdAddrs p c = false → exec i s = .next (passed.putRecord p c.crec .badcmd 2 0 none)) ∧
      (cmdFields c ws = true → s.cmdAddrs p c = true → exec i s =
        .next (s.setPart p { x with queues := x.queues.set q { k with qhead := k.qhead + 1, hand := some c } })))

/-- 19 R320 to R322, R338, R339, 01 R28: dependences make a command ready or fail it; a selected MARKER completes; ENUM and
ATTEST write their records; FWLOAD takes its image and starts a verification, one at a time, or is not available in full
service. A command ends after a release half at .sys, then its record is written. That every die of the partition makes that
half and the acquire half of a dependence, and when DEPSTRICT is judged, are the model's choices (log entry 55). -/
def Obligations.CommandsRun : Prop :=
  ∀ (s : State) (p : Fin 12) (q : Fin 64) (c : Cmd), ((s.parts[p]).queues[q]).hand = some c →
    let ends (s : State) (st : CStatus) : State := s.completeCmd p q c st 0
    let deps := [c.dep0, c.dep1].take c.ndep
    let sts := deps.map (s.recordStatus p)
    let met := (deps.foldl (fun s a => s.devSeen (s.fgt p) p a 1) s).acquireDies p .sys
    (c.fin = none →
      (c.ready = none → 0 ∉ sts → (c.strict = false ∨ ∀ n ∈ sts, n = 1) →
        exec (.dependenceMet p q) s = .next (met.setHand p q (some { c with ready := some s.clk }))) ∧
      (c.ready = none → 0 ∉ sts → c.strict = true → (∃ n ∈ sts, n ≠ 1) →
        exec (.dependenceMet p q) s = .next (ends met .depfail)) ∧
      (c.ready ≠ none → exec (.dependenceMet p q) s = .next s) ∧
      (c.ready = none → 0 ∈ sts →
        exec (.dependenceMet p q) s = .next (deps.foldl (fun s a => s.devSeen (s.fgt p) p a 1) s)) ∧
      (c.typ = .marker → (c.running = true → exec (.marker p q) s = .next (ends s .complete)) ∧
        (c.running = false → exec (.marker p q) s = .next s)) ∧
      (c.typ = .enum → (c.running = true → exec (.enumCmd p q) s = .next (ends (s.devPuts p c.arg s.enumRecord) .complete)) ∧
        (c.running = false → exec (.enumCmd p q) s = .next s)) ∧
      (c.typ = .attest → (c.running = true → exec (.attest p q) s = .next (ends ((s.devFetch p c.arg 8).1.devPuts p (c.arg + 32)
          (s.report (s.devFetch p c.arg 8).2)) .complete)) ∧
        (c.running = false → exec (.attest p q) s = .next s)) ∧
      (c.typ = .launch → exec (.launchCommand p q) s = .next s) ∧
      (c.typ = .fwload → (c.running = false → exec (.fwload p q) s = .next s) ∧
        (c.running = true → s.phase = 3 → exec (.fwload p q) s = .next (ends s .notavail)) ∧
        (c.running = true → s.phase ≠ 3 → s.fwst = 1 → exec (.fwload p q) s = .next s) ∧
        (c.running = true → s.phase ≠ 3 → s.fwst ≠ 1 → ∃ t, exec (.fwload p q) s = .next t ∧ t.fwst = 1 ∧
          t.firmware = some ⟨q, ((s.devWords p c.arg ((c.len + 3) / 4)).flatMap bytesOf).take c.len⟩ ∧ t.phase = s.phase ∧
          t.groups = s.groups ∧ t.grids = s.grids ∧ t.parts = s.parts))) ∧
    (∀ e, c.fin = some e →
      let i : Instr := match c.typ with
        | .launch => .launchCommand p q
        | .marker => .marker p q
        | .enum => .enumCmd p q
        | .attest => .attest p q
        | .fwload => .fwload p q
      (s.allApplied e.ids = true → exec i s = .next ((s.putRecord p c.crec e.st e.detail 0 none).setHand p q none)) ∧
      (s.allApplied e.ids = false → exec i s = .next s) ∧ exec (.dependenceMet p q) s = .next s) ∧
    (∀ st n,
      let dies := diesOf (s.parts[p]).dies
      let t := dies.foldl (fun s d => s.dieRelease d) s
      let ids := dies.flatMap t.flightOf
      (ids = [] → s.completeCmd p q c st n = (t.putRecord p c.crec st n 0 none).setHand p q none) ∧
      (ids ≠ [] → s.completeCmd p q c st n = t.setHand p q (some { c with fin := some ⟨st, n, ids⟩ }))) ∧
    (s.enumRecord.take 2 = [0x384000B0, s.svcstat] ∧ s.enumRecord.length = 368) ∧
    (∀ nonce, (s.report nonce).length = nonce.length + 685 ∧ (s.report nonce).take nonce.length = nonce ∧
      ∀ f, s.fwst = 2 → s.firmware = some f →
        ((s.report nonce).drop nonce.length).take 8 = wordsOfBytes 8 fun i => (sha3 f.image)[i]?.getD 0)

/-- 19 R323 to R326, R335: of the enabled host queues whose head is ready, the one of the highest priority wins, a head that
waited 1 ms counted one higher, and among equals the next in turn after the one that won last at that priority; the
device-side queue goes before it at the same priority. What wins runs: a good LAUNCH becomes a selected grid of its
descriptor, a bad one is answered with its detail, a child becomes a grid of its parent's queue's priority, a grid that was
out is selected again, its queue's slice restarting when a grid of the queue runs. That grids are numbered in the order they
are selected is the model's choice (log entry 69). -/
def Obligations.LaunchesAreSelected : Prop :=
  ∀ (s : State) (p : Fin 12), (s.parts[p]).en = true → (s.parts[p]).halting = false →
    let x := s.parts[p]
    (∀ q : Fin 64, s.returned p (some q) = none → ∀ c t, (x.queues[q]).en = true → (x.queues[q]).hand = some c →
      c.ready = some t → c.running = false → c.fin = none →
      let prio := (x.queues[q]).prio.toNat
      s.hostHead p q = some (.cmd c, if t + 850000 ≤ s.clk then min 3 (prio + 1) else prio)) ∧
    (∀ q : Fin 64, (x.queues[q]).en = false → s.hostHead p q = none) ∧
    (∀ q h n, s.hostWinner p = some (q, h, n) → s.hostHead p q = some (h, n) ∧
      ∀ (q' : Fin 64) (h' : Head) (n' : Nat), s.hostHead p q' = some (h', n') → n' ≤ n ∧
        (n' = n → let last := ((x.won[n]?.map (·.val)).getD 63)
          (q.val + 63 - last) % 64 ≤ (q'.val + 63 - last) % 64)) ∧
    (s.hostWinner p = none → ∀ q : Fin 64, s.hostHead p q = none) ∧
    (s.deviceHead p = none → s.hostWinner p = none → exec (.commandSelect p) s = .next s) ∧
    (∀ c cs, s.returned p none = none → x.childSel = none → x.children = c :: cs →
      let m := (x.queues[c.parentQueue]).prio.toNat
      s.deviceHead p = some (.child c, m) ∧
      ((∀ q h n, s.hostWinner p = some (q, h, n) → n ≤ m) → ∃ t g, exec (.commandSelect p) s = .next t ∧
        t.grids = s.grids ++ [g] ∧ g.id = s.nextGrid ∧ g.part = p ∧ g.queue = none ∧ g.prioQueue = c.parentQueue ∧
        g.desc = c.desc ∧ g.crec = c.crec ∧ g.dies = gridDiesOf x.dies c.desc ∧ g.clusters = [] ∧ t.mem = s.mem ∧
        (t.parts[p]).children = cs ∧ (t.parts[p]).childSel = some s.nextGrid)) ∧
    (∀ q h n, s.hostWinner p = some (q, h, n) → (∀ k m, s.deviceHead p = some (k, m) → m < n) →
      let s1 := s.setPart p { x with won := x.won.setIfInBounds n q }
      (∀ g, h = .grid g → ∃ t, exec (.commandSelect p) s = .next t ∧
        t.grids = s.grids.map (fun y => if y.id = g.id then { g with pre := .selected, order := s.nextGrid } else y) ∧
        let runs := ∃ y ∈ s.grids, y.id ≠ g.id ∧ y.part = g.part ∧ y.prioQueue = g.prioQueue ∧ y.runs = true
        (runs → ((t.parts[g.part]).queues[g.prioQueue]).sliceFrom = some s.clk) ∧
        (¬ runs → ((t.parts[g.part]).queues[g.prioQueue]).sliceFrom = none)) ∧
      (∀ c, h = .cmd c →
        let ws := s1.devWords p c.arg 36
        let detail := s1.descDetail x.dies c.tmax ws
        let t1 := s1.devSeen (s1.fgt p) p c.arg 36
        (c.typ = .launch → s1.devOk p false c.arg 36 64 = true → detail = 0 →
          ∃ t g, exec (.commandSelect p) s = .next t ∧ t.grids = s.grids ++ [g] ∧ g.id = s.nextGrid ∧ g.part = p ∧
            g.queue = some q ∧ g.prioQueue = q ∧ g.desc = descOf ws ∧ g.crec = c.crec ∧
            g.dies = gridDiesOf x.dies (descOf ws) ∧ g.placed = g.dies.map (fun _ => 0) ∧ g.clusters = [] ∧ g.term = none ∧
            t.mem = t1.mem ∧ ((t.parts[p]).queues[q]).hand = some { c with running := true }) ∧
        (c.typ = .launch → s1.devOk p false c.arg 36 64 = false →
          exec (.commandSelect p) s = .next (s1.completeCmd p q c .badcmd 0x36)) ∧
        (c.typ = .launch → s1.devOk p false c.arg 36 64 = true → detail ≠ 0 →
          exec (.commandSelect p) s = .next (t1.completeCmd p q c .badcmd detail)) ∧
        (c.typ ≠ .launch → exec (.commandSelect p) s = .next (s1.setHand p q (some { c with running := true })))))

/-- 19 R320, R321, R327, R328, 08 R137: the next cluster of a grid is placed with its groups, each with its own backing
store within the pool, or waiting for one; the first one placed takes the launch off its queue; a grid with nothing left
releases, and ends with its completion record once its stores are applied. That a child's grid opens the slice of its
parent's queue is the model's reading (log entry 35), and that the grid's own dies make the release half its choice (log
entry 55). -/
def Obligations.GridsAndClusters : Prop :=
  ∀ (s : State) (gr : Grid) (d : Fin 12), s.grid gr.id = some gr →
    let ready := ∀ x ∈ s.groups, x.2.grid = gr.id → x.1.die = d → x.2.wait ≠ some .pool
    (ready → (s.tileRead gr d).placement gr d = none → exec (.clusterPlace gr.id d) s = .next (s.tileRead gr d)) ∧
    (gr.tdep = none → s.tileRead gr d = s) ∧
    (∀ pl, ready → s.placement gr d = some pl → s.returnsFirst gr.id d = false →
      (∀ x ∈ s.grids, x.order < gr.order → s.placement x d = none) → gr.tdep = none →
      ∃ t, exec (.clusterPlace gr.id d) s = .next t ∧ t.groups = s.groups ++ s.clusterGroups gr d pl ∧
        t.teams = s.teams ++ clusterTeams gr d pl ∧ t.mem = s.mem ∧ t.nextId = s.nextId + gr.desc.gpc ∧
        (∀ y ∈ s.clusterGroups gr d pl, y.2.grid = gr.id ∧ y.2.part = gr.part ∧ y.2.w = gr.desc.w ∧ y.2.nv = gr.desc.nv ∧
          y.2.stack = [pathEntry gr.desc.entry (fullMask gr.desc.w) none] ∧ y.2.rets = [] ∧ y.2.mode = 0 ∧ y.2.fstat = 0 ∧
          y.2.acc = [] ∧ y.2.run = none ∧ y.1.die = d ∧ (y.2.wait = none ∨ y.2.wait = some .pool) ∧
          (∀ k : Fin 64, y.2.s[k] = gr.desc.args[k.val]?.getD 0) ∧
          (∀ k : Fin 64, y.2.v[k] = ⟨.raw, Vector.replicate 64 0⟩) ∧ ∀ k : Fin 8, y.2.p[k] = 0) ∧
        ((∀ n ∈ gr.placed, n = 0) → ((t.parts[gr.part]).queues[gr.prioQueue]).sliceFrom =
            some ((((s.parts[gr.part]).queues[gr.prioQueue]).sliceFrom).getD s.clk) ∧
          (∀ q, gr.queue = some q → ((t.parts[gr.part]).queues[q]).hand = none) ∧
          (gr.queue = none → (t.parts[gr.part]).childSel = none))) ∧
    (∀ lo len n choice used b, pickStore lo len n choice used = some b →
      lo ≤ b ∧ b + n ≤ lo + len ∧ b % 128 = 0 ∧ ∀ x ∈ used, x.1 + x.2 ≤ b ∨ b + n ≤ x.1) ∧
    (s.gridDone gr = false → exec (.gridComplete gr.id) s = .next s) ∧
    (s.gridDone gr = true → gr.rel = none → (∀ e ∈ gr.dies, ∀ x ∈ s.twins, x.1 ≠ e) → ∃ t, exec (.gridComplete gr.id) s = .next t ∧
      t.grids = s.grids.map (fun x => if x.id = gr.id then { gr with rel := some (gr.dies.flatMap s.flightOf) } else x) ∧
      t.mem = s.mem ∧ t.groups = s.groups) ∧
    (∀ ids, s.gridDone gr = true → gr.rel = some ids → s.allApplied ids = false → exec (.gridComplete gr.id) s = .next s) ∧
    (∀ ids, s.gridDone gr = true → gr.rel = some ids → s.allApplied ids = true → ∃ t, exec (.gridComplete gr.id) s = .next t ∧
      (∀ x ∈ t.grids, x.id ≠ gr.id) ∧ (∀ x ∈ t.teams, x.key.grid ≠ gr.id) ∧
      t.mem = (s.putRecord gr.part gr.crec (if gr.term.isSome then .terminated else .complete) 0 gr.id gr.term).mem)
end

