-- ==== Sys2Proof/Laws/Encoding.lean ====
section
/-! SUPPORT. The fields of the words the encoder builds, and the codes of named values read back. -/

namespace Sys2Proof

/-! ### Fields of a format -/

@[simp] theorem fldB31_fmtA (y : Bool) (op : BitVec 7) (d a b c : BitVec 6) : fldB31 (fmtA y op d a b c) = y := by
  unfold fldB31 fmtA
  repeat rw [BitVec.getLsbD_append]
  cases y <;> rfl
@[simp] theorem fldOp_fmtA (y : Bool) (op : BitVec 7) (d a b c : BitVec 6) : fldOp (fmtA y op d a b c) = op := by
  unfold fldOp fmtA
  repeat rw [BitVec.extractLsb'_append_eq_of_le (by decide)]
  rw [BitVec.extractLsb'_append_eq_of_add_le (by decide)]
  exact BitVec.extractLsb'_eq_self
@[simp] theorem fldD_fmtA (y : Bool) (op : BitVec 7) (d a b c : BitVec 6) : fldD (fmtA y op d a b c) = d := by
  unfold fldD fmtA
  repeat rw [BitVec.extractLsb'_append_eq_of_le (by decide)]
  rw [BitVec.extractLsb'_append_eq_of_add_le (by decide)]
  exact BitVec.extractLsb'_eq_self
@[simp] theorem fldA_fmtA (y : Bool) (op : BitVec 7) (d a b c : BitVec 6) : fldA (fmtA y op d a b c) = a := by
  unfold fldA fmtA
  repeat rw [BitVec.extractLsb'_append_eq_of_le (by decide)]
  rw [BitVec.extractLsb'_append_eq_of_add_le (by decide)]
  exact BitVec.extractLsb'_eq_self
@[simp] theorem fldB_fmtA (y : Bool) (op : BitVec 7) (d a b c : BitVec 6) : fldB (fmtA y op d a b c) = b := by
  unfold fldB fmtA
  repeat rw [BitVec.extractLsb'_append_eq_of_le (by decide)]
  rw [BitVec.extractLsb'_append_eq_of_add_le (by decide)]
  exact BitVec.extractLsb'_eq_self
@[simp] theorem fldC_fmtA (y : Bool) (op : BitVec 7) (d a b c : BitVec 6) : fldC (fmtA y op d a b c) = c := by
  unfold fldC fmtA
  repeat rw [BitVec.extractLsb'_append_eq_of_le (by decide)]
  rw [BitVec.extractLsb'_append_eq_of_add_le (by decide)]
  exact BitVec.extractLsb'_eq_self

@[simp] theorem fldB31_fmtI (y : Bool) (op : BitVec 7) (d : BitVec 6) (i : BitVec 18) : fldB31 (fmtI y op d i) = y := by
  unfold fldB31 fmtI
  repeat rw [BitVec.getLsbD_append]
  cases y <;> rfl
@[simp] theorem fldOp_fmtI (y : Bool) (op : BitVec 7) (d : BitVec 6) (i : BitVec 18) : fldOp (fmtI y op d i) = op := by
  unfold fldOp fmtI
  repeat rw [BitVec.extractLsb'_append_eq_of_le (by decide)]
  rw [BitVec.extractLsb'_append_eq_of_add_le (by decide)]
  exact BitVec.extractLsb'_eq_self
@[simp] theorem fldD_fmtI (y : Bool) (op : BitVec 7) (d : BitVec 6) (i : BitVec 18) : fldD (fmtI y op d i) = d := by
  unfold fldD fmtI
  repeat rw [BitVec.extractLsb'_append_eq_of_le (by decide)]
  rw [BitVec.extractLsb'_append_eq_of_add_le (by decide)]
  exact BitVec.extractLsb'_eq_self
@[simp] theorem fldImm_fmtI (y : Bool) (op : BitVec 7) (d : BitVec 6) (i : BitVec 18) : fldImm (fmtI y op d i) = i := by
  unfold fldImm fmtI
  repeat rw [BitVec.extractLsb'_append_eq_of_le (by decide)]
  rw [BitVec.extractLsb'_append_eq_of_add_le (by decide)]
  exact BitVec.extractLsb'_eq_self

@[simp] theorem fldB31_fmtN (y : Bool) (op : BitVec 7) (d : BitVec 6) (n : BitVec 12) (c : BitVec 6) : fldB31 (fmtN y op d n c) = y := by
  unfold fldB31 fmtN
  repeat rw [BitVec.getLsbD_append]
  cases y <;> rfl
@[simp] theorem fldOp_fmtN (y : Bool) (op : BitVec 7) (d : BitVec 6) (n : BitVec 12) (c : BitVec 6) : fldOp (fmtN y op d n c) = op := by
  unfold fldOp fmtN
  repeat rw [BitVec.extractLsb'_append_eq_of_le (by decide)]
  rw [BitVec.extractLsb'_append_eq_of_add_le (by decide)]
  exact BitVec.extractLsb'_eq_self
@[simp] theorem fldD_fmtN (y : Bool) (op : BitVec 7) (d : BitVec 6) (n : BitVec 12) (c : BitVec 6) : fldD (fmtN y op d n c) = d := by
  unfold fldD fmtN
  repeat rw [BitVec.extractLsb'_append_eq_of_le (by decide)]
  rw [BitVec.extractLsb'_append_eq_of_add_le (by decide)]
  exact BitVec.extractLsb'_eq_self
@[simp] theorem fldC_fmtN (y : Bool) (op : BitVec 7) (d : BitVec 6) (n : BitVec 12) (c : BitVec 6) : fldC (fmtN y op d n c) = c := by
  unfold fldC fmtN
  repeat rw [BitVec.extractLsb'_append_eq_of_le (by decide)]
  rw [BitVec.extractLsb'_append_eq_of_add_le (by decide)]
  exact BitVec.extractLsb'_eq_self
@[simp] theorem fldNum_fmtN (y : Bool) (op : BitVec 7) (d : BitVec 6) (n : BitVec 12) (c : BitVec 6) : fldNum (fmtN y op d n c) = n := by
  unfold fldNum fmtN
  repeat rw [BitVec.extractLsb'_append_eq_of_le (by decide)]
  rw [BitVec.extractLsb'_append_eq_of_add_le (by decide)]
  exact BitVec.extractLsb'_eq_self

@[simp] theorem fldB31_fmt24 (y : Bool) (op : BitVec 7) (i : BitVec 24) : fldB31 (fmt24 y op i) = y := by
  unfold fldB31 fmt24
  repeat rw [BitVec.getLsbD_append]
  cases y <;> rfl
@[simp] theorem fldOp_fmt24 (y : Bool) (op : BitVec 7) (i : BitVec 24) : fldOp (fmt24 y op i) = op := by
  unfold fldOp fmt24
  repeat rw [BitVec.extractLsb'_append_eq_of_le (by decide)]
  rw [BitVec.extractLsb'_append_eq_of_add_le (by decide)]
  exact BitVec.extractLsb'_eq_self
@[simp] theorem fld24_fmt24 (y : Bool) (op : BitVec 7) (i : BitVec 24) : fld24 (fmt24 y op i) = i := by
  unfold fld24 fmt24
  repeat rw [BitVec.extractLsb'_append_eq_of_le (by decide)]
  rw [BitVec.extractLsb'_append_eq_of_add_le (by decide)]
  exact BitVec.extractLsb'_eq_self

/-- A word of format A without a d, a, b and c is zero below its opcode. -/
@[simp] theorem fld24_fmtI_zero (y : Bool) (op : BitVec 7) : fld24 (fmtI y op 0#6 0#18) = 0 := by
  unfold fld24 fmtI
  rw [show (BitVec.ofBool y ++ op ++ 0#6 ++ 0#18 : BitVec 32) = (BitVec.ofBool y ++ op ++ 0#24 : BitVec 32) by cases y <;> revert op <;> decide]
  rw [BitVec.extractLsb'_append_eq_of_add_le (by decide)]
  exact BitVec.extractLsb'_eq_self

/-! ### Parts of a field -/

@[simp] theorem lo3_zeros (d : BitVec 3) : lo3 (0#3 ++ d) = d := by revert d; decide
@[simp] theorem hi3_zeros (d : BitVec 3) : (0#3 ++ d).extractLsb' 3 3 = 0 := by revert d; decide
@[simp] theorem lo4_zeros (d : BitVec 4) : lo4 (0#2 ++ d) = d := by revert d; decide
@[simp] theorem hi2_zeros (d : BitVec 4) : hi2 (0#2 ++ d) = 0 := by revert d; decide
@[simp] theorem lo4_join (q : BitVec 2) (p : BitVec 4) : lo4 (q ++ p) = p := by revert q p; decide
@[simp] theorem hi2_join (q : BitVec 2) (p : BitVec 4) : hi2 (q ++ p) = q := by revert q p; decide
@[simp] theorem atom_hi (k : BitVec 4) (q : BitVec 2) : (k ++ q).extractLsb' 2 4 = k := by revert k q; decide
@[simp] theorem atom_lo (k : BitVec 4) (q : BitVec 2) : (k ++ q).extractLsb' 0 2 = q := by revert k q; decide
@[simp] theorem brp_zero (n : Bool) (p : BitVec 3) : (0#2 ++ BitVec.ofBool n ++ p).extractLsb' 4 2 = 0#2 := by revert n p; decide
@[simp] theorem brp_neg (n : Bool) (p : BitVec 3) : (0#2 ++ BitVec.ofBool n ++ p)[3] = n := by revert n p; decide
@[simp] theorem brp_pred (n : Bool) (p : BitVec 3) : lo3 (0#2 ++ BitVec.ofBool n ++ p) = p := by revert n p; decide
@[simp] theorem slea_not (k : BitVec 3) : (0b010#3 ++ k = 0#6) = False := by revert k; decide
@[simp] theorem slea_not_one (k : BitVec 3) : (0b010#3 ++ k = 1#6) = False := by revert k; decide
@[simp] theorem slea_head (k : BitVec 3) : (0b010#3 ++ k).extractLsb' 3 3 = 2#3 := by revert k; decide
@[simp] theorem slea_shift (k : BitVec 3) : lo3 (0b010#3 ++ k) = k := by revert k; decide
@[simp] theorem srdsr_num (j : BitVec 10) (n : BitVec 8) : (j ++ n).extractLsb' 0 8 = n := by
  rw [BitVec.extractLsb'_append_eq_of_add_le (by decide)]
  exact BitVec.extractLsb'_eq_self
@[simp] theorem srdsr_index (j : BitVec 10) (n : BitVec 8) : (j ++ n).extractLsb' 8 10 = j := by
  rw [BitVec.extractLsb'_append_eq_of_le (by decide)]
  exact BitVec.extractLsb'_eq_self
@[simp] theorem flag_top (e : Bool) (k : BitVec 4) : (0#1 ++ BitVec.ofBool e ++ k)[5] = false := by revert e k; decide
@[simp] theorem flag_bit (e : Bool) (k : BitVec 4) : (0#1 ++ BitVec.ofBool e ++ k)[4] = e := by revert e k; decide
@[simp] theorem flag_lo (e : Bool) (k : BitVec 4) : lo4 (0#1 ++ BitVec.ofBool e ++ k) = k := by revert e k; decide
@[simp] theorem one_head (e : Bool) : (0#5 ++ BitVec.ofBool e).extractLsb' 1 5 = 0#5 := by revert e; decide
@[simp] theorem one_bit (e : Bool) : (0#5 ++ BitVec.ofBool e)[0] = e := by revert e; decide
@[simp] theorem bar_lo (h l : BitVec 2) : (h ++ l ++ 0#2).extractLsb' 0 2 = 0#2 := by revert h l; decide
@[simp] theorem bar_level (h l : BitVec 2) : (h ++ l ++ 0#2).extractLsb' 2 2 = l := by revert h l; decide
@[simp] theorem bar_kind (h l : BitVec 2) : hi2 (h ++ l ++ 0#2) = h := by revert h l; decide
@[simp] theorem amsend_top (n : BitVec 5) : (0#1 ++ n)[5] = false := by revert n; decide
@[simp] theorem amsend_count (n : BitVec 5) : (0#1 ++ n).extractLsb' 0 5 = n := by revert n; decide
@[simp] theorem tagrd_hi : hi2 16#6 = 1#2 := by decide
@[simp] theorem unpk_zero (j : BitVec 2) : (0#4 ++ j).extractLsb' 2 4 = 0#4 := by revert j; decide
@[simp] theorem cvtps_part (j : BitVec 2) : (0#4 ++ j).extractLsb' 0 2 = j := by revert j; decide

/-! ### Codes of named values -/

@[simp] theorem Order.ofNum_num (x : Order) : Order.ofNum x.num = some x := by cases x <;> rfl
@[simp] theorem Scope.ofNum_num (x : Scope) : Scope.ofNum x.num = some x := by cases x <;> rfl
@[simp] theorem Level.ofNum_num (x : Level) : Level.ofNum x.num = some x := by cases x <;> rfl
@[simp] theorem Tag.ofNum_num (x : Tag) : Tag.ofNum x.num = some x := by cases x <;> rfl
@[simp] theorem SCond.ofCode_code (x : SCond) : SCond.ofCode x.code = some x := by cases x <;> rfl
@[simp] theorem VCond.ofCode_code (x : VCond) : VCond.ofCode x.code = some x := by cases x <;> rfl
@[simp] theorem FCond.ofCode_code (x : FCond) : FCond.ofCode x.code = some x := by cases x <;> rfl
@[simp] theorem RedOp.ofNum_num (x : RedOp) : RedOp.ofNum x.num = some x := by cases x <;> rfl
@[simp] theorem AtomOp.ofNum_num (x : AtomOp) : AtomOp.ofNum x.num = some x := by cases x <;> rfl
@[simp] theorem Path.ofCode_code (x : Path) : Path.ofCode x.code = some x := by cases x <;> rfl
@[simp] theorem Window.ofCode_code (x : Window) : Window.ofCode x.code = some x := by cases x <;> rfl
@[simp] theorem SReg.ofNum_num (x : SReg) : SReg.ofNum x.num = some x := by
  cases x with
  | hmap d => revert d; decide
  | _ => rfl
@[simp] theorem SysReg.ofNum_num (x : SysReg) : SysReg.ofNum x.num = some x := by
  cases x with
  | sr n => cases n with
    | hmap d => revert d; decide
    | _ => rfl
  | _ => rfl

end Sys2Proof
end

