-- ==== Sys2Proof/Laws/Memory.lean ====
section
/-! SUPPORT. Memory: every operation keeps the canonical form; a read after a write to the same byte gives the value
written, and a write leaves every other byte alone. -/

namespace Sys2Proof.Machine

/-! ### Cells -/

theorem cellsWf_weaken {d : Nat → BitVec 8} {l : List Host.Cell} {lo lo' : Nat} (h : lo' ≤ lo)
    (w : cellsWf d lo l = true) : cellsWf d lo' l = true := by
  cases l with
  | nil => rfl
  | cons x rest =>
    simp only [cellsWf, Bool.and_eq_true, decide_eq_true_eq] at w ⊢
    exact ⟨⟨by omega, w.1.2⟩, w.2⟩

/-- Below the first entry every address reads as the default. -/
theorem cellRead_below {d : Nat → BitVec 8} {l : List Host.Cell} {lo a : Nat} (w : cellsWf d lo l = true) (h : a < lo) :
    cellRead d l a = d a := by
  induction l generalizing lo with
  | nil => rfl
  | cons x rest ih =>
    simp only [cellsWf, Bool.and_eq_true, decide_eq_true_eq] at w
    simp only [cellRead]
    rw [if_neg (by omega)]
    exact ih w.2 (by omega)

theorem cellWrite_wf {d : Nat → BitVec 8} {l : List Host.Cell} {lo a : Nat} {b : BitVec 8} (w : cellsWf d lo l = true)
    (h : lo ≤ a) : cellsWf d lo (cellWrite d l a b) = true := by
  induction l generalizing lo with
  | nil => by_cases hb : b = d a <;> simp [cellWrite, cellsWf, hb, h]
  | cons x rest ih =>
    simp only [cellsWf, Bool.and_eq_true, decide_eq_true_eq] at w
    simp only [cellWrite]
    split
    · split <;> simp only [cellsWf, Bool.and_eq_true, decide_eq_true_eq]
      · exact ⟨w.1, w.2⟩
      · exact ⟨⟨h, by assumption⟩, ⟨⟨by omega, w.1.2⟩, w.2⟩⟩
    · split
      · split
        · exact cellsWf_weaken (by omega) w.2
        · simp only [cellsWf, Bool.and_eq_true, decide_eq_true_eq]
          rename_i h1 h2 h3
          exact ⟨⟨h, h3⟩, by rw [h2]; exact w.2⟩
      · simp only [cellsWf, Bool.and_eq_true, decide_eq_true_eq]
        exact ⟨w.1, ih w.2 (by omega)⟩

theorem cellRead_cellWrite_same {d : Nat → BitVec 8} {l : List Host.Cell} {lo a : Nat} {b : BitVec 8}
    (w : cellsWf d lo l = true) : cellRead d (cellWrite d l a b) a = b := by
  induction l generalizing lo with
  | nil => by_cases hb : b = d a <;> simp [cellWrite, cellRead, hb]
  | cons x rest ih =>
    have w' := w
    simp only [cellsWf, Bool.and_eq_true, decide_eq_true_eq] at w
    simp only [cellWrite]
    split
    · split
      · rename_i h1 h2
        simp only [cellRead]
        rw [if_neg (by omega), cellRead_below w.2 (by omega), h2]
      · simp [cellRead]
    · split
      · split
        · rename_i h1 h2 h3
          rw [cellRead_below w.2 (by omega), h3]
        · simp [cellRead]
      · simp only [cellRead]
        rw [if_neg (by omega)]
        exact ih w.2

theorem cellRead_cellWrite_other {d : Nat → BitVec 8} {l : List Host.Cell} {a c : Nat} {b : BitVec 8} (h : c ≠ a) :
    cellRead d (cellWrite d l a b) c = cellRead d l c := by
  induction l with
  | nil => by_cases hb : b = d a <;> simp [cellWrite, cellRead, hb, Ne.symm h]
  | cons x rest ih =>
    simp only [cellWrite]
    split
    · split
      · rfl
      · simp [cellRead, Ne.symm h]
    · split
      · rename_i h1 h2
        split
        · simp only [cellRead]
          rw [if_neg (by rw [← h2]; exact Ne.symm h)]
        · simp only [cellRead]
          rw [if_neg (Ne.symm h), if_neg (by rw [← h2]; exact Ne.symm h)]
      · simp only [cellRead, ih]

/-- The form depends on the default at the listed addresses alone. -/
theorem cellsWf_filter {d d' : Nat → BitVec 8} {l : List Host.Cell} {lo : Nat} {f : Host.Cell → Bool}
    (w : cellsWf d lo l = true) (h : ∀ x ∈ l, f x = true → d' x.1 = d x.1) : cellsWf d' lo (l.filter f) = true := by
  induction l generalizing lo with
  | nil => rfl
  | cons x rest ih =>
    simp only [cellsWf, Bool.and_eq_true, decide_eq_true_eq] at w
    have hr : cellsWf d' (x.1 + 1) (rest.filter f) = true := ih w.2 fun y hy => h y (List.mem_cons_of_mem _ hy)
    simp only [List.filter_cons]
    split
    · rename_i hf
      simp only [cellsWf, Bool.and_eq_true, decide_eq_true_eq]
      exact ⟨⟨w.1.1, by rw [h x (List.mem_cons_self ..) hf]; exact w.1.2⟩, hr⟩
    · exact cellsWf_weaken (by omega) hr

/-! ### Device memory -/

/-- Elements that a search does not select may be left out. -/
theorem find_filter_of_imp {α : Type} {f p : α → Bool} {l : List α} (h : ∀ x ∈ l, p x = true → f x = true) :
    (l.filter f).find? p = l.find? p := by
  induction l with
  | nil => rfl
  | cons x rest ih =>
    have hr := ih fun y hy => h y (List.mem_cons_of_mem _ hy)
    simp only [List.filter_cons, List.find?_cons]
    by_cases hp : p x
    · simp [h x (List.mem_cons_self ..) hp, hp]
    · by_cases hf : f x
      · simp [hf, hp, hr]
      · simp [hf, hp, hr]

theorem Memory.write_wf {m : Memory} (a : Nat) (b : BitVec 8) (w : m.wf = true) : (m.write a b).wf = true :=
  cellWrite_wf (d := m.blank) w (Nat.zero_le a)

/-- A read after a write to the same byte. -/
theorem Memory.read_write_same {m : Memory} (a : Nat) (b : BitVec 8) (w : m.wf = true) : (m.write a b).read a = b :=
  cellRead_cellWrite_same (d := m.blank) w

/-- A write leaves every other byte alone. -/
theorem Memory.read_write_other {m : Memory} {a c : Nat} (b : BitVec 8) (h : c ≠ a) : (m.write a b).read c = m.read c :=
  cellRead_cellWrite_other (d := m.blank) h

theorem Memory.writeWord_wf {m : Memory} (a : Nat) (x : Word) (w : m.wf = true) : (m.writeWord a x).wf = true :=
  Memory.write_wf _ _ (Memory.write_wf _ _ (Memory.write_wf _ _ (Memory.write_wf _ _ w)))

theorem Memory.write64_wf {m : Memory} (a : Nat) (x : BitVec 64) (w : m.wf = true) : (m.write64 a x).wf = true :=
  Memory.writeWord_wf _ _ (Memory.writeWord_wf _ _ w)

theorem Memory.writeBytes_wf {m : Memory} (a : Nat) (bs : List (BitVec 8)) (w : m.wf = true) :
    (m.writeBytes a bs).wf = true := by
  induction bs generalizing m a with
  | nil => exact w
  | cons b rest ih => exact ih _ (Memory.write_wf _ _ w)

theorem Memory.rekey_wf {m : Memory} (d : Fin 12) (w : m.wf = true) : (m.rekey d).wf = true := by
  refine cellsWf_filter (d := m.blank) w ?_
  intro x _ hx
  simp only [decide_eq_true_eq] at hx
  have hown : (m.own.filter fun y => decide (stackOf y.lo ≠ some d)).find? (fun y => y.holds x.1) =
      m.own.find? (fun y => y.holds x.1) := by
    refine find_filter_of_imp fun y _ hy => ?_
    simp only [Scramble.holds, decide_eq_true_eq] at hy ⊢
    exact fun h => hx (hy.2.2.trans h)
  simp only [Memory.blank, Memory.rekey, hown]
  split
  · rfl
  · split
    · rename_i e he
      have hne : d ≠ e := fun h => hx (by rw [h]; exact he)
      have hv : (d : Nat) ≠ (e : Nat) := fun h => hne (Fin.ext h)
      simp [hv]
    · rfl

theorem Memory.scramble_wf {m : Memory} (x : Scramble) (w : m.wf = true) : (m.scramble x).wf = true := by
  refine cellsWf_filter (d := m.blank) w ?_
  intro c _ hc
  have hx : x.holds c.1 = false := by simpa using hc
  have hown : (m.own.filter fun y => !y.within x).find? (fun y => y.holds c.1) = m.own.find? (fun y => y.holds c.1) := by
    refine find_filter_of_imp fun y _ hy => ?_
    cases hw : y.within x with
    | false => rfl
    | true =>
      simp only [Scramble.within, Scramble.holds, decide_eq_true_eq, decide_eq_false_iff_not] at hw hy hx
      exact absurd ⟨by omega, by omega, hy.2.2.trans hw.2.2⟩ hx
  simp only [Memory.blank, Memory.scramble, List.find?_cons, hx, hown]
  rfl

/-- A range that the device wrote in a layout of its own leaves every byte outside it alone. -/
theorem Memory.read_scramble_other {m : Memory} {x : Scramble} {a : Nat} (h : x.holds a = false) :
    (m.scramble x).read a = m.read a := by
  have hown : (m.own.filter fun y => !y.within x).find? (fun y => y.holds a) = m.own.find? (fun y => y.holds a) := by
    refine find_filter_of_imp fun y _ hy => ?_
    cases hw : y.within x with
    | false => rfl
    | true =>
      simp only [Scramble.within, Scramble.holds, decide_eq_true_eq, decide_eq_false_iff_not] at hw hy h
      exact absurd ⟨by omega, by omega, hy.2.2.trans hw.2.2⟩ h
  have hb : (m.scramble x).blank a = m.blank a := by
    simp only [Memory.blank, Memory.scramble, List.find?_cons, h, hown]
    rfl
  show cellRead (m.scramble x).blank (m.cells.filter fun c => !x.holds c.1) a = cellRead m.blank m.cells a
  revert hb
  generalize (m.scramble x).blank = d'
  generalize m.blank = d
  intro hb
  induction m.cells with
  | nil => exact hb
  | cons c rest ih =>
    simp only [List.filter_cons]
    by_cases hc : x.holds c.1
    · have hne : c.1 ≠ a := fun e => by rw [e, h] at hc; cases hc
      simp only [hc, Bool.not_true, Bool.false_eq_true, if_false, cellRead, hne, if_false]
      exact ih
    · simp only [hc, Bool.not_false, if_true, cellRead]
      split
      · rfl
      · exact ih

/-- A word store leaves every byte outside the word alone. -/
theorem Memory.read_writeWord_other {m : Memory} {a c : Nat} (x : Word) (h : c < a ∨ a + 4 ≤ c) :
    (m.writeWord a x).read c = m.read c := by
  simp only [Memory.writeWord]
  rw [Memory.read_write_other _ (by omega), Memory.read_write_other _ (by omega), Memory.read_write_other _ (by omega),
    Memory.read_write_other _ (by omega)]

/-- The four bytes of a word, put together again. -/
theorem wordOfBytes_extract (x : Word) :
    wordOfBytes (x.extractLsb' 0 8) (x.extractLsb' 8 8) (x.extractLsb' 16 8) (x.extractLsb' 24 8) = x := by
  apply BitVec.eq_of_getLsbD_eq
  intro i hi
  simp only [wordOfBytes, BitVec.getLsbD_append, BitVec.getLsbD_extractLsb']
  by_cases h1 : i < 8
  · simp [h1]
  · by_cases h2 : i < 16
    · have h3 : i - 8 < 8 := by omega
      have h4 : 8 + (i - 8) = i := by omega
      simp [h1, h3, h4]
    · by_cases h5 : i < 24
      · have h3 : ¬ i - 8 < 8 := by omega
        have h6 : i - 8 - 8 < 8 := by omega
        have h4 : 16 + (i - 8 - 8) = i := by omega
        simp [h1, h3, h6, h4]
      · have h3 : ¬ i - 8 < 8 := by omega
        have h6 : ¬ i - 8 - 8 < 8 := by omega
        have h7 : i - 8 - 8 - 8 < 8 := by omega
        have h4 : 24 + (i - 8 - 8 - 8) = i := by omega
        simp [h1, h3, h6, h7, h4]

/-- A word read after a word store to the same address. -/
theorem Memory.readWord_writeWord_same {m : Memory} (a : Nat) (x : Word) (w : m.wf = true) :
    (m.writeWord a x).readWord a = x := by
  simp only [Memory.readWord, Memory.writeWord]
  have w1 := Memory.write_wf a (x.extractLsb' 0 8) w
  have w2 := Memory.write_wf (a + 1) (x.extractLsb' 8 8) w1
  have w3 := Memory.write_wf (a + 2) (x.extractLsb' 16 8) w2
  have skip {n : Memory} {p q : Nat} (b : BitVec 8) (h : q < p) : (n.write p b).read q = n.read q :=
    Memory.read_write_other b (by omega)
  rw [Memory.read_write_same (a + 3) _ w3, skip _ (show a + 2 < a + 3 by omega), Memory.read_write_same (a + 2) _ w2,
    skip _ (show a + 1 < a + 3 by omega), skip _ (show a + 1 < a + 2 by omega), Memory.read_write_same (a + 1) _ w1,
    skip _ (show a < a + 3 by omega), skip _ (show a < a + 2 by omega), skip _ (show a < a + 1 by omega),
    Memory.read_write_same a _ w]
  exact wordOfBytes_extract x

/-- A word read at an address no byte of which was stored to. -/
theorem Memory.readWord_writeWord_other {m : Memory} {a c : Nat} (x : Word) (h : c + 4 ≤ a ∨ a + 4 ≤ c) :
    (m.writeWord a x).readWord c = m.readWord c := by
  simp only [Memory.readWord]
  rw [Memory.read_writeWord_other _ (by omega), Memory.read_writeWord_other _ (by omega),
    Memory.read_writeWord_other _ (by omega), Memory.read_writeWord_other _ (by omega)]

end Sys2Proof.Machine
end

