-- ==== Sys2Proof/Laws/Sound.lean ====
section
/-! SUPPORT. The invariant of 03 R37 and R40, of pending results and of memory: what each operation over a group keeps. -/

namespace Sys2Proof.Machine

set_option Elab.async false

/-! ### The pieces -/

/-- Every group of a table is sound; every group that is out of its core is. -/
def GroupsOk (l : Tbl GroupRef Group) : Prop := ∀ x ∈ l, x.2.Sound
def ParkedOk (l : List Parked) : Prop := ∀ x ∈ l, x.grp.Sound

@[simp] theorem Group.soundAt_mk {n : Nat} {uid grid part clu team idx gidx svc w nv depth priv exposePriv debug
    reduced codeBase cbase csize store s v p mode fstat forcedB resumed handler hstart htpc trap laneTraps stack rets
    run topFirst seq pend acc marks endMark wait waitFrom arrived arrivals lockLeft stalled area hold xlate walks mxWait
    yieldUntil locks killed ended} :
    Group.SoundAt n ⟨uid, grid, part, clu, team, idx, gidx, svc, w, nv, depth, priv, exposePriv, debug, reduced,
    codeBase, cbase, csize, store, s, v, p, mode, fstat, forcedB, resumed, handler, hstart, htpc, trap, laneTraps,
    stack, rets, run, topFirst, seq, pend, acc, marks, endMark, wait, waitFrom, arrived, arrivals, lockLeft, stalled,
    area, hold, xlate, walks, mxWait, yieldUntil, locks, killed, ended⟩ ↔
      PendingBefore n pend ∧ modeLegal mode = true ∧ PredicatesFit w p :=
  ⟨fun h => ⟨h.1, h.2, h.3⟩, fun h => ⟨h.1, h.2.1, h.2.2⟩⟩

@[simp] theorem State.sound_mk {tick turn clk phase bdie bdieAt dieok iook fwst links ecnt throttled harvest incs gated firmware mem
    poison tlb replicas copies twins versions relSeq records notices syncs lockTab lockReqs ports hostLines vints vcache nextId parts grids
    nextGrid teams matrix slotOf lastGrant groups parked jobs blends msgs} :
    State.Sound ⟨tick, turn, clk, phase, bdie, bdieAt, dieok, iook, fwst, links, ecnt, throttled, harvest, incs, gated,
      firmware, mem, poison, tlb, replicas, copies, twins, versions, relSeq, records, notices, syncs, lockTab, lockReqs, ports,
      hostLines, vints, vcache, nextId, parts, grids, nextGrid, teams, matrix, slotOf, lastGrant, groups, parked, jobs, blends, msgs⟩ ↔
      mem.wf = true ∧ GroupsOk groups ∧ ParkedOk parked :=
  ⟨fun h => ⟨h.1, h.2, h.3⟩, fun h => ⟨h.1, h.2.1, h.2.2⟩⟩

@[simp] theorem State.Sound.mem_wf {s : State} (h : s.Sound) : s.mem.wf = true := h.1
@[simp] theorem State.Sound.groups_ok {s : State} (h : s.Sound) : GroupsOk s.groups := h.2
@[simp] theorem State.Sound.parked_ok {s : State} (h : s.Sound) : ParkedOk s.parked := h.3

theorem PendingBefore.mono {n m : Nat} {l : List Pending} (h : PendingBefore n l) (k : n ≤ m) : PendingBefore m l :=
  fun p hp => ⟨Nat.lt_of_lt_of_le (h p hp).1 k, (h p hp).2⟩

@[simp] theorem PendingBefore.nil (n : Nat) : PendingBefore n [] := fun _ h => absurd h (by simp)

@[simp] theorem PendingBefore.succ {n : Nat} {l : List Pending} (h : PendingBefore n l) : PendingBefore (n + 1) l :=
  h.mono (Nat.le_succ n)

@[simp] theorem PendingBefore.append {n : Nat} {l k : List Pending} (h : PendingBefore n l) (hk : PendingBefore n k) :
    PendingBefore n (l ++ k) := fun p hp => (List.mem_append.mp hp).elim (h p) (hk p)

@[simp] theorem PendingBefore.filter {n : Nat} {l : List Pending} {f : Pending → Bool} (h : PendingBefore n l) :
    PendingBefore n (l.filter f) := fun p hp => h p (List.mem_filter.mp hp).1

@[simp] theorem PendingBefore.erase {n : Nat} {l : List Pending} {x : Pending} (h : PendingBefore n l) :
    PendingBefore n (l.erase x) := fun p hp => h p (List.mem_of_mem_erase hp)

/-! ### Groups -/

@[simp] theorem Group.SoundAt.pend_ok {g : Group} {n : Nat} (h : g.SoundAt n) : PendingBefore n g.pend := h.1
theorem Group.SoundAt.mode_ok {g : Group} {n : Nat} (h : g.SoundAt n) : modeLegal g.mode = true := h.2
theorem Group.SoundAt.preds_ok {g : Group} {n : Nat} (h : g.SoundAt n) : PredicatesFit g.w g.p := h.3
@[simp] theorem Group.SoundAt.succ {g : Group} {n : Nat} (h : g.SoundAt n) : g.SoundAt (n + 1) := ⟨h.1.succ, h.2, h.3⟩
@[simp] theorem Group.Sound.mode_ok {g : Group} (h : g.Sound) : modeLegal g.mode = true := h.2
@[simp] theorem Group.Sound.preds_ok {g : Group} (h : g.Sound) : PredicatesFit g.w g.p := h.3
@[simp] theorem Ctx.seq_eq (c : Ctx) : c.seq = c.g.seq := rfl

/-! ### Tables of groups -/

@[simp] theorem GroupsOk.put {l : Tbl GroupRef Group} {r : GroupRef} {g : Group} (h : GroupsOk l) (hg : g.Sound) :
    GroupsOk (Tbl.put l r g) := by
  induction l with
  | nil => intro x hx; simp [Tbl.put] at hx; subst hx; exact hg
  | cons y t ih =>
    have h1 : y.2.Sound := h y (by simp)
    have h2 : GroupsOk t := fun x hx => h x (by simp [hx])
    intro x hx
    obtain ⟨k, b⟩ := y
    simp only [Tbl.put] at hx
    split at hx
    · rcases List.mem_cons.mp hx with rfl | hx
      · exact hg
      · exact h2 x hx
    · rcases List.mem_cons.mp hx with rfl | hx
      · exact h1
      · exact ih h2 x hx

@[simp] theorem GroupsOk.drop {l : Tbl GroupRef Group} {r : GroupRef} (h : GroupsOk l) : GroupsOk (Tbl.drop l r) := by
  induction l with
  | nil => exact h
  | cons y t ih =>
    have h1 : y.2.Sound := h y (by simp)
    have h2 : GroupsOk t := fun x hx => h x (by simp [hx])
    obtain ⟨k, b⟩ := y
    simp only [Tbl.drop]
    split
    · exact ih h2
    · intro x hx
      rcases List.mem_cons.mp hx with rfl | hx
      · exact h1
      · exact ih h2 x hx

@[simp] theorem GroupsOk.filter {l : Tbl GroupRef Group} {f : GroupRef × Group → Bool} (h : GroupsOk l) :
    GroupsOk (l.filter f) := fun x hx => h x (List.mem_filter.mp hx).1

@[simp] theorem GroupsOk.append {l k : Tbl GroupRef Group} (h : GroupsOk l) (hk : GroupsOk k) : GroupsOk (l ++ k) :=
  fun x hx => (List.mem_append.mp hx).elim (h x) (hk x)

@[simp] theorem GroupsOk.nil : GroupsOk [] := fun _ h => absurd h (by simp)

theorem GroupsOk.map {l : Tbl GroupRef Group} {f : GroupRef × Group → GroupRef × Group} (h : GroupsOk l)
    (hf : ∀ x, x.2.Sound → (f x).2.Sound) : GroupsOk (l.map f) := by
  intro x hx
  obtain ⟨y, hy, rfl⟩ := List.mem_map.mp hx
  exact hf y (h y hy)

theorem GroupsOk.find {l : Tbl GroupRef Group} {r : GroupRef} {g : Group} (h : GroupsOk l) (e : Tbl.find l r = some g) :
    g.Sound := by
  induction l with
  | nil => simp [Tbl.find] at e
  | cons y t ih =>
    obtain ⟨k, b⟩ := y
    simp only [Tbl.find] at e
    split at e
    · exact Option.some.inj e ▸ h (k, b) (by simp)
    · exact ih (fun x hx => h x (by simp [hx])) e

theorem State.Sound.group {s : State} {r : GroupRef} {g : Group} (h : s.Sound) (e : s.group r = some g) : g.Sound :=
  h.groups_ok.find e

theorem State.Sound.byUid {s : State} {u : Nat} {r : GroupRef} {g : Group} (h : s.Sound) (e : s.byUid u = some (r, g)) :
    g.Sound := h.groups_ok (r, g) (List.mem_of_find?_eq_some e)

@[simp] theorem ParkedOk.nil : ParkedOk [] := fun _ h => absurd h (by simp)

@[simp] theorem ParkedOk.append {l k : List Parked} (h : ParkedOk l) (hk : ParkedOk k) : ParkedOk (l ++ k) :=
  fun x hx => (List.mem_append.mp hx).elim (h x) (hk x)

@[simp] theorem ParkedOk.one {x : Parked} (h : x.grp.Sound) : ParkedOk [x] := by
  intro y hy; simp at hy; subst hy; exact h

@[simp] theorem ParkedOk.filter {l : List Parked} {f : Parked → Bool} (h : ParkedOk l) : ParkedOk (l.filter f) :=
  fun x hx => h x (List.mem_filter.mp hx).1

@[simp] theorem ParkedOk.erase {l : List Parked} {y : Parked} (h : ParkedOk l) : ParkedOk (l.erase y) :=
  fun x hx => h x (List.mem_of_mem_erase hx)

theorem ParkedOk.map {l : List Parked} {f : Parked → Parked} (h : ParkedOk l) (hf : ∀ x, x.grp.Sound → (f x).grp.Sound) :
    ParkedOk (l.map f) := by
  intro x hx
  obtain ⟨y, hy, rfl⟩ := List.mem_map.mp hx
  exact hf y (h y hy)

/-- A fold over states keeps what each of its steps keeps. -/
theorem State.foldl_sound {α : Type} {f : State → α → State} {l : List α} {s : State} (hs : s.Sound)
    (hf : ∀ s x, x ∈ l → s.Sound → (f s x).Sound) : (l.foldl f s).Sound := by
  induction l generalizing s with
  | nil => exact hs
  | cons x t ih => exact ih (hf s x (by simp) hs) fun s y hy => hf s y (by simp [hy])

end Sys2Proof.Machine
end

