-- ==== Sys2Proof/Laws/SoundOps.lean ====
section
/-! SUPPORT. The invariant of states and groups is kept by the shared operations. -/

namespace Sys2Proof.Machine

set_option Elab.async false

/-! ### Lists in order -/

theorem mem_insertBy {α : Type} {le : α → α → Bool} {a x : α} {xs : List α} : a ∈ insertBy le x xs ↔ a = x ∨ a ∈ xs := by
  induction xs with
  | nil => exact List.mem_cons
  | cons y rest ih =>
    unfold insertBy
    split
    · exact List.mem_cons
    · rw [List.mem_cons, ih, List.mem_cons]
      exact or_left_comm

theorem mem_sortBy {α : Type} {le : α → α → Bool} {a : α} {xs : List α} : a ∈ sortBy le xs ↔ a ∈ xs := by
  induction xs with
  | nil => exact Iff.rfl
  | cons y rest ih => exact mem_insertBy.trans ((or_congr Iff.rfl ih).trans List.mem_cons.symm)

/-! ### Writes and results -/

@[simp] theorem Group.write_seq (g : Group) (w : Write) : (g.write w).seq = g.seq := by cases w <;> rfl
@[simp] theorem Group.write_pend (g : Group) (w : Write) : (g.write w).pend = g.pend := by cases w <;> rfl
@[simp] theorem Group.write_w (g : Group) (w : Write) : (g.write w).w = g.w := by cases w <;> rfl
@[simp] theorem Group.land_seq (g : Group) (n : Nat) (w : Write) : (g.land n w).seq = g.seq := Group.write_seq g w

theorem Write.without_legal {o n w : Write} (h : o.without n = some w) (ho : o.legal = true) : w.legal = true := by
  revert h
  cases o <;> cases n <;> simp only [Write.without] <;> (try split) <;> intro h <;> cases h <;> first | exact ho | rfl

theorem PredicatesFit.set {w : Nat} {p : Vector Mask 8} {i : Nat} {hi : i < 8} {m : Mask} (h : PredicatesFit w p) :
    PredicatesFit w (p.set i (m &&& fullMask w) hi) := by
  intro k
  simp only [Fin.getElem_fin, Vector.getElem_set]
  split
  · rw [BitVec.and_assoc, BitVec.and_not_self]; exact BitVec.and_zero
  · exact h k

@[simp] theorem Group.write_soundAt (g : Group) (w : Write) {n : Nat} (hg : g.SoundAt n) (hw : w.legal = true) :
    (g.write w).SoundAt n := by
  cases w
  case pred p lanes v => exact ⟨hg.1, hg.2, PredicatesFit.set (hi := p.isLt) hg.3⟩
  case mode v => exact ⟨hg.1, hw, hg.3⟩
  all_goals exact ⟨hg.1, hg.2, hg.3⟩

@[simp] theorem Group.land_soundAt (g : Group) (k : Nat) (w : Write) {n : Nat} (hg : g.SoundAt n) (hw : w.legal = true) :
    (g.land k w).SoundAt n := by
  have h := Group.write_soundAt g w hg hw
  refine ⟨fun p hp => ?_, h.2, h.3⟩
  simp only [Group.land, List.mem_filterMap] at hp
  obtain ⟨q, hq, e⟩ := hp
  have hq' := h.1 q hq
  split at e
  · obtain ⟨x, hx, rfl⟩ := Option.map_eq_some_iff.mp e
    exact ⟨hq'.1, Write.without_legal hx hq'.2⟩
  · cases e; exact hq'

@[simp] theorem Group.landDue_seq (due : Pending → Bool) (k : Nat) (g : Group) : (Group.landDue due k g).seq = g.seq := by
  induction k generalizing g with
  | zero => rfl
  | succ k ih => simp only [Group.landDue]; split <;> simp [ih]

@[simp] theorem Group.landDue_soundAt (due : Pending → Bool) (k : Nat) (g : Group) {n : Nat} (hg : g.SoundAt n) :
    (Group.landDue due k g).SoundAt n := by
  induction k generalizing g with
  | zero => exact hg
  | succ k ih =>
    simp only [Group.landDue]
    split
    · exact hg
    · rename_i p hp
      have hm := hg.1 p (List.mem_of_find?_eq_some hp)
      exact ih _ (Group.land_soundAt _ _ _ (by simp [hg.1.erase, hg.2, hg.3]) hm.2)

@[simp] theorem Group.later_soundAt (g : Group) (k lat : Nat) (w : Write) {n : Nat} (hg : g.SoundAt n) (hk : k < n)
    (hw : w.legal = true) : (g.later k lat w).SoundAt n := by
  refine ⟨hg.1.append fun p hp => ?_, hg.2, hg.3⟩
  simp at hp; subst hp; exact ⟨hk, hw⟩

theorem Group.laters_soundAt (g : Group) (k : Nat) (ws : List (Nat × Write)) {n : Nat} (hg : g.SoundAt n) (hk : k < n)
    (hw : ∀ x ∈ ws, x.2.legal = true) : (g.laters k ws).SoundAt n := by
  refine ⟨hg.1.append fun p hp => ?_, hg.2, hg.3⟩
  obtain ⟨x, hx, rfl⟩ := List.mem_map.mp hp
  exact ⟨hk, hw x hx⟩

@[simp] theorem Group.later_seq (g : Group) (k lat : Nat) (w : Write) : (g.later k lat w).seq = g.seq := rfl
@[simp] theorem Group.laters_seq (g : Group) (k : Nat) (ws : List (Nat × Write)) : (g.laters k ws).seq = g.seq := rfl
@[simp] theorem Group.age_seq (g : Group) : g.age.seq = g.seq := Group.landDue_seq _ _ _
@[simp] theorem Group.flush_seq (g : Group) : g.flush.seq = g.seq := Group.landDue_seq _ _ _
@[simp] theorem Group.settled_seq (g : Group) : g.settled.seq = g.seq := Group.flush_seq g
@[simp] theorem Group.settle_seq (g : Group) : g.settle.seq = g.seq := rfl
@[simp] theorem Group.stopRun_seq (g : Group) : g.stopRun.seq = g.seq := Group.flush_seq _
@[simp] theorem Group.loadTrap_seq (g : Group) (t : TrapWord) (m : Mask) (f : LFault) : (g.loadTrap t m f).seq = g.seq := rfl
@[simp] theorem Group.issued_seq (g : Group) (c : Ctx) (v : Bool) : (g.issued c v).seq = g.seq + 1 :=
  Group.age_seq _

@[simp] theorem Group.age_soundAt (g : Group) {n : Nat} (hg : g.SoundAt n) : g.age.SoundAt n := by
  apply Group.landDue_soundAt
  refine ⟨fun p hp => ?_, hg.2, hg.3⟩
  obtain ⟨q, hq, rfl⟩ := List.mem_map.mp hp
  exact hg.1 q hq

@[simp] theorem Group.flush_soundAt (g : Group) {n : Nat} (hg : g.SoundAt n) : g.flush.SoundAt n :=
  Group.landDue_soundAt _ _ _ hg
@[simp] theorem Group.settled_soundAt (g : Group) {n : Nat} (hg : g.SoundAt n) : g.settled.SoundAt n :=
  Group.flush_soundAt _ hg
@[simp] theorem Group.settle_soundAt (g : Group) {n : Nat} (hg : g.SoundAt n) : g.settle.SoundAt n := ⟨hg.1, hg.2, hg.3⟩
@[simp] theorem Group.SoundAt.of' {g : Group} {n : Nat} (h : g.SoundAt (n + 1)) (e : g.seq = n) : g.SoundAt (g.seq + 1) := by
  subst e; exact h

theorem Group.stopRun_soundAt (g : Group) {n : Nat} (hg : g.SoundAt n) : g.stopRun.SoundAt n :=
  Group.flush_soundAt _ ⟨hg.1, hg.2, hg.3⟩
@[simp] theorem Group.loadTrap_soundAt (g : Group) (t : TrapWord) (m : Mask) (f : LFault) {n : Nat} (hg : g.SoundAt n) :
    (g.loadTrap t m f).SoundAt n := ⟨hg.1, hg.2, hg.3⟩
@[simp] theorem Group.issued_soundAt (g : Group) (c : Ctx) (v : Bool) {n : Nat} (hg : g.SoundAt n) :
    (g.issued c v).SoundAt n := by
  have h : ({ g with seq := g.seq + 1, stalled := false, hold := none, xlate := [], walks := [] } : Group).age.SoundAt n :=
    Group.age_soundAt _ ⟨hg.1, hg.2, hg.3⟩
  exact ⟨h.1, h.2, h.3⟩

/-! ### Words of memory -/

@[simp] theorem State.putWord_sound {s : State} {pa : Nat} {w : Word} (hs : s.Sound) :
    (State.putWord s pa w).Sound := by
  exact ⟨Memory.writeWord_wf _ _ hs.1, hs.2, hs.3⟩

@[simp] theorem State.putWords_sound {s : State} {pa : Nat} {ws : List Word} (hs : s.Sound) :
    (State.putWords s pa ws).Sound := by
  induction ws generalizing s pa with
  | nil => exact hs
  | cons w rest ih => exact ih (State.putWord_sound hs)

@[simp] theorem State.strayStore_sound {s : State} {pa : Nat} (hs : s.Sound) : (s.strayStore pa).Sound := by
  unfold State.strayStore
  split
  · exact hs
  · exact State.putWord_sound hs

@[simp] theorem State.strayStores_sound {s : State} {pa n : Nat} (hs : s.Sound) : (s.strayStores pa n).Sound :=
  State.foldl_sound hs fun _ _ _ h => State.strayStore_sound h

/-! ### The divergence area -/

@[simp] theorem State.touch_sound {s : State} {pte : Nat} {st : Bool} (hs : s.Sound) : (s.touch pte st).Sound :=
  ⟨Memory.write64_wf _ _ hs.1, hs.2, hs.3⟩

@[simp] theorem State.touched_sound {s : State} {t : Trans} {st : Bool} (hs : s.Sound) : (s.touched t st).Sound := by
  unfold State.touched
  repeat' split
  · exact hs
  · exact State.strayStore_sound hs
  · exact State.touch_sound hs

@[simp] theorem State.putSlot_sound {s : State} {p : Fin 12} {va : Nat} {x : BitVec 128} (hs : s.Sound) :
    (s.putSlot p va x).Sound := by
  unfold State.putSlot
  split
  · exact hs
  · dsimp only
    split
    · exact State.strayStores_sound (State.touched_sound hs)
    · exact State.putWords_sound (State.touched_sound hs)

@[simp] theorem State.readSlot_sound {s : State} {p : Fin 12} {va : Nat} (hs : s.Sound) : (s.readSlot p va).1.Sound := by
  unfold State.readSlot
  split
  · exact hs
  · exact State.touched_sound hs

@[simp] theorem State.readSlots_sound {s : State} {p : Fin 12} {l : List Nat} (hs : s.Sound) :
    (s.readSlots p l).1.Sound := by
  induction l generalizing s with
  | nil => exact hs
  | cons va rest ih => exact ih (State.readSlot_sound hs)

@[simp] theorem Group.areaDone_soundAt (g : Group) {n : Nat} (hg : g.SoundAt n) : g.areaDone.SoundAt n := ⟨hg.1, hg.2, hg.3⟩

/-! ### The ends of runs, groups, traps -/

theorem Group.SoundAt.of {g : Group} {n : Nat} (h : g.SoundAt n) (e : g.seq = n) : g.Sound := by subst e; exact h

theorem Group.stopRun_sound {g : Group} (hg : g.Sound) : g.stopRun.Sound :=
  Group.SoundAt.of (Group.stopRun_soundAt g hg) (Group.stopRun_seq g)
theorem Group.settle_sound {g : Group} (hg : g.Sound) : g.settle.Sound := Group.settle_soundAt g hg
theorem Group.issued_sound {g : Group} {c : Ctx} {v : Bool} (hg : g.SoundAt (g.seq + 1)) : (g.issued c v).Sound :=
  Group.SoundAt.of (Group.issued_soundAt g c v hg) (Group.issued_seq g c v)

/-- Both outcomes of a delivery hold a sound group. -/
def Delivery.SoundAt (n : Nat) : Delivery → Prop
  | .goesOn g => g.SoundAt n ∧ g.seq = n
  | .dies g _ _ => g.SoundAt n ∧ g.seq = n

@[simp] theorem State.setGroup_sound {s : State} {r : GroupRef} {g : Group} (hs : s.Sound) (hg : g.Sound) :
    (s.setGroup r g).Sound := ⟨hs.1, hs.groups_ok.put hg, hs.3⟩

@[simp] theorem State.setGrid_sound {s : State} {g : Grid} (hs : s.Sound) : (s.setGrid g).Sound := ⟨hs.1, hs.2, hs.3⟩

@[simp] theorem State.freeSlots_sound {s : State} {r : GroupRef} (hs : s.Sound) : (s.freeSlots r).Sound := ⟨hs.1, hs.2, hs.3⟩

@[simp] theorem State.writeArea_sound {s : State} {g : Group} (hs : s.Sound) : (s.writeArea g).Sound := by
  unfold State.writeArea
  exact State.foldl_sound hs fun s x _ h => State.putSlot_sound h

@[simp] theorem State.reportEnd_sound {s : State} {r : GroupRef} {g : Group} {c d : Nat} (hs : s.Sound) :
    (s.reportEnd r g c d).Sound := ⟨hs.1, hs.2, hs.3⟩

/-- An end by a mark keeps the invariant, and the group's number. -/
theorem State.endByMark_keeps {s : State} {r : GroupRef} {g : Group} {n : Nat} (hs : s.Sound) (hg : g.SoundAt n) :
    (s.endByMark r g).1.Sound ∧ (s.endByMark r g).2.SoundAt n ∧ (s.endByMark r g).2.seq = g.seq := by
  unfold State.endByMark
  split
  · exact ⟨State.reportEnd_sound hs, ⟨hg.1, hg.2, hg.3⟩, rfl⟩
  · exact ⟨hs, hg, rfl⟩

@[simp] theorem State.endByMark_sound {s : State} {r : GroupRef} {g : Group} (hs : s.Sound) :
    (s.endByMark r g).1.Sound := by
  unfold State.endByMark
  split
  · exact State.reportEnd_sound hs
  · exact hs

@[simp] theorem State.groupEnds_sound {s : State} {r : GroupRef} {g : Group} (hs : s.Sound) (hg : g.Sound) :
    (s.groupEnds r g).Sound := by
  unfold State.groupEnds
  extract_lets s1
  have h1 : s1.Sound := ⟨hs.1, hs.2, hs.3⟩
  have k := State.endByMark_keeps (r := r) (g := { g with endMark := firstMark (g.endMark.toList ++ g.marks) })
    (n := g.seq) h1 ⟨hg.1, hg.2, hg.3⟩
  generalize s1.endByMark r { g with endMark := firstMark (g.endMark.toList ++ g.marks) } = x at k
  exact State.setGroup_sound k.1 ⟨PendingBefore.nil _, k.2.1.2, k.2.1.3⟩

@[simp] theorem State.terminate_sound {s : State} {r : GroupRef} {g : Group} {a b : Nat} (hs : s.Sound) (hg : g.Sound) :
    (s.terminate r g a b).Sound :=
  State.groupEnds_sound (State.reportEnd_sound hs) ⟨hg.1, hg.2, hg.3⟩

theorem Group.deliver_sound {g : Group} {live : Nat} {a : Word} {t : TrapWord} {fs : List LFault} {m : Mask} (hg : g.Sound) :
    (g.deliver live a t fs m).SoundAt g.seq := by
  unfold Group.deliver
  split
  · extract_lets
    have dead (t : TrapWord) (m : Mask) (f : LFault) (st : List Entry) :
        (g.dying t m f st).SoundAt g.seq ∧ (g.dying t m f st).seq = g.seq := ⟨⟨hg.1, hg.2, hg.3⟩, rfl⟩
    split
    · exact dead _ _ _ _
    · split
      · exact dead _ _ _ _
      · split
        · split
          · exact ⟨⟨hg.1, hg.2, hg.3⟩, rfl⟩
          · exact ⟨⟨hg.1, hg.2, hg.3⟩, rfl⟩
        · exact dead _ _ _ _
  · exact ⟨hg, rfl⟩

theorem Group.endService_sound {g : Group} {live : Nat} {st : BitVec 2} {o : Word} (hg : g.Sound) :
    (g.endService live st o).SoundAt g.seq := by
  unfold Group.endService
  split
  · exact ⟨hg, rfl⟩
  · extract_lets
    split
    · exact ⟨⟨hg.1, hg.2, hg.3⟩, rfl⟩
    · split
      · exact ⟨⟨hg.1, hg.2, hg.3⟩, rfl⟩
      · exact ⟨⟨hg.1, hg.2, hg.3⟩, rfl⟩

theorem State.afterDelivery_sound {s : State} {r : GroupRef} {d : Delivery} {n : Nat} (hs : s.Sound) (hd : d.SoundAt n) :
    (s.afterDelivery r d).Sound := by
  cases d with
  | dies g a b =>
    obtain ⟨h, rfl⟩ := hd
    exact State.terminate_sound hs h
  | goesOn g =>
    obtain ⟨h, rfl⟩ := hd
    simp only [State.afterDelivery]
    split
    · exact State.groupEnds_sound hs (Group.settle_soundAt _ h)
    · exact State.setGroup_sound (State.writeArea_sound hs) (Group.areaDone_soundAt _ (Group.settle_soundAt _ h))

@[simp] theorem State.runEnds_sound {s : State} {r : GroupRef} {g : Group} {b : Bool} (hs : s.Sound) (hg : g.Sound) :
    (s.runEnds r g b).Sound := by
  have h : (({ g with topFirst := b } : Group).stopRun).Sound :=
    Group.stopRun_sound ⟨hg.1, hg.2, hg.3⟩
  unfold State.runEnds
  dsimp only
  split
  · exact State.groupEnds_sound (State.freeSlots_sound hs) h
  · exact State.setGroup_sound (State.freeSlots_sound hs) h

@[simp] theorem State.withdraw_sound {s : State} {r : GroupRef} {g : Group} (hs : s.Sound) (hg : g.Sound) :
    (s.withdraw r g).Sound := by
  unfold State.withdraw
  repeat' split
  · exact hs
  · exact hs
  · exact State.runEnds_sound hs ⟨hg.1, hg.2, hg.3⟩

@[simp] theorem State.trapOut_sound {s : State} {c : Ctx} {g : Group} {t : TrapWord} {fs : List LFault} {m : Mask}
    (hs : s.Sound) (hg : g.Sound) : (s.trapOut c g t fs m).Sound :=
  State.afterDelivery_sound (State.freeSlots_sound hs) (Group.deliver_sound (Group.stopRun_sound hg))

theorem Flow.move_sound {f : Flow} {c : Ctx} {g : Group} (hg : g.Sound) : (f.move c g).Sound := by
  cases f
  · exact ⟨hg.1, hg.2, hg.3⟩
  · exact ⟨hg.1, hg.2, hg.3⟩
  · exact hg

@[simp] theorem State.goOn_sound {s : State} {c : Ctx} {g : Group} {f : Flow} (hs : s.Sound) (hg : g.Sound) :
    (s.goOn c g f).Sound := by
  have h2 : (f.move c g).settle.Sound := Group.settle_sound (Flow.move_sound hg)
  unfold State.goOn
  dsimp only
  split
  · exact State.setGroup_sound hs ⟨h2.1, h2.2, h2.3⟩
  · exact State.runEnds_sound hs h2

/-- An instruction ends soundly when its own results are legal. -/
@[simp] theorem State.finish_sound {s : State} {c : Ctx} {g : Group} {f : Flow} {fs : List LFault} {v : Bool} (hs : s.Sound)
    (hg : g.SoundAt (g.seq + 1)) : (s.finish c g f fs v).Sound := by
  have h : (g.issued c v).Sound := Group.issued_sound hg
  unfold State.finish
  dsimp only
  split
  · exact State.trapOut_sound hs h
  · exact State.goOn_sound hs h

@[simp] theorem State.endLane_sound {s : State} {c : Ctx} {st : BitVec 2} {o : Word} (hs : s.Sound) (hc : c.g.Sound) :
    (s.endLane c st o).Sound := by
  have h : (c.g.issued c true).Sound := Group.issued_sound hc.succ
  unfold State.endLane
  dsimp only
  apply State.afterDelivery_sound (State.freeSlots_sound hs)
  apply Group.endService_sound
  apply Group.stopRun_sound
  split
  · exact ⟨h.1, h.2, h.3⟩
  · exact h

@[simp] theorem State.beginWait_sound {s : State} {c : Ctx} {g : Group} {w : Wait} (hs : s.Sound)
    (hg : g.SoundAt (g.seq + 1)) : (s.beginWait c g w).Sound := by
  have h : (g.issued c true).flush.SoundAt (g.seq + 1) := by simp [hg]
  unfold State.beginWait
  apply State.setGroup_sound (State.freeSlots_sound hs)
  refine ⟨?_, h.2, h.3⟩
  simpa using h.1

@[simp] theorem State.endWait_sound {s : State} {r : GroupRef} {g : Group} (hs : s.Sound) (hg : g.Sound) :
    (s.endWait r g).Sound := by
  unfold State.endWait
  split
  · exact hs
  · exact State.runEnds_sound hs ⟨hg.1, hg.2, hg.3⟩

@[simp] theorem State.deliverMarks_sound {s : State} {r : GroupRef} {run : Run} {e : Entry} {g : Group} {ms : List Mark}
    (hs : s.Sound) (hg : g.Sound) : (s.deliverMarks r run e g ms).Sound := by
  unfold State.deliverMarks
  split
  · exact State.setGroup_sound hs hg
  · dsimp only
    apply State.afterDelivery_sound (State.freeSlots_sound hs)
    apply Group.deliver_sound
    apply Group.stopRun_sound
    split
    · exact hg
    · exact ⟨hg.1, hg.2, hg.3⟩

@[simp] theorem State.stall_sound {s : State} {c : Ctx} (hs : s.Sound) (hc : c.g.Sound) : (s.stall c).Sound :=
  State.setGroup_sound hs ⟨hc.1, hc.2, hc.3⟩

@[simp] theorem State.trapAll_sound {s : State} {c : Ctx} {k : Cause} {d : Nat} {a : Addr} (hs : s.Sound) (hc : c.g.Sound) :
    (s.trapAll c k d a).Sound := State.finish_sound hs hc.succ

@[simp] theorem State.trapIllegal_sound {s : State} {c : Ctx} {x : Illegal} {v : Bool} (hs : s.Sound) (hc : c.g.Sound) :
    (s.trapIllegal c x v).Sound := State.finish_sound hs hc.succ

@[simp] theorem State.rejectWord_sound {s : State} {r : GroupRef} {g : Group} {run : Run} {e : Entry} {w : Word} {x : Illegal}
    (hs : s.Sound) (hg : g.Sound) : (s.rejectWord r g run e w x).Sound := State.trapIllegal_sound hs hg

/-! ### Meanings -/

/-- What an outcome goes on to is sound. -/
def OutSound (o : Out) : Prop := ∀ t, o = .next t → t.Sound

@[simp] theorem OutSound.next {t : State} : OutSound (.next t) ↔ t.Sound :=
  ⟨fun h => h t rfl, fun h u e => by cases e; exact h⟩

@[simp] theorem OutSound.fault {f : Fault} : OutSound (.fault f) := fun _ e => by cases e

theorem State.ctx_sound {s : State} {i : Instr} {c : Ctx} (hs : s.Sound) (e : s.ctx i = some c) : c.g.Sound := by
  unfold State.ctx at e
  repeat' split at e
  all_goals first
    | cases e
    | skip
  rename_i h _ _ _ _
  exact hs.group ‹s.group _ = some _›

theorem State.withCtx_sound {s : State} {i : Instr} {k : Ctx → State} (hs : s.Sound) (hk : ∀ c, c.g.Sound → (k c).Sound) :
    OutSound (s.withCtx i k) := by
  unfold State.withCtx
  split
  · exact OutSound.next.mpr (hk _ (State.ctx_sound hs ‹_›))
  · exact OutSound.fault

/-- A register-only instruction keeps the invariant when its results are legal. -/
theorem issueRegs_sound {i : Instr} {f : Ctx → Result} {s : State} (hs : s.Sound)
    (hf : ∀ c ws, f c = .ok ws → ∀ x ∈ ws, x.2.legal = true) : OutSound (issueRegs i f s) := by
  refine State.withCtx_sound hs fun c hc => ?_
  split
  · exact State.finish_sound hs hc.succ
  · split
    · exact State.trapAll_sound hs hc
    · rename_i ws e
      exact State.finish_sound hs (Group.laters_soundAt _ _ _ hc.succ (Nat.lt_succ_self _) (hf c ws e))

end Sys2Proof.Machine
end

