-- ==== Sys2Proof/Laws/Ops.lean ====
section
/-! SUPPORT. What the shared operations of an issued instruction do: results in flight and registers (02 R31, 06 R92), the
stacks at rest (04 R53), the end of an instruction (03 R34). -/

namespace Sys2Proof.Machine

set_option Elab.async false

/-! ### Results: what a write shows, and which other writes leave it alone -/

/-- A vector write names each lane once, and lanes that exist. -/
def Write.Fits : Write → Prop
  | .vec _ _ ws => (ws.map LaneWrite.lane).Nodup ∧ ∀ x ∈ ws, x.lane < 64
  | _ => True

/-- The registers hold what the write wrote. -/
def Group.Shows (g : Group) : Write → Prop
  | .uni r v => g.uni r = v
  | .pred p lanes v => g.p[p.toNat] &&& lanes = v &&& lanes &&& fullMask g.w
  | .vec r tag ws => (∀ t, tag = some t → (g.vreg r).tag = t) ∧ ∀ x ∈ ws, g.lane r x.lane &&& x.bits = x.val &&& x.bits
  | .mode v => g.mode = v
  | .flags f => g.fstat ||| f = g.fstat

/-- A write that leaves what `w` wrote alone. -/
def Write.Clear (q w : Write) : Prop :=
  match q, w with
  | .uni r _, .uni r' _ => r ≠ r'
  | .pred p m _, .pred p' m' _ => p = p' → m &&& m' = 0
  | .vec r t ws, .vec r' t' ws' =>
    r = r' → (t = none ∨ t' = none) ∧ ∀ x ∈ ws, ∀ y ∈ ws', x.lane = y.lane → x.bits &&& y.bits = 0
  | .mode _, .mode _ => False
  | _, _ => True

theorem mergeBits_and (old bits val : Word) : mergeBits old bits val &&& bits = val &&& bits := by
  unfold mergeBits
  ext i
  simp only [BitVec.getElem_and, BitVec.getElem_or, BitVec.getElem_not]
  cases old[i] <;> cases bits[i] <;> cases val[i] <;> rfl

theorem mergeBits_clear {old bits val m : Word} (h : bits &&& m = 0) : mergeBits old bits val &&& m = old &&& m := by
  unfold mergeBits
  ext i hi
  have hb : (bits &&& m)[i] = false := by rw [h]; simp
  simp only [BitVec.getElem_and, BitVec.getElem_or, BitVec.getElem_not] at hb ⊢
  revert hb
  cases old[i] <;> cases bits[i] <;> cases val[i] <;> cases m[i] <;> simp

/-- A lane after one lane's write. -/
theorem laneWrite_get (v : Vector Word 64) (k l : Nat) (b z : Word) :
    (v.setIfInBounds k (mergeBits (v[k]?.getD 0) b z))[l]?.getD 0 =
      if k = l ∧ l < 64 then mergeBits (v[l]?.getD 0) b z else v[l]?.getD 0 := by
  by_cases h : k = l
  · subst h
    by_cases hk : k < 64
    · simp [hk]
    · simp [hk]
  · simp [h]

/-- Lanes that a vector write does not name stay. -/
theorem writeLanes_other {ws : List LaneWrite} {v : Vector Word 64} {l : Nat} (h : ∀ x ∈ ws, x.lane ≠ l) :
    (writeLanes v ws)[l]?.getD 0 = v[l]?.getD 0 := by
  induction ws generalizing v with
  | nil => rfl
  | cons x t ih =>
    show (writeLanes (v.setIfInBounds x.lane _) t)[l]?.getD 0 = _
    rw [ih fun y hy => h y (by simp [hy]), laneWrite_get, if_neg]
    exact fun c => h x (by simp) c.1

/-- Bits that a vector write does not name stay. -/
theorem writeLanes_clear {ws : List LaneWrite} {v : Vector Word 64} {l : Nat} {m : Word}
    (h : ∀ x ∈ ws, x.lane = l → x.bits &&& m = 0) :
    (writeLanes v ws)[l]?.getD 0 &&& m = v[l]?.getD 0 &&& m := by
  induction ws generalizing v with
  | nil => rfl
  | cons x t ih =>
    show (writeLanes (v.setIfInBounds x.lane _) t)[l]?.getD 0 &&& m = _
    rw [ih fun y hy => h y (by simp [hy]), laneWrite_get]
    split
    · exact mergeBits_clear (h x (by simp) (by omega))
    · rfl

/-- A lane that a vector write names once holds the bits written. -/
theorem writeLanes_shows {ws : List LaneWrite} {v : Vector Word 64} {x : LaneWrite} (hn : (ws.map LaneWrite.lane).Nodup)
    (hx : x ∈ ws) (hl : x.lane < 64) : (writeLanes v ws)[x.lane]?.getD 0 &&& x.bits = x.val &&& x.bits := by
  induction ws generalizing v with
  | nil => simp at hx
  | cons y t ih =>
    show (writeLanes (v.setIfInBounds y.lane _) t)[x.lane]?.getD 0 &&& x.bits = _
    rw [List.map_cons, List.nodup_cons] at hn
    rcases List.mem_cons.mp hx with rfl | hx
    · rw [writeLanes_other, laneWrite_get, if_pos ⟨rfl, hl⟩, mergeBits_and]
      exact fun z hz e => hn.1 (e ▸ List.mem_map_of_mem hz)
    · exact ih hn.2 hx

theorem Group.write_lane (g : Group) (r r' : Reg) (t : Option Tag) (ws : List LaneWrite) (l : Nat) :
    (g.write (.vec r t ws)).lane r' l =
      if r = r' then (writeLanes (g.vreg r).lanes ws)[l]?.getD 0 else g.lane r' l := by
  unfold Group.lane Group.vreg Group.write
  by_cases h : r = r'
  · subst h; simp [Group.vreg]
  · have : r.toNat ≠ r'.toNat := fun e => h (BitVec.eq_of_toNat_eq e)
    simp [h, this, Group.vreg]

theorem Group.write_tag (g : Group) (r r' : Reg) (t : Option Tag) (ws : List LaneWrite) :
    ((g.write (.vec r t ws)).vreg r').tag = if r = r' then t.getD (g.vreg r).tag else (g.vreg r').tag := by
  unfold Group.vreg Group.write
  by_cases h : r = r'
  · subst h; simp [Group.vreg]
  · have : r.toNat ≠ r'.toNat := fun e => h (BitVec.eq_of_toNat_eq e)
    simp [h, this]

theorem Group.write_uni (g : Group) (r r' : Reg) (v : Word) : (g.write (.uni r v)).uni r' = if r = r' then v else g.uni r' := by
  unfold Group.uni Group.write
  by_cases h : r = r'
  · subst h; simp
  · have : r.toNat ≠ r'.toNat := fun e => h (BitVec.eq_of_toNat_eq e)
    simp [h, this]

theorem Group.write_pred (g : Group) (p p' : BitVec 3) (m v : Mask) : (g.write (.pred p m v)).p[p'.toNat] =
    if p = p' then ((g.p[p.toNat] &&& ~~~m) ||| (v &&& m)) &&& fullMask g.w else g.p[p'.toNat] := by
  unfold Group.write
  by_cases h : p = p'
  · subst h; simp
  · have : p.toNat ≠ p'.toNat := fun e => h (BitVec.eq_of_toNat_eq e)
    simp [h, this]

theorem predMerge_and (old m v f : Mask) : ((old &&& ~~~m) ||| (v &&& m)) &&& f &&& m = v &&& m &&& f := by
  ext i
  simp only [BitVec.getElem_and, BitVec.getElem_or, BitVec.getElem_not]
  cases old[i] <;> cases m[i] <;> cases v[i] <;> cases f[i] <;> rfl

/-- A write shows. -/
theorem Group.shows_write {g : Group} {w : Write} (h : w.Fits) : (g.write w).Shows w := by
  cases w with
  | uni r v => simp only [Group.Shows, Group.write_uni, if_true]
  | pred p m v =>
    simp only [Group.Shows, Group.write_pred, if_true, Group.write_w]
    exact predMerge_and _ _ _ _
  | vec r t ws =>
    refine ⟨fun u e => ?_, fun x hx => ?_⟩
    · rw [Group.write_tag, if_pos rfl, e]; rfl
    · rw [Group.write_lane, if_pos rfl]
      exact writeLanes_shows h.1 hx (h.2 x hx)
  | mode v => rfl
  | flags f =>
    show g.fstat ||| f ||| f = g.fstat ||| f
    rw [BitVec.or_assoc, BitVec.or_self]

theorem predMerge_clear {old m v f k x : Mask} (h : m &&& k = 0) (hs : old &&& k = x &&& k &&& f) :
    ((old &&& ~~~m) ||| (v &&& m)) &&& f &&& k = x &&& k &&& f := by
  ext i hi
  have h1 : (m &&& k)[i] = false := by rw [h]; simp
  have h2 : (old &&& k)[i] = (x &&& k &&& f)[i] := by rw [hs]
  simp only [BitVec.getElem_and, BitVec.getElem_or, BitVec.getElem_not] at h1 h2 ⊢
  revert h1 h2
  cases old[i] <;> cases m[i] <;> cases v[i] <;> cases f[i] <;> cases k[i] <;> cases x[i] <;> simp

/-- A clear write leaves what shows. -/
theorem Group.shows_clear {g : Group} {q w : Write} (h : g.Shows w) (hc : q.Clear w) : (g.write q).Shows w := by
  cases w with
  | uni r v =>
    cases q with
    | uni r' v' =>
      show (g.write (.uni r' v')).uni r = v
      rw [Group.write_uni, if_neg hc]; exact h
    | _ => exact h
  | pred p m v =>
    cases q with
    | pred p' m' v' =>
      show (g.write (.pred p' m' v')).p[p.toNat] &&& m = v &&& m &&& fullMask (g.write (.pred p' m' v')).w
      rw [Group.write_pred, Group.write_w]
      split
      · rename_i e
        subst e
        exact predMerge_clear (hc rfl) h
      · exact h
    | _ => exact h
  | vec r t ws =>
    cases q with
    | vec r' t' ws' =>
      obtain ⟨h1, h2⟩ := h
      refine ⟨fun u e => ?_, fun x hx => ?_⟩
      · rw [Group.write_tag]
        split
        · rename_i e'
          rcases (hc e').1 with rfl | rfl
          · subst e'; exact h1 u e
          · cases e
        · exact h1 u e
      · rw [Group.write_lane]
        split
        · rename_i e'
          subst e'
          rw [writeLanes_clear fun y hy ey => (hc rfl).2 y hy x hx ey]
          exact h2 x hx
        · exact h2 x hx
    | _ => exact h
  | mode v =>
    cases q with
    | mode v' => exact absurd hc id
    | _ => exact h
  | flags f =>
    cases q with
    | flags f' =>
      show g.fstat ||| f' ||| f = g.fstat ||| f'
      rw [BitVec.or_assoc, BitVec.or_comm f' f, ← BitVec.or_assoc]
      rw [show g.fstat ||| f = g.fstat from h]
    | _ => exact h

theorem LaneWrite.find_lane {ws : List LaneWrite} {y : LaneWrite} (hn : (ws.map LaneWrite.lane).Nodup) (hy : y ∈ ws) :
    (ws.find? fun x => x.lane == y.lane) = some y := by
  induction ws with
  | nil => simp at hy
  | cons z t ih =>
    rw [List.map_cons, List.nodup_cons] at hn
    rcases List.mem_cons.mp hy with rfl | hy
    · simp
    · have : z.lane ≠ y.lane := fun e => hn.1 (e ▸ List.mem_map_of_mem hy)
      simp [this, ih hn.2 hy]

theorem mask_gone {n : Nat} (a b : BitVec n) : a &&& ~~~b &&& b = 0 := by
  ext i
  simp only [BitVec.getElem_and, BitVec.getElem_not, BitVec.ofNat_eq_ofNat, BitVec.getElem_zero]
  cases a[i] <;> cases b[i] <;> rfl

/-- What is left of a superseded write leaves the later one alone. -/
theorem Write.without_clear {o w q : Write} (h : o.without w = some q) (hw : w.Fits) : q.Clear w := by
  cases o <;> cases w <;> simp only [Write.without, Option.some.injEq, reduceCtorEq] at h <;>
    (try split at h) <;> (try simp only [Option.some.injEq, reduceCtorEq] at h) <;>
    (try (subst h; first | trivial | assumption | (intro e; exact absurd e ‹_›)))
  · subst h
    intro _
    exact mask_gone _ _
  · rename_i r t ws r' t' ws' _
    subst h
    intro _
    refine ⟨Or.inl rfl, fun x hx y hy e => ?_⟩
    obtain ⟨z, -, rfl⟩ := List.mem_map.mp hx
    dsimp only at e ⊢
    rw [e, LaneWrite.find_lane hw.1 hy]
    exact mask_gone _ _

/-- What is left of a clear write is clear. -/
theorem Write.clear_without {o n q w : Write} (h : o.without n = some q) (hc : o.Clear w) : q.Clear w := by
  cases o <;> cases n <;> simp only [Write.without, Option.some.injEq, reduceCtorEq] at h <;>
    (try split at h) <;> (try simp only [Option.some.injEq, reduceCtorEq] at h) <;>
    (try (subst h; exact hc))
  · subst h
    cases w with
    | pred p' m' v' =>
      intro e
      have h0 := hc e
      ext i hi
      have h1 := congrArg (fun x => x[i]) h0
      simp only [BitVec.getElem_and, BitVec.getElem_not, BitVec.ofNat_eq_ofNat, BitVec.getElem_zero] at h1 ⊢
      rename_i m _ _ _ m'' _
      revert h1
      cases m[i] <;> cases m'[i] <;> cases m''[i] <;> simp
    | _ => trivial
  · subst h
    cases w with
    | vec r' t' ws' =>
      intro e
      refine ⟨Or.inl rfl, fun x hx y hy exy => ?_⟩
      obtain ⟨z, hz, rfl⟩ := List.mem_map.mp hx
      dsimp only at exy ⊢
      have h0 := (hc e).2 z hz y hy exy
      ext i hi
      have h1 := congrArg (fun x => x[i]) h0
      simp only [BitVec.getElem_and, BitVec.getElem_not, BitVec.ofNat_eq_ofNat, BitVec.getElem_zero] at h1 ⊢
      revert h1
      cases z.bits[i] <;> cases y.bits[i] <;> simp
    | _ => trivial

theorem Write.without_target {o n q : Write} (h : o.without n = some q) : q.target = o.target := by
  cases o <;> cases n <;> simp only [Write.without, Option.some.injEq, reduceCtorEq] at h <;>
    (try split at h) <;> (try simp only [Option.some.injEq, reduceCtorEq] at h) <;> (try (subst h; rfl))

/-! ### Landing -/

@[simp] theorem Access.without_core (a : Access) (w : Write) : (a.without w).core = a.core := by
  unfold Access.without
  split
  · split <;> rfl
  · dsimp only
    split
    · simp only [Access.core, List.map_map, Access.mk.injEq, true_and, and_true]
      refine List.map_congr_left fun l _ => ?_
      dsimp only [Function.comp_apply]
      split <;> rfl
    · rfl
  · rfl

/-- Landing results changes only registers, what is in flight and the destinations of accesses; a register with no result
in flight is left alone. -/
structure Group.Lands (g h : Group) : Prop where
  group : { h with s := g.s, v := g.v, p := g.p, mode := g.mode, fstat := g.fstat, pend := g.pend, acc := g.acc } = g
  accesses : h.acc.map Access.core = g.acc.map Access.core
  quiet : ∀ x, g.Quiet x → g.Agrees h x ∧ h.Quiet x

theorem Group.agrees_refl (g : Group) (x : RegName) : g.Agrees g x := by cases x <;> rfl

theorem Group.Agrees.trans {a b c : Group} {x : RegName} (h : a.Agrees b x) (k : b.Agrees c x) : a.Agrees c x := by
  cases x
  · exact Eq.trans (show c.uni _ = b.uni _ from k) h
  · exact Eq.trans (show c.vreg _ = b.vreg _ from k) h
  · exact Eq.trans (show c.p[_] = b.p[_] from k) h
  · exact Eq.trans (show c.mode = b.mode from k) h
  · exact Eq.trans (show c.fstat = b.fstat from k) h

/-- Registers and what is in flight decide what an update of the other fields keeps. -/
theorem Group.agrees_of {g h : Group} (x : RegName) (h1 : h.s = g.s) (h2 : h.v = g.v) (h3 : h.p = g.p)
    (h4 : h.mode = g.mode) (h5 : h.fstat = g.fstat) : g.Agrees h x := by
  cases x <;> simp only [Group.Agrees, Group.uni, Group.vreg, h1, h2, h3, h4, h5]

theorem Group.Lands.refl (g : Group) : g.Lands g := ⟨rfl, rfl, fun x h => ⟨g.agrees_refl x, h⟩⟩

theorem Group.Lands.trans {a b c : Group} (h : a.Lands b) (k : b.Lands c) : a.Lands c := by
  refine ⟨?_, k.accesses.trans h.accesses, fun x q => ?_⟩
  · exact (congrArg (fun x : Group => ({ x with s := a.s, v := a.v, p := a.p, mode := a.mode, fstat := a.fstat
                                                pend := a.pend, acc := a.acc } : Group)) k.group).trans h.group
  · obtain ⟨h1, h2⟩ := h.quiet x q
    obtain ⟨k1, k2⟩ := k.quiet x h2
    exact ⟨h1.trans k1, k2⟩

/-- A write leaves every register but its target. -/
theorem Group.write_agrees {g : Group} {w : Write} {x : RegName} (h : w.target ≠ x) : g.Agrees (g.write w) x := by
  cases w with
  | uni r v =>
    cases x with
    | uni r' => exact (Group.write_uni g r r' v).trans (if_neg fun e => h (congrArg _ e))
    | _ => rfl
  | pred p m v =>
    cases x with
    | pred p' => exact (Group.write_pred g p p' m v).trans (if_neg fun e => h (congrArg _ e))
    | _ => rfl
  | vec r t ws =>
    cases x with
    | vec r' =>
      have : r.toNat ≠ r'.toNat := fun e => h (congrArg _ (BitVec.eq_of_toNat_eq e))
      show (g.v.set r.toNat _)[r'.toNat] = _
      simp [this, Group.vreg]
    | _ => rfl
  | mode v =>
    cases x with
    | mode => exact absurd rfl h
    | _ => rfl
  | flags f =>
    cases x with
    | fstat => exact absurd rfl h
    | _ => rfl

theorem Group.land_mem {g : Group} {n : Nat} {w : Write} {q : Pending} (h : q ∈ (g.land n w).pend) :
    ∃ p ∈ g.pend, q.seq = p.seq ∧ ((p.seq < n ∧ p.what.without w = some q.what) ∨ (n ≤ p.seq ∧ q = p)) := by
  simp only [Group.land, Group.write_pend, List.mem_filterMap] at h
  obtain ⟨p, hp, e⟩ := h
  split at e
  · obtain ⟨x, hx, rfl⟩ := Option.map_eq_some_iff.mp e
    exact ⟨p, hp, rfl, Or.inl ⟨‹_›, hx⟩⟩
  · cases e
    exact ⟨q, hp, rfl, Or.inr ⟨by omega, rfl⟩⟩

theorem Group.land_lands {g : Group} {p : Pending} (hp : p ∈ g.pend) :
    g.Lands (({ g with pend := g.pend.erase p } : Group).land p.seq p.what) := by
  refine ⟨?_, ?_, fun x q => ⟨?_, fun y hy => ?_⟩⟩
  · cases hw : p.what <;> rfl
  · have : (({ g with pend := g.pend.erase p } : Group).land p.seq p.what).acc =
        g.acc.map fun a => if a.id < p.seq then a.without p.what else a := by
      cases hw : p.what <;> rfl
    rw [this, List.map_map]
    refine List.map_congr_left fun a _ => ?_
    dsimp only [Function.comp_apply]
    split
    · exact Access.without_core a _
    · rfl
  · have h := Group.write_agrees (g := { g with pend := g.pend.erase p }) (q p hp)
    cases x <;> exact h
  · obtain ⟨z, hz, -, h | h⟩ := Group.land_mem hy
    · rw [Write.without_target h.2]
      exact q z (List.mem_of_mem_erase hz)
    · rw [h.2]
      exact q z (List.mem_of_mem_erase hz)

theorem Group.landDue_lands (due : Pending → Bool) (k : Nat) (g : Group) : g.Lands (Group.landDue due k g) := by
  induction k generalizing g with
  | zero => exact .refl g
  | succ k ih =>
    simp only [Group.landDue]
    split
    · exact .refl g
    · rename_i p hp
      exact (Group.land_lands (List.mem_of_find?_eq_some hp)).trans (ih _)

theorem Group.flush_lands (g : Group) : g.Lands g.flush := Group.landDue_lands _ _ _

/-- One position less for every result in flight changes no register. -/
theorem Group.tick_lands (g : Group) : g.Lands { g with pend := g.pend.map fun p => { p with left := p.left - 1 } } := by
  refine ⟨rfl, rfl, fun x q => ⟨by cases x <;> rfl, fun y hy => ?_⟩⟩
  obtain ⟨z, hz, rfl⟩ := List.mem_map.mp hy
  exact q z hz

theorem Group.age_lands (g : Group) : g.Lands g.age := (Group.tick_lands g).trans (Group.landDue_lands _ _ _)

/-! ### A result in flight is written in the end -/

/-- Two results of instruction `n` leave each other alone. -/
def Apart (n : Nat) (a b : Pending) : Prop := a.seq = n → b.seq = n → a.what.Clear b.what ∧ b.what.Clear a.what

theorem Apart.symm {n : Nat} {a b : Pending} (h : Apart n a b) : Apart n b a := fun x y => (h y x).symm

/-- The newest instruction's result `w` is in flight, or it stands and nothing in flight disturbs it. -/
structure Group.Owes (g : Group) (n : Nat) (w : Write) : Prop where
  fits : w.Fits
  newest : ∀ q ∈ g.pend, q.seq ≤ n
  apart : g.pend.Pairwise (Apart n)
  owed : (∃ p ∈ g.pend, p.seq = n ∧ p.what = w) ∨ (g.Shows w ∧ ∀ q ∈ g.pend, q.what.Clear w)

theorem Group.land_owes {g : Group} {n : Nat} {w : Write} {p : Pending} (h : g.Owes n w) (hp : p ∈ g.pend) :
    (({ g with pend := g.pend.erase p } : Group).land p.seq p.what).Owes n w := by
  have apart : (p :: g.pend.erase p).Pairwise (Apart n) :=
    ((List.perm_cons_erase hp).pairwise_iff fun h => h.symm).mp h.apart
  rw [List.pairwise_cons] at apart
  refine ⟨h.fits, fun q hq => ?_, ?_, ?_⟩
  · obtain ⟨z, hz, e, -⟩ := Group.land_mem hq
    rw [e]
    exact h.newest z (List.mem_of_mem_erase hz)
  · simp only [Group.land, Group.write_pend]
    refine List.Pairwise.filterMap _ (fun a b hab a' ha b' hb => ?_) apart.2
    have cl : ∀ (a a' : Pending), (if a.seq < p.seq then (a.what.without p.what).map fun x => { a with what := x }
        else some a) = some a' → a'.seq = a.seq ∧ ∀ w, a.what.Clear w → a'.what.Clear w := by
      intro a a' e
      split at e
      · obtain ⟨x, hx, rfl⟩ := Option.map_eq_some_iff.mp e
        exact ⟨rfl, fun w hw => Write.clear_without hx hw⟩
      · cases e
        exact ⟨rfl, fun w hw => hw⟩
    intro e1 e2
    obtain ⟨s1, c1⟩ := cl a a' ha
    obtain ⟨s2, c2⟩ := cl b b' hb
    have hp' := h.newest p hp
    have na : ¬ a.seq < p.seq := by omega
    have nb : ¬ b.seq < p.seq := by omega
    rw [if_neg na] at ha
    rw [if_neg nb] at hb
    cases ha
    cases hb
    exact hab e1 e2
  · by_cases hw : p.what = w
    · by_cases hn : p.seq = n
      · right
        subst hw
        refine ⟨?_, fun q hq => ?_⟩
        · have := Group.shows_write (g := { g with pend := g.pend.erase p }) h.fits
          cases hw' : p.what <;> rw [hw'] at this <;> exact this
        · obtain ⟨z, hz, -, ⟨hl, hx⟩ | ⟨hl, rfl⟩⟩ := Group.land_mem hq
          · exact Write.without_clear hx h.fits
          · have := h.newest q (List.mem_of_mem_erase hz)
            exact (apart.1 q hz hn (by omega)).2
      · have hlt : p.seq < n := Nat.lt_of_le_of_ne (h.newest p hp) hn
        rcases h.owed with ⟨z, hz, hzn, hzw⟩ | ⟨hs, hc⟩
        · left
          refine ⟨z, ?_, hzn, hzw⟩
          simp only [Group.land, Group.write_pend, List.mem_filterMap]
          refine ⟨z, (List.mem_erase_of_ne fun e => hn (by rw [← e]; exact hzn)).mpr hz, ?_⟩
          rw [if_neg (by omega)]
        · right
          subst hw
          refine ⟨?_, fun q hq => ?_⟩
          · have := Group.shows_write (g := { g with pend := g.pend.erase p }) h.fits
            cases hw' : p.what <;> rw [hw'] at this <;> exact this
          · obtain ⟨z, hz, -, ⟨hl, hx⟩ | ⟨hl, rfl⟩⟩ := Group.land_mem hq
            · exact Write.without_clear hx h.fits
            · exact hc q (List.mem_of_mem_erase hz)
    · rcases h.owed with ⟨z, hz, hzn, hzw⟩ | ⟨hs, hc⟩
      · left
        refine ⟨z, ?_, hzn, hzw⟩
        simp only [Group.land, Group.write_pend, List.mem_filterMap]
        have hp' := h.newest p hp
        refine ⟨z, (List.mem_erase_of_ne fun e => hw (by rw [← e]; exact hzw)).mpr hz, ?_⟩
        rw [if_neg (by omega)]
      · right
        refine ⟨?_, fun q hq => ?_⟩
        · have := Group.shows_clear (g := { g with pend := g.pend.erase p }) (q := p.what) (w := w)
            (by cases w <;> exact hs) (hc p hp)
          cases hw' : p.what <;> rw [hw'] at this <;> cases w <;> exact this
        · obtain ⟨z, hz, -, ⟨hl, hx⟩ | ⟨hl, rfl⟩⟩ := Group.land_mem hq
          · exact Write.clear_without hx (hc z (List.mem_of_mem_erase hz))
          · exact hc q (List.mem_of_mem_erase hz)

theorem Group.landDue_owes (due : Pending → Bool) (k : Nat) {g : Group} {n : Nat} {w : Write} (h : g.Owes n w) :
    (Group.landDue due k g).Owes n w := by
  induction k generalizing g with
  | zero => exact h
  | succ k ih =>
    simp only [Group.landDue]
    split
    · exact h
    · rename_i p hp
      exact ih (Group.land_owes h (List.mem_of_find?_eq_some hp))

theorem Group.age_owes {g : Group} {n : Nat} {w : Write} (h : g.Owes n w) : g.age.Owes n w := by
  refine Group.landDue_owes _ _ ⟨h.fits, fun q hq => ?_, ?_, ?_⟩
  · obtain ⟨z, hz, rfl⟩ := List.mem_map.mp hq
    exact h.newest z hz
  · exact List.pairwise_map.mpr h.apart
  · rcases h.owed with ⟨p, hp, hn, hw⟩ | ⟨hs, hc⟩
    · exact Or.inl ⟨_, List.mem_map_of_mem hp, hn, hw⟩
    · refine Or.inr ⟨by cases w <;> exact hs, fun q hq => ?_⟩
      obtain ⟨z, hz, rfl⟩ := List.mem_map.mp hq
      exact hc z hz

theorem Group.landDue_all {k : Nat} {g : Group} (h : g.pend.length ≤ k) :
    (Group.landDue (fun _ => true) k g).pend = [] := by
  induction k generalizing g with
  | zero => exact List.eq_nil_of_length_eq_zero (Nat.le_zero.mp h)
  | succ k ih =>
    simp only [Group.landDue]
    split
    · rename_i hf
      rw [List.find?_eq_none] at hf
      exact List.eq_nil_iff_forall_not_mem.mpr fun p hp => hf p hp rfl
    · rename_i p hp
      have hm := List.mem_of_find?_eq_some hp
      apply ih
      simp only [Group.land, Group.write_pend]
      refine (List.length_filterMap_le _ _).trans ?_
      rw [List.length_erase_of_mem hm]
      omega

@[simp] theorem Group.flush_pend (g : Group) : g.flush.pend = [] := Group.landDue_all (Nat.le_refl _)
@[simp] theorem Group.settled_pend (g : Group) : g.settled.pend = [] := Group.flush_pend g

/-- A result in flight shows once every result is written. -/
theorem Group.Owes.shows {g : Group} {n : Nat} {w : Write} (h : g.Owes n w) : g.settled.Shows w := by
  have k : g.settled.Owes n w := Group.landDue_owes _ _ h
  rcases k.owed with ⟨p, hp, -⟩ | ⟨hs, -⟩
  · simp at hp
  · exact hs

/-- What is owed depends on the registers and on what is in flight alone. -/
theorem Group.Owes.of {g h : Group} {n : Nat} {w : Write} (k : g.Owes n w) (h1 : h.s = g.s) (h2 : h.v = g.v) (h3 : h.p = g.p)
    (h4 : h.mode = g.mode) (h5 : h.fstat = g.fstat) (h6 : h.w = g.w) (h7 : h.pend = g.pend) : h.Owes n w := by
  have hs : g.Shows w → h.Shows w := by
    cases w <;> simp only [Group.Shows, Group.uni, Group.lane, Group.vreg, h1, h2, h3, h4, h5, h6, imp_self]
  refine ⟨k.fits, h7 ▸ k.newest, h7 ▸ k.apart, ?_⟩
  rcases k.owed with a | ⟨a, b⟩
  · exact Or.inl (h7 ▸ a)
  · exact Or.inr ⟨hs a, h7 ▸ b⟩

theorem Group.issued_owes {g : Group} {c : Ctx} {v : Bool} {n : Nat} {w : Write} (h : g.Owes n w) :
    (g.issued c v).Owes n w :=
  (Group.age_owes (h.of (h := { g with seq := g.seq + 1, stalled := false, hold := none, xlate := [], walks := [] })
    rfl rfl rfl rfl rfl rfl rfl)).of rfl rfl rfl rfl rfl rfl rfl

/-! ### The only result in flight to a register -/

/-- `w` is the one result in flight to its register, which holds what it holds in `b`; or it was written there. -/
structure Group.Due (b g : Group) (w : Write) : Prop where
  width : g.w = b.w
  due : (∃ l p m, g.pend = l ++ p :: m ∧ p.what = w ∧ (∀ q ∈ l ++ m, q.what.target ≠ w.target) ∧ b.Agrees g w.target) ∨
    (g.Quiet w.target ∧ (b.write w).Agrees g w.target)

theorem Write.without_other {o n : Write} (h : n.target ≠ o.target) : o.without n = some o := by
  cases o <;> cases n <;> simp only [Write.without]
  · rw [if_neg]; exact fun e => h (by subst e; rfl)
  · rw [if_neg]; exact fun e => h (by subst e; rfl)
  · rw [if_neg]; exact fun e => h (by subst e; rfl)
  · exact absurd rfl h

/-- A write has the same effect on registers that agree. -/
theorem Group.write_same {b g : Group} {w : Write} (hw : g.w = b.w) (h : b.Agrees g w.target) :
    (b.write w).Agrees (g.write w) w.target := by
  cases w with
  | uni r v => exact (Group.write_uni g r r v).trans ((if_pos rfl).trans ((Group.write_uni b r r v).trans (if_pos rfl)).symm)
  | pred p m v =>
    show (g.write (.pred p m v)).p[p.toNat] = (b.write (.pred p m v)).p[p.toNat]
    rw [Group.write_pred, Group.write_pred, if_pos rfl, if_pos rfl, hw]
    rw [show g.p[p.toNat] = b.p[p.toNat] from h]
  | vec r t ws =>
    have e : g.vreg r = b.vreg r := h
    show (g.v.set r.toNat ⟨t.getD (g.vreg r).tag, writeLanes (g.vreg r).lanes ws⟩)[r.toNat] =
      (b.v.set r.toNat ⟨t.getD (b.vreg r).tag, writeLanes (b.vreg r).lanes ws⟩)[r.toNat]
    simp [e]
  | mode v => rfl
  | flags f =>
    show g.fstat ||| f = b.fstat ||| f
    rw [show g.fstat = b.fstat from h]

theorem Group.land_due {b g : Group} {w : Write} {p : Pending} (h : b.Due g w) (hp : p ∈ g.pend) :
    b.Due (({ g with pend := g.pend.erase p } : Group).land p.seq p.what) w := by
  refine ⟨h.width ▸ Group.write_w _ _, ?_⟩
  rcases h.due with ⟨l, q, m, e, hq, ho, ha⟩ | ⟨hq, ha⟩
  · by_cases hpw : p.what.target = w.target
    · have hpq : p = q := by
        rw [e] at hp
        rcases List.mem_append.mp hp with hp | hp
        · exact absurd hpw (ho p (List.mem_append_left _ hp))
        · rcases List.mem_cons.mp hp with rfl | hp
          · rfl
          · exact absurd hpw (ho p (List.mem_append_right _ hp))
      subst hpq
      right
      have hl : p ∉ l := fun c => ho p (List.mem_append_left _ c) hpw
      have er : g.pend.erase p = l ++ m := by rw [e, List.erase_append_right _ hl, List.erase_cons_head]
      refine ⟨fun y hy => ?_, ?_⟩
      · obtain ⟨z, hz, -, ⟨-, hx⟩ | ⟨-, rfl⟩⟩ := Group.land_mem hy
        · rw [Write.without_target hx]
          rw [er] at hz
          exact ho z hz
        · rw [er] at hz
          exact ho y hz
      · subst hq
        have k := Group.write_same (b := b) (g := { g with pend := g.pend.erase p }) (w := p.what) h.width
          (by cases ht : p.what.target <;> rw [ht] at ha <;> exact ha)
        refine k.trans ?_
        generalize hx : p.what.target = x
        cases hw : p.what <;> exact Group.agrees_of x rfl rfl rfl rfl rfl
    · left
      have hpq : p ≠ q := fun c => hpw (c ▸ hq ▸ rfl)
      have keep : ∀ ps : List Pending, (∀ z ∈ ps, z.what.target ≠ w.target) →
          ∀ y ∈ ps.filterMap (fun z => if z.seq < p.seq then (z.what.without p.what).map fun x => { z with what := x } else some z),
            y.what.target ≠ w.target := by
        intro ps hps y hy
        obtain ⟨z, hz, ez⟩ := List.mem_filterMap.mp hy
        split at ez
        · obtain ⟨x, hx, rfl⟩ := Option.map_eq_some_iff.mp ez
          rw [show ({ z with what := x } : Pending).what.target = z.what.target from Write.without_target hx]
          exact hps z hz
        · cases ez
          exact hps _ hz
      have qs : (if q.seq < p.seq then (q.what.without p.what).map fun x => ({ q with what := x } : Pending) else some q) = some q := by
        split
        · rw [Write.without_other (by rw [hq]; exact hpw)]
          rfl
        · rfl
      have main : ∀ l' m', g.pend.erase p = l' ++ q :: m' → (∀ z ∈ l' ++ m', z.what.target ≠ w.target) →
          ∃ l p' m, (({ g with pend := g.pend.erase p } : Group).land p.seq p.what).pend = l ++ p' :: m ∧ p'.what = w ∧
            (∀ q ∈ l ++ m, q.what.target ≠ w.target) := by
        intro l' m' er hz
        refine ⟨l'.filterMap fun z => if z.seq < p.seq then (z.what.without p.what).map fun x => { z with what := x } else some z,
          q, m'.filterMap fun z => if z.seq < p.seq then (z.what.without p.what).map fun x => { z with what := x } else some z,
          ?_, hq, ?_⟩
        · simp only [Group.land, Group.write_pend, er, List.filterMap_append, List.filterMap_cons, qs]
        · intro y hy
          rcases List.mem_append.mp hy with hy | hy
          · exact keep _ (fun z hz' => hz z (List.mem_append_left _ hz')) y hy
          · exact keep _ (fun z hz' => hz z (List.mem_append_right _ hz')) y hy
      have agr : b.Agrees (({ g with pend := g.pend.erase p } : Group).land p.seq p.what) w.target := by
        have k := Group.write_agrees (g := { g with pend := g.pend.erase p }) (w := p.what) (x := w.target) hpw
        refine (Group.Agrees.trans ha ?_)
        generalize w.target = x at *
        cases x <;> exact k
      by_cases hl : p ∈ l
      · obtain ⟨l', p', m', e1, e2, e3⟩ := main (l.erase p) m (by rw [e, List.erase_append_left _ hl]) fun z hz => by
          rcases List.mem_append.mp hz with hz | hz
          · exact ho z (List.mem_append_left _ (List.mem_of_mem_erase hz))
          · exact ho z (List.mem_append_right _ hz)
        exact ⟨l', p', m', e1, e2, e3, agr⟩
      · obtain ⟨l', p', m', e1, e2, e3⟩ := main l (m.erase p)
          (by rw [e, List.erase_append_right _ hl, List.erase_cons_tail (by simpa using fun c => hpq c.symm)]) fun z hz => by
          rcases List.mem_append.mp hz with hz | hz
          · exact ho z (List.mem_append_left _ hz)
          · exact ho z (List.mem_append_right _ (List.mem_of_mem_erase hz))
        exact ⟨l', p', m', e1, e2, e3, agr⟩
  · right
    have k := (Group.land_lands hp).quiet _ hq
    exact ⟨k.2, ha.trans k.1⟩

theorem Group.landDue_due (due : Pending → Bool) (k : Nat) {b g : Group} {w : Write} (h : b.Due g w) :
    b.Due (Group.landDue due k g) w := by
  induction k generalizing g with
  | zero => exact h
  | succ k ih =>
    simp only [Group.landDue]
    split
    · exact h
    · rename_i p hp
      exact ih (Group.land_due h (List.mem_of_find?_eq_some hp))

theorem Group.Due.of {b g h : Group} {w : Write} (k : b.Due g w) (h1 : h.s = g.s) (h2 : h.v = g.v) (h3 : h.p = g.p)
    (h4 : h.mode = g.mode) (h5 : h.fstat = g.fstat) (h6 : h.w = g.w) (h7 : h.pend = g.pend) : b.Due h w := by
  have ag : g.Agrees h w.target := Group.agrees_of _ h1 h2 h3 h4 h5
  refine ⟨h6.trans k.width, ?_⟩
  rcases k.due with ⟨l, p, m, e, a, o, ha⟩ | ⟨q, ha⟩
  · exact Or.inl ⟨l, p, m, h7.trans e, a, o, ha.trans ag⟩
  · exact Or.inr ⟨fun y hy => q y (h7 ▸ hy), ha.trans ag⟩

theorem Group.age_due {b g : Group} {w : Write} (h : b.Due g w) : b.Due g.age w := by
  refine Group.landDue_due _ _ ⟨h.width, ?_⟩
  rcases h.due with ⟨l, p, m, e, a, o, ha⟩ | ⟨q, ha⟩
  · refine Or.inl ⟨l.map fun p => { p with left := p.left - 1 }, { p with left := p.left - 1 },
      m.map fun p => { p with left := p.left - 1 }, ?_, a, ?_, ha.trans (Group.agrees_of _ rfl rfl rfl rfl rfl)⟩
    · show g.pend.map (fun p => ({ p with left := p.left - 1 } : Pending)) = _
      rw [e, List.map_append, List.map_cons]
    · intro y hy
      rw [← List.map_append] at hy
      obtain ⟨z, hz, rfl⟩ := List.mem_map.mp hy
      exact o z hz
  · refine Or.inr ⟨fun y hy => ?_, ha.trans (Group.agrees_of _ rfl rfl rfl rfl rfl)⟩
    obtain ⟨z, hz, rfl⟩ := List.mem_map.mp hy
    exact q z hz

theorem Group.issued_due {b g : Group} {c : Ctx} {v : Bool} {w : Write} (h : b.Due g w) : b.Due (g.issued c v) w :=
  (Group.age_due (h.of (h := { g with seq := g.seq + 1, stalled := false, hold := none, xlate := [], walks := [] })
    rfl rfl rfl rfl rfl rfl rfl)).of rfl rfl rfl rfl rfl rfl rfl

/-- Once every result is written, the register holds what the write makes of it. -/
theorem Group.Due.settled {b g : Group} {w : Write} (h : b.Due g w) : (b.write w).Agrees g.settled w.target := by
  have k : b.Due g.settled w := Group.landDue_due _ _ h
  rcases k.due with ⟨l, p, m, e, -⟩ | ⟨-, ha⟩
  · simp at e
  · exact ha

/-! ### The stacks at rest (04 R53) -/

theorem sink_mem {seg st : List Entry} {x : Entry} (h : x ∈ seg ∨ x ∈ st) : x ∈ sink seg st := by
  induction st generalizing seg with
  | nil => simpa [sink] using h
  | cons e rest ih =>
    simp only [sink]
    split
    · simp only [List.mem_append, List.mem_filter, List.mem_cons, Bool.not_eq_true']
      rcases h with h | h
      · cases hx : x.arrived
        · exact Or.inl (Or.inl ⟨h, rfl⟩)
        · exact Or.inl (Or.inr ⟨h, rfl⟩)
      · rcases List.mem_cons.mp h with rfl | h
        · exact Or.inr (Or.inl rfl)
        · exact Or.inr (Or.inr (ih (Or.inr h)))
    · apply ih
      rcases h with h | h
      · exact Or.inl (by simp [h])
      · rcases List.mem_cons.mp h with rfl | h
        · exact Or.inl (by simp)
        · exact Or.inr h

theorem sink_from {seg st : List Entry} {x : Entry} (h : x ∈ sink seg st) : x ∈ seg ∨ x ∈ st := by
  induction st generalizing seg with
  | nil => exact Or.inl (by simpa [sink] using h)
  | cons e rest ih =>
    simp only [sink] at h
    split at h
    · simp only [List.mem_append, List.mem_filter, List.mem_cons] at h
      rcases h with (h | h) | h
      · exact Or.inl h.1
      · exact Or.inl h.1
      · rcases h with rfl | h
        · exact Or.inr (by simp)
        · rcases ih h with h | h
          · simp at h
          · exact Or.inr (by simp [h])
    · rcases ih h with h | h
      · rcases List.mem_append.mp h with h | h
        · exact Or.inl h
        · simp at h; subst h; exact Or.inr (by simp)
      · exact Or.inr (by simp [h])

/-- A merge keeps entries with lanes. -/
theorem mergeOnce_masks {st st' : List Entry} (h : mergeOnce st = some st') (hm : ∀ x ∈ st, x.mask ≠ 0) :
    st' ≠ [] ∧ ∀ x ∈ st', x.mask ≠ 0 := by
  induction st with
  | nil => simp [mergeOnce] at h
  | cons e rest ih =>
    simp only [mergeOnce] at h
    split at h
    · cases h
      refine ⟨by simp, fun x hx => ?_⟩
      rcases List.mem_cons.mp hx with rfl | hx
      · exact hm e (by simp)
      · exact hm x (by simp [hx])
    · split at h
      · exact ih h fun x hx => hm x (by simp [hx])
      · cases h

theorem Entry.mark_mask (e : Entry) : e.mark.mask = e.mask := by
  unfold Entry.mark
  split <;> rfl

theorem settleStack_masks {k : Nat} {st : List Entry} (h : ∃ x ∈ st, x.mask ≠ 0) : settleStack (k + 1) st ≠ [] := by
  induction k generalizing st with
  | zero =>
    obtain ⟨x, hx, hm⟩ := h
    have hin : x.mark ∈ sink [] ((st.filter fun e => e.mask != 0).map Entry.mark) :=
      sink_mem (Or.inr (List.mem_map_of_mem (List.mem_filter.mpr ⟨hx, by simpa using hm⟩)))
    simp only [settleStack]
    split
    · exact List.ne_nil_of_mem hin
    · rename_i st2 e2
      refine (mergeOnce_masks e2 fun y hy => ?_).1
      rcases sink_from hy with hy | hy
      · simp at hy
      · obtain ⟨z, hz, rfl⟩ := List.mem_map.mp hy
        rw [Entry.mark_mask]
        simpa using (List.mem_filter.mp hz).2
  | succ k ih =>
    obtain ⟨x, hx, hm⟩ := h
    have hin : x.mark ∈ sink [] ((st.filter fun e => e.mask != 0).map Entry.mark) :=
      sink_mem (Or.inr (List.mem_map_of_mem (List.mem_filter.mpr ⟨hx, by simpa using hm⟩)))
    rw [settleStack]
    split
    · exact List.ne_nil_of_mem hin
    · rename_i st2 e2
      obtain ⟨h1, h2⟩ := mergeOnce_masks e2 fun y hy => by
        rcases sink_from hy with hy | hy
        · simp at hy
        · obtain ⟨z, hz, rfl⟩ := List.mem_map.mp hy
          rw [Entry.mark_mask]
          simpa using (List.mem_filter.mp hz).2
      obtain ⟨y, hy⟩ := List.exists_mem_of_ne_nil _ h1
      exact ih ⟨y, hy, h2 y hy⟩

theorem spill_ne_nil {n : Nat} {st : List Entry} (h : st ≠ []) : spill n st ≠ [] := by
  cases st with
  | nil => exact absurd rfl h
  | cons e rest => simp [spill]

/-- A stack with lanes in some entry is not emptied by coming to rest. -/
theorem stackAfter_ne_nil {st : List Entry} (h : ∃ x ∈ st, x.mask ≠ 0) : stackAfter st ≠ [] :=
  spill_ne_nil (settleStack_masks h)

@[simp] theorem Group.settle_stack (g : Group) : g.settle.stack = stackAfter g.stack := rfl
@[simp] theorem Group.settle_rets (g : Group) : g.settle.rets = retsAfter g.stack g.rets := rfl

/-! ### Tables -/

@[simp] theorem Tbl.find_put {κ α : Type} [DecidableEq κ] (t : Tbl κ α) (k : κ) (a : α) : Tbl.find (Tbl.put t k a) k = some a := by
  induction t with
  | nil => simp [Tbl.put, Tbl.find]
  | cons x rest ih =>
    obtain ⟨y, b⟩ := x
    simp only [Tbl.put]
    split
    · simp [Tbl.find]
    · rename_i h
      simp [Tbl.find, h, ih]

theorem Tbl.find_put_other {κ α : Type} [DecidableEq κ] (t : Tbl κ α) {k q : κ} (a : α) (h : q ≠ k) :
    Tbl.find (Tbl.put t k a) q = Tbl.find t q := by
  induction t with
  | nil => simp [Tbl.put, Tbl.find, h.symm]
  | cons x rest ih =>
    obtain ⟨y, b⟩ := x
    simp only [Tbl.put]
    split
    · rename_i e
      subst e
      simp [Tbl.find, h.symm]
    · simp only [Tbl.find, ih]

@[simp] theorem State.setGroup_group (s : State) (r : GroupRef) (g : Group) : (s.setGroup r g).group r = some g :=
  Tbl.find_put _ _ _

theorem State.setGroup_other (s : State) {r q : GroupRef} (g : Group) (h : q ≠ r) : (s.setGroup r g).group q = s.group q :=
  Tbl.find_put_other _ _ h

/-! ### The end of an issued instruction (03 R34) -/

/-- The context of an issuing instruction. -/
theorem Issuing.ctx {s : State} {r : GroupRef} {g : Group} {run : Run} {e : Entry} {act : Mask} (h : Issuing s r g run e act)
    (i : Instr) : s.ctx i = some ⟨r, g, run, e, act, e.kind == .handler, encodeWord i⟩ := by
  unfold State.ctx
  rw [h.turn]
  dsimp only
  rw [h.found]
  dsimp only
  rw [h.running]
  dsimp only
  rw [h.entry]
  dsimp only
  rw [h.active]

/-- A group handed to the end of its instruction: only its registers, what is in flight and its stacks may differ. -/
structure Group.Worked (g h : Group) (dests : List RegName) : Prop where
  group : h.still = g.still
  accesses : h.acc.map Access.core = g.acc.map Access.core
  number : h.seq = g.seq
  registers : g.KeepsRegisters h dests

/-- The state in which an instruction's group goes on, or its run is over, when its stack is not empty. -/
theorem State.goOn_cases {s : State} {c : Ctx} {h : Group} {flow : Flow} (hne : stackAfter (flow.move c h).stack ≠ []) :
    (∃ run, s.goOn c h flow = s.setGroup c.r { (flow.move c h).settle with run := some run }) ∨
    (∃ top, s.goOn c h flow = (s.freeSlots c.r).setGroup c.r ({ (flow.move c h).settle with topFirst := top } : Group).stopRun) := by
  unfold State.goOn
  dsimp only
  split
  · exact Or.inl ⟨_, rfl⟩
  · refine Or.inr ⟨flow.top c (flow.move c h).settle.stack, ?_⟩
    unfold State.runEnds
    rw [if_neg]
    simpa using hne

/-- One more issued instruction lands results, and changes nothing else but what it holds at issue. -/
theorem Group.issued_goes (g : Group) (c : Ctx) (v : Bool) :
    (g.issued c v).still = g.still ∧ (g.issued c v).stack = g.stack ∧ (g.issued c v).rets = g.rets ∧
      (g.issued c v).acc.map Access.core = g.acc.map Access.core ∧ (g.issued c v).seq = g.seq + 1 ∧
      (∀ x, g.Quiet x → g.Agrees (g.issued c v) x ∧ (g.issued c v).Quiet x) ∧
      ∀ n w, g.Owes n w → (g.issued c v).Owes n w := by
  have h := Group.age_lands ({ g with seq := g.seq + 1, stalled := false, hold := none, xlate := [], walks := [] } : Group)
  refine ⟨(congrArg Group.still h.group :), (congrArg Group.stack h.group :), (congrArg Group.rets h.group :), h.accesses,
    Group.issued_seq g c v, fun x q => ?_, fun n w => Group.issued_owes⟩
  obtain ⟨a, b⟩ := h.quiet x q
  refine ⟨?_, b⟩
  cases x <;> exact a

theorem Group.KeepsRegisters.refl (g : Group) (dests : List RegName) : g.KeepsRegisters g dests :=
  fun x _ q => ⟨g.agrees_refl x, q⟩

theorem Group.KeepsRegisters.lands {g h k : Group} {dests : List RegName} (a : g.KeepsRegisters h dests)
    (b : ∀ x, h.Quiet x → h.Agrees k x ∧ k.Quiet x) : g.KeepsRegisters k dests := fun x hx q =>
  ⟨(a x hx q).1.trans (b x (a x hx q).2).1, (b x (a x hx q).2).2⟩

theorem Flow.move_still (f : Flow) (c : Ctx) (g : Group) : (f.move c g).still = g.still := by cases f <;> rfl
theorem Flow.move_acc (f : Flow) (c : Ctx) (g : Group) : (f.move c g).acc = g.acc := by cases f <;> rfl
theorem Flow.move_seq (f : Flow) (c : Ctx) (g : Group) : (f.move c g).seq = g.seq := by cases f <;> rfl
theorem Flow.move_rets (f : Flow) (c : Ctx) (g : Group) : (f.move c g).rets = g.rets := by cases f <;> rfl
theorem Flow.move_lands (f : Flow) (c : Ctx) (g : Group) (x : RegName) (q : g.Quiet x) :
    g.Agrees (f.move c g) x ∧ (f.move c g).Quiet x := by
  cases f <;> exact ⟨Group.agrees_of x rfl rfl rfl rfl rfl, q⟩
theorem Flow.move_due {f : Flow} {c : Ctx} {b g : Group} {w : Write} (h : b.Due g w) : b.Due (f.move c g) w := by
  cases f <;> exact h.of rfl rfl rfl rfl rfl rfl rfl
theorem Flow.move_owes {f : Flow} {c : Ctx} {g : Group} {n : Nat} {w : Write} (h : g.Owes n w) : (f.move c g).Owes n w := by
  cases f <;> exact h.of rfl rfl rfl rfl rfl rfl rfl

/-- The run goes on with a group brought to rest. -/
theorem Frame.runs {s : State} {r : GroupRef} {g m : Group} {run : Run} {dests : List RegName} {st : List Entry}
    {rets : List RetEntry} (hs : m.still = g.still) (ha : m.acc.map Access.core = g.acc.map Access.core)
    (hn : m.seq = g.seq + 1) (hr : g.KeepsRegisters m dests) (hst : m.stack = st) (hrt : m.rets = rets) :
    Frame s (s.setGroup r { m.settle with run := some run }) r g { m.settle with run := some run } dests st rets := by
  subst hst hrt
  refine ⟨rfl, fun q hq => State.setGroup_other _ _ hq, Or.inl rfl, hs, ha, hn, ?_, rfl, rfl⟩
  exact hr.lands fun x q => ⟨Group.agrees_of x rfl rfl rfl rfl rfl, q⟩

/-- The run is over for a group brought to rest. -/
theorem Frame.stops {s : State} {r : GroupRef} {g m : Group} {top : Bool} {dests : List RegName} {st : List Entry}
    {rets : List RetEntry} (hs : m.still = g.still) (ha : m.acc.map Access.core = g.acc.map Access.core)
    (hn : m.seq = g.seq + 1) (hr : g.KeepsRegisters m dests) (hst : m.stack = st) (hrt : m.rets = rets) :
    Frame s ((s.freeSlots r).setGroup r ({ m.settle with topFirst := top } : Group).stopRun) r g
      ({ m.settle with topFirst := top } : Group).stopRun dests st rets := by
  subst hst hrt
  have fl := Group.flush_lands ({ m.settle with topFirst := top, run := none } : Group)
  have flg := fl.group
  refine ⟨rfl, fun q hq => State.setGroup_other _ _ hq, Or.inr rfl, (congrArg Group.still flg :).trans hs,
    fl.accesses.trans ha, (Group.stopRun_seq _).trans hn, ?_, (congrArg Group.stack flg :), (congrArg Group.rets flg :)⟩
  exact (hr.lands fun x q => ⟨Group.agrees_of (h := { m.settle with topFirst := top, run := none }) x rfl rfl rfl rfl rfl, q⟩).lands
    fl.quiet

/-- The end of an issued instruction for a group whose stacks hold lanes: it goes on, nothing but what the instruction did
changes, results in flight are owed. -/
theorem State.goOn_goes {s : State} {c : Ctx} {g m : Group} {flow : Flow} {dests : List RegName} {st : List Entry}
    {rets : List RetEntry} (hs : m.still = g.still) (ha : m.acc.map Access.core = g.acc.map Access.core)
    (hn : m.seq = g.seq + 1) (hr : g.KeepsRegisters m dests) (hst : (flow.move c m).stack = st) (hrt : m.rets = rets)
    (hm : ∃ x ∈ st, x.mask ≠ 0) :
    ∃ k, (s.goOn c m flow).group c.r = some k ∧ Frame s (s.goOn c m flow) c.r g k dests st rets ∧
      (∀ n w, m.Owes n w → k.settled.Shows w) ∧ ∀ b w, Group.Due b m w → (b.write w).Agrees k.settled w.target := by
  have hs' := (Flow.move_still flow c m).trans hs
  have ha' : (flow.move c m).acc.map Access.core = g.acc.map Access.core := by rw [Flow.move_acc]; exact ha
  have hn' := (Flow.move_seq flow c m).trans hn
  have hr' := hr.lands (Flow.move_lands flow c m)
  have hrt' := (Flow.move_rets flow c m).trans hrt
  rcases State.goOn_cases (s := s) (c := c) (h := m) (flow := flow) (by rw [hst]; exact stackAfter_ne_nil hm) with
    ⟨run, e⟩ | ⟨top, e⟩
  · rw [e]
    exact ⟨_, State.setGroup_group _ _ _, Frame.runs hs' ha' hn' hr' hst hrt', fun n w o =>
      Group.Owes.shows (n := n) ((Flow.move_owes (f := flow) (c := c) o).of rfl rfl rfl rfl rfl rfl rfl), fun b w o =>
      Group.Due.settled ((Flow.move_due (f := flow) (c := c) o).of rfl rfl rfl rfl rfl rfl rfl)⟩
  · rw [e]
    exact ⟨_, State.setGroup_group _ _ _, Frame.stops hs' ha' hn' hr' hst hrt', fun n w o =>
      Group.Owes.shows (n := n) (Group.landDue_owes _ _ ((Flow.move_owes (f := flow) (c := c) o).of rfl rfl rfl rfl rfl rfl rfl)),
      fun b w o => Group.Due.settled (Group.landDue_due _ _ ((Flow.move_due (f := flow) (c := c) o).of rfl rfl rfl rfl rfl rfl rfl))⟩

theorem Flow.move_stack (f : Flow) (c : Ctx) {g h : Group} (e : g.stack = h.stack) : (f.move c g).stack = (f.move c h).stack := by
  cases f <;> simp [Flow.move, e]

/-- The end of an instruction that trapped in no lane. -/
theorem State.finish_goes {s : State} {c : Ctx} {g h : Group} {flow : Flow} {v : Bool} {dests : List RegName}
    {st : List Entry} {rets : List RetEntry} (hw : g.Worked h dests) (hst : (flow.move c h).stack = st)
    (hrt : h.rets = rets) (hm : ∃ x ∈ st, x.mask ≠ 0) :
    ∃ k, (s.finish c h flow [] v).group c.r = some k ∧ Frame s (s.finish c h flow [] v) c.r g k dests st rets ∧
      (∀ n w, h.Owes n w → k.settled.Shows w) ∧ ∀ b w, Group.Due b h w → (b.write w).Agrees k.settled w.target := by
  have i8 : ∀ b w, Group.Due b h w → Group.Due b (h.issued c v) w := fun b w o => Group.issued_due o
  obtain ⟨i3, i1, i2, i4, i6, i5, i7⟩ := Group.issued_goes h c v
  show ∃ k, (s.goOn c (h.issued c v) flow).group c.r = some k ∧ Frame s (s.goOn c (h.issued c v) flow) c.r g k dests st rets ∧ _
  generalize h.issued c v = m at *
  obtain ⟨k, k1, k2, k3, k4⟩ := State.goOn_goes (s := s) (c := c) (g := g) (m := m) (flow := flow) (dests := dests) (st := st)
    (rets := rets) (i3.trans hw.group) (i4.trans hw.accesses) (by rw [i6, hw.number]) (hw.registers.lands i5)
    ((Flow.move_stack flow c i1).trans hst) (i2.trans hrt) hm
  exact ⟨k, k1, k2, fun n w o => k3 n w (i7 n w o), fun b w o => k4 b w (i8 b w o)⟩

/-! ### Instructions that only compute registers -/

/-- The registers a list of results writes. -/
def targetsOf (ws : List (Nat × Write)) : List RegName := ws.map fun x => x.2.target

theorem Group.laters_worked (g : Group) (n : Nat) (ws : List (Nat × Write)) : g.Worked (g.laters n ws) (targetsOf ws) := by
  refine ⟨rfl, rfl, rfl, fun x hx q => ⟨Group.agrees_of x rfl rfl rfl rfl rfl, fun p hp => ?_⟩⟩
  rcases List.mem_append.mp hp with hp | hp
  · exact q p hp
  · obtain ⟨y, hy, rfl⟩ := List.mem_map.mp hp
    exact fun e => hx (e ▸ List.mem_map_of_mem hy)

/-- Results of one instruction that leave each other alone are owed. -/
theorem Group.laters_owes {g : Group} {ws : List (Nat × Write)} (h : PendingBefore g.seq g.pend)
    (ha : ws.Pairwise fun a b => a.2.Clear b.2 ∧ b.2.Clear a.2) {x : Nat × Write} (hx : x ∈ ws) (hf : x.2.Fits) :
    (g.laters g.seq ws).Owes g.seq x.2 := by
  refine ⟨hf, fun q hq => ?_, ?_, Or.inl ⟨⟨g.seq, x.1, x.2⟩, ?_, rfl, rfl⟩⟩
  · rcases List.mem_append.mp hq with hq | hq
    · exact Nat.le_of_lt (h q hq).1
    · obtain ⟨y, hy, rfl⟩ := List.mem_map.mp hq
      exact Nat.le_refl _
  · refine List.pairwise_append.mpr ⟨?_, ?_, fun a hm b _ e => ?_⟩
    · exact List.Pairwise.imp_of_mem (fun {a b} hma _ _ e => absurd e (Nat.ne_of_lt (h a hma).1))
        (List.pairwise_iff_forall_sublist.mpr fun _ => trivial : g.pend.Pairwise fun _ _ => True)
    · exact List.pairwise_map.mpr (ha.imp fun h _ _ => h)
    · exact absurd e (Nat.ne_of_lt (h a hm).1)
  · exact List.mem_append.mpr (Or.inr (List.mem_map_of_mem (f := fun x => (⟨g.seq, x.1, x.2⟩ : Pending)) hx))

/-- The one result to a register with none in flight is due. -/
theorem Group.laters_due {g : Group} {n : Nat} {ws : List (Nat × Write)} {x : Nat × Write} (hx : x ∈ ws)
    (q : g.Quiet x.2.target) (hc : (targetsOf ws).count x.2.target = 1) : g.Due (g.laters n ws) x.2 := by
  obtain ⟨l, m, rfl⟩ := List.append_of_mem hx
  refine ⟨rfl, Or.inl ⟨g.pend ++ l.map fun x => ⟨n, x.1, x.2⟩, ⟨n, x.1, x.2⟩, m.map fun x => ⟨n, x.1, x.2⟩, ?_, rfl, ?_,
    Group.agrees_of _ rfl rfl rfl rfl rfl⟩⟩
  · simp [Group.laters]
  · have h0 : (targetsOf l).count x.2.target = 0 ∧ (targetsOf m).count x.2.target = 0 := by
      simp only [targetsOf, List.map_append, List.map_cons, List.count_append, List.count_cons_self] at hc ⊢
      omega
    rw [List.count_eq_zero, List.count_eq_zero] at h0
    intro y hy
    rcases List.mem_append.mp hy with hy | hy
    · rcases List.mem_append.mp hy with hy | hy
      · exact q y hy
      · obtain ⟨z, hz, rfl⟩ := List.mem_map.mp hy
        exact fun e => h0.1 (e ▸ List.mem_map_of_mem hz)
    · obtain ⟨z, hz, rfl⟩ := List.mem_map.mp hy
      exact fun e => h0.2 (e ▸ List.mem_map_of_mem hz)

/-- A register-only instruction with an active lane completes: each of its results stands in the end. -/
theorem issueRegs_goes {i : Instr} {f : Ctx → Result} {s : State} {r : GroupRef} {g : Group} {run : Run} {e : Entry}
    {act : Mask} {ws : List (Nat × Write)} (hs : s.Sound) (h : Issuing s r g run e act) (ha : act ≠ 0)
    (hf : f ⟨r, g, run, e, act, e.kind == .handler, encodeWord i⟩ = .ok ws)
    (hp : ws.Pairwise fun a b => a.2.Clear b.2 ∧ b.2.Clear a.2) :
    ∃ t k, issueRegs i f s = .next t ∧ t.group r = some k ∧
      Frame s t r g k (targetsOf ws) (g.stack.set run.live { e with pc := e.pc + 4 }) g.rets ∧
      (∀ x ∈ ws, x.2.Fits → k.settled.Shows x.2) ∧
      ∀ x ∈ ws, g.Quiet x.2.target → ((targetsOf ws).count x.2.target = 1) → (g.write x.2).Agrees k.settled x.2.target := by
  have hg := hs.group h.found
  obtain ⟨k, k1, k2, k3, k4⟩ := State.finish_goes (s := s) (c := ⟨r, g, run, e, act, e.kind == .handler, encodeWord i⟩)
    (h := g.laters g.seq ws) (flow := .falls) (v := true) (st := g.stack.set run.live { e with pc := e.pc + 4 })
    (rets := g.rets) (Group.laters_worked g g.seq ws) rfl rfl
    ⟨{ e with pc := e.pc + 4 }, List.mem_of_getElem? (i := run.live) (by
      rw [List.getElem?_set_self]
      exact (List.getElem?_eq_some_iff.mp h.entry).1), h.lanes⟩
  refine ⟨_, k, ?_, k1, k2, fun x hx hx' => k3 _ _ (Group.laters_owes hg.1 hp hx hx'), fun x hx q hc =>
    k4 _ _ (Group.laters_due hx q hc)⟩
  unfold issueRegs State.withCtx
  rw [h.ctx i]
  dsimp only
  rw [if_neg ha, hf]
  rfl

/-- An instruction without an active lane has no effect but to pass. -/
theorem passes_goes {i : Instr} {s : State} {r : GroupRef} {g : Group} {run : Run} {e : Entry} {act : Mask}
    (h : Issuing s r g run e act) :
    ∃ k, (s.finish ⟨r, g, run, e, act, e.kind == .handler, encodeWord i⟩ g .falls []).group r = some k ∧
      Frame s (s.finish ⟨r, g, run, e, act, e.kind == .handler, encodeWord i⟩ g .falls []) r g k []
        (g.stack.set run.live { e with pc := e.pc + 4 }) g.rets := by
  obtain ⟨k, k1, k2, -⟩ := State.finish_goes (s := s) (c := ⟨r, g, run, e, act, e.kind == .handler, encodeWord i⟩)
    (h := g) (flow := .falls) (v := true) (st := g.stack.set run.live { e with pc := e.pc + 4 })
    (rets := g.rets) (dests := []) ⟨rfl, rfl, rfl, Group.KeepsRegisters.refl g []⟩ rfl rfl
    ⟨{ e with pc := e.pc + 4 }, List.mem_of_getElem? (i := run.live) (by
      rw [List.getElem?_set_self]
      exact (List.getElem?_eq_some_iff.mp h.entry).1), h.lanes⟩
  exact ⟨k, k1, k2⟩

/-- A register-only instruction with an active lane completes with what its results show. -/
theorem issueRegs_completes {i : Instr} {f : Ctx → Result} {s : State} {r : GroupRef} {g : Group} {run : Run} {e : Entry}
    {act : Mask} {ws : List (Nat × Write)} {dests : List RegName} {post : Group → Prop} (hx : exec i s = issueRegs i f s)
    (hs : s.Sound) (h : Issuing s r g run e act) (ha : act ≠ 0)
    (hf : f ⟨r, g, run, e, act, e.kind == .handler, encodeWord i⟩ = .ok ws)
    (hp : ws.Pairwise fun a b => a.2.Clear b.2 ∧ b.2.Clear a.2) (hd : targetsOf ws = dests)
    (post_of : ∀ k : Group, k.still = g.still → (∀ x ∈ ws, x.2.Fits → k.Shows x.2) →
      (∀ x ∈ ws, g.Quiet x.2.target → dests.count x.2.target = 1 → (g.write x.2).Agrees k x.2.target) → post k) :
    Completes i s r g run e dests post := by
  obtain ⟨t, k, h1, h2, h3, h4, h5⟩ := issueRegs_goes hs h ha hf hp
  subst hd
  exact ⟨t, k, hx.trans h1, h2, h3, post_of _ ((congrArg Group.still (Group.flush_lands k).group :).trans h3.group) h4 h5⟩

/-- One uniform result. -/
theorem uni_completes {i : Instr} {f : Ctx → Result} {s : State} {r : GroupRef} {g : Group} {run : Run} {e : Entry}
    {act : Mask} {lat : Nat} {d : Reg} {x : Word} (hx : exec i s = issueRegs i f s)
    (hs : s.Sound) (h : Issuing s r g run e act) (ha : act ≠ 0)
    (hf : f ⟨r, g, run, e, act, e.kind == .handler, encodeWord i⟩ = uniResult lat d x) :
    Completes i s r g run e [.uni d] fun k => k.uni d = x :=
  issueRegs_completes hx hs h ha hf (List.pairwise_singleton _ _) rfl fun _ _ hk _ => hk _ (List.mem_singleton.mpr rfl) trivial

end Sys2Proof.Machine
end

