-- ==== Sys2Proof/Laws/PerInstr.lean ====
section
/-! SUPPORT. Statements made for every instruction: what the encoder writes, the parser reads back. -/

namespace Sys2Proof.Laws

set_option Elab.async false
set_option linter.unusedSimpArgs false

/-- A well-formed instruction word, encoded, parses to itself. -/
def RoundTrip.Statement (i : Instr) : Prop := i.isEvent = false → i.wf = true → parse (encodeWord i) = .ok i

theorem RoundTrip.nop : ∀ y, RoundTrip.Statement (.nop y) := by
  intro y _ h
  simp_all [encodeWord, parse, parseControl, zero, three, named, need, checked, ordered, atomic, Instr.wf]
theorem RoundTrip.bra : ∀ y o, RoundTrip.Statement (.bra y o) := by
  intro y o _ h
  simp_all [encodeWord, parse, parseControl, zero, three, named, need, checked, ordered, atomic, Instr.wf]
theorem RoundTrip.bz : ∀ y a o, RoundTrip.Statement (.bz y a o) := by
  intro y a o _ h
  simp_all [encodeWord, parse, parseControl, zero, three, named, need, checked, ordered, atomic, Instr.wf]
theorem RoundTrip.bnz : ∀ y a o, RoundTrip.Statement (.bnz y a o) := by
  intro y a o _ h
  simp_all [encodeWord, parse, parseControl, zero, three, named, need, checked, ordered, atomic, Instr.wf]
theorem RoundTrip.brp : ∀ y n p o, RoundTrip.Statement (.brp y n p o) := by
  intro y n p o _ h
  simp_all [encodeWord, parse, parseControl, zero, three, named, need, checked, ordered, atomic, Instr.wf]
theorem RoundTrip.setj : ∀ y o, RoundTrip.Statement (.setj y o) := by
  intro y o _ h
  simp_all [encodeWord, parse, parseControl, zero, three, named, need, checked, ordered, atomic, Instr.wf]
theorem RoundTrip.join : ∀ y, RoundTrip.Statement (.join y) := by
  intro y _ h
  simp_all [encodeWord, parse, parseControl, zero, three, named, need, checked, ordered, atomic, Instr.wf]
theorem RoundTrip.call : ∀ y o, RoundTrip.Statement (.call y o) := by
  intro y o _ h
  simp_all [encodeWord, parse, parseControl, zero, three, named, need, checked, ordered, atomic, Instr.wf]
theorem RoundTrip.calli : ∀ y a, RoundTrip.Statement (.calli y a) := by
  intro y a _ h
  simp_all [encodeWord, parse, parseControl, zero, three, named, need, checked, ordered, atomic, Instr.wf]
theorem RoundTrip.callv : ∀ y d a, RoundTrip.Statement (.callv y d a) := by
  intro y d a _ h
  simp_all [encodeWord, parse, parseControl, zero, three, named, need, checked, ordered, atomic, Instr.wf]
theorem RoundTrip.ret : ∀ y, RoundTrip.Statement (.ret y) := by
  intro y _ h
  simp_all [encodeWord, parse, parseControl, zero, three, named, need, checked, ordered, atomic, Instr.wf]
theorem RoundTrip.retv : ∀ y a, RoundTrip.Statement (.retv y a) := by
  intro y a _ h
  simp_all [encodeWord, parse, parseControl, zero, three, named, need, checked, ordered, atomic, Instr.wf]
theorem RoundTrip.exit : ∀ y, RoundTrip.Statement (.exit y) := by
  intro y _ h
  simp_all [encodeWord, parse, parseControl, zero, three, named, need, checked, ordered, atomic, Instr.wf]
theorem RoundTrip.loop : ∀ y a o, RoundTrip.Statement (.loop y a o) := by
  intro y a o _ h
  simp_all [encodeWord, parse, parseControl, zero, three, named, need, checked, ordered, atomic, Instr.wf]
theorem RoundTrip.elect : ∀ y d, RoundTrip.Statement (.elect y d) := by
  intro y d _ h
  simp_all [encodeWord, parse, parseControl, zero, three, named, need, checked, ordered, atomic, Instr.wf]
theorem RoundTrip.ballot : ∀ y d a, RoundTrip.Statement (.ballot y d a) := by
  intro y d a _ h
  simp_all [encodeWord, parse, parseControl, zero, three, named, need, checked, ordered, atomic, Instr.wf]
theorem RoundTrip.voteAny : ∀ y d a, RoundTrip.Statement (.voteAny y d a) := by
  intro y d a _ h
  simp_all [encodeWord, parse, parseControl, zero, three, named, need, checked, ordered, atomic, Instr.wf]
theorem RoundTrip.voteAll : ∀ y d a, RoundTrip.Statement (.voteAll y d a) := by
  intro y d a _ h
  simp_all [encodeWord, parse, parseControl, zero, three, named, need, checked, ordered, atomic, Instr.wf]
theorem RoundTrip.active : ∀ y d, RoundTrip.Statement (.active y d) := by
  intro y d _ h
  simp_all [encodeWord, parse, parseControl, zero, three, named, need, checked, ordered, atomic, Instr.wf]
theorem RoundTrip.pmovs : ∀ y d a, RoundTrip.Statement (.pmovs y d a) := by
  intro y d a _ h
  simp_all [encodeWord, parse, parseControl, zero, three, named, need, checked, ordered, atomic, Instr.wf]
theorem RoundTrip.smovp : ∀ y d a, RoundTrip.Statement (.smovp y d a) := by
  intro y d a _ h
  simp_all [encodeWord, parse, parseControl, zero, three, named, need, checked, ordered, atomic, Instr.wf]
theorem RoundTrip.pand : ∀ y d a b, RoundTrip.Statement (.pand y d a b) := by
  intro y d a b _ h
  simp_all [encodeWord, parse, parseControl, zero, three, named, need, checked, ordered, atomic, Instr.wf]
theorem RoundTrip.por : ∀ y d a b, RoundTrip.Statement (.por y d a b) := by
  intro y d a b _ h
  simp_all [encodeWord, parse, parseControl, zero, three, named, need, checked, ordered, atomic, Instr.wf]
theorem RoundTrip.pxor : ∀ y d a b, RoundTrip.Statement (.pxor y d a b) := by
  intro y d a b _ h
  simp_all [encodeWord, parse, parseControl, zero, three, named, need, checked, ordered, atomic, Instr.wf]
theorem RoundTrip.pnot : ∀ y d a, RoundTrip.Statement (.pnot y d a) := by
  intro y d a _ h
  simp_all [encodeWord, parse, parseControl, zero, three, named, need, checked, ordered, atomic, Instr.wf]
theorem RoundTrip.pandn : ∀ y d a b, RoundTrip.Statement (.pandn y d a b) := by
  intro y d a b _ h
  simp_all [encodeWord, parse, parseControl, zero, three, named, need, checked, ordered, atomic, Instr.wf]
theorem RoundTrip.matchK : ∀ y d a, RoundTrip.Statement (.matchK y d a) := by
  intro y d a _ h
  simp_all [encodeWord, parse, parseControl, zero, three, named, need, checked, ordered, atomic, Instr.wf]
theorem RoundTrip.sadd : ∀ y d a b, RoundTrip.Statement (.sadd y d a b) := by
  intro y d a b _ h
  simp_all [encodeWord, parse, parseUniform, zero, three, named, need, checked, ordered, atomic, Instr.wf]
theorem RoundTrip.ssub : ∀ y d a b, RoundTrip.Statement (.ssub y d a b) := by
  intro y d a b _ h
  simp_all [encodeWord, parse, parseUniform, zero, three, named, need, checked, ordered, atomic, Instr.wf]
theorem RoundTrip.sand : ∀ y d a b, RoundTrip.Statement (.sand y d a b) := by
  intro y d a b _ h
  simp_all [encodeWord, parse, parseUniform, zero, three, named, need, checked, ordered, atomic, Instr.wf]
theorem RoundTrip.sor : ∀ y d a b, RoundTrip.Statement (.sor y d a b) := by
  intro y d a b _ h
  simp_all [encodeWord, parse, parseUniform, zero, three, named, need, checked, ordered, atomic, Instr.wf]
theorem RoundTrip.sxor : ∀ y d a b, RoundTrip.Statement (.sxor y d a b) := by
  intro y d a b _ h
  simp_all [encodeWord, parse, parseUniform, zero, three, named, need, checked, ordered, atomic, Instr.wf]
theorem RoundTrip.sandn : ∀ y d a b, RoundTrip.Statement (.sandn y d a b) := by
  intro y d a b _ h
  simp_all [encodeWord, parse, parseUniform, zero, three, named, need, checked, ordered, atomic, Instr.wf]
theorem RoundTrip.sshl : ∀ y d a b, RoundTrip.Statement (.sshl y d a b) := by
  intro y d a b _ h
  simp_all [encodeWord, parse, parseUniform, zero, three, named, need, checked, ordered, atomic, Instr.wf]
theorem RoundTrip.sshr : ∀ y d a b, RoundTrip.Statement (.sshr y d a b) := by
  intro y d a b _ h
  simp_all [encodeWord, parse, parseUniform, zero, three, named, need, checked, ordered, atomic, Instr.wf]
theorem RoundTrip.ssra : ∀ y d a b, RoundTrip.Statement (.ssra y d a b) := by
  intro y d a b _ h
  simp_all [encodeWord, parse, parseUniform, zero, three, named, need, checked, ordered, atomic, Instr.wf]
theorem RoundTrip.smin : ∀ y d a b, RoundTrip.Statement (.smin y d a b) := by
  intro y d a b _ h
  simp_all [encodeWord, parse, parseUniform, zero, three, named, need, checked, ordered, atomic, Instr.wf]
theorem RoundTrip.smax : ∀ y d a b, RoundTrip.Statement (.smax y d a b) := by
  intro y d a b _ h
  simp_all [encodeWord, parse, parseUniform, zero, three, named, need, checked, ordered, atomic, Instr.wf]
theorem RoundTrip.sminn : ∀ y d a b, RoundTrip.Statement (.sminn y d a b) := by
  intro y d a b _ h
  simp_all [encodeWord, parse, parseUniform, zero, three, named, need, checked, ordered, atomic, Instr.wf]
theorem RoundTrip.smaxn : ∀ y d a b, RoundTrip.Statement (.smaxn y d a b) := by
  intro y d a b _ h
  simp_all [encodeWord, parse, parseUniform, zero, three, named, need, checked, ordered, atomic, Instr.wf]
theorem RoundTrip.smul : ∀ y d a b, RoundTrip.Statement (.smul y d a b) := by
  intro y d a b _ h
  simp_all [encodeWord, parse, parseUniform, zero, three, named, need, checked, ordered, atomic, Instr.wf]
theorem RoundTrip.smulh : ∀ y d a b, RoundTrip.Statement (.smulh y d a b) := by
  intro y d a b _ h
  simp_all [encodeWord, parse, parseUniform, zero, three, named, need, checked, ordered, atomic, Instr.wf]
theorem RoundTrip.smulhn : ∀ y d a b, RoundTrip.Statement (.smulhn y d a b) := by
  intro y d a b _ h
  simp_all [encodeWord, parse, parseUniform, zero, three, named, need, checked, ordered, atomic, Instr.wf]
theorem RoundTrip.scmp : ∀ y k d a b, RoundTrip.Statement (.scmp y k d a b) := by
  intro y k d a b _ h
  simp_all [encodeWord, parse, parseUniform, zero, three, named, need, checked, ordered, atomic, Instr.wf]
theorem RoundTrip.ssel : ∀ y d a b c, RoundTrip.Statement (.ssel y d a b c) := by
  intro y d a b c _ h
  simp_all [encodeWord, parse, parseUniform, zero, three, named, need, checked, ordered, atomic, Instr.wf]
theorem RoundTrip.sseti : ∀ y d i, RoundTrip.Statement (.sseti y d i) := by
  intro y d i _ h
  simp_all [encodeWord, parse, parseUniform, zero, three, named, need, checked, ordered, atomic, Instr.wf]
theorem RoundTrip.sseth : ∀ y d i, RoundTrip.Statement (.sseth y d i) := by
  intro y d i _ h
  simp_all [encodeWord, parse, parseUniform, zero, three, named, need, checked, ordered, atomic, Instr.wf]
theorem RoundTrip.saddi : ∀ y d i, RoundTrip.Statement (.saddi y d i) := by
  intro y d i _ h
  simp_all [encodeWord, parse, parseUniform, zero, three, named, need, checked, ordered, atomic, Instr.wf]
theorem RoundTrip.sadd64 : ∀ y d a b, RoundTrip.Statement (.sadd64 y d a b) := by
  intro y d a b _ h
  simp_all [encodeWord, parse, parseUniform, zero, three, named, need, checked, ordered, atomic, Instr.wf]
theorem RoundTrip.ssub64 : ∀ y d a b, RoundTrip.Statement (.ssub64 y d a b) := by
  intro y d a b _ h
  simp_all [encodeWord, parse, parseUniform, zero, three, named, need, checked, ordered, atomic, Instr.wf]
theorem RoundTrip.slea : ∀ y k d a b, RoundTrip.Statement (.slea y k d a b) := by
  intro y k d a b _ h
  simp_all [encodeWord, parse, parseUniform, zero, three, named, need, checked, ordered, atomic, Instr.wf]
theorem RoundTrip.sdiv : ∀ y d a b, RoundTrip.Statement (.sdiv y d a b) := by
  intro y d a b _ h
  simp_all [encodeWord, parse, parseUniform, zero, three, named, need, checked, ordered, atomic, Instr.wf]
theorem RoundTrip.sdivn : ∀ y d a b, RoundTrip.Statement (.sdivn y d a b) := by
  intro y d a b _ h
  simp_all [encodeWord, parse, parseUniform, zero, three, named, need, checked, ordered, atomic, Instr.wf]
theorem RoundTrip.srem : ∀ y d a b, RoundTrip.Statement (.srem y d a b) := by
  intro y d a b _ h
  simp_all [encodeWord, parse, parseUniform, zero, three, named, need, checked, ordered, atomic, Instr.wf]
theorem RoundTrip.sremn : ∀ y d a b, RoundTrip.Statement (.sremn y d a b) := by
  intro y d a b _ h
  simp_all [encodeWord, parse, parseUniform, zero, three, named, need, checked, ordered, atomic, Instr.wf]
theorem RoundTrip.spopc : ∀ y d a, RoundTrip.Statement (.spopc y d a) := by
  intro y d a _ h
  simp_all [encodeWord, parse, parseUniform, zero, three, named, need, checked, ordered, atomic, Instr.wf]
theorem RoundTrip.sclz : ∀ y d a, RoundTrip.Statement (.sclz y d a) := by
  intro y d a _ h
  simp_all [encodeWord, parse, parseUniform, zero, three, named, need, checked, ordered, atomic, Instr.wf]
theorem RoundTrip.sbrev : ∀ y d a, RoundTrip.Statement (.sbrev y d a) := by
  intro y d a _ h
  simp_all [encodeWord, parse, parseUniform, zero, three, named, need, checked, ordered, atomic, Instr.wf]
theorem RoundTrip.sbfx : ∀ y d a b, RoundTrip.Statement (.sbfx y d a b) := by
  intro y d a b _ h
  simp_all [encodeWord, parse, parseUniform, zero, three, named, need, checked, ordered, atomic, Instr.wf]
theorem RoundTrip.sbfxn : ∀ y d a b, RoundTrip.Statement (.sbfxn y d a b) := by
  intro y d a b _ h
  simp_all [encodeWord, parse, parseUniform, zero, three, named, need, checked, ordered, atomic, Instr.wf]
theorem RoundTrip.sbfi : ∀ y d a b c, RoundTrip.Statement (.sbfi y d a b c) := by
  intro y d a b c _ h
  simp_all [encodeWord, parse, parseUniform, zero, three, named, need, checked, ordered, atomic, Instr.wf]
theorem RoundTrip.smov : ∀ y d a, RoundTrip.Statement (.smov y d a) := by
  intro y d a _ h
  simp_all [encodeWord, parse, parseUniform, zero, three, named, need, checked, ordered, atomic, Instr.wf]
theorem RoundTrip.smovv : ∀ y d a b, RoundTrip.Statement (.smovv y d a b) := by
  intro y d a b _ h
  simp_all [encodeWord, parse, parseUniform, zero, three, named, need, checked, ordered, atomic, Instr.wf]
theorem RoundTrip.srdsr : ∀ y d j n, RoundTrip.Statement (.srdsr y d j n) := by
  intro y d j n _ h
  simp_all [encodeWord, parse, parseUniform, zero, three, named, need, checked, ordered, atomic, Instr.wf]
theorem RoundTrip.vadd : ∀ y d a b, RoundTrip.Statement (.vadd y d a b) := by
  intro y d a b _ h
  simp_all [encodeWord, parse, parseVector, zero, three, named, need, checked, ordered, atomic, Instr.wf]
theorem RoundTrip.vsub : ∀ y d a b, RoundTrip.Statement (.vsub y d a b) := by
  intro y d a b _ h
  simp_all [encodeWord, parse, parseVector, zero, three, named, need, checked, ordered, atomic, Instr.wf]
theorem RoundTrip.vmul : ∀ y d a b, RoundTrip.Statement (.vmul y d a b) := by
  intro y d a b _ h
  simp_all [encodeWord, parse, parseVector, zero, three, named, need, checked, ordered, atomic, Instr.wf]
theorem RoundTrip.vmulh : ∀ y d a b, RoundTrip.Statement (.vmulh y d a b) := by
  intro y d a b _ h
  simp_all [encodeWord, parse, parseVector, zero, three, named, need, checked, ordered, atomic, Instr.wf]
theorem RoundTrip.vmulhn : ∀ y d a b, RoundTrip.Statement (.vmulhn y d a b) := by
  intro y d a b _ h
  simp_all [encodeWord, parse, parseVector, zero, three, named, need, checked, ordered, atomic, Instr.wf]
theorem RoundTrip.vmin : ∀ y d a b, RoundTrip.Statement (.vmin y d a b) := by
  intro y d a b _ h
  simp_all [encodeWord, parse, parseVector, zero, three, named, need, checked, ordered, atomic, Instr.wf]
theorem RoundTrip.vmax : ∀ y d a b, RoundTrip.Statement (.vmax y d a b) := by
  intro y d a b _ h
  simp_all [encodeWord, parse, parseVector, zero, three, named, need, checked, ordered, atomic, Instr.wf]
theorem RoundTrip.vminn : ∀ y d a b, RoundTrip.Statement (.vminn y d a b) := by
  intro y d a b _ h
  simp_all [encodeWord, parse, parseVector, zero, three, named, need, checked, ordered, atomic, Instr.wf]
theorem RoundTrip.vmaxn : ∀ y d a b, RoundTrip.Statement (.vmaxn y d a b) := by
  intro y d a b _ h
  simp_all [encodeWord, parse, parseVector, zero, three, named, need, checked, ordered, atomic, Instr.wf]
theorem RoundTrip.vand : ∀ y d a b, RoundTrip.Statement (.vand y d a b) := by
  intro y d a b _ h
  simp_all [encodeWord, parse, parseVector, zero, three, named, need, checked, ordered, atomic, Instr.wf]
theorem RoundTrip.vor : ∀ y d a b, RoundTrip.Statement (.vor y d a b) := by
  intro y d a b _ h
  simp_all [encodeWord, parse, parseVector, zero, three, named, need, checked, ordered, atomic, Instr.wf]
theorem RoundTrip.vxor : ∀ y d a b, RoundTrip.Statement (.vxor y d a b) := by
  intro y d a b _ h
  simp_all [encodeWord, parse, parseVector, zero, three, named, need, checked, ordered, atomic, Instr.wf]
theorem RoundTrip.vandn : ∀ y d a b, RoundTrip.Statement (.vandn y d a b) := by
  intro y d a b _ h
  simp_all [encodeWord, parse, parseVector, zero, three, named, need, checked, ordered, atomic, Instr.wf]
theorem RoundTrip.vshl : ∀ y d a b, RoundTrip.Statement (.vshl y d a b) := by
  intro y d a b _ h
  simp_all [encodeWord, parse, parseVector, zero, three, named, need, checked, ordered, atomic, Instr.wf]
theorem RoundTrip.vshr : ∀ y d a b, RoundTrip.Statement (.vshr y d a b) := by
  intro y d a b _ h
  simp_all [encodeWord, parse, parseVector, zero, three, named, need, checked, ordered, atomic, Instr.wf]
theorem RoundTrip.vsra : ∀ y d a b, RoundTrip.Statement (.vsra y d a b) := by
  intro y d a b _ h
  simp_all [encodeWord, parse, parseVector, zero, three, named, need, checked, ordered, atomic, Instr.wf]
theorem RoundTrip.vabs : ∀ y d a, RoundTrip.Statement (.vabs y d a) := by
  intro y d a _ h
  simp_all [encodeWord, parse, parseVector, zero, three, named, need, checked, ordered, atomic, Instr.wf]
theorem RoundTrip.vneg : ∀ y d a, RoundTrip.Statement (.vneg y d a) := by
  intro y d a _ h
  simp_all [encodeWord, parse, parseVector, zero, three, named, need, checked, ordered, atomic, Instr.wf]
theorem RoundTrip.vnot : ∀ y d a, RoundTrip.Statement (.vnot y d a) := by
  intro y d a _ h
  simp_all [encodeWord, parse, parseVector, zero, three, named, need, checked, ordered, atomic, Instr.wf]
theorem RoundTrip.vmad : ∀ y d a b c, RoundTrip.Statement (.vmad y d a b c) := by
  intro y d a b c _ h
  simp_all [encodeWord, parse, parseVector, zero, three, named, need, checked, ordered, atomic, Instr.wf]
theorem RoundTrip.vdot4 : ∀ y d a b c, RoundTrip.Statement (.vdot4 y d a b c) := by
  intro y d a b c _ h
  simp_all [encodeWord, parse, parseVector, zero, three, named, need, checked, ordered, atomic, Instr.wf]
theorem RoundTrip.log3 : ∀ y d a b c, RoundTrip.Statement (.log3 y d a b c) := by
  intro y d a b c _ h
  simp_all [encodeWord, parse, parseVector, zero, three, named, need, checked, ordered, atomic, Instr.wf]
theorem RoundTrip.vbfx : ∀ y d a b, RoundTrip.Statement (.vbfx y d a b) := by
  intro y d a b _ h
  simp_all [encodeWord, parse, parseVector, zero, three, named, need, checked, ordered, atomic, Instr.wf]
theorem RoundTrip.vbfxn : ∀ y d a b, RoundTrip.Statement (.vbfxn y d a b) := by
  intro y d a b _ h
  simp_all [encodeWord, parse, parseVector, zero, three, named, need, checked, ordered, atomic, Instr.wf]
theorem RoundTrip.vbfi : ∀ y d a b c, RoundTrip.Statement (.vbfi y d a b c) := by
  intro y d a b c _ h
  simp_all [encodeWord, parse, parseVector, zero, three, named, need, checked, ordered, atomic, Instr.wf]
theorem RoundTrip.vfsh : ∀ y d a b c, RoundTrip.Statement (.vfsh y d a b c) := by
  intro y d a b c _ h
  simp_all [encodeWord, parse, parseVector, zero, three, named, need, checked, ordered, atomic, Instr.wf]
theorem RoundTrip.vfshl : ∀ y d a b c, RoundTrip.Statement (.vfshl y d a b c) := by
  intro y d a b c _ h
  simp_all [encodeWord, parse, parseVector, zero, three, named, need, checked, ordered, atomic, Instr.wf]
theorem RoundTrip.vpopc : ∀ y d a, RoundTrip.Statement (.vpopc y d a) := by
  intro y d a _ h
  simp_all [encodeWord, parse, parseVector, zero, three, named, need, checked, ordered, atomic, Instr.wf]
theorem RoundTrip.vclz : ∀ y d a, RoundTrip.Statement (.vclz y d a) := by
  intro y d a _ h
  simp_all [encodeWord, parse, parseVector, zero, three, named, need, checked, ordered, atomic, Instr.wf]
theorem RoundTrip.vctz : ∀ y d a, RoundTrip.Statement (.vctz y d a) := by
  intro y d a _ h
  simp_all [encodeWord, parse, parseVector, zero, three, named, need, checked, ordered, atomic, Instr.wf]
theorem RoundTrip.vbrev : ∀ y d a, RoundTrip.Statement (.vbrev y d a) := by
  intro y d a _ h
  simp_all [encodeWord, parse, parseVector, zero, three, named, need, checked, ordered, atomic, Instr.wf]
theorem RoundTrip.vcmp : ∀ y k d a b, RoundTrip.Statement (.vcmp y k d a b) := by
  intro y k d a b _ h
  simp_all [encodeWord, parse, parseVector, zero, three, named, need, checked, ordered, atomic, Instr.wf]
theorem RoundTrip.vsel : ∀ y d a b c, RoundTrip.Statement (.vsel y d a b c) := by
  intro y d a b c _ h
  simp_all [encodeWord, parse, parseVector, zero, three, named, need, checked, ordered, atomic, Instr.wf]
theorem RoundTrip.vmov : ∀ y d a, RoundTrip.Statement (.vmov y d a) := by
  intro y d a _ h
  simp_all [encodeWord, parse, parseVector, zero, three, named, need, checked, ordered, atomic, Instr.wf]
theorem RoundTrip.vbcast : ∀ y d a t, RoundTrip.Statement (.vbcast y d a t) := by
  intro y d a t _ h
  simp_all [encodeWord, parse, parseVector, zero, three, named, need, checked, ordered, atomic, Instr.wf]
theorem RoundTrip.vlane : ∀ y d a b, RoundTrip.Statement (.vlane y d a b) := by
  intro y d a b _ h
  simp_all [encodeWord, parse, parseVector, zero, three, named, need, checked, ordered, atomic, Instr.wf]
theorem RoundTrip.vshfIdx : ∀ y d a b, RoundTrip.Statement (.vshfIdx y d a b) := by
  intro y d a b _ h
  simp_all [encodeWord, parse, parseVector, zero, three, named, need, checked, ordered, atomic, Instr.wf]
theorem RoundTrip.vshfUp : ∀ y d a b, RoundTrip.Statement (.vshfUp y d a b) := by
  intro y d a b _ h
  simp_all [encodeWord, parse, parseVector, zero, three, named, need, checked, ordered, atomic, Instr.wf]
theorem RoundTrip.vshfDn : ∀ y d a b, RoundTrip.Statement (.vshfDn y d a b) := by
  intro y d a b _ h
  simp_all [encodeWord, parse, parseVector, zero, three, named, need, checked, ordered, atomic, Instr.wf]
theorem RoundTrip.vshfXor : ∀ y d a b, RoundTrip.Statement (.vshfXor y d a b) := by
  intro y d a b _ h
  simp_all [encodeWord, parse, parseVector, zero, three, named, need, checked, ordered, atomic, Instr.wf]
theorem RoundTrip.vred : ∀ y k d a, RoundTrip.Statement (.vred y k d a) := by
  intro y k d a _ h
  simp_all [encodeWord, parse, parseVector, zero, three, named, need, checked, ordered, atomic, Instr.wf]
theorem RoundTrip.vscan : ∀ y e k d a, RoundTrip.Statement (.vscan y e k d a) := by
  intro y e k d a _ h
  simp_all [encodeWord, parse, parseVector, zero, three, named, need, checked, ordered, atomic, Instr.wf]
theorem RoundTrip.fadd : ∀ y d a b, RoundTrip.Statement (.fadd y d a b) := by
  intro y d a b _ h
  simp_all [encodeWord, parse, parseFloat, zero, three, named, need, checked, ordered, atomic, Instr.wf]
theorem RoundTrip.fsub : ∀ y d a b, RoundTrip.Statement (.fsub y d a b) := by
  intro y d a b _ h
  simp_all [encodeWord, parse, parseFloat, zero, three, named, need, checked, ordered, atomic, Instr.wf]
theorem RoundTrip.fmul : ∀ y d a b, RoundTrip.Statement (.fmul y d a b) := by
  intro y d a b _ h
  simp_all [encodeWord, parse, parseFloat, zero, three, named, need, checked, ordered, atomic, Instr.wf]
theorem RoundTrip.fmin : ∀ y d a b, RoundTrip.Statement (.fmin y d a b) := by
  intro y d a b _ h
  simp_all [encodeWord, parse, parseFloat, zero, three, named, need, checked, ordered, atomic, Instr.wf]
theorem RoundTrip.fmax : ∀ y d a b, RoundTrip.Statement (.fmax y d a b) := by
  intro y d a b _ h
  simp_all [encodeWord, parse, parseFloat, zero, three, named, need, checked, ordered, atomic, Instr.wf]
theorem RoundTrip.fabs : ∀ y d a, RoundTrip.Statement (.fabs y d a) := by
  intro y d a _ h
  simp_all [encodeWord, parse, parseFloat, zero, three, named, need, checked, ordered, atomic, Instr.wf]
theorem RoundTrip.fneg : ∀ y d a, RoundTrip.Statement (.fneg y d a) := by
  intro y d a _ h
  simp_all [encodeWord, parse, parseFloat, zero, three, named, need, checked, ordered, atomic, Instr.wf]
theorem RoundTrip.fcpsgn : ∀ y d a b, RoundTrip.Statement (.fcpsgn y d a b) := by
  intro y d a b _ h
  simp_all [encodeWord, parse, parseFloat, zero, three, named, need, checked, ordered, atomic, Instr.wf]
theorem RoundTrip.fma : ∀ y d a b c, RoundTrip.Statement (.fma y d a b c) := by
  intro y d a b c _ h
  simp_all [encodeWord, parse, parseFloat, zero, three, named, need, checked, ordered, atomic, Instr.wf]
theorem RoundTrip.fms : ∀ y d a b c, RoundTrip.Statement (.fms y d a b c) := by
  intro y d a b c _ h
  simp_all [encodeWord, parse, parseFloat, zero, three, named, need, checked, ordered, atomic, Instr.wf]
theorem RoundTrip.fnma : ∀ y d a b c, RoundTrip.Statement (.fnma y d a b c) := by
  intro y d a b c _ h
  simp_all [encodeWord, parse, parseFloat, zero, three, named, need, checked, ordered, atomic, Instr.wf]
theorem RoundTrip.fcmp : ∀ y k d a b, RoundTrip.Statement (.fcmp y k d a b) := by
  intro y k d a b _ h
  simp_all [encodeWord, parse, parseFloat, zero, three, named, need, checked, ordered, atomic, Instr.wf]
theorem RoundTrip.frcp : ∀ y d a, RoundTrip.Statement (.frcp y d a) := by
  intro y d a _ h
  simp_all [encodeWord, parse, parseFloat, zero, three, named, need, checked, ordered, atomic, Instr.wf]
theorem RoundTrip.frsq : ∀ y d a, RoundTrip.Statement (.frsq y d a) := by
  intro y d a _ h
  simp_all [encodeWord, parse, parseFloat, zero, three, named, need, checked, ordered, atomic, Instr.wf]
theorem RoundTrip.fsqrt : ∀ y d a, RoundTrip.Statement (.fsqrt y d a) := by
  intro y d a _ h
  simp_all [encodeWord, parse, parseFloat, zero, three, named, need, checked, ordered, atomic, Instr.wf]
theorem RoundTrip.fexp2 : ∀ y d a, RoundTrip.Statement (.fexp2 y d a) := by
  intro y d a _ h
  simp_all [encodeWord, parse, parseFloat, zero, three, named, need, checked, ordered, atomic, Instr.wf]
theorem RoundTrip.flog2 : ∀ y d a, RoundTrip.Statement (.flog2 y d a) := by
  intro y d a _ h
  simp_all [encodeWord, parse, parseFloat, zero, three, named, need, checked, ordered, atomic, Instr.wf]
theorem RoundTrip.fsin : ∀ y d a, RoundTrip.Statement (.fsin y d a) := by
  intro y d a _ h
  simp_all [encodeWord, parse, parseFloat, zero, three, named, need, checked, ordered, atomic, Instr.wf]
theorem RoundTrip.fcos : ∀ y d a, RoundTrip.Statement (.fcos y d a) := by
  intro y d a _ h
  simp_all [encodeWord, parse, parseFloat, zero, three, named, need, checked, ordered, atomic, Instr.wf]
theorem RoundTrip.ftanh : ∀ y d a, RoundTrip.Statement (.ftanh y d a) := by
  intro y d a _ h
  simp_all [encodeWord, parse, parseFloat, zero, three, named, need, checked, ordered, atomic, Instr.wf]
theorem RoundTrip.fsigm : ∀ y d a, RoundTrip.Statement (.fsigm y d a) := by
  intro y d a _ h
  simp_all [encodeWord, parse, parseFloat, zero, three, named, need, checked, ordered, atomic, Instr.wf]
theorem RoundTrip.fdiv : ∀ y d a b, RoundTrip.Statement (.fdiv y d a b) := by
  intro y d a b _ h
  simp_all [encodeWord, parse, parseFloat, zero, three, named, need, checked, ordered, atomic, Instr.wf]
theorem RoundTrip.fclass : ∀ y d a, RoundTrip.Statement (.fclass y d a) := by
  intro y d a _ h
  simp_all [encodeWord, parse, parseFloat, zero, three, named, need, checked, ordered, atomic, Instr.wf]
theorem RoundTrip.fscale : ∀ y d a b, RoundTrip.Statement (.fscale y d a b) := by
  intro y d a b _ h
  simp_all [encodeWord, parse, parseFloat, zero, three, named, need, checked, ordered, atomic, Instr.wf]
theorem RoundTrip.frint : ∀ y d a, RoundTrip.Statement (.frint y d a) := by
  intro y d a _ h
  simp_all [encodeWord, parse, parseFloat, zero, three, named, need, checked, ordered, atomic, Instr.wf]
theorem RoundTrip.ffrac : ∀ y d a, RoundTrip.Statement (.ffrac y d a) := by
  intro y d a _ h
  simp_all [encodeWord, parse, parseFloat, zero, three, named, need, checked, ordered, atomic, Instr.wf]
theorem RoundTrip.fdot2 : ∀ y d a b c, RoundTrip.Statement (.fdot2 y d a b c) := by
  intro y d a b c _ h
  simp_all [encodeWord, parse, parseFloat, zero, three, named, need, checked, ordered, atomic, Instr.wf]
theorem RoundTrip.cvt : ∀ y d a p t, RoundTrip.Statement (.cvt y d a p t) := by
  intro y d a p t _ h
  simp_all [encodeWord, parse, parseFloat, zero, three, named, need, checked, ordered, atomic, Instr.wf]
theorem RoundTrip.cvtn : ∀ y d a p t, RoundTrip.Statement (.cvtn y d a p t) := by
  intro y d a p t _ h
  simp_all [encodeWord, parse, parseFloat, zero, three, named, need, checked, ordered, atomic, Instr.wf]
theorem RoundTrip.cvtps : ∀ y d a b p, RoundTrip.Statement (.cvtps y d a b p) := by
  intro y d a b p _ h
  simp_all [encodeWord, parse, parseFloat, zero, three, named, need, checked, ordered, atomic, Instr.wf]
theorem RoundTrip.pack : ∀ y d a b t, RoundTrip.Statement (.pack y d a b t) := by
  intro y d a b t _ h
  simp_all [encodeWord, parse, parseFloat, zero, three, named, need, checked, ordered, atomic, Instr.wf]
theorem RoundTrip.unpk : ∀ y d a j, RoundTrip.Statement (.unpk y d a j) := by
  intro y d a j _ h
  simp_all [encodeWord, parse, parseFloat, zero, three, named, need, checked, ordered, atomic, Instr.wf]
theorem RoundTrip.tagset : ∀ y d t, RoundTrip.Statement (.tagset y d t) := by
  intro y d t _ h
  simp_all [encodeWord, parse, parseFloat, zero, three, named, need, checked, ordered, atomic, Instr.wf]
theorem RoundTrip.tagrd : ∀ y d a, RoundTrip.Statement (.tagrd y d a) := by
  intro y d a _ h
  simp_all [encodeWord, parse, parseFloat, zero, three, named, need, checked, ordered, atomic, Instr.wf]
theorem RoundTrip.ldg : ∀ y d b j q p, RoundTrip.Statement (.ldg y d b j q p) := by
  intro y d b j q p _ h
  simp_all [encodeWord, parse, parseMemory, zero, three, named, need, checked, ordered, atomic, Instr.wf]
theorem RoundTrip.stg : ∀ y d b j q p, RoundTrip.Statement (.stg y d b j q p) := by
  intro y d b j q p _ h
  simp_all [encodeWord, parse, parseMemory, zero, three, named, need, checked, ordered, atomic, Instr.wf]
theorem RoundTrip.ldt : ∀ y d b j q p, RoundTrip.Statement (.ldt y d b j q p) := by
  intro y d b j q p _ h
  simp_all [encodeWord, parse, parseMemory, zero, three, named, need, checked, ordered, atomic, Instr.wf]
theorem RoundTrip.stt : ∀ y d b j q p, RoundTrip.Statement (.stt y d b j q p) := by
  intro y d b j q p _ h
  simp_all [encodeWord, parse, parseMemory, zero, three, named, need, checked, ordered, atomic, Instr.wf]
theorem RoundTrip.ldk : ∀ y d b j q p, RoundTrip.Statement (.ldk y d b j q p) := by
  intro y d b j q p _ h
  simp_all [encodeWord, parse, parseMemory, zero, three, named, need, checked, ordered, atomic, Instr.wf]
theorem RoundTrip.stk : ∀ y d b j q p, RoundTrip.Statement (.stk y d b j q p) := by
  intro y d b j q p _ h
  simp_all [encodeWord, parse, parseMemory, zero, three, named, need, checked, ordered, atomic, Instr.wf]
theorem RoundTrip.ldgw : ∀ y d b j q p, RoundTrip.Statement (.ldgw y d b j q p) := by
  intro y d b j q p _ h
  simp_all [encodeWord, parse, parseMemory, zero, three, named, need, checked, ordered, atomic, Instr.wf]
theorem RoundTrip.stgw : ∀ y d b j q p, RoundTrip.Statement (.stgw y d b j q p) := by
  intro y d b j q p _ h
  simp_all [encodeWord, parse, parseMemory, zero, three, named, need, checked, ordered, atomic, Instr.wf]
theorem RoundTrip.pref : ∀ y l b j, RoundTrip.Statement (.pref y l b j) := by
  intro y l b j _ h
  simp_all [encodeWord, parse, parseMemory, zero, three, named, need, checked, ordered, atomic, Instr.wf]
theorem RoundTrip.waitc : ∀ y a k, RoundTrip.Statement (.waitc y a k) := by
  intro y a k _ h
  simp_all [encodeWord, parse, parseMemory, zero, three, named, need, checked, ordered, atomic, Instr.wf]
theorem RoundTrip.cvta : ∀ y d a t, RoundTrip.Statement (.cvta y d a t) := by
  intro y d a t _ h
  simp_all [encodeWord, parse, parseMemory, zero, three, named, need, checked, ordered, atomic, Instr.wf]
theorem RoundTrip.space : ∀ y d a, RoundTrip.Statement (.space y d a) := by
  intro y d a _ h
  simp_all [encodeWord, parse, parseMemory, zero, three, named, need, checked, ordered, atomic, Instr.wf]
theorem RoundTrip.flushl : ∀ y m b j p, RoundTrip.Statement (.flushl y m b j p) := by
  intro y m b j p _ h
  simp_all [encodeWord, parse, parseMemory, zero, three, named, need, checked, ordered, atomic, Instr.wf]
theorem RoundTrip.atom : ∀ y d b j k q, RoundTrip.Statement (.atom y d b j k q) := by
  intro y d b j k q _ h
  simp_all [encodeWord, parse, parseSync, zero, three, named, need, checked, ordered, atomic, Instr.wf]
theorem RoundTrip.atomu : ∀ y d b j k q, RoundTrip.Statement (.atomu y d b j k q) := by
  intro y d b j k q _ h
  simp_all [encodeWord, parse, parseSync, zero, three, named, need, checked, ordered, atomic, Instr.wf]
theorem RoundTrip.red : ∀ y d b j k q, RoundTrip.Statement (.red y d b j k q) := by
  intro y d b j k q _ h
  simp_all [encodeWord, parse, parseSync, zero, three, named, need, checked, ordered, atomic, Instr.wf]
theorem RoundTrip.lck : ∀ y d b j q, RoundTrip.Statement (.lck y d b j q) := by
  intro y d b j q _ h
  simp_all [encodeWord, parse, parseSync, zero, three, named, need, checked, ordered, atomic, Instr.wf]
theorem RoundTrip.ulck : ∀ y d b j q, RoundTrip.Statement (.ulck y d b j q) := by
  intro y d b j q _ h
  simp_all [encodeWord, parse, parseSync, zero, three, named, need, checked, ordered, atomic, Instr.wf]
theorem RoundTrip.lckq : ∀ y d b j q, RoundTrip.Statement (.lckq y d b j q) := by
  intro y d b j q _ h
  simp_all [encodeWord, parse, parseSync, zero, three, named, need, checked, ordered, atomic, Instr.wf]
theorem RoundTrip.fence : ∀ y q p, RoundTrip.Statement (.fence y q p) := by
  intro y q p _ h
  simp_all [encodeWord, parse, parseSync, zero, three, named, need, checked, ordered, atomic, Instr.wf]
theorem RoundTrip.bara : ∀ y d a l, RoundTrip.Statement (.bara y d a l) := by
  intro y d a l _ h
  simp_all [encodeWord, parse, parseSync, zero, three, named, need, checked, ordered, atomic, Instr.wf]
theorem RoundTrip.barw : ∀ y d a b l, RoundTrip.Statement (.barw y d a b l) := by
  intro y d a b l _ h
  simp_all [encodeWord, parse, parseSync, zero, three, named, need, checked, ordered, atomic, Instr.wf]
theorem RoundTrip.bar : ∀ y d a l, RoundTrip.Statement (.bar y d a l) := by
  intro y d a l _ h
  simp_all [encodeWord, parse, parseSync, zero, three, named, need, checked, ordered, atomic, Instr.wf]
theorem RoundTrip.barq : ∀ y d a l, RoundTrip.Statement (.barq y d a l) := by
  intro y d a l _ h
  simp_all [encodeWord, parse, parseSync, zero, three, named, need, checked, ordered, atomic, Instr.wf]
theorem RoundTrip.svdecl : ∀ y d a b, RoundTrip.Statement (.svdecl y d a b) := by
  intro y d a b _ h
  simp_all [encodeWord, parse, parseSync, zero, three, named, need, checked, ordered, atomic, Instr.wf]
theorem RoundTrip.svdrop : ∀ y d a, RoundTrip.Statement (.svdrop y d a) := by
  intro y d a _ h
  simp_all [encodeWord, parse, parseSync, zero, three, named, need, checked, ordered, atomic, Instr.wf]
theorem RoundTrip.grfl : ∀ y b j p, RoundTrip.Statement (.grfl y b j p) := by
  intro y b j p _ h
  simp_all [encodeWord, parse, parseSync, zero, three, named, need, checked, ordered, atomic, Instr.wf]
theorem RoundTrip.bload : ∀ y d a b n, RoundTrip.Statement (.bload y d a b n) := by
  intro y d a b n _ h
  simp_all [encodeWord, parse, parseMatrix, zero, three, named, need, checked, ordered, atomic, Instr.wf]
theorem RoundTrip.mma : ∀ y d a b z t, RoundTrip.Statement (.mma y d a b z t) := by
  intro y d a b z t _ h
  simp_all [encodeWord, parse, parseMatrix, zero, three, named, need, checked, ordered, atomic, Instr.wf]
theorem RoundTrip.mmap : ∀ y d a b z t, RoundTrip.Statement (.mmap y d a b z t) := by
  intro y d a b z t _ h
  simp_all [encodeWord, parse, parseMatrix, zero, three, named, need, checked, ordered, atomic, Instr.wf]
theorem RoundTrip.accz : ∀ y a, RoundTrip.Statement (.accz y a) := by
  intro y a _ h
  simp_all [encodeWord, parse, parseMatrix, zero, three, named, need, checked, ordered, atomic, Instr.wf]
theorem RoundTrip.accrd : ∀ y d a n t, RoundTrip.Statement (.accrd y d a n t) := by
  intro y d a n t _ h
  simp_all [encodeWord, parse, parseMatrix, zero, three, named, need, checked, ordered, atomic, Instr.wf]
theorem RoundTrip.accwr : ∀ y d a, RoundTrip.Statement (.accwr y d a) := by
  intro y d a _ h
  simp_all [encodeWord, parse, parseMatrix, zero, three, named, need, checked, ordered, atomic, Instr.wf]
theorem RoundTrip.accscl : ∀ y a b, RoundTrip.Statement (.accscl y a b) := by
  intro y a b _ h
  simp_all [encodeWord, parse, parseMatrix, zero, three, named, need, checked, ordered, atomic, Instr.wf]
theorem RoundTrip.rank : ∀ y d a b, RoundTrip.Statement (.rank y d a b) := by
  intro y d a b _ h
  simp_all [encodeWord, parse, parseMatrix, zero, three, named, need, checked, ordered, atomic, Instr.wf]
theorem RoundTrip.rkld : ∀ y a, RoundTrip.Statement (.rkld y a) := by
  intro y a _ h
  simp_all [encodeWord, parse, parseMatrix, zero, three, named, need, checked, ordered, atomic, Instr.wf]
theorem RoundTrip.mmar : ∀ y d a b p, RoundTrip.Statement (.mmar y d a b p) := by
  intro y d a b p _ h
  simp_all [encodeWord, parse, parseMatrix, zero, three, named, need, checked, ordered, atomic, Instr.wf]
theorem RoundTrip.rkval : ∀ y d a b, RoundTrip.Statement (.rkval y d a b) := by
  intro y d a b _ h
  simp_all [encodeWord, parse, parseMatrix, zero, three, named, need, checked, ordered, atomic, Instr.wf]
theorem RoundTrip.cpkick : ∀ y d a, RoundTrip.Statement (.cpkick y d a) := by
  intro y d a _ h
  simp_all [encodeWord, parse, parseUnits, zero, three, named, need, checked, ordered, atomic, Instr.wf]
theorem RoundTrip.waita : ∀ y d a b, RoundTrip.Statement (.waita y d a b) := by
  intro y d a b _ h
  simp_all [encodeWord, parse, parseUnits, zero, three, named, need, checked, ordered, atomic, Instr.wf]
theorem RoundTrip.blend : ∀ y d a, RoundTrip.Statement (.blend y d a) := by
  intro y d a _ h
  simp_all [encodeWord, parse, parseUnits, zero, three, named, need, checked, ordered, atomic, Instr.wf]
theorem RoundTrip.amsend : ∀ y d a b n, RoundTrip.Statement (.amsend y d a b n) := by
  intro y d a b n _ h
  simp_all [encodeWord, parse, parseUnits, zero, three, named, need, checked, ordered, atomic, Instr.wf]
theorem RoundTrip.stmc : ∀ y d b j q p, RoundTrip.Statement (.stmc y d b j q p) := by
  intro y d b j q p _ h
  simp_all [encodeWord, parse, parseUnits, zero, three, named, need, checked, ordered, atomic, Instr.wf]
theorem RoundTrip.ldred : ∀ y d b j q p, RoundTrip.Statement (.ldred y d b j q p) := by
  intro y d b j q p _ h
  simp_all [encodeWord, parse, parseUnits, zero, three, named, need, checked, ordered, atomic, Instr.wf]
theorem RoundTrip.fatom : ∀ y d b j k q, RoundTrip.Statement (.fatom y d b j k q) := by
  intro y d b j k q _ h
  simp_all [encodeWord, parse, parseUnits, zero, three, named, need, checked, ordered, atomic, Instr.wf]
theorem RoundTrip.sealPage : ∀ y d a, RoundTrip.Statement (.sealPage y d a) := by
  intro y d a _ h
  simp_all [encodeWord, parse, parseUnits, zero, three, named, need, checked, ordered, atomic, Instr.wf]
theorem RoundTrip.sealOpen : ∀ y d a, RoundTrip.Statement (.sealOpen y d a) := by
  intro y d a _ h
  simp_all [encodeWord, parse, parseUnits, zero, three, named, need, checked, ordered, atomic, Instr.wf]
theorem RoundTrip.vintrd : ∀ y d a, RoundTrip.Statement (.vintrd y d a) := by
  intro y d a _ h
  simp_all [encodeWord, parse, parseUnits, zero, three, named, need, checked, ordered, atomic, Instr.wf]
theorem RoundTrip.launch : ∀ y d a b, RoundTrip.Statement (.launch y d a b) := by
  intro y d a b _ h
  simp_all [encodeWord, parse, parseUnits, zero, three, named, need, checked, ordered, atomic, Instr.wf]
theorem RoundTrip.tilesig : ∀ y d a b p, RoundTrip.Statement (.tilesig y d a b p) := by
  intro y d a b p _ h
  simp_all [encodeWord, parse, parseUnits, zero, three, named, need, checked, ordered, atomic, Instr.wf]
theorem RoundTrip.tilew : ∀ y d a b p, RoundTrip.Statement (.tilew y d a b p) := by
  intro y d a b p _ h
  simp_all [encodeWord, parse, parseUnits, zero, three, named, need, checked, ordered, atomic, Instr.wf]
theorem RoundTrip.setmode : ∀ y a, RoundTrip.Statement (.setmode y a) := by
  intro y a _ h
  simp_all [encodeWord, parse, parseUnits, zero, three, named, need, checked, ordered, atomic, Instr.wf]
theorem RoundTrip.modef : ∀ y d a b, RoundTrip.Statement (.modef y d a b) := by
  intro y d a b _ h
  simp_all [encodeWord, parse, parseUnits, zero, three, named, need, checked, ordered, atomic, Instr.wf]
theorem RoundTrip.getmode : ∀ y d, RoundTrip.Statement (.getmode y d) := by
  intro y d _ h
  simp_all [encodeWord, parse, parseUnits, zero, three, named, need, checked, ordered, atomic, Instr.wf]
theorem RoundTrip.sysrd : ∀ y d n, RoundTrip.Statement (.sysrd y d n) := by
  intro y d n _ h
  simp_all [encodeWord, parse, parseUnits, zero, three, named, need, checked, ordered, atomic, Instr.wf]
theorem RoundTrip.syswr : ∀ y d n, RoundTrip.Statement (.syswr y d n) := by
  intro y d n _ h
  simp_all [encodeWord, parse, parseUnits, zero, three, named, need, checked, ordered, atomic, Instr.wf]
theorem RoundTrip.tlbinv : ∀ y a, RoundTrip.Statement (.tlbinv y a) := by
  intro y a _ h
  simp_all [encodeWord, parse, parseUnits, zero, three, named, need, checked, ordered, atomic, Instr.wf]
theorem RoundTrip.tlbinvAll : ∀ y, RoundTrip.Statement (.tlbinvAll y) := by
  intro y _ h
  simp_all [encodeWord, parse, parseUnits, zero, three, named, need, checked, ordered, atomic, Instr.wf]
theorem RoundTrip.ctxsv : ∀ y d a, RoundTrip.Statement (.ctxsv y d a) := by
  intro y d a _ h
  simp_all [encodeWord, parse, parseUnits, zero, three, named, need, checked, ordered, atomic, Instr.wf]
theorem RoundTrip.ctxld : ∀ y a, RoundTrip.Statement (.ctxld y a) := by
  intro y a _ h
  simp_all [encodeWord, parse, parseUnits, zero, three, named, need, checked, ordered, atomic, Instr.wf]
theorem RoundTrip.halt : ∀ y, RoundTrip.Statement (.halt y) := by
  intro y _ h
  simp_all [encodeWord, parse, parseUnits, zero, three, named, need, checked, ordered, atomic, Instr.wf]
theorem RoundTrip.sleep : ∀ y a, RoundTrip.Statement (.sleep y a) := by
  intro y a _ h
  simp_all [encodeWord, parse, parseUnits, zero, three, named, need, checked, ordered, atomic, Instr.wf]
theorem RoundTrip.trap : ∀ y n, RoundTrip.Statement (.trap y n) := by
  intro y n _ h
  simp_all [encodeWord, parse, parseUnits, zero, three, named, need, checked, ordered, atomic, Instr.wf]
theorem RoundTrip.rett : ∀ y, RoundTrip.Statement (.rett y) := by
  intro y _ h
  simp_all [encodeWord, parse, parseUnits, zero, three, named, need, checked, ordered, atomic, Instr.wf]
theorem RoundTrip.rettNext : ∀ y, RoundTrip.Statement (.rettNext y) := by
  intro y _ h
  simp_all [encodeWord, parse, parseUnits, zero, three, named, need, checked, ordered, atomic, Instr.wf]
theorem RoundTrip.rettKill : ∀ y, RoundTrip.Statement (.rettKill y) := by
  intro y _ h
  simp_all [encodeWord, parse, parseUnits, zero, three, named, need, checked, ordered, atomic, Instr.wf]
theorem RoundTrip.yield : ∀ y, RoundTrip.Statement (.yield y) := by
  intro y _ h
  simp_all [encodeWord, parse, parseUnits, zero, three, named, need, checked, ordered, atomic, Instr.wf]
theorem RoundTrip.brkpt : ∀ y n, RoundTrip.Statement (.brkpt y n) := by
  intro y n _ h
  simp_all [encodeWord, parse, parseUnits, zero, three, named, need, checked, ordered, atomic, Instr.wf]
theorem RoundTrip.emu : ∀ y d a b c, RoundTrip.Statement (.emu y d a b c) := by
  intro y d a b c _ h
  simp_all [encodeWord, parse, parseUnits, zero, three, named, need, checked, ordered, atomic, Instr.wf]
theorem RoundTrip.ill : ∀ y i, RoundTrip.Statement (.ill y i) := by
  intro y i _ h
  simp_all [encodeWord, parse, parseUnits, zero, three, named, need, checked, ordered, atomic, Instr.wf]
theorem RoundTrip.issueSlotGrant : ∀ x0 x1 x2, RoundTrip.Statement (.issueSlotGrant x0 x1 x2) := by intro x0 x1 x2 h; cases h
theorem RoundTrip.divergenceFill : ∀ x0, RoundTrip.Statement (.divergenceFill x0) := by intro x0 h; cases h
theorem RoundTrip.translationWalk : ∀ x0, RoundTrip.Statement (.translationWalk x0) := by intro x0 h; cases h
theorem RoundTrip.loadDataLanding : ∀ x0 x1 x2, RoundTrip.Statement (.loadDataLanding x0 x1 x2) := by intro x0 x1 x2 h; cases h
theorem RoundTrip.accessCompletion : ∀ x0 x1 x2, RoundTrip.Statement (.accessCompletion x0 x1 x2) := by intro x0 x1 x2 h; cases h
theorem RoundTrip.atomicExecute : ∀ x0 x1 x2, RoundTrip.Statement (.atomicExecute x0 x1 x2) := by intro x0 x1 x2 h; cases h
theorem RoundTrip.waitConditionMet : ∀ x0, RoundTrip.Statement (.waitConditionMet x0) := by intro x0 h; cases h
theorem RoundTrip.sleepExpiry : ∀ x0, RoundTrip.Statement (.sleepExpiry x0) := by intro x0 h; cases h
theorem RoundTrip.yieldExpiry : ∀ x0, RoundTrip.Statement (.yieldExpiry x0) := by intro x0 h; cases h
theorem RoundTrip.groupRetire : ∀ x0, RoundTrip.Statement (.groupRetire x0) := by intro x0 h; cases h
theorem RoundTrip.lockRequestArrival : ∀ x0, RoundTrip.Statement (.lockRequestArrival x0) := by intro x0 h; cases h
theorem RoundTrip.lockGrant : ∀ x0, RoundTrip.Statement (.lockGrant x0) := by intro x0 h; cases h
theorem RoundTrip.lockTimeout : ∀ x0, RoundTrip.Statement (.lockTimeout x0) := by intro x0 h; cases h
theorem RoundTrip.diffRecordApply : ∀ x0, RoundTrip.Statement (.diffRecordApply x0) := by intro x0 h; cases h
theorem RoundTrip.staleNotice : ∀ x0, RoundTrip.Statement (.staleNotice x0) := by intro x0 h; cases h
theorem RoundTrip.barrierPhaseComplete : ∀ x0, RoundTrip.Statement (.barrierPhaseComplete x0) := by intro x0 h; cases h
theorem RoundTrip.replicaPush : ∀ x0 x1, RoundTrip.Statement (.replicaPush x0 x1) := by intro x0 x1 h; cases h
theorem RoundTrip.pageMigration : ∀ x0 x1, RoundTrip.Statement (.pageMigration x0 x1) := by intro x0 x1 h; cases h
theorem RoundTrip.powerGate : ∀ x0 x1, RoundTrip.Statement (.powerGate x0 x1) := by intro x0 x1 h; cases h
theorem RoundTrip.hostSnoop : ∀ x0, RoundTrip.Statement (.hostSnoop x0) := by intro x0 h; cases h
theorem RoundTrip.hostMemoryAccess : ∀ x0 x1 x2, RoundTrip.Statement (.hostMemoryAccess x0 x1 x2) := by intro x0 x1 x2 h; cases h
theorem RoundTrip.matrixStart : ∀ x0, RoundTrip.Statement (.matrixStart x0) := by intro x0 h; cases h
theorem RoundTrip.matrixComplete : ∀ x0 x1, RoundTrip.Statement (.matrixComplete x0 x1) := by intro x0 x1 h; cases h
theorem RoundTrip.copyRequestAccept : ∀ x0 x1, RoundTrip.Statement (.copyRequestAccept x0 x1) := by intro x0 x1 h; cases h
theorem RoundTrip.arrivalUnitCount : ∀ x0 x1 x2, RoundTrip.Statement (.arrivalUnitCount x0 x1 x2) := by intro x0 x1 x2 h; cases h
theorem RoundTrip.waitaSatisfied : ∀ x0, RoundTrip.Statement (.waitaSatisfied x0) := by intro x0 h; cases h
theorem RoundTrip.blendInstance : ∀ x0 x1, RoundTrip.Statement (.blendInstance x0 x1) := by intro x0 x1 h; cases h
theorem RoundTrip.fabricRefusal : ∀ x0 x1 x2 x3, RoundTrip.Statement (.fabricRefusal x0 x1 x2 x3) := by intro x0 x1 x2 x3 h; cases h
theorem RoundTrip.messageEnqueue : ∀ x0 x1, RoundTrip.Statement (.messageEnqueue x0 x1) := by intro x0 x1 h; cases h
theorem RoundTrip.serviceGroupStart : ∀ x0 x1, RoundTrip.Statement (.serviceGroupStart x0 x1) := by intro x0 x1 h; cases h
theorem RoundTrip.tilewSatisfied : ∀ x0, RoundTrip.Statement (.tilewSatisfied x0) := by intro x0 h; cases h
theorem RoundTrip.preemptRequest : ∀ x0, RoundTrip.Statement (.preemptRequest x0) := by intro x0 h; cases h
theorem RoundTrip.preemptSave : ∀ x0, RoundTrip.Statement (.preemptSave x0) := by intro x0 h; cases h
theorem RoundTrip.preemptRestore : ∀ x0, RoundTrip.Statement (.preemptRestore x0) := by intro x0 h; cases h
theorem RoundTrip.resumeHalted : ∀ x0, RoundTrip.Statement (.resumeHalted x0) := by intro x0 h; cases h
theorem RoundTrip.timeSliceExpiry : ∀ x0 x1, RoundTrip.Statement (.timeSliceExpiry x0 x1) := by intro x0 x1 h; cases h
theorem RoundTrip.starvationSwap : ∀ x0 x1, RoundTrip.Statement (.starvationSwap x0 x1) := by intro x0 x1 h; cases h
theorem RoundTrip.swapReturn : ∀ x0, RoundTrip.Statement (.swapReturn x0) := by intro x0 h; cases h
theorem RoundTrip.throttleWindow : ∀ x0, RoundTrip.Statement (.throttleWindow x0) := by intro x0 h; cases h
theorem RoundTrip.linkStepUp : ∀ x0, RoundTrip.Statement (.linkStepUp x0) := by intro x0 h; cases h
theorem RoundTrip.linkStepDown : ∀ x0, RoundTrip.Statement (.linkStepDown x0) := by intro x0 h; cases h
theorem RoundTrip.flitErrorRetry : ∀ x0, RoundTrip.Statement (.flitErrorRetry x0) := by intro x0 h; cases h
theorem RoundTrip.flitLost : ∀ x0, RoundTrip.Statement (.flitLost x0) := by intro x0 h; cases h
theorem RoundTrip.eccCorrected : RoundTrip.Statement .eccCorrected := by intro h; cases h
theorem RoundTrip.eccUncorrectable : ∀ x0, RoundTrip.Statement (.eccUncorrectable x0) := by intro x0 h; cases h
theorem RoundTrip.agentRejoin : ∀ x0, RoundTrip.Statement (.agentRejoin x0) := by intro x0 h; cases h
theorem RoundTrip.reset : RoundTrip.Statement .reset := by intro h; cases h
theorem RoundTrip.selftestPass : ∀ x0, RoundTrip.Statement (.selftestPass x0) := by intro x0 h; cases h
theorem RoundTrip.selftestTimeout : RoundTrip.Statement .selftestTimeout := by intro h; cases h
theorem RoundTrip.linkTrained : ∀ x0, RoundTrip.Statement (.linkTrained x0) := by intro x0 h; cases h
theorem RoundTrip.linkTrainFail : ∀ x0, RoundTrip.Statement (.linkTrainFail x0) := by intro x0 h; cases h
theorem RoundTrip.firmwareVerified : ∀ x0, RoundTrip.Statement (.firmwareVerified x0) := by intro x0 h; cases h
theorem RoundTrip.partitionEnable : ∀ x0 x1, RoundTrip.Statement (.partitionEnable x0 x1) := by intro x0 x1 h; cases h
theorem RoundTrip.partitionTeardown : ∀ x0 x1, RoundTrip.Statement (.partitionTeardown x0 x1) := by intro x0 x1 h; cases h
theorem RoundTrip.plimitWrite : ∀ x0 x1, RoundTrip.Statement (.plimitWrite x0 x1) := by intro x0 x1 h; cases h
theorem RoundTrip.tbaseWrite : ∀ x0 x1, RoundTrip.Statement (.tbaseWrite x0 x1) := by intro x0 x1 h; cases h
theorem RoundTrip.qctlWrite : ∀ x0 x1 x2, RoundTrip.Statement (.qctlWrite x0 x1 x2) := by intro x0 x1 x2 h; cases h
theorem RoundTrip.pstatRecovClear : ∀ x0, RoundTrip.Statement (.pstatRecovClear x0) := by intro x0 h; cases h
theorem RoundTrip.registerWrite : ∀ x0 x1 x2, RoundTrip.Statement (.registerWrite x0 x1 x2) := by intro x0 x1 x2 h; cases h
theorem RoundTrip.launchCommand : ∀ x0 x1, RoundTrip.Statement (.launchCommand x0 x1) := by intro x0 x1 h; cases h
theorem RoundTrip.marker : ∀ x0 x1, RoundTrip.Statement (.marker x0 x1) := by intro x0 x1 h; cases h
theorem RoundTrip.enumCmd : ∀ x0 x1, RoundTrip.Statement (.enumCmd x0 x1) := by intro x0 x1 h; cases h
theorem RoundTrip.attest : ∀ x0 x1, RoundTrip.Statement (.attest x0 x1) := by intro x0 x1 h; cases h
theorem RoundTrip.fwload : ∀ x0 x1, RoundTrip.Statement (.fwload x0 x1) := by intro x0 x1 h; cases h
theorem RoundTrip.dependenceMet : ∀ x0 x1, RoundTrip.Statement (.dependenceMet x0 x1) := by intro x0 x1 h; cases h
theorem RoundTrip.commandSelect : ∀ x0, RoundTrip.Statement (.commandSelect x0) := by intro x0 h; cases h
theorem RoundTrip.clusterPlace : ∀ x0 x1, RoundTrip.Statement (.clusterPlace x0 x1) := by intro x0 x1 h; cases h
theorem RoundTrip.gridComplete : ∀ x0, RoundTrip.Statement (.gridComplete x0) := by intro x0 h; cases h
theorem RoundTrip.fabricAccessArrival : ∀ x0 x1 x2 x3, RoundTrip.Statement (.fabricAccessArrival x0 x1 x2 x3) := by intro x0 x1 x2 x3 h; cases h
theorem RoundTrip.retrainingComplete : ∀ x0 x1, RoundTrip.Statement (.retrainingComplete x0 x1) := by intro x0 x1 h; cases h

end Sys2Proof.Laws
end

