-- ==== Sys2Proof/Laws/Results.lean ====
section
/-! SUPPORT. What the results of register-only instructions leave in their registers: uniforms, pairs, predicates, vector
registers lane by lane and element by element, with the status flags (02 R31, 06 R91, 07 R117). -/

namespace Sys2Proof.Machine

set_option Elab.async false

/-! ### Lanes -/

theorem mem_lanesOf {w : Nat} {m : Mask} {l : Nat} : l ∈ lanesOf w m ↔ l < w ∧ m.getLsbD l = true := by
  simp [lanesOf]

theorem lanesOf_lt {w : Nat} {m : Mask} {l : Nat} (h : l ∈ lanesOf w m) : l < 64 := by
  by_contra hc
  have := (mem_lanesOf.mp h).2
  rw [BitVec.getLsbD_of_ge _ _ (by omega)] at this
  cases this

theorem lanesOf_nodup (w : Nat) (m : Mask) : (lanesOf w m).Nodup := List.nodup_range.filter _

/-- The names of the lanes a whole-lane write names. -/
theorem lanes_write (ls : List Nat) (b : Word) (f : Nat → Word) :
    (ls.map fun l => (⟨l, b, f l⟩ : LaneWrite)).map LaneWrite.lane = ls := by
  rw [List.map_map]
  exact (List.map_congr_left fun _ _ => rfl).trans (List.map_id ls)

/-- A write of lanes of a mask fits, whatever its bits and values. -/
theorem write_fits {w : Nat} {m : Mask} {d : Reg} {t : Option Tag} {b f : Nat → Word} :
    (Write.vec d t ((lanesOf w m).map fun l => ⟨l, b l, f l⟩)).Fits := by
  have e : ((lanesOf w m).map fun l => (⟨l, b l, f l⟩ : LaneWrite)).map LaneWrite.lane = lanesOf w m := by
    rw [List.map_map]
    exact (List.map_congr_left fun _ _ => rfl).trans (List.map_id _)
  refine ⟨by rw [e]; exact lanesOf_nodup w m, fun x hx => ?_⟩
  obtain ⟨l, hl, rfl⟩ := List.mem_map.mp hx
  exact lanesOf_lt hl

/-! ### Completion with results in a set of registers -/

theorem Group.KeepsRegisters.mono {g h : Group} {a b : List RegName} (k : g.KeepsRegisters h a) (hs : ∀ x ∈ a, x ∈ b) :
    g.KeepsRegisters h b := fun x hx => k x fun hc => hx (hs x hc)

theorem Frame.mono {s t : State} {r : GroupRef} {g h : Group} {a b : List RegName} {st : List Entry} {rets : List RetEntry}
    (f : Frame s t r g h a st rets) (hs : ∀ x ∈ a, x ∈ b) : Frame s t r g h b st rets :=
  ⟨f.device, f.others, f.slots, f.group, f.accesses, f.number, f.registers.mono hs, f.stack, f.returns⟩

/-- A register-only instruction completes with what its results show, its registers among `dests`. -/
theorem results_complete {i : Instr} {f : Ctx → Result} {s : State} {r : GroupRef} {g : Group} {run : Run} {e : Entry}
    {act : Mask} {ws : List (Nat × Write)} {dests : List RegName} {post : Group → Prop} (hx : exec i s = issueRegs i f s)
    (hs : s.Sound) (h : Issuing s r g run e act) (ha : act ≠ 0)
    (hf : f ⟨r, g, run, e, act, e.kind == .handler, encodeWord i⟩ = .ok ws)
    (hp : ws.Pairwise fun a b => a.2.Clear b.2 ∧ b.2.Clear a.2) (hd : ∀ x ∈ targetsOf ws, x ∈ dests)
    (post_of : ∀ k : Group, k.still = g.still → (∀ x ∈ ws, x.2.Fits → k.Shows x.2) →
      (∀ x ∈ ws, g.Quiet x.2.target → (targetsOf ws).count x.2.target = 1 → (g.write x.2).Agrees k x.2.target) →
      (∀ x, x ∉ targetsOf ws → g.Quiet x → g.Agrees k x) → post k) :
    Completes i s r g run e dests post := by
  obtain ⟨t, k, h1, h2, h3, h4, h5⟩ := issueRegs_goes hs h ha hf hp
  refine ⟨t, k, hx.trans h1, h2, h3.mono hd, post_of _ ((congrArg Group.still (Group.flush_lands k).group :).trans h3.group)
    h4 h5 fun x hx q => ?_⟩
  obtain ⟨a, b⟩ := h3.registers x hx q
  exact a.trans ((Group.flush_lands k).quiet x b).1

/-! ### Flags -/

/-- A result with the flags its elements raise: two writes that leave each other alone. -/
theorem withFlags_clear {lat : Nat} {w : Write} {f : FFlags} (hw : ∀ v, (w.Clear (.flags v)) ∧ (Write.flags v).Clear w) :
    (withFlags lat w f).Pairwise fun a b => a.2.Clear b.2 ∧ b.2.Clear a.2 := by
  unfold withFlags
  split <;> simp [hw]

theorem withFlags_mem (lat : Nat) (w : Write) (f : FFlags) : (lat, w) ∈ withFlags lat w f := by
  unfold withFlags
  split <;> simp

theorem withFlags_count {lat : Nat} {w : Write} {f : FFlags} (h : w.target ≠ .fstat) :
    (targetsOf (withFlags lat w f)).count w.target = 1 := by
  unfold withFlags
  split
  · simp [targetsOf]
  · have e : targetsOf [(lat, w), (lat, Write.flags f)] = [w.target, .fstat] := rfl
    rw [e, List.count_cons_self, List.count_eq_zero.mpr (by simpa using h)]

theorem withFlags_targets {lat : Nat} {w : Write} {f : FFlags} {x : RegName} (h : x ∈ targetsOf (withFlags lat w f)) :
    x ∈ [w.target, .fstat] := by
  revert h
  unfold withFlags
  split <;> (simp [targetsOf, Write.target]; try tauto)

/-- The status flags once a result with flags is written, when no others are in flight. -/
theorem withFlags_fstat {g k : Group} {lat : Nat} {w : Write} {f : FFlags} (hw : w.target ≠ .fstat)
    (h : ∀ x ∈ withFlags lat w f, g.Quiet x.2.target → (targetsOf (withFlags lat w f)).count x.2.target = 1 →
      (g.write x.2).Agrees k x.2.target)
    (hk : ∀ x, x ∉ targetsOf (withFlags lat w f) → g.Quiet x → g.Agrees k x) (q : g.Quiet .fstat) :
    k.fstat = g.fstat ||| f := by
  by_cases hf : f = 0
  · subst hf
    have e : targetsOf (withFlags lat w 0) = [w.target] := rfl
    have := hk .fstat (by rw [e]; simpa using hw.symm) q
    simpa [Group.Agrees] using this
  · have e : withFlags lat w f = [(lat, w), (lat, .flags f)] := if_neg hf
    have e' : targetsOf (withFlags lat w f) = [w.target, .fstat] := by rw [e]; rfl
    have := h (lat, .flags f) (by simp [e]) q (by
      rw [e']
      show List.count RegName.fstat _ = 1
      rw [List.count_cons_of_ne hw, List.count_cons_self, List.count_nil])
    simpa [Group.Agrees, Group.write, Write.target] using this

/-! ### Vector results -/

/-- The lanes of a register after a write to lanes of a mask. -/
theorem written_of {g k : Group} {act : Mask} {d : Reg} {tag : Tag} {f : Nat → Word}
    (h1 : k.Shows (.vec d (some tag) ((lanesOf g.w act).map fun l => ⟨l, BitVec.allOnes 32, f l⟩)))
    (h2 : g.Quiet (.vec d) → (g.write (.vec d (some tag) ((lanesOf g.w act).map fun l =>
      ⟨l, BitVec.allOnes 32, f l⟩))).Agrees k (.vec d)) : g.Written k act d tag f := by
  refine ⟨h1.1 tag rfl, fun l hl ha => ?_, fun q l hl => ?_⟩
  · have := h1.2 ⟨l, BitVec.allOnes 32, f l⟩ (List.mem_map.mpr ⟨l, mem_lanesOf.mpr ⟨hl, ha⟩, rfl⟩)
    dsimp only at this
    rwa [BitVec.and_allOnes, BitVec.and_allOnes] at this
  · have e : k.vreg d = _ := h2 q
    simp only [Group.lane]
    rw [e]
    show (Group.lane _ d l) = _
    rw [Group.write_lane, if_pos rfl, writeLanes_other]
    · intro x hx
      obtain ⟨m, hm, rfl⟩ := List.mem_map.mp hx
      intro c
      obtain ⟨a, b⟩ := mem_lanesOf.mp hm
      subst c
      rw [hl a] at b
      cases b

/-- A vector result completes. -/
theorem vec_completes {i : Instr} {f : Ctx → Result} {s : State} {r : GroupRef} {g : Group} {run : Run} {e : Entry}
    {act : Mask} {lat : Nat} {d : Reg} {tag : Tag} {v : Nat → Word} (hx : exec i s = issueRegs i f s)
    (hs : s.Sound) (h : Issuing s r g run e act) (ha : act ≠ 0)
    (hf : f ⟨r, g, run, e, act, e.kind == .handler, encodeWord i⟩ =
      .ok [(lat, .vec d (some tag) ((lanesOf g.w act).map fun l => ⟨l, BitVec.allOnes 32, v l⟩))]) :
    Completes i s r g run e [.vec d] fun k => g.Written k act d tag v :=
  results_complete hx hs h ha hf (List.pairwise_singleton _ _) (fun _ hx => hx) fun k _ h1 h2 _ =>
    written_of (h1 _ (List.mem_singleton.mpr rfl) write_fits) fun q => h2 _ (List.mem_singleton.mpr rfl) q (by simp [targetsOf])

/-- A vector result with flags completes. -/
theorem vecFlags_completes {i : Instr} {f : Ctx → Result} {s : State} {r : GroupRef} {g : Group} {run : Run} {e : Entry}
    {act : Mask} {lat : Nat} {d : Reg} {tag : Tag} {v : Nat → Word} {fl : FFlags} (hx : exec i s = issueRegs i f s)
    (hs : s.Sound) (h : Issuing s r g run e act) (ha : act ≠ 0)
    (hf : f ⟨r, g, run, e, act, e.kind == .handler, encodeWord i⟩ =
      .ok (withFlags lat (.vec d (some tag) ((lanesOf g.w act).map fun l => ⟨l, BitVec.allOnes 32, v l⟩)) fl)) :
    Completes i s r g run e [.vec d, .fstat] fun k =>
      g.Written k act d tag v ∧ (g.Quiet .fstat → k.fstat = g.fstat ||| fl) :=
  results_complete hx hs h ha hf (withFlags_clear fun _ => ⟨trivial, trivial⟩) (fun _ hx => withFlags_targets hx)
    fun k _ h1 h2 h3 =>
    ⟨written_of (h1 _ (withFlags_mem _ _ _) write_fits) fun q => h2 _ (withFlags_mem _ _ _) q
      (withFlags_count (by simp [Write.target])), withFlags_fstat (by simp [Write.target]) h2 h3⟩

/-! ### Packed elements -/

theorem packBits_lt (w : Nat) (ns : List Nat) : packBits w ns < 2 ^ (w * ns.length) := by
  induction ns with
  | nil => simp [packBits]
  | cons n rest ih =>
    simp only [packBits, List.length_cons, Nat.mul_succ, Nat.pow_add]
    have h1 : n % 2 ^ w < 2 ^ w := Nat.mod_lt _ (Nat.two_pow_pos w)
    have h2 : packBits w rest + 1 ≤ 2 ^ (w * rest.length) := ih
    calc n % 2 ^ w + 2 ^ w * packBits w rest < 2 ^ w * (packBits w rest + 1) := by rw [Nat.mul_add]; omega
      _ ≤ 2 ^ w * 2 ^ (w * rest.length) := Nat.mul_le_mul_left _ h2
      _ = _ := by rw [Nat.mul_comm]

theorem packBits_elem (w : Nat) {ns : List Nat} {i : Nat} (h : i < ns.length) :
    packBits w ns / 2 ^ (w * i) % 2 ^ w = ns[i] % 2 ^ w := by
  induction ns generalizing i with
  | nil => cases h
  | cons n rest ih =>
    cases i with
    | zero => simp [packBits, Nat.add_mul_mod_self_left]
    | succ i =>
      have e : packBits w (n :: rest) / 2 ^ (w * (i + 1)) = packBits w rest / 2 ^ (w * i) := by
        rw [Nat.mul_succ, Nat.add_comm (w * i) w, Nat.pow_add, ← Nat.div_div_eq_div_mul]
        congr 1
        simp only [packBits]
        rw [Nat.add_mul_div_left _ _ (Nat.two_pow_pos w), Nat.div_eq_of_lt (Nat.mod_lt _ (Nat.two_pow_pos w)), Nat.zero_add]
      rw [e]
      simpa using ih (by simpa using h)

/-- Element i of a lane computed element by element. -/
theorem elemsOf_elem {w : Nat} (f : Nat → Nat × FFlags) {i : Nat} (hi : i < 32 / w) :
    elemBits w (elemsOf w f).1 i = (f i).1 % 2 ^ w := by
  have hn : w * (32 / w) ≤ 32 := Nat.mul_div_le 32 w
  have hl := packBits_lt w ((List.range (32 / w)).map fun i => (f i).1)
  have hb : packBits w ((List.range (32 / w)).map fun i => (f i).1) < 2 ^ 32 :=
    Nat.lt_of_lt_of_le hl (by simpa using Nat.pow_le_pow_right (by decide : 0 < 2) hn)
  simp only [elemBits, elemsOf, packWord, BitVec.toNat_ofNat, Nat.mod_eq_of_lt hb]
  rw [packBits_elem w (by simpa using hi)]
  simp

/-- A vector result computed element by element completes. -/
theorem elems_complete {i : Instr} {f : Ctx → Result} {s : State} {r : GroupRef} {g : Group} {run : Run} {e : Entry}
    {act : Mask} {lat : Nat} {d : Reg} {tag : Tag} {w : Nat} {v : Nat → Nat → Nat × FFlags} (hx : exec i s = issueRegs i f s)
    (hs : s.Sound) (h : Issuing s r g run e act) (ha : act ≠ 0)
    (hf : f ⟨r, g, run, e, act, e.kind == .handler, encodeWord i⟩ =
      .ok ((⟨r, g, run, e, act, e.kind == .handler, encodeWord i⟩ : Ctx).writeElems lat d tag w v)) :
    Completes i s r g run e [.vec d, .fstat] fun k => g.WrittenFloat k act d tag w v := by
  obtain ⟨t, k, h1, h2, h3, ⟨h4, h5, h6⟩, h7⟩ := vecFlags_completes hx hs h ha hf
  exact ⟨t, k, h1, h2, h3, ⟨h4, fun l hl hm j hj => by rw [h5 l hl hm]; exact elemsOf_elem _ hj, h6⟩, h7⟩

theorem orFlags_none {fs : List FFlags} (h : ∀ f ∈ fs, f = 0) : orFlags fs = 0 := by
  unfold orFlags
  induction fs with
  | nil => rfl
  | cons f rest ih =>
    rw [List.foldl_cons, h f (by simp)]
    exact ih fun x hx => h x (List.mem_cons_of_mem _ hx)

theorem elemsOf_none {w : Nat} {f : Nat → Nat × FFlags} (h : ∀ i, (f i).2 = 0) : (elemsOf w f).2 = 0 :=
  orFlags_none fun x hx => by obtain ⟨i, -, rfl⟩ := List.mem_map.mp hx; exact h i

/-- The same where no element raises a flag. -/
theorem exact_complete {i : Instr} {f : Ctx → Result} {s : State} {r : GroupRef} {g : Group} {run : Run} {e : Entry}
    {act : Mask} {lat : Nat} {d : Reg} {tag : Tag} {w : Nat} {v : Nat → Nat → Nat × FFlags} (hx : exec i s = issueRegs i f s)
    (hs : s.Sound) (h : Issuing s r g run e act) (ha : act ≠ 0)
    (hf : f ⟨r, g, run, e, act, e.kind == .handler, encodeWord i⟩ =
      .ok ((⟨r, g, run, e, act, e.kind == .handler, encodeWord i⟩ : Ctx).writeElems lat d tag w v))
    (hv : ∀ l i, (v l i).2 = 0) :
    Completes i s r g run e [.vec d] fun k => g.WrittenElems k act d tag w fun l j => (v l j).1 := by
  have h0 : orFlags ((lanesOf g.w act).map fun l => (elemsOf w (v l)).2) = 0 :=
    orFlags_none fun x hx => by obtain ⟨l, -, rfl⟩ := List.mem_map.mp hx; exact elemsOf_none (hv l)
  have hf' := hf
  unfold Ctx.writeElems Ctx.lanes at hf'
  rw [h0] at hf'
  obtain ⟨t, k, h1, h2, h3, h4, h5, h6⟩ := vec_completes hx hs h ha hf'
  exact ⟨t, k, h1, h2, h3, h4, fun l hl hm j hj => by rw [h5 l hl hm]; exact elemsOf_elem _ hj, h6⟩

theorem GoesTo.imp {i : Instr} {s : State} {r : GroupRef} {g : Group} {dests : List RegName} {st : List Entry}
    {rets : List RetEntry} {p q : Group → Prop} (h : GoesTo i s r g dests st rets p) (hi : ∀ k, p k → q k) :
    GoesTo i s r g dests st rets q := by
  obtain ⟨t, k, h1, h2, h3, h4⟩ := h
  exact ⟨t, k, h1, h2, h3, hi _ h4⟩

end Sys2Proof.Machine
end

