-- ==== Sys2Proof/Laws/SoundMem.lean ====
section
/-! SUPPORT. The invariant of states and groups is kept: memory, translation, coherence, reports, device accesses. -/

namespace Sys2Proof.Machine

set_option Elab.async false

/-! ### Mem -/

@[simp] theorem State.setTeam_sound {s : State} {t : Team} (hs : s.Sound) :
    (State.setTeam s t).Sound := by
  unfold State.setTeam
  try dsimp only
  repeat' split
  all_goals first
    | assumption
    | (simp [*]; done)
    | exact ⟨hs.1, hs.2, hs.3⟩

@[simp] theorem State.putTeamWord_sound {s : State} {k : TeamKey} {o : Nat} {w : Word} (hs : s.Sound) :
    (State.putTeamWord s k o w).Sound := by
  unfold State.putTeamWord
  try dsimp only
  repeat' split
  all_goals first
    | assumption
    | (simp [*]; done)
    | exact ⟨hs.1, hs.2, hs.3⟩

@[simp] theorem State.putTeamByte_sound {s : State} {k : TeamKey} {o : Nat} {b : BitVec 8} (hs : s.Sound) :
    (State.putTeamByte s k o b).Sound := by
  unfold State.putTeamByte
  try dsimp only
  repeat' split
  all_goals first
    | assumption
    | (simp [*]; done)
    | exact ⟨hs.1, hs.2, hs.3⟩

@[simp] theorem State.putTeamBytes_sound {s : State} {k : TeamKey} {bs : List (Nat × BitVec 8)} (hs : s.Sound) :
    (State.putTeamBytes s k bs).Sound := by
  induction bs generalizing s with
  | nil => exact hs
  | cons w rest ih => exact ih (State.putTeamByte_sound hs)

/-! ### Coherence -/

@[simp] theorem State.sendRuns_sound {s : State} {die : Fin 12} {part : Fin 12} {ga : Nat} {big : Bool} {evict : Bool} {runs : List (Nat × List Word)} (hs : s.Sound) :
    (State.sendRuns s die part ga big evict runs).Sound := by
  unfold State.sendRuns
  try dsimp only
  repeat' split
  all_goals first
    | assumption
    | (simp [*]; done)
    | exact ⟨hs.1, hs.2, hs.3⟩

@[simp] theorem State.sendDiff_sound {s : State} {die : Fin 12} {ga : Nat} {evict : Bool} (hs : s.Sound) :
    (State.sendDiff s die ga evict).Sound := by
  unfold State.sendDiff
  try dsimp only
  repeat' split
  all_goals first
    | assumption
    | (simp [*]; done)
    | exact ⟨hs.1, hs.2, hs.3⟩

@[simp] theorem State.evictTwin_sound {s : State} {die : Fin 12} {ga : Nat} (hs : s.Sound) :
    (State.evictTwin s die ga).Sound := by
  unfold State.evictTwin
  try dsimp only
  repeat' split
  all_goals first
    | assumption
    | (simp [*]; done)
    | exact ⟨hs.1, hs.2, hs.3⟩

@[simp] theorem State.fetchCopy_sound {s : State} {die part : Fin 12} {at_ : Attr} {pa : Nat} (hs : s.Sound) :
    (s.fetchCopy die part at_ pa).Sound := by
  have h := State.evictTwin_sound hs (die := die) (ga := granuleOf at_ pa)
  unfold State.fetchCopy
  dsimp only
  split
  · exact hs
  · exact ⟨h.1, h.2, h.3⟩

@[simp] theorem State.dropCid_sound {s : State} {cid : BitVec 12} (hs : s.Sound) : (s.dropCid cid).Sound := by
  have h : ((s.copies.filter fun x => x.2.cid == cid).foldl (fun s x => s.evictTwin x.1.1 x.1.2) s).Sound :=
    State.foldl_sound hs fun s x _ h => State.evictTwin_sound h
  unfold State.dropCid
  exact ⟨h.1, h.2, h.3⟩

@[simp] theorem State.trimSlice_sound {die : Fin 12} {slice : Nat} {room : Nat} {x3 : Nat} {x4 : State} (hx4 : x4.Sound) :
    (State.trimSlice die slice room x3 x4).Sound := by
  induction x3 generalizing x4 with
  | zero => exact hx4
  | succ k ih =>
    unfold State.trimSlice
    split
    · exact hx4
    · split
      · exact hx4
      · exact ih (State.evictTwin_sound hx4)

@[simp] theorem State.storeRemote_sound {s : State} {die : Fin 12} {part : Fin 12} {at_ : Attr} {pa : Nat} {w : Word} (hs : s.Sound) :
    (State.storeRemote s die part at_ pa w).Sound := by
  unfold State.storeRemote
  dsimp only
  have hf : (s.fetchCopy die part at_ pa).Sound := State.fetchCopy_sound hs
  split
  · have h := State.sendRuns_sound hs (die := die) (part := part) (ga := granuleOf at_ pa) (big := at_.big) (evict := true)
      (runs := [((pa - granuleOf at_ pa) / 4, [w])])
    exact ⟨h.1, h.2, h.3⟩
  · split
    · exact hf
    · split
      · exact ⟨hf.1, hf.2, hf.3⟩
      · have h := State.trimSlice_sound hf (die := die) (slice := sliceOf (granuleOf at_ pa))
          (room := s.cellShare die - 4 * granuleWords at_.big) (x3 := (s.fetchCopy die part at_ pa).twins.length)
        exact ⟨h.1, h.2, h.3⟩

@[simp] theorem State.bump_sound {s : State} {src : Fin 12} {ga : Nat} {cause : Nat} (hs : s.Sound) :
    (State.bump s src ga cause).Sound := by
  unfold State.bump
  try dsimp only
  repeat' split
  all_goals first
    | assumption
    | (simp [*]; done)
    | exact ⟨hs.1, hs.2, hs.3⟩

@[simp] theorem State.bumpOwn_sound {s : State} {src : Fin 12} {ga : Nat} (hs : s.Sound) :
    (State.bumpOwn s src ga).Sound := by
  unfold State.bumpOwn
  try dsimp only
  repeat' split
  all_goals first
    | assumption
    | (simp [*]; done)
    | exact ⟨hs.1, hs.2, hs.3⟩

@[simp] theorem State.putHome_sound {s : State} {pa : Nat} {w : Word} (hs : s.Sound) : (s.putHome pa w).Sound := by
  have h := State.putWord_sound hs (pa := pa) (w := w)
  exact ⟨h.1, h.2, h.3⟩

@[simp] theorem State.homeStore_sound {s : State} {at_ : Option Attr} {pa : Nat} {w : Word} (hs : s.Sound) :
    (s.homeStore at_ pa w).Sound := by
  unfold State.homeStore
  dsimp only
  split
  · exact State.bumpOwn_sound (State.putHome_sound hs)
  · exact State.putHome_sound hs

@[simp] theorem State.snoopRead_sound {s : State} {pa : Nat} (hs : s.Sound) : (s.snoopRead pa).Sound := by
  unfold State.snoopRead
  split
  · exact hs
  · exact ⟨hs.1, hs.2, hs.3⟩

@[simp] theorem State.loadWord_sound {s : State} {die : Fin 12} {part : Fin 12} {at_ : Attr} {pa : Nat} (hs : s.Sound) :
    (State.loadWord s die part at_ pa).1.Sound := by
  unfold State.loadWord
  dsimp only
  split
  · exact hs
  · split
    · exact State.fetchCopy_sound hs
    · exact State.snoopRead_sound hs

@[simp] theorem State.storeWord_sound {s : State} {die : Fin 12} {part : Fin 12} {at_ : Attr} {pa : Nat} {w : Word} (hs : s.Sound) :
    (State.storeWord s die part at_ pa w).Sound := by
  unfold State.storeWord
  split
  · exact State.strayStore_sound hs
  · split
    · exact State.storeRemote_sound hs
    · dsimp only
      split
      · exact State.bumpOwn_sound (State.putHome_sound hs)
      · exact State.putHome_sound hs

@[simp] theorem State.atomicStore_sound {s : State} {die : Fin 12} {at_ : Attr} {pa : Nat} {w : Word} (hs : s.Sound) :
    (State.atomicStore s die at_ pa w).Sound := by
  unfold State.atomicStore
  dsimp only
  split
  · exact State.putHome_sound hs
  · have h2 := State.bumpOwn_sound (State.putHome_sound hs (pa := pa) (w := w)) (src := die) (ga := granuleOf at_ pa)
    exact ⟨h2.1, h2.2, h2.3⟩

@[simp] theorem State.dieRelease_sound {s : State} {die : Fin 12} (hs : s.Sound) :
    (State.dieRelease s die).Sound := by
  unfold State.dieRelease
  dsimp only
  refine State.foldl_sound ?_ fun s x _ h => State.sendDiff_sound h
  exact ⟨hs.1, hs.2, hs.3⟩

@[simp] theorem State.processStale_sound {s : State} {die : Fin 12} (hs : s.Sound) :
    (State.processStale s die).Sound := by
  unfold State.processStale
  try dsimp only
  repeat' split
  all_goals first
    | assumption
    | (simp [*]; done)
    | exact ⟨hs.1, hs.2, hs.3⟩

@[simp] theorem State.acquire_sound {s : State} {die : Fin 12} {part : Fin 12} {p : Scope} (hs : s.Sound) :
    (State.acquire s die part p).Sound := by
  unfold State.acquire
  try dsimp only
  repeat' split
  all_goals first
    | assumption
    | (simp [*]; done)
    | exact ⟨hs.1, hs.2, hs.3⟩

@[simp] theorem State.enterSync_sound {s : State} {line : Nat} {mask : BitVec 12} {declared : Bool} {part : Fin 12} (hs : s.Sound) :
    (State.enterSync s line mask declared part).Sound := by
  unfold State.enterSync
  try dsimp only
  repeat' split
  all_goals first
    | assumption
    | (simp [*]; done)
    | exact ⟨hs.1, hs.2, hs.3⟩

@[simp] theorem State.widenSync_sound {s : State} {line : Nat} {mask : BitVec 12} {declared : Bool} (hs : s.Sound) :
    (State.widenSync s line mask declared).Sound := by
  unfold State.widenSync
  try dsimp only
  repeat' split
  all_goals first
    | assumption
    | (simp [*]; done)
    | exact ⟨hs.1, hs.2, hs.3⟩

@[simp] theorem State.addingSync_sound {s : State} {line : Nat} {mask : BitVec 12} (hs : s.Sound) :
    (s.addingSync line mask).Sound := ⟨hs.1, hs.2, hs.3⟩

/-! ### Report -/

@[simp] theorem State.setPart_sound {s : State} {p : Fin 12} {x2 : Partition} (hs : s.Sound) :
    (State.setPart s p x2).Sound := by
  unfold State.setPart
  try dsimp only
  repeat' split
  all_goals first
    | assumption
    | (simp [*]; done)
    | exact ⟨hs.1, hs.2, hs.3⟩

@[simp] theorem State.postEvent_sound {s : State} {p : Fin 12} {w0 : Nat} {grid : Nat} {addr : Addr} (hs : s.Sound) :
    (State.postEvent s p w0 grid addr).Sound := by
  unfold State.postEvent
  try dsimp only
  repeat' split
  all_goals first
    | assumption
    | (simp [*]; done)
    | exact ⟨hs.1, hs.2, hs.3⟩

@[simp] theorem State.postHalt_sound {s : State} {r : GroupRef} {g : Group} {pc : Addr} (hs : s.Sound) (hg : g.Sound) :
    (State.postHalt s r g pc).Sound := by
  unfold State.postHalt
  try dsimp only
  repeat' split
  all_goals first
    | assumption
    | (simp [*]; done)
    | exact ⟨hs.1, hs.2, hs.3⟩

@[simp] theorem State.postDeadlock_sound {s : State} {r : GroupRef} {g : Group} {ea : Addr} (hs : s.Sound) (hg : g.Sound) :
    (State.postDeadlock s r g ea).Sound := by
  unfold State.postDeadlock
  try dsimp only
  repeat' split
  all_goals first
    | assumption
    | (simp [*]; done)
    | exact ⟨hs.1, hs.2, hs.3⟩

@[simp] theorem State.postRecovery_sound {s : State} {p : Fin 12} {die : Nat} (hs : s.Sound) :
    (State.postRecovery s p die).Sound := by
  unfold State.postRecovery
  try dsimp only
  repeat' split
  all_goals first
    | assumption
    | (simp [*]; done)
    | exact ⟨hs.1, hs.2, hs.3⟩

@[simp] theorem State.postBadCrec_sound {s : State} {p : Fin 12} {queue : Nat} {seq : BitVec 16} {crec : Addr} (hs : s.Sound) :
    (State.postBadCrec s p queue seq crec).Sound := by
  unfold State.postBadCrec
  try dsimp only
  repeat' split
  all_goals first
    | assumption
    | (simp [*]; done)
    | exact ⟨hs.1, hs.2, hs.3⟩

/-! ### Device -/

@[simp] theorem State.devWritePa_sound {s : State} {p : Fin 12} {at_ : Option Attr} {pa : Nat} {w : Word} (hs : s.Sound) :
    (s.devWritePa p at_ pa w).Sound := by
  unfold State.devWritePa
  split
  · exact State.strayStore_sound hs
  · exact State.homeStore_sound hs

@[simp] theorem State.devWrite_sound {s : State} {p : Fin 12} {x : Place} {w : Word} (hs : s.Sound) :
    (s.devWrite p x w).Sound := by
  unfold State.devWrite
  repeat' split
  · exact State.devWritePa_sound hs
  · exact State.putTeamWord_sound hs
  · exact State.devWritePa_sound hs
  · exact hs
  · exact hs

@[simp] theorem State.devPoisonPa_sound {s : State} {p : Fin 12} {pa : Nat} (hs : s.Sound) : (s.devPoisonPa p pa).Sound := by
  unfold State.devPoisonPa
  split
  · exact hs
  · exact ⟨hs.1, hs.2, hs.3⟩

@[simp] theorem State.devPoison_sound {s : State} {p : Fin 12} {x : Place} (hs : s.Sound) : (s.devPoison p x).Sound := by
  unfold State.devPoison
  repeat' split
  · exact State.devPoisonPa_sound hs
  · exact State.setTeam_sound hs
  · exact hs
  · exact State.devPoisonPa_sound hs
  · exact hs
  · exact hs

@[simp] theorem State.seen_sound {s : State} {x : Place} {t : Trans} (hs : s.Sound) : (s.seen x t).Sound := by
  unfold State.seen
  repeat' split
  · exact State.snoopRead_sound (State.touched_sound hs)
  all_goals exact State.touched_sound hs

@[simp] theorem State.devSeen_sound {s : State} {tab : Nat → Fgt} {p : Fin 12} {va : Addr} {n : Nat} (hs : s.Sound) :
    (s.devSeen tab p va n).Sound := by
  unfold State.devSeen
  refine State.foldl_sound hs fun s i _ h => ?_
  split
  · exact h
  · exact State.seen_sound h

@[simp] theorem State.devFetch_sound {s : State} {p : Fin 12} {va : Addr} {n : Nat} (hs : s.Sound) :
    (s.devFetch p va n).1.Sound := State.devSeen_sound hs

@[simp] theorem State.devPut_sound {s : State} {p : Fin 12} {va : Addr} {w : Word} (hs : s.Sound) :
    (s.devPut p va w).Sound := by
  unfold State.devPut
  split
  · exact hs
  · exact State.devWrite_sound (State.touched_sound hs)

@[simp] theorem State.devPuts_sound {s : State} {p : Fin 12} {va : Addr} {ws : List Word} (hs : s.Sound) :
    (State.devPuts s p va ws).Sound := by
  unfold State.devPuts
  exact State.foldl_sound hs fun s x _ h => State.devPut_sound h

@[simp] theorem State.putRecord_sound {s : State} {p : Fin 12} {crec : Addr} {st : CStatus} {detail : Nat} {grid : Nat} {t : Option Termination} (hs : s.Sound) :
    (State.putRecord s p crec st detail grid t).Sound := by
  unfold State.putRecord
  try dsimp only
  repeat' split
  all_goals first
    | assumption
    | (simp [*]; done)
    | exact ⟨hs.1, hs.2, hs.3⟩

end Sys2Proof.Machine
end

