-- ==== Sys2Proof/Laws/SoundIssue.lean ====
section
/-! SUPPORT. The invariant of states and groups is kept: fetching, accesses at issue, control, system registers, images, locks, ordering. -/

namespace Sys2Proof.Machine

set_option Elab.async false

/-! ### Fetch -/

@[simp] theorem State.fetchTrap_sound {s : State} {r : GroupRef} {g : Group} {run : Run} {e : Entry} {c : Cause} {va : Addr} (hs : s.Sound) (hg : g.Sound) :
    (State.fetchTrap s r g run e c va).Sound := by
  unfold State.fetchTrap
  dsimp only
  refine State.afterDelivery_sound (State.freeSlots_sound hs) (Group.deliver_sound (Group.stopRun_sound ?_))
  exact ⟨hg.1, hg.2, hg.3⟩

@[simp] theorem State.settleCaches_sound {s : State} (hs : s.Sound) :
    (State.settleCaches s).Sound := by
  unfold State.settleCaches
  try dsimp only
  repeat' split
  all_goals first
    | assumption
    | (simp [*]; done)
    | exact ⟨hs.1, hs.2, hs.3⟩

@[simp] theorem State.advance_sound {s : State} (hs : s.Sound) :
    (State.advance s).Sound := by
  unfold State.advance
  try dsimp only
  repeat' split
  all_goals first
    | assumption
    | (simp [*]; done)
    | exact ⟨hs.1, hs.2, hs.3⟩

/-- A group that starts is sound: no results pending, MODE 0, predicates 0. -/
@[simp] theorem startGroup_sound {uid grid : Nat} {part : Fin 12} {d : Desc} {clu team idx gidx : Nat} {store : Addr}
    {debug reduced : Bool} : (startGroup uid grid part d clu team idx gidx store debug reduced).Sound := by
  refine ⟨PendingBefore.nil _, ?_, fun i => ?_⟩
  · show modeLegal 0 = true
    decide
  · simp [startGroup]

@[simp] theorem State.boot_sound {s : State} {w : Word} (hs : s.Sound) :
    (State.boot s w).Sound := by
  unfold State.boot
  dsimp only
  refine ⟨Memory.writeWord_wf _ _ hs.1, hs.groups_ok.put ?_, hs.3⟩
  have h := startGroup_sound (uid := s.nextId) (grid := s.nextGrid) (part := 0) (d := placedDesc) (clu := 0) (team := 0)
    (idx := 0) (gidx := 0) (store := 0x40000) (debug := false) (reduced := false)
  exact ⟨h.1, h.2, h.3⟩

@[simp] theorem State.placeWord_sound {s : State} {w : Word} (hs : s.Sound) :
    (State.placeWord s w).Sound := by
  unfold State.placeWord
  split
  · exact ⟨Memory.writeWord_wf _ _ hs.1, hs.2, hs.3⟩
  · exact State.boot_sound hs

/-! ### Access -/

@[simp] theorem Group.retire_sound {g : Group} (hg : g.Sound) :
    (Group.retire g).Sound := by
  unfold Group.retire
  try dsimp only
  repeat' split
  all_goals first
    | assumption
    | (simp [*]; done)
    | exact ⟨hs.1, hs.2, hs.3⟩

/-- Both outcomes of a hold are sound. -/
def Held.Sound : Held → Prop
  | .stays s => s.Sound
  | .goes s _ => s.Sound

theorem State.widened_sound {s : State} {d : Fin 12} {lines : List Nat} {a : Acq} (hs : s.Sound) :
    (s.widened d lines a).Sound := State.foldl_sound hs fun s x _ h => State.widenSync_sound h

@[simp] theorem State.enterLines_sound {s : State} {d : Fin 12} {named : Scope} {lines : List Nat} {part : Fin 12}
    (hs : s.Sound) : (s.enterLines d named lines part).Sound := by
  unfold State.enterLines
  split
  · exact State.foldl_sound hs fun s x _ h => State.addingSync_sound (State.enterSync_sound h)
  · exact hs

theorem State.tell_sound {s : State} {c : Ctx} {lines : List Nat} {a : Acq} {told dies : List (Fin 12)} (hs : s.Sound)
    (hc : c.g.Sound) : (s.tell c lines a told dies).Sound := by
  have h : (dies.foldl (fun s d => s.dieRelease d) s).Sound := State.foldl_sound hs fun s x _ hx => State.dieRelease_sound hx
  unfold State.tell
  dsimp only
  split
  · exact State.widened_sound h
  · exact State.setGroup_sound h ⟨hc.1, hc.2, hc.3⟩

theorem State.holdFor_sound {s : State} {c : Ctx} {q : Order} {named : Scope} {lines : List Nat} (hs : s.Sound)
    (hc : c.g.Sound) : (s.holdFor c q named lines).Sound := by
  unfold State.holdFor
  split
  · exact hs
  · split
    · split
      · exact hs
      · extract_lets more
        split
        · exact State.widened_sound hs
        · exact State.tell_sound hs hc
    · split
      · exact State.stall_sound hs hc
      · dsimp only
        split
        · exact State.enterLines_sound hs
        · exact State.tell_sound (State.enterLines_sound hs) hc

@[simp] theorem State.touchAll_sound {s : State} {ts : List Trans} {store : Bool} (hs : s.Sound) :
    (State.touchAll s ts store).Sound := by
  unfold State.touchAll
  exact State.foldl_sound hs fun s x _ h => State.touched_sound h

@[simp] theorem Group.addAccess_sound {g : Group} {a : Access} (hg : g.Sound) :
    (Group.addAccess g a).Sound := by
  unfold Group.addAccess
  try dsimp only
  repeat' split
  all_goals first
    | assumption
    | (simp [*]; done)
    | exact ⟨hs.1, hs.2, hs.3⟩

@[simp] theorem State.issueMem_sound {s : State} {c : Ctx} {q : MemReq} (hs : s.Sound) (hc : c.g.Sound) :
    (State.issueMem s c q).Sound := by
  have add (a : Access) : (c.g.addAccess a).SoundAt ((c.g.addAccess a).seq + 1) := ⟨hc.1.succ, hc.2, hc.3⟩
  unfold State.issueMem
  split
  · exact State.setGroup_sound hs ⟨hc.1, hc.2, hc.3⟩
  · dsimp only
    split
    · exact State.finish_sound hs hc.succ
    · split
      · exact State.stall_sound hs hc
      · split
        · exact hs
        · have h := State.holdFor_sound (q := q.order) (named := q.scope)
            (lines := if q.syncs = true then linesOf (q.accesses.map (·.1)) else []) hs hc
          split
          · rename_i t e
            rw [e] at h
            exact h
          · rename_i t p e
            rw [e] at h
            exact State.finish_sound (State.touchAll_sound h) (add _)

@[simp] theorem memory_sound {i : Instr} {s : State} {f : Ctx → MemReq} (hs : s.Sound) :
    OutSound (memory i s f) := by
  unfold memory
  refine State.withCtx_sound hs fun c hc => ?_
  split
  · exact State.finish_sound hs hc.succ
  · exact State.issueMem_sound hs hc

@[simp] theorem Group.setAccess_sound {g : Group} {a : Access} (hg : g.Sound) :
    (Group.setAccess g a).Sound := by
  unfold Group.setAccess
  try dsimp only
  repeat' split
  all_goals first
    | assumption
    | (simp [*]; done)
    | exact ⟨hs.1, hs.2, hs.3⟩

@[simp] theorem State.settleAcquire_sound {s : State} {r : GroupRef} {g : Group} {a : Access} (hs : s.Sound) (hg : g.Sound) :
    (State.settleAcquire s r g a).1.Sound := by
  unfold State.settleAcquire
  try dsimp only
  repeat' split
  all_goals first
    | assumption
    | (simp [*]; done)
    | exact ⟨hs.1, hs.2, hs.3⟩

@[simp] theorem State.moved_sound {s : State} {r : GroupRef} {g : Group} {a : Access} (hs : s.Sound) (hg : g.Sound) :
    (State.moved s r g a).Sound := by
  have h := State.settleAcquire_sound (r := r) (a := a) hs hg
  unfold State.moved
  dsimp only
  split
  · exact State.setGroup_sound h ⟨hg.1, hg.2, hg.3⟩
  · exact State.setGroup_sound h ⟨hg.1, hg.2, hg.3⟩

@[simp] theorem Group.markLoad_sound {g : Group} {a : Access} {l : LaneAcc} {cause : Cause} (hg : g.Sound) :
    (Group.markLoad g a l cause).Sound := by
  unfold Group.markLoad
  try dsimp only
  repeat' split
  all_goals first
    | assumption
    | (simp [*]; done)
    | exact ⟨hs.1, hs.2, hs.3⟩

theorem landWrites_legal (a : Access) (l : LaneAcc) (ws : List Word) : ∀ w ∈ landWrites a l ws, w.legal = true := by
  intro w hw
  unfold landWrites at hw
  split at hw
  · simp at hw
  · obtain ⟨x, _, rfl⟩ := List.mem_map.mp hw; rfl
  · obtain ⟨x, _, rfl⟩ := List.mem_map.mp hw; rfl

@[simp] theorem Group.landLane_sound {g : Group} {a : Access} {l : LaneAcc} (hg : g.Sound) :
    (Group.landLane g a l).Sound := by
  unfold Group.landLane
  split
  · split
    · exact hg
    · have h : ∀ (ws : List Write) (g : Group), g.Sound → (∀ w ∈ ws, w.legal = true) →
          (ws.foldl (fun g w => g.land a.id w) g).Sound := by
        intro ws
        induction ws with
        | nil => intro g h _; exact h
        | cons w t ih =>
          intro g h hw
          refine ih _ ?_ fun x hx => hw x (by simp [hx])
          exact (Group.land_soundAt _ _ _ h (hw w (by simp))).of (Group.land_seq _ _ _)
      dsimp only
      rename_i ws _ _
      have k := h (landWrites a l ws) g hg (landWrites_legal a l ws)
      exact ⟨k.1, k.2, k.3⟩
  · exact Group.markLoad_sound hg
  · exact Group.markLoad_sound hg
  · exact hg
  · exact hg

@[simp] theorem State.endByLanding_sound {s : State} {r : GroupRef} {g : Group} (hs : s.Sound) :
    (s.endByLanding r g).1.Sound := by
  unfold State.endByLanding
  split
  · exact State.endByMark_sound hs
  · exact hs

theorem State.endByLanding_keeps {s : State} {r : GroupRef} {g : Group} (hs : s.Sound) (hg : g.Sound) :
    (s.endByLanding r g).2.Sound := by
  unfold State.endByLanding
  split
  · have k := State.endByMark_keeps (r := r) hs hg
    exact k.2.1.of k.2.2
  · exact hg

@[simp] theorem State.landing_sound {s : State} {r : GroupRef} {n : Nat} {l : Nat} (hs : s.Sound) :
    (State.landing s r n l).Sound := by
  unfold State.landing
  split
  · exact hs
  · have hg := hs.group ‹_›
    split
    · exact hs
    · split
      · exact hs
      · split
        · exact State.moved_sound (State.endByLanding_sound hs) (State.endByLanding_keeps hs (Group.landLane_sound hg))
        · exact hs

/-! ### Memory -/

@[simp] theorem State.prefetch_sound {s : State} {c : Ctx} {x2 : Place × Option Trans} (hs : s.Sound) (hc : c.g.Sound) :
    (State.prefetch s c x2).Sound := by
  unfold State.prefetch
  try dsimp only
  repeat' split
  all_goals first
    | assumption
    | (simp [*]; done)
    | exact ⟨hs.1, hs.2, hs.3⟩

/-! ### Atomics -/

@[simp] theorem vectorAtomic_sound {i : Instr} {s : State} {d : Reg} {b : Reg} {j : Reg} {op : AtomOp} {q : Order} {n : Need} {dest : Ctx → Dest} {kind : Tag → AccKind} (hs : s.Sound) :
    OutSound (vectorAtomic i s d b j op q n dest kind) := by
  unfold vectorAtomic
  refine State.withCtx_sound hs fun c hc => ?_
  split
  · exact State.finish_sound hs hc.succ
  · split
    · exact State.trapAll_sound hs hc
    · exact State.issueMem_sound hs hc

/-! ### Control -/

theorem control_sound {i : Instr} {s : State} {k : Ctx → State} (hs : s.Sound) (hk : ∀ c, c.g.Sound → (k c).Sound) :
    OutSound (control i s k) := by
  unfold control
  refine State.withCtx_sound hs fun c hc => ?_
  split
  · exact State.finish_sound hs hc.succ
  · exact hk c hc

@[simp] theorem State.branch_sound {s : State} {c : Ctx} {g : Group} {taken : Bool} {o : BitVec 18} (hs : s.Sound)
    (hg : g.SoundAt (g.seq + 1)) : (s.branch c g taken o).Sound := State.finish_sound hs hg

@[simp] theorem Group.now_seq (g : Group) (c : Ctx) (w : Write) : (g.now c w).seq = g.seq := Group.land_seq g _ w
@[simp] theorem Group.now_soundAt {g : Group} {c : Ctx} {w : Write} {n : Nat} (hg : g.SoundAt n) (hw : w.legal = true) :
    (g.now c w).SoundAt n := Group.land_soundAt g _ w hg hw

@[simp] theorem State.restack_sound {s : State} {c : Ctx} {g : Group} {stack : List Entry} {rets : List RetEntry} {cont : Bool}
    (hs : s.Sound) (hc : c.g.Sound) (hg : g.SoundAt (g.seq + 1)) : (s.restack c g stack rets cont).Sound := by
  unfold State.restack
  split
  · exact State.finish_sound hs ⟨hg.1, hg.2, hg.3⟩
  · exact State.trapAll_sound hs hc

@[simp] theorem State.split_sound {s : State} {c : Ctx} {dest : Nat → Word} (hs : s.Sound) (hc : c.g.Sound) :
    (State.split s c dest).Sound := by
  unfold State.split
  split
  · exact State.finish_sound hs hc.succ
  · exact State.restack_sound hs hc hc.succ

@[simp] theorem State.callTo_sound {s : State} {c : Ctx} {target : Word} (hs : s.Sound) (hc : c.g.Sound) :
    (State.callTo s c target).Sound := by
  unfold State.callTo
  split
  · exact State.restack_sound hs hc hc.succ
  · exact State.finish_sound hs hc.succ

/-! ### System -/

@[simp] theorem Group.sysWrite_sound {g : Group} {n : SysReg} {lo : Word} {x3 : Addr} (hg : g.Sound) :
    (Group.sysWrite g n lo x3).Sound := by
  unfold Group.sysWrite
  try dsimp only
  repeat' split
  all_goals first
    | assumption
    | (simp [*]; done)
    | exact ⟨hs.1, hs.2, hs.3⟩

@[simp] theorem State.setMode_sound {s : State} {c : Ctx} {g : Group} {mode : Word} {ws : List (Nat × Write)} (hs : s.Sound)
    (hc : c.g.Sound) (hg : g.SoundAt (g.seq + 1)) (e : g.seq = c.g.seq) (hw : ∀ x ∈ ws, x.2.legal = true) :
    (s.setMode c g mode ws).Sound := by
  unfold State.setMode
  split
  · exact State.trapIllegal_sound hs hc
  · rename_i hm
    split
    · exact State.finish_sound hs hc.succ
    · refine State.finish_sound hs (Group.laters_soundAt _ _ _ hg ?_ ?_)
      · rw [Ctx.seq_eq, ← e]; exact Nat.lt_succ_self _
      · intro x hx
        rcases List.mem_append.mp hx with hx | hx
        · exact hw x hx
        · rw [List.mem_singleton.mp hx]
          exact (by simpa using hm : modeLegal mode = true)

@[simp] theorem Group.clearFlags_sound {g : Group} (hg : g.Sound) :
    (Group.clearFlags g).Sound := by
  unfold Group.clearFlags
  try dsimp only
  repeat' split
  all_goals first
    | assumption
    | (simp [*]; done)
    | exact ⟨hs.1, hs.2, hs.3⟩

@[simp] theorem State.haltGroup_sound {s : State} {c : Ctx} (hs : s.Sound) (hc : c.g.Sound) :
    (State.haltGroup s c).Sound := by
  have h : (s.finish c c.g .falls []).Sound := State.finish_sound hs hc.succ
  unfold State.haltGroup
  dsimp only
  split
  · exact h
  · rename_i g e
    have hg := Group.stopRun_sound (h.group e)
    refine State.postHalt_sound (State.setGroup_sound (State.writeArea_sound h) ?_) (h.group e)
    exact ⟨hg.1, hg.2, hg.3⟩

/-! ### Context -/

@[simp] theorem State.issueOnce_sound {s : State} {c : Ctx} {a : Access} (hs : s.Sound) (hc : c.g.Sound) :
    (State.issueOnce s c a).Sound := by
  unfold State.issueOnce
  split
  · exact State.stall_sound hs hc
  · exact State.finish_sound hs ⟨hc.1.succ, hc.2, hc.3⟩

@[simp] theorem State.dropTranslations_sound {s : State} {cid : BitVec 12} {va : Option Nat} (hs : s.Sound) :
    (State.dropTranslations s cid va).Sound := by
  unfold State.dropTranslations
  dsimp only
  refine ⟨hs.1, hs.groups_ok.map fun x hx => ?_, hs.3⟩
  split
  · exact ⟨hx.1, hx.2, hx.3⟩
  · exact hx

@[simp] theorem State.storePlaces_sound {s : State} {die : Fin 12} {part : Fin 12} {ps : List Place} {ws : List Word} (hs : s.Sound) :
    (State.storePlaces s die part ps ws).Sound := by
  unfold State.storePlaces
  refine State.foldl_sound hs fun s x _ h => ?_
  split
  · exact State.storeWord_sound h
  · exact h
  · exact h

@[simp] theorem State.loadPlace_sound {s : State} {die : Fin 12} {part : Fin 12} {p : Place} (hs : s.Sound) :
    (State.loadPlace s die part p).1.Sound := by
  unfold State.loadPlace
  try dsimp only
  repeat' split
  all_goals first
    | assumption
    | (simp [*]; done)
    | exact ⟨hs.1, hs.2, hs.3⟩

@[simp] theorem State.loadPlaces_sound {s : State} {die : Fin 12} {part : Fin 12} {x3 : List Place} (hs : s.Sound) :
    (State.loadPlaces s die part x3).1.Sound := by
  induction x3 generalizing s with
  | nil => exact hs
  | cons p rest ih =>
    unfold State.loadPlaces
    exact ih (State.loadPlace_sound hs)

theorem imageOp_sound {i : Instr} {s : State} {a : Reg} {n : Need} {f : Ctx → List Place → List Trans → State} (hs : s.Sound)
    (hf : ∀ c ps ts, c.g.Sound → (f c ps ts).Sound) : OutSound (imageOp i s a n f) := by
  unfold imageOp
  refine State.withCtx_sound hs fun c hc => ?_
  split
  · exact hs
  · dsimp only
    split
    · exact State.setGroup_sound hs ⟨hc.1, hc.2, hc.3⟩
    · exact State.trapAll_sound hs hc
    · split
      · exact hs
      · exact hf _ _ _ hc



/-- A loaded group is sound when the image holds no reserved MODE. -/
theorem loadImage_soundAt {g : Group} {im : List Word} {es rs : List (Nat × BitVec 128)} {n : Nat}
    (h : imageGood g im = true) : (loadImage g im es rs).SoundAt n := by
  refine ⟨?_, ?_, fun i => ?_⟩
  · simp only [loadImage]; exact PendingBefore.nil n
  · simp only [loadImage]
    simp only [imageGood, Bool.and_eq_true] at h
    exact h.1.1.1.1.1.1.1.1.1.1.1.1.2
  · simp only [loadImage, Fin.getElem_fin, Vector.getElem_ofFn]
    rw [BitVec.and_assoc, BitVec.and_not_self]; exact BitVec.and_zero

@[simp] theorem State.areaAt_sound {s : State} {g : Group} {l : List Nat} (hs : s.Sound) : (s.areaAt g l).1.Sound :=
  State.readSlots_sound hs

@[simp] theorem State.takeImage_sound {s : State} {c : Ctx} {im : List Word} (hs : s.Sound)
    (h : imageGood c.g im = true) : (s.takeImage c im).Sound := by
  unfold State.takeImage
  exact State.finish_sound (State.areaAt_sound (State.areaAt_sound (State.writeArea_sound hs))) (loadImage_soundAt h)

/-! ### Locks -/

@[simp] theorem State.setLock_sound {s : State} {k : Lock} (hs : s.Sound) :
    (State.setLock s k).Sound := by
  unfold State.setLock
  try dsimp only
  repeat' split
  all_goals first
    | assumption
    | (simp [*]; done)
    | exact ⟨hs.1, hs.2, hs.3⟩

@[simp] theorem State.wake_sound {s : State} {r : GroupRef} {g : Group} {ws : List Write} (hs : s.Sound) (hg : g.Sound)
    (hw : ∀ w ∈ ws, w.legal = true) : (s.wake r g ws).Sound := by
  have h : ∀ (ws : List Write) (g : Group), g.Sound → (∀ w ∈ ws, w.legal = true) →
      (ws.foldl (fun g w => g.land g.seq w) g).Sound := by
    intro ws
    induction ws with
    | nil => intro g h _; exact h
    | cons w t ih =>
      intro g h hw
      refine ih _ ?_ fun x hx => hw x (by simp [hx])
      exact (Group.land_soundAt _ _ _ h (hw w (by simp))).of (Group.land_seq _ _ _)
  exact State.endWait_sound hs (h ws g hg hw)

theorem Write.uni_legal {r : Reg} {v : Word} : ∀ w ∈ [Write.uni r v], w.legal = true := by
  intro w hw; rw [List.mem_singleton.mp hw]; rfl

@[simp] theorem State.refuseLock_sound {s : State} {u : Nat} {code : Nat} {count : Nat} (hs : s.Sound) :
    (State.refuseLock s u code count).Sound := by
  unfold State.refuseLock
  split
  · exact hs
  · have hg := hs.byUid ‹_›
    split
    · exact State.wake_sound hs hg Write.uni_legal
    · exact hs

@[simp] theorem State.giveLock_sound {s : State} {k : Lock} {u : Nat} (hs : s.Sound) :
    (State.giveLock s k u).Sound := by
  unfold State.giveLock
  split
  · exact hs
  · have hg := hs.byUid ‹_›
    split
    · extract_lets s1 s2
      have h1 : s1.Sound := State.setLock_sound hs
      have h2 : s2.Sound := by
        simp only [s2]
        split
        · exact State.acquire_sound h1
        · exact h1
      exact State.wake_sound h2 ⟨hg.1, hg.2, hg.3⟩ Write.uni_legal
    · exact hs

@[simp] theorem State.passLock_sound {s : State} {line : Nat} (hs : s.Sound) :
    (State.passLock s line).Sound := by
  unfold State.passLock
  try dsimp only
  repeat' split
  all_goals first
    | assumption
    | (simp [*]; done)
    | exact ⟨hs.1, hs.2, hs.3⟩

@[simp] theorem State.enqueueLock_sound {s : State} {k : Lock} {q : LockReq} (hs : s.Sound) :
    (State.enqueueLock s k q).Sound := by
  unfold State.enqueueLock
  split
  · exact State.refuseLock_sound hs
  · dsimp only
    split
    · exact State.setLock_sound hs
    · refine State.refuseLock_sound ?_
      split
      · exact State.postDeadlock_sound hs (hs.byUid ‹_›)
      · exact hs

@[simp] theorem State.lockTaken_sound {s : State} {q : LockReq} (hs : s.Sound) :
    (State.lockTaken s q).Sound := by
  unfold State.lockTaken
  split
  · exact hs
  · split
    · split
      · exact State.refuseLock_sound hs
      · exact State.giveLock_sound hs
    · split
      · exact hs
      · dsimp only
        split
        · exact State.giveLock_sound hs
        · split
          · exact hs
          · exact State.enqueueLock_sound hs

@[simp] theorem State.lockTried_sound {s : State} {q : LockReq} (hs : s.Sound) :
    (State.lockTried s q).Sound := by
  unfold State.lockTried
  try dsimp only
  repeat' split
  all_goals first
    | assumption
    | (simp [*]; done)
    | exact ⟨hs.1, hs.2, hs.3⟩

@[simp] theorem Group.unlocked_sound {g : Group} {line : Nat} (hg : g.Sound) :
    (Group.unlocked g line).Sound := by
  unfold Group.unlocked
  try dsimp only
  repeat' split
  all_goals first
    | assumption
    | (simp [*]; done)
    | exact ⟨hs.1, hs.2, hs.3⟩

@[simp] theorem State.lockReleased_sound {s : State} {q : LockReq} (hs : s.Sound) :
    (State.lockReleased s q).Sound := by
  unfold State.lockReleased
  extract_lets s1
  have h1 : s1.Sound := by
    refine ⟨hs.1, hs.groups_ok.map fun x hx => ?_, hs.3⟩
    split
    · exact ⟨hx.1, hx.2, hx.3⟩
    · exact hx
  split
  · exact h1
  · split
    · exact State.passLock_sound (State.setLock_sound h1)
    · exact h1

@[simp] theorem State.lockArrives_sound {s : State} {k : Nat} (hs : s.Sound) :
    (State.lockArrives s k).Sound := by
  unfold State.lockArrives
  try dsimp only
  repeat' split
  all_goals first
    | assumption
    | (simp [*]; done)
    | exact ⟨hs.1, hs.2, hs.3⟩

@[simp] theorem State.sendLock_sound {s : State} {q : LockReq} (hs : s.Sound) : (s.sendLock q).Sound := by
  unfold State.sendLock
  split
  · exact hs
  · exact ⟨hs.1, hs.2, hs.3⟩

theorem lockWordOp_sound {i : Instr} {s : State} {b j : Reg} {take : Bool}
    {f : Ctx → Addr → Nat → Attr → List Trans → State} (hs : s.Sound)
    (hf : ∀ c ea n at_ ts, c.g.Sound → (f c ea n at_ ts).Sound) : OutSound (lockWordOp i s b j take f) := by
  unfold lockWordOp
  refine State.withCtx_sound hs fun c hc => ?_
  split
  · exact State.finish_sound hs hc.succ
  · dsimp only
    split
    · exact State.setGroup_sound hs ⟨hc.1, hc.2, hc.3⟩
    · exact State.trapAll_sound hs hc
    · exact hf _ _ _ _ _ hc

@[simp] theorem requestLock_sound {kind : LockReqKind} {i : Instr} {s : State} {d : Reg} {b : Reg} {j : Reg} {q : Order} (hs : s.Sound) :
    OutSound (requestLock kind i s d b j q) := by
  unfold requestLock
  refine lockWordOp_sound hs fun c ea line at_ ts hc => ?_
  split
  · exact State.finish_sound hs ((Group.land_soundAt _ _ _ hc.succ rfl).of' (Group.land_seq _ _ _))
  · have h := State.holdFor_sound (q := q) (named := modeScope c.g.mode) (lines := [line]) hs hc
    split
    · rename_i t e
      rw [e] at h; exact h
    · rename_i t p e
      rw [e] at h
      have h1 := State.touchAll_sound (ts := ts) (store := false) h
      exact State.beginWait_sound (State.sendLock_sound h1) ⟨hc.1.succ, hc.2, hc.3⟩

/-! ### Ordering -/

@[simp] theorem State.arrive_sound {s : State} {g : Group} {b : BarRef} (hs : s.Sound) (hg : g.Sound) :
    (State.arrive s g b).Sound := by
  unfold State.arrive
  try dsimp only
  repeat' split
  all_goals first
    | assumption
    | (simp [*]; done)
    | exact ⟨hs.1, hs.2, hs.3⟩

@[simp] theorem State.arriveTimes_sound {g : Group} {b : BarRef} {n : Nat} {s : State} (hs : s.Sound) (hg : g.Sound) :
    (s.arriveTimes g b n).Sound := by
  induction n generalizing s with
  | zero => exact hs
  | succ n ih => exact ih (State.arrive_sound hs hg)

@[simp] theorem State.arriveNow_sound {s : State} {g : Group} {b : BarRef} (hs : s.Sound) (hg : g.Sound) :
    (s.arriveNow g b).Sound := State.arriveTimes_sound hs hg

@[simp] theorem State.recordAll_sound {s : State} {g : Group} (hs : s.Sound) (hg : g.Sound) : (s.recordAll g).Sound :=
  State.foldl_sound hs fun _ _ _ h => State.arrive_sound h hg

@[simp] theorem State.recordArrival_sound {s : State} {r : GroupRef} {n : Nat} (hs : s.Sound) :
    (s.recordArrival r n).Sound := by
  unfold State.recordArrival
  split
  · exact hs
  · have hg := hs.group ‹_›
    split
    · exact hs
    · split
      · exact hs
      · exact State.setGroup_sound (State.arrive_sound hs hg) ⟨hg.1, hg.2, hg.3⟩

@[simp] theorem Group.sendArrival_seq (g : Group) (n : Nat) (b : BarRef) : (g.sendArrival n b).seq = g.seq := by
  unfold Group.sendArrival; split <;> rfl

@[simp] theorem Group.sendArrival_soundAt {g : Group} {n k : Nat} {b : BarRef} (hg : g.SoundAt k) :
    (g.sendArrival n b).SoundAt k := by
  unfold Group.sendArrival
  split
  · exact hg
  · exact ⟨hg.1, hg.2, hg.3⟩

@[simp] theorem Group.arrivedAt_soundAt {g : Group} {k : Nat} {b : BarRef} (hg : g.SoundAt k) :
    (g.arrivedAt b).SoundAt k := ⟨hg.1, hg.2, hg.3⟩

theorem State.waitAhead_sound {s : State} {c : Ctx} {b : BarRef} (hs : s.Sound) (hc : c.g.Sound) : (s.waitAhead c b).Sound :=
  State.setGroup_sound (State.freeSlots_sound hs) ⟨hc.1, hc.2, hc.3⟩

theorem State.arriving_sound {s : State} {c : Ctx} {b : BarRef} {l : Level} {k : State → BitVec 16 → State} (hs : s.Sound)
    (hc : c.g.Sound) (hk : ∀ t ph, t.Sound → (k t ph).Sound) : (s.arriving c b l k).Sound := by
  have h := State.holdFor_sound (q := .rel) (named := s.barScope c.g l) (lines := []) hs hc
  unfold State.arriving
  split
  · rename_i t e
    rw [e] at h; exact h
  · rename_i t p e
    rw [e] at h
    split
    · exact State.waitAhead_sound h hc
    · exact hk _ _ h

theorem State.awaitPhase_sound {s : State} {c : Ctx} {g : Group} {d : Reg} {b : BarRef} {l : Level} {t : BitVec 16}
    (hs : s.Sound) (hg : g.SoundAt (g.seq + 1)) : (s.awaitPhase c g d b l t).Sound := by
  unfold State.awaitPhase
  split
  · refine State.finish_sound (State.acquire_sound hs) ((Group.land_soundAt (n := g.seq + 1) _ _ _ ?_ rfl).of' (Group.land_seq _ _ _))
    exact ⟨hg.1, hg.2, hg.3⟩
  · exact State.beginWait_sound hs hg

@[simp] theorem State.phaseDone_sound {s : State} {r : GroupRef} {b : BarRef} {fail : Bool} (hs : s.Sound) :
    (State.phaseDone s r b fail).Sound := by
  unfold State.phaseDone
  split
  · exact hs
  · have hg := hs.group ‹_›
    split
    · split
      · dsimp only
        refine State.wake_sound ?_ ⟨hg.1, hg.2, hg.3⟩ Write.uni_legal
        split
        · exact hs
        · exact State.acquire_sound hs
      · exact hs
    · exact hs

@[simp] theorem State.completePhase_sound {s : State} {b : BarRef} (hs : s.Sound) :
    (State.completePhase s b).Sound := by
  unfold State.completePhase
  split
  · exact hs
  · dsimp only
    split
    · exact hs
    · exact State.foldl_sound (State.setGrid_sound hs) fun s x _ h => State.phaseDone_sound h

@[simp] theorem State.declareStep_sound {s : State} {line : Nat} {mask : BitVec 12} {part : Fin 12} {l : LaneAcc} (hs : s.Sound) :
    (State.declareStep s line mask part l).1.Sound := by
  unfold State.declareStep
  split
  · split
    · exact hs
    · exact State.enterSync_sound hs
  · split
    · exact State.widenSync_sound hs
    · split
      · exact State.foldl_sound (State.addingSync_sound hs) fun s x _ h => State.dieRelease_sound h
      · split
        · exact State.widenSync_sound hs
        · exact hs

@[simp] theorem State.dropStep_sound {s : State} {line : Nat} {l : LaneAcc} (hs : s.Sound) :
    (State.dropStep s line l).1.Sound := by
  unfold State.dropStep
  split
  · exact hs
  · split
    · exact State.foldl_sound (State.addingSync_sound hs) fun s x _ h => State.dieRelease_sound h
    · split
      · exact ⟨hs.1, hs.2, hs.3⟩
      · exact hs

end Sys2Proof.Machine
end

