-- ==== Sys2Proof/Laws/SoundEvents.lean ====
section
/-! SUPPORT. The invariant of states and groups is kept: engines, launches, completions, scheduling, errors. -/

namespace Sys2Proof.Machine

set_option Elab.async false

/-! ### Matrix -/

@[simp] theorem State.setMatrix_sound {s : State} {c : CoreRef} {m : Matrix} (hs : s.Sound) :
    (State.setMatrix s c m).Sound := by
  unfold State.setMatrix
  try dsimp only
  repeat' split
  all_goals first
    | assumption
    | (simp [*]; done)
    | exact ⟨hs.1, hs.2, hs.3⟩

@[simp] theorem State.claimMatrix_sound {s : State} {c : CoreRef} {p : Fin 12} (hs : s.Sound) :
    (s.claimMatrix c p).Sound := by
  unfold State.claimMatrix
  split
  · exact hs
  · exact State.setMatrix_sound hs

@[simp] theorem State.mxStart_sound {s : State} {r : GroupRef} (hs : s.Sound) :
    (State.mxStart s r).Sound := by
  unfold State.mxStart
  split
  · exact hs
  · have hg := hs.group ‹_›
    split
    · exact hs
    · split
      · split
        · exact hs
        · dsimp only
          split
          · exact State.finish_sound (State.setMatrix_sound hs) ⟨hg.1.succ, hg.2, hg.3⟩
          · exact State.finish_sound (State.setMatrix_sound hs) ⟨hg.1.succ, hg.2, hg.3⟩
      · exact hs

@[simp] theorem State.putEntries_sound {s : State} {es : List (CoreRef × Nat × Nat × AccEntry)} (hs : s.Sound) :
    (State.putEntries s es).Sound := by
  unfold State.putEntries
  exact State.foldl_sound hs fun s x _ h => State.setMatrix_sound h

@[simp] theorem State.putTiles_sound {s : State} {ts : List (CoreRef × Tile)} (hs : s.Sound) :
    (State.putTiles s ts).Sound := by
  unfold State.putTiles
  exact State.foldl_sound hs fun s x _ h => State.setMatrix_sound h

@[simp] theorem State.putBanks_sound {s : State} {bs : List (CoreRef × Fin 2 × List Int)} (hs : s.Sound) :
    (s.putBanks bs).Sound := by
  unfold State.putBanks
  exact State.foldl_sound hs fun s x _ h => State.setMatrix_sound h

theorem RegWrite.asWrite_legal (x : RegWrite) : x.asWrite.legal = true := by cases x <;> rfl

@[simp] theorem Group.finishWork_sound {g : Group} {w : MxWork} (hg : g.Sound) : (g.finishWork w).Sound := by
  have h : ∀ (ws : List RegWrite) (g : Group), g.Sound →
      (ws.foldl (fun g x => g.land g.seq (x.forLanes g.alive).asWrite) g).Sound := by
    intro ws
    induction ws with
    | nil => intro g h; exact h
    | cons x t ih =>
      intro g h
      exact ih _ ((Group.land_soundAt _ _ _ h (RegWrite.asWrite_legal (x.forLanes g.alive))).of (Group.land_seq _ _ _))
  unfold Group.finishWork
  split
  · exact hg
  · extract_lets g1
    have k : g1.Sound := h w.regs g hg
    clear_value g1
    exact ⟨k.1, k.2, k.3⟩

@[simp] theorem State.mxComplete_sound {s : State} {c : CoreRef} {k : Nat} (hs : s.Sound) :
    (State.mxComplete s c k).Sound := by
  unfold State.mxComplete
  dsimp only
  split
  · exact hs
  · rename_i w _
    have h2 := State.putBanks_sound (bs := w.work.banks) (State.putTiles_sound (ts := w.work.tiles)
      (State.putEntries_sound (es := w.work.acc)
        (State.setMatrix_sound (c := c) (m := { s.matrixOf c with started := (s.matrixOf c).started.eraseIdx k }) hs)))
    have h3 : ∀ t : State, t.Sound →
        (w.work.team.foldl (fun s x => s.putTeamWord x.1 x.2.1 x.2.2) t).Sound := fun t h =>
      State.foldl_sound h fun s x _ h => State.putTeamWord_sound h
    split
    · split
      · refine State.setGroup_sound (h3 _ ?_) (Group.finishWork_sound ((h3 _ ?_).group ‹_›)) <;>
          (split <;> first | exact State.setMatrix_sound h2 | exact h2)
      · refine h3 _ ?_
        split <;> first | exact State.setMatrix_sound h2 | exact h2
    · refine h3 _ ?_
      split <;> first | exact State.setMatrix_sound h2 | exact h2

@[simp] theorem matrixOp_sound {i : Instr} {s : State} {pair : Bool} {d : Reg} {a : Reg} {b : Reg} (hs : s.Sound) :
    OutSound (matrixOp i s pair d a b) := by
  unfold matrixOp
  refine State.withCtx_sound hs fun c hc => ?_
  have h1 : c.g.settled.Sound := (Group.settled_soundAt c.g hc).of (Group.settled_seq _)
  have h2 : c.settled.g.SoundAt c.settled.g.seq := h1
  dsimp only
  repeat' split
  all_goals first
    | exact State.finish_sound hs h2.succ
    | exact State.trapAll_sound hs h2
    | exact State.setGroup_sound hs ⟨h1.1, h1.2, h1.3⟩
    | exact State.setGroup_sound (State.claimMatrix_sound hs) ⟨h1.1, h1.2, h1.3⟩
    | exact State.withdraw_sound hs h1

/-! ### Engines -/

@[simp] theorem postOp_sound {i : Instr} {s : State} {d : Reg} {p : Scope} {kind : Ctx → AccKind} (hs : s.Sound) :
    OutSound (postOp i s d p kind) := by
  unfold postOp
  refine State.withCtx_sound hs fun c hc => ?_
  split
  · exact State.finish_sound hs hc.succ
  · split
    · exact State.stall_sound hs hc
    · have h := State.holdFor_sound (q := .rel) (named := p) (lines := []) hs hc
      split
      · rename_i t e
        rw [e] at h; exact h
      · rename_i t p e
        rw [e] at h
        exact State.finish_sound h ⟨hc.1.succ, hc.2, hc.3⟩

@[simp] theorem State.replied_sound {s : State} {r : GroupRef} {g : Group} {a : Access} {w : Word} (hs : s.Sound) (hg : g.Sound) :
    (State.replied s r g a w).Sound := by
  unfold State.replied
  try dsimp only
  repeat' split
  all_goals first
    | assumption
    | (simp [*]; done)
    | exact ⟨hs.1, hs.2, hs.3⟩

theorem State.postAt_sound {s : State} {r : GroupRef} {n : Nat} {out : Bool} {g : Group} {a : Access} (hs : s.Sound)
    (e : s.postAt r n = some (out, g, a)) : g.Sound := by
  unfold State.postAt at e
  dsimp only at e
  split at e
  · rename_i x hx
    obtain ⟨y, hy, hm⟩ := Option.bind_eq_some_iff.mp hx
    obtain ⟨b, _, rfl⟩ := Option.map_eq_some_iff.mp hm
    cases e
    exact hs.group hy
  · obtain ⟨y, hy, hm⟩ := List.exists_of_findSome?_eq_some e
    split at hm
    · obtain ⟨b, _, hb⟩ := Option.map_eq_some_iff.mp hm
      cases hb
      exact hs.parked_ok y hy
    · cases hm

@[simp] theorem State.putPost_sound {s : State} {r : GroupRef} {out : Bool} {g : Group} (hs : s.Sound) (hg : g.Sound) :
    (s.putPost r out g).Sound := by
  unfold State.putPost
  split
  · refine ⟨hs.1, hs.2, hs.parked_ok.map fun x hx => ?_⟩
    split
    · exact hg
    · exact hx
  · exact State.setGroup_sound hs hg

@[simp] theorem State.postReplied_sound {s : State} {r : GroupRef} {out : Bool} {g : Group} {a : Access} {w : Word}
    (hs : s.Sound) (hg : g.Sound) : (s.postReplied r out g a w).Sound := by
  unfold State.postReplied
  split
  · exact State.putPost_sound hs (Group.setAccess_sound hg)
  · exact State.replied_sound hs hg

@[simp] theorem State.acceptRequest_sound {s : State} {r : GroupRef} {n : Nat} (hs : s.Sound) :
    (State.acceptRequest s r n).Sound := by
  unfold State.acceptRequest
  split
  · exact hs
  · have hg := State.postAt_sound hs ‹_›
    split
    · split
      · exact hs
      · split
        · exact State.postReplied_sound hs hg
        · split
          · exact hs
          · split
            rename_i s1 acc1 rej1 e
            have h1 : s1.Sound := by
              split at e
              · cases e; exact hs
              · cases e; exact ⟨hs.1, hs.2, hs.3⟩
            dsimp only
            split
            · exact State.postReplied_sound h1 hg
            · exact State.putPost_sound h1 ⟨hg.1, hg.2, hg.3⟩
    · exact hs

@[simp] theorem State.jobSeen_sound {s : State} {j : Job} {u : ArrUnit} (hs : s.Sound) : (s.jobSeen j u).Sound := by
  unfold State.jobSeen
  split
  · exact hs
  · refine State.foldl_sound hs fun s i _ h => ?_
    split
    · exact State.seen_sound h
    · exact h
    · exact h

@[simp] theorem State.writeUnit_sound {s : State} {j : Job} {code : Nat} {ms : List WordMove} (hs : s.Sound) :
    (State.writeUnit s j code ms).Sound := by
  unfold State.writeUnit
  refine State.foldl_sound hs fun s x _ h => ?_
  split
  · exact h
  · split
    · exact State.devPoison_sound (State.touchAll_sound h)
    · exact h
  · split
    · exact State.devWrite_sound (State.touchAll_sound h)
    · split
      · exact State.devPoison_sound (State.touchAll_sound h)
      · exact h

@[simp] theorem State.countDown_sound {s : State} {obj : ObjRef} {len : Nat} {code : Nat} (hs : s.Sound) :
    (State.countDown s obj len code).Sound := by
  unfold State.countDown
  try dsimp only
  repeat' split
  all_goals first
    | assumption
    | (simp [*]; done)
    | exact ⟨hs.1, hs.2, hs.3⟩

@[simp] theorem State.putJob_sound {s : State} {j : Job} (hs : s.Sound) : (s.putJob j).Sound := ⟨hs.1, hs.2, hs.3⟩

@[simp] theorem State.unitWritten_sound {s : State} {j : Job} {len : Nat} {x : Landed} (hs : s.Sound) :
    (s.unitWritten j len x).Sound := by
  unfold State.unitWritten
  dsimp only
  repeat' split
  all_goals first
    | exact hs
    | exact State.putJob_sound hs
    | exact State.putJob_sound (State.countDown_sound hs)

@[simp] theorem State.unitLands_sound {s : State} {c : CoreRef} {k u : Nat} {lost : Bool} (hs : s.Sound) :
    (State.unitLands s c k u lost).Sound := by
  unfold State.unitLands
  repeat' split
  all_goals first
    | exact hs
    | exact State.unitWritten_sound hs
    | exact State.unitWritten_sound (State.writeUnit_sound (State.jobSeen_sound hs))

@[simp] theorem State.arrivalMet_sound {s : State} {r : GroupRef} (hs : s.Sound) :
    (State.arrivalMet s r).Sound := by
  unfold State.arrivalMet
  split
  · exact hs
  · have hg := hs.group ‹_›
    split
    · split
      · exact State.wake_sound (State.acquire_sound hs) hg Write.uni_legal
      · exact hs
    · exact hs

@[simp] theorem State.acceptBlend_sound {s : State} {r : GroupRef} {out : Bool} {g : Group} {a : Access}
    {tab : Vector (BitVec 128) 64} {off : Word} (hs : s.Sound) (hg : g.Sound) : (s.acceptBlend r out g a tab off).Sound := by
  unfold State.acceptBlend
  split
  · exact State.postReplied_sound hs hg
  · dsimp only
    split
    · exact State.postReplied_sound hs hg
    · refine State.postReplied_sound ?_ hg
      exact ⟨hs.1, hs.2, hs.3⟩

@[simp] theorem State.blendRuns_sound {s : State} {p : Fin 12} {fg : Nat} (hs : s.Sound) :
    (State.blendRuns s p fg).Sound := by
  unfold State.blendRuns
  split
  · exact hs
  · rename_i b _
    have h := State.devSeen_sound (tab := fgtIn b.tab) (p := p) (va := b.desc.src)
      (n := b.desc.srcBytes (fgtIn b.tab fg).nmbr / 4) hs
    exact ⟨h.1, h.2, h.3⟩

@[simp] theorem State.dropPage_sound {s : State} {page : Nat × Nat} (hs : s.Sound) :
    (State.dropPage s page).Sound := by
  unfold State.dropPage
  refine ⟨hs.1, hs.groups_ok.map fun x hx => ?_, hs.3⟩
  exact ⟨hx.1, hx.2, hx.3⟩

@[simp] theorem State.sealStep_sound {s : State} {p : Fin 12} {open_ : Bool} {l : LaneAcc} {pa : Nat} {at_ : Attr} (hs : s.Sound) :
    (State.sealStep s p open_ l pa at_).1.Sound := by
  unfold State.sealStep
  try dsimp only
  repeat' split
  all_goals first
    | assumption
    | (simp [*]; done)
    | exact ⟨hs.1, hs.2, hs.3⟩

@[simp] theorem State.loadAtPeer_sound {s : State} {p : Fin 12} {i : Nat} {fg : Nat} {mbr : Nat} {off : Nat} (hs : s.Sound) :
    (State.loadAtPeer s p i fg mbr off).1.Sound := by
  unfold State.loadAtPeer
  try dsimp only
  repeat' split
  all_goals first
    | assumption
    | (simp [*]; done)
    | exact ⟨hs.1, hs.2, hs.3⟩

@[simp] theorem State.loadPeer_sound {s : State} {p : Fin 12} {i : Nat} {fg : Nat} {mbr : Nat} {off : Nat} (hs : s.Sound) :
    (State.loadPeer s p i fg mbr off).1.Sound := by
  unfold State.loadPeer
  try dsimp only
  repeat' split
  all_goals first
    | assumption
    | (simp [*]; done)
    | exact ⟨hs.1, hs.2, hs.3⟩

@[simp] theorem State.enqueueMessage_sound {s : State} {r : GroupRef} {n : Nat} (hs : s.Sound) :
    (State.enqueueMessage s r n).Sound := by
  unfold State.enqueueMessage
  split
  · exact hs
  · have hg := State.postAt_sound hs ‹_›
    split
    · split
      · exact hs
      · split
        · exact State.postReplied_sound hs hg
        · dsimp only
          split
          · exact State.postReplied_sound hs hg
          · split
            · exact State.postReplied_sound hs hg
            · split
              · split
                · exact hs
                · exact State.postReplied_sound hs hg
              · refine State.postReplied_sound ?_ hg
                exact ⟨hs.1, hs.2, hs.3⟩
    · exact hs

/-! ### Launch -/

@[simp] theorem State.openSlice_sound {s : State} {p : Fin 12} {q : Fin 64} {anew : Bool} (hs : s.Sound) :
    (State.openSlice s p q anew).Sound := by
  unfold State.openSlice
  try dsimp only
  repeat' split
  all_goals first
    | assumption
    | (simp [*]; done)
    | exact ⟨hs.1, hs.2, hs.3⟩

@[simp] theorem State.launchStarts_sound {s : State} {gr : Grid} (hs : s.Sound) :
    (State.launchStarts s gr).Sound := by
  unfold State.launchStarts
  try dsimp only
  repeat' split
  all_goals first
    | assumption
    | (simp [*]; done)
    | exact ⟨hs.1, hs.2, hs.3⟩

@[simp] theorem Group.withStore_sound {g : Group} {b : Option Nat} (hg : g.Sound) : (g.withStore b).Sound := by
  cases b <;> exact ⟨hg.1, hg.2, hg.3⟩

theorem State.clusterGroups_ok (s : State) (gr : Grid) (die : Fin 12) (p : Placement) : GroupsOk (s.clusterGroups gr die p) := by
  intro x hx
  simp only [State.clusterGroups, List.mem_filterMap] at hx
  obtain ⟨g, _, e⟩ := hx
  split at e
  · cases e; exact Group.withStore_sound startGroup_sound
  · cases e

@[simp] theorem State.placeCluster_sound {s : State} {gr : Grid} {die : Fin 12} {p : Placement} (hs : s.Sound) :
    (s.placeCluster gr die p).Sound := by
  unfold State.placeCluster
  extract_lets first gr1 s0 s1 s2
  have hg := hs.groups_ok.append (State.clusterGroups_ok s gr die p)
  have h1 : s1.Sound := ⟨hs.1, hg, hs.3⟩
  clear_value s1
  have h2 : s2.Sound := by
    simp only [s2]
    split
    · exact State.acquire_sound h1
    · exact h1
  split
  · exact State.launchStarts_sound h2
  · exact h2

@[simp] theorem State.startTeam_sound {s : State} {gr : Grid} {die : Fin 12} {t : Nat × Nat} (hs : s.Sound) :
    (s.startTeam gr die t).Sound := by
  unfold State.startTeam
  extract_lets mine part
  split
  · exact hs
  · refine State.foldl_sound ⟨hs.1, hs.2, hs.3⟩ fun s x hx h => State.setGroup_sound h (Group.withStore_sound ?_)
    have hm := (List.of_mem_zip hx).1
    exact hs.groups_ok x.1 (List.mem_filter.mp (mem_sortBy.mp hm)).1

@[simp] theorem State.startTeams_sound {s : State} {gr : Grid} {die : Fin 12} (hs : s.Sound) : (s.startTeams gr die).Sound :=
  State.foldl_sound hs fun _ _ _ h => State.startTeam_sound h

@[simp] theorem State.tileRead_sound {s : State} {gr : Grid} {die : Fin 12} (hs : s.Sound) : (s.tileRead gr die).Sound := by
  unfold State.tileRead
  repeat' split
  · exact hs
  · exact State.devSeen_sound hs
  · exact hs

@[simp] theorem State.placeNext_sound {s : State} {gr : Grid} {die : Fin 12} (hs : s.Sound) : (s.placeNext gr die).Sound := by
  have h := State.tileRead_sound (gr := gr) (die := die) hs
  unfold State.placeNext
  dsimp only
  split
  · exact h
  · split
    · exact h
    · split
      · exact h
      · exact State.placeCluster_sound h

@[simp] theorem State.clusterPlace_sound {s : State} {grid : Nat} {die : Fin 12} (hs : s.Sound) :
    (State.clusterPlace s grid die).Sound := by
  unfold State.clusterPlace
  split
  · exact hs
  · exact State.placeNext_sound (State.startTeams_sound hs)

@[simp] theorem State.launchChild_sound {s : State} {g : Group} {desc : Addr} {record : Addr} (hs : s.Sound) (hg : g.Sound) :
    (State.launchChild s g desc record).1.Sound := by
  unfold State.launchChild
  try dsimp only
  repeat' split
  all_goals first
    | assumption
    | (simp [*]; done)
    | exact ⟨hs.1, hs.2, hs.3⟩

theorem tileOp_sound {i : Instr} {s : State} {a b : Reg} {sig : Bool} {f : Ctx → Addr → List Place → List Trans → State}
    (hs : s.Sound) (hf : ∀ c ea ps ts, c.g.Sound → (f c ea ps ts).Sound) : OutSound (tileOp i s a b sig f) := by
  unfold tileOp
  refine State.withCtx_sound hs fun c hc => ?_
  split
  · exact State.finish_sound hs hc.succ
  · dsimp only
    split
    · exact State.setGroup_sound hs ⟨hc.1, hc.2, hc.3⟩
    · exact State.trapAll_sound hs hc
    · exact hf _ _ _ _ hc

@[simp] theorem State.spanRelease_sound {s : State} {die : Fin 12} {blocks : List (Nat × Nat)} (hs : s.Sound) :
    (State.spanRelease s die blocks).1.Sound := by
  unfold State.spanRelease
  dsimp only
  refine State.foldl_sound ?_ fun s x _ h => State.sendDiff_sound h
  exact ⟨hs.1, hs.2, hs.3⟩

@[simp] theorem State.readGen_sound {s : State} {die : Fin 12} {part : Fin 12} {p : Scope} {x4 : Place} (hs : s.Sound) :
    (State.readGen s die part p x4).1.Sound := by
  unfold State.readGen
  try dsimp only
  repeat' split
  all_goals first
    | assumption
    | (simp [*]; done)
    | exact ⟨hs.1, hs.2, hs.3⟩

@[simp] theorem State.genReady_sound {s : State} {r : GroupRef} {g : Group} {x3 : Place} {gen : Word} {p : Scope} (hs : s.Sound) (hg : g.Sound) :
    ∀ t, State.genReady s r g x3 gen p = some t → t.1.Sound := by
  unfold State.genReady
  try dsimp only
  repeat' split
  all_goals first
    | assumption
    | (simp [*]; done)
    | exact ⟨hs.1, hs.2, hs.3⟩

@[simp] theorem State.tileMet_sound {s : State} {r : GroupRef} (hs : s.Sound) :
    (State.tileMet s r).Sound := by
  unfold State.tileMet
  split
  · exact hs
  · have hg := hs.group ‹_›
    split
    · split
      · rename_i t w e
        exact State.wake_sound (State.genReady_sound hs hg _ e) hg Write.uni_legal
      · exact hs
    · exact hs

/-! ### Complete -/

@[simp] theorem State.loadAt_sound {s : State} {r : GroupRef} {g : Group} {i : Nat} {p : Place} (hs : s.Sound) (hg : g.Sound) :
    (State.loadAt s r g i p).1.Sound := by
  unfold State.loadAt
  try dsimp only
  repeat' split
  all_goals first
    | assumption
    | (simp [*]; done)
    | exact ⟨hs.1, hs.2, hs.3⟩

@[simp] theorem State.loadSeq_sound {s : State} {r : GroupRef} {g : Group} {i : Nat} {have_ : List Word} {x5 : List Place} (hs : s.Sound) (hg : g.Sound) :
    (State.loadSeq s r g i have_ x5).1.Sound := by
  induction x5 generalizing s i have_ with
  | nil => exact hs
  | cons p rest ih =>
    unfold State.loadSeq
    have h := State.loadAt_sound (r := r) (i := i) (p := p) hs hg
    split
    · rename_i s1 w e
      rw [e] at h; exact ih h
    · rename_i s1 e
      rw [e] at h; exact h
    · rename_i s1 e
      rw [e] at h; exact h

@[simp] theorem State.storeAt_sound {s : State} {r : GroupRef} {g : Group} {p : Place} {w : Word} (hs : s.Sound) (hg : g.Sound) :
    (State.storeAt s r g p w).Sound := by
  unfold State.storeAt
  try dsimp only
  repeat' split
  all_goals first
    | assumption
    | (simp [*]; done)
    | exact ⟨hs.1, hs.2, hs.3⟩

@[simp] theorem State.storeSeq_sound {s : State} {r : GroupRef} {g : Group} {l : LaneAcc} (hs : s.Sound) (hg : g.Sound) :
    (State.storeSeq s r g l).1.Sound := by
  unfold State.storeSeq
  dsimp only
  split
  · exact hs
  · exact State.foldl_sound hs fun s x _ h => State.storeAt_sound h hg

@[simp] theorem State.granuleStep_sound {s : State} {r : GroupRef} {l : LaneAcc} {send : State → Nat → State} (hs : s.Sound)
    (hsend : ∀ n, (send s n).Sound) : (s.granuleStep r l send).1.Sound := by
  unfold State.granuleStep
  split
  · split
    · exact hs
    · split
      · exact hsend _
      · split <;> exact hs
  · exact hs

@[simp] theorem flushGranule_sound {die : Fin 12} {inv : Bool} {s : State} {ga : Nat} (hs : s.Sound) :
    (flushGranule die inv s ga).Sound := by
  unfold flushGranule
  try dsimp only
  repeat' split
  all_goals first
    | assumption
    | (simp [*]; done)
    | exact ⟨hs.1, hs.2, hs.3⟩

@[simp] theorem State.unlockStep_sound {s : State} {r : GroupRef} {g : Group} {a : Access} {l : LaneAcc} {line : Nat}
    (hs : s.Sound) : (s.unlockStep r g a l line).1.Sound := by
  unfold State.unlockStep
  split
  · exact ⟨hs.1, hs.2, hs.3⟩
  · exact hs

@[simp] theorem State.performLane_sound {s : State} {r : GroupRef} {g : Group} {a : Access} {l : LaneAcc} (hs : s.Sound) (hg : g.Sound) :
    (State.performLane s r g a l).1.Sound := by
  unfold State.performLane
  dsimp only
  split
  · exact State.loadSeq_sound hs hg
  · exact State.storeSeq_sound hs hg
  · exact State.storeSeq_sound hs hg
  · split
    · exact State.granuleStep_sound hs fun n => flushGranule_sound hs
    · exact hs
  · exact State.granuleStep_sound hs fun n => State.sendDiff_sound hs
  · exact State.dropTranslations_sound hs
  · split
    · exact State.declareStep_sound hs
    · exact hs
  · split
    · exact State.dropStep_sound hs
    · exact hs
  · exact State.unlockStep_sound hs
  · split
    · exact State.sealStep_sound hs
    · exact hs
  · exact hs
  · exact hs
  · split <;> exact hs
  all_goals exact hs

@[simp] theorem State.freeNow_sound {s : State} {lines : List Nat} (hs : s.Sound) : (s.freeNow lines).Sound :=
  ⟨hs.1, hs.2, hs.3⟩

@[simp] theorem State.laneStep_sound {s : State} {r : GroupRef} {n l : Nat} (hs : s.Sound) : (s.laneStep r n l).Sound := by
  unfold State.laneStep
  split
  · exact hs
  · rename_i g eg
    have hg := hs.group eg
    split
    · exact hs
    · rename_i a _
      split
      · exact hs
      · rename_i x _
        split
        · exact hs
        · dsimp only
          have h := State.performLane_sound (r := r) (a := a) (l := x) hs hg
          have k : ((s.performLane r g a x).1.moved r (((s.performLane r g a x).1.group r).getD g)
              (a.setLane (s.performLane r g a x).2)).Sound := by
            refine State.moved_sound h ?_
            cases e : (s.performLane r g a x).1.group r with
            | none => exact hg
            | some g' => exact h.group e
          split
          · exact State.freeNow_sound k
          · exact k

@[simp] theorem State.accessStep_sound {s : State} {r : GroupRef} {n l : Nat} (hs : s.Sound) : (s.accessStep r n l).Sound := by
  unfold State.accessStep
  split
  · exact State.laneStep_sound hs
  · split
    · exact State.recordArrival_sound hs
    split
    · exact hs
    · have hg := State.postAt_sound hs ‹_›
      split
      · split
        · exact hs
        · exact State.acceptBlend_sound hs hg
      · exact hs

@[simp] theorem State.atomicAt_sound {s : State} {r : GroupRef} {g : Group} {a : Access} {op : AtomOp} {t : Tag} {l : LaneAcc} (hs : s.Sound) (hg : g.Sound) :
    (State.atomicAt s r g a op t l).Sound := by
  unfold State.atomicAt
  try dsimp only
  repeat' split
  all_goals first
    | assumption
    | (simp [*]; done)
    | exact ⟨hs.1, hs.2, hs.3⟩

@[simp] theorem State.switchAt_sound {s : State} {r : GroupRef} {g : Group} {a : Access} {op : AtomOp} {t : Tag} {l : LaneAcc} (hs : s.Sound) (hg : g.Sound) :
    (State.switchAt s r g a op t l).Sound := by
  unfold State.switchAt
  try dsimp only
  repeat' split
  all_goals first
    | assumption
    | (simp [*]; done)
    | exact ⟨hs.1, hs.2, hs.3⟩

@[simp] theorem State.atomicStep_sound {s : State} {r : GroupRef} {n : Nat} {l : Nat} (hs : s.Sound) :
    (State.atomicStep s r n l).Sound := by
  unfold State.atomicStep
  split
  · exact hs
  · have hg := hs.group ‹_›
    split
    · exact hs
    · split
      · exact hs
      · split
        · exact hs
        · split
          · exact State.atomicAt_sound hs hg
          · exact State.switchAt_sound hs hg
          · exact hs

@[simp] theorem State.refuse_sound {s : State} {r : GroupRef} {n : Nat} {l : Nat} {w : Bool} (hs : s.Sound) :
    (State.refuse s r n l w).Sound := by
  unfold State.refuse
  split
  · exact hs
  · have hg := hs.group ‹_›
    split
    · exact hs
    · split
      · exact hs
      · split
        · exact hs
        · exact State.moved_sound hs hg

@[simp] theorem State.applyRecord_sound {s : State} {r : Rec} (hs : s.Sound) : (s.applyRecord r).Sound := by
  have h : (r.runs.foldl (fun s run => s.putWords (r.granule + 4 * run.1) run.2) s).Sound :=
    State.foldl_sound hs fun s x _ h => State.putWords_sound h
  unfold State.applyRecord
  split
  · exact hs
  · refine State.bump_sound ?_
    exact ⟨h.1, h.2, h.3⟩

@[simp] theorem State.recordArrives_sound {s : State} {k : Nat} (hs : s.Sound) : (s.recordArrives k).Sound := by
  unfold State.recordArrives
  split
  · exact hs
  · split
    · exact hs
    · refine State.applyRecord_sound ?_
      exact ⟨hs.1, hs.2, hs.3⟩

@[simp] theorem State.noticeArrives_sound {s : State} {k : Nat} (hs : s.Sound) :
    (State.noticeArrives s k).Sound := by
  unfold State.noticeArrives
  try dsimp only
  repeat' split
  all_goals first
    | assumption
    | (simp [*]; done)
    | exact ⟨hs.1, hs.2, hs.3⟩

@[simp] theorem State.lockExpires_sound {s : State} {r : GroupRef} (hs : s.Sound) :
    (State.lockExpires s r).Sound := by
  unfold State.lockExpires
  split
  · exact hs
  · have hg := hs.group ‹_›
    split
    · split
      · exact hs
      · dsimp only
        refine State.wake_sound ?_ hg Write.uni_legal
        exact ⟨hs.1, hs.2, hs.3⟩
    · exact hs

@[simp] theorem State.peerWord_sound {s : State} {p : Fin 12} {pa : Nat} {w : FabAccess} (hs : s.Sound) :
    (State.peerWord s p pa w).Sound := by
  unfold State.peerWord
  try dsimp only
  repeat' split
  all_goals first
    | assumption
    | (simp [*]; done)
    | exact ⟨hs.1, hs.2, hs.3⟩

@[simp] theorem State.peerAccess_sound {s : State} {p : Fin 12} {fg : Nat} {off : Nat} {w : FabAccess} (hs : s.Sound) :
    (State.peerAccess s p fg off w).Sound := by
  unfold State.peerAccess
  split
  · exact hs
  · split
    · exact hs
    · exact State.peerWord_sound hs

/-! ### Host -/

@[simp] theorem State.joinDies_sound {s : State} (hs : s.Sound) :
    (State.joinDies s).Sound := by
  unfold State.joinDies
  try dsimp only
  repeat' split
  all_goals first
    | assumption
    | (simp [*]; done)
    | exact ⟨hs.1, hs.2, hs.3⟩

@[simp] theorem State.rekey_sound {s : State} {dies : BitVec 12} (hs : s.Sound) :
    (State.rekey s dies).Sound := by
  have h : ∀ (ds : List (Fin 12)) (m : Memory), m.wf = true → (ds.foldl (fun m d => m.rekey d) m).wf = true := by
    intro ds
    induction ds with
    | nil => intro m h; exact h
    | cons d t ih => intro m h; exact ih _ (Memory.rekey_wf d h)
  exact ⟨h _ _ hs.1, hs.2, hs.3⟩

@[simp] theorem State.nextCid_sound {s : State} {p : Fin 12} (hs : s.Sound) : (s.nextCid p).Sound := by
  unfold State.nextCid
  exact State.dropTranslations_sound (State.dropCid_sound (State.setPart_sound hs))

@[simp] theorem State.serveOn_sound {s : State} {d : Fin 12} (hs : s.Sound) : (s.serveOn d).Sound := ⟨hs.1, hs.2, hs.3⟩

@[simp] theorem State.bringUp_sound {s : State} (hs : s.Sound) : s.bringUp.Sound := by
  unfold State.bringUp
  split
  · exact hs
  · split
    · exact hs
    · split
      · split
        · exact State.serveOn_sound hs
        · exact hs
      · rename_i d _ _
        have h := State.serveOn_sound (d := d) hs
        refine State.nextCid_sound ?_
        exact ⟨h.1, h.2, h.3⟩

@[simp] theorem State.leaveDies_sound {s : State} {dies : BitVec 12} (hs : s.Sound) : (s.leaveDies dies).Sound := by
  unfold State.leaveDies
  extract_lets gone s1
  have h : s1.Sound := State.foldl_sound hs fun s x _ h => State.evictTwin_sound h
  clear_value s1
  exact ⟨h.1, h.2, h.3⟩

@[simp] theorem State.dropPartition_sound {s : State} {p : Fin 12} (hs : s.Sound) :
    (State.dropPartition s p).Sound := by
  unfold State.dropPartition
  try dsimp only
  repeat' split
  all_goals first
    | assumption
    | (simp [*]; done)
    | exact ⟨hs.1, hs.2, hs.3⟩

@[simp] theorem State.trimDies_sound {s : State} {dies : List (Fin 12)} {room : Nat} (hs : s.Sound) :
    (State.trimDies s dies room).Sound := by
  unfold State.trimDies
  refine State.foldl_sound hs fun s x _ h => State.foldl_sound h fun s y _ h => State.trimSlice_sound h

@[simp] theorem State.writeMgmt_sound {s : State} {a : Nat} {v : Word} (hs : s.Sound) :
    (State.writeMgmt s a v).Sound := by
  unfold State.writeMgmt
  try dsimp only
  repeat' split
  all_goals first
    | assumption
    | (simp [*]; done)
    | exact ⟨hs.1, hs.2, hs.3⟩

@[simp] theorem State.writeWin_sound {s : State} {p : Fin 12} {a : Nat} {v : Word} (hs : s.Sound) :
    (State.writeWin s p a v).Sound := by
  unfold State.writeWin
  try dsimp only
  repeat' split
  all_goals first
    | assumption
    | (simp [*]; done)
    | exact ⟨hs.1, hs.2, hs.3⟩

@[simp] theorem State.setHand_sound {s : State} {p : Fin 12} {q : Fin 64} {c : Option Cmd} (hs : s.Sound) :
    (State.setHand s p q c).Sound := by
  unfold State.setHand
  try dsimp only
  repeat' split
  all_goals first
    | assumption
    | (simp [*]; done)
    | exact ⟨hs.1, hs.2, hs.3⟩

@[simp] theorem State.acceptRecord_sound {s : State} {p : Fin 12} {q : Fin 64} {ws : List Word} {t : Option CmdType} (hs : s.Sound) :
    (State.acceptRecord s p q ws t).Sound := by
  unfold State.acceptRecord
  try dsimp only
  repeat' split
  all_goals first
    | assumption
    | (simp [*]; done)
    | exact ⟨hs.1, hs.2, hs.3⟩

@[simp] theorem State.takeCommand_sound {s : State} {p : Fin 12} {q : Fin 64} {want : CmdType} (hs : s.Sound) :
    (State.takeCommand s p q want).Sound := by
  unfold State.takeCommand
  try dsimp only
  repeat' split
  all_goals first
    | assumption
    | (simp [*]; done)
    | exact ⟨hs.1, hs.2, hs.3⟩

@[simp] theorem State.recordCmd_sound {s : State} {p : Fin 12} {q : Fin 64} {c : Cmd} {st : CStatus} {detail : Nat}
    (hs : s.Sound) : (s.recordCmd p q c st detail).Sound := State.setHand_sound (State.putRecord_sound hs)

@[simp] theorem State.completeCmd_sound {s : State} {p : Fin 12} {q : Fin 64} {c : Cmd} {st : CStatus} {detail : Nat} (hs : s.Sound) :
    (State.completeCmd s p q c st detail).Sound := by
  have h : ((diesOf (s.parts[p]).dies).foldl (fun s d => s.dieRelease d) s).Sound :=
    State.foldl_sound hs fun s x _ h => State.dieRelease_sound h
  unfold State.completeCmd
  dsimp only
  split
  · exact State.recordCmd_sound h
  · exact State.setHand_sound h

@[simp] theorem State.finishCmd_sound {s : State} {p : Fin 12} {q : Fin 64} {c : Cmd} {e : CmdEnd} (hs : s.Sound) :
    (s.finishCmd p q c e).Sound := by
  unfold State.finishCmd
  split
  · exact State.recordCmd_sound hs
  · exact hs

/-- A command moves on soundly when its work does. -/
theorem State.commandStep_sound {s : State} {p : Fin 12} {q : Fin 64} {t : CmdType} {work : Cmd → State} (hs : s.Sound)
    (hw : ∀ c, (work c).Sound) : (s.commandStep p q t work).Sound := by
  unfold State.commandStep
  split
  · exact State.takeCommand_sound hs
  · split
    · exact State.finishCmd_sound hs
    · exact hw _

@[simp] theorem State.hostHolds_sound {s : State} {pa : Nat} {alone : Bool} (hs : s.Sound) :
    (s.hostHolds pa alone).Sound := by
  unfold State.hostHolds
  split
  · exact hs
  · exact ⟨hs.1, hs.2, hs.3⟩

@[simp] theorem State.hostStore_sound {s : State} {at_ : Attr} {pa : Nat} {v : Word} (hs : s.Sound) :
    (s.hostStore at_ pa v).Sound :=
  have h := State.homeStore_sound (at_ := some at_) (pa := pa) (w := v) hs
  ⟨h.1, h.2, h.3⟩

@[simp] theorem State.verified_sound {s : State} {f : Firmware} {k : Bool} (hs : s.Sound) : (s.verified f k).Sound := by
  unfold State.verified
  extract_lets s1
  have h1 : s1.Sound := by
    show State.Sound (if _ then _ else _)
    split
    · exact ⟨hs.1, hs.2, hs.3⟩
    · exact ⟨hs.1, hs.2, hs.3⟩
  clear_value s1
  split
  · split
    · exact State.completeCmd_sound h1
    · exact State.completeCmd_sound h1
  · exact h1

@[simp] theorem State.acquireDies_sound {s : State} {p : Fin 12} {scope : Scope} (hs : s.Sound) :
    (State.acquireDies s p scope).Sound := by
  unfold State.acquireDies
  exact State.foldl_sound hs fun s x _ h => State.acquire_sound h

@[simp] theorem State.selectLaunch_sound {s : State} {p : Fin 12} {d : Desc} {queue : Option (Fin 64)} {pq : Fin 64} {crec : Addr} {debug : Bool} {reduced : Bool} {tmax : Nat} {tdep : Option TileDep} (hs : s.Sound) :
    (State.selectLaunch s p d queue pq crec debug reduced tmax tdep).Sound := by
  unfold State.selectLaunch
  try dsimp only
  repeat' split
  all_goals first
    | assumption
    | (simp [*]; done)
    | exact ⟨hs.1, hs.2, hs.3⟩

@[simp] theorem State.selectCmd_sound {s : State} {p : Fin 12} {q : Fin 64} {c : Cmd} (hs : s.Sound) :
    (State.selectCmd s p q c).Sound := by
  have h := State.devFetch_sound (p := p) (va := c.arg) (n := 36) hs
  unfold State.selectCmd
  split
  · split
    · exact State.completeCmd_sound hs
    · dsimp only
      split
      · exact State.completeCmd_sound h
      · exact State.setHand_sound (State.selectLaunch_sound h)
  all_goals exact State.setHand_sound hs

@[simp] theorem State.closeSlice_sound {s : State} {p : Fin 12} {q : Fin 64} (hs : s.Sound) :
    (State.closeSlice s p q).Sound := by
  unfold State.closeSlice
  try dsimp only
  repeat' split
  all_goals first
    | assumption
    | (simp [*]; done)
    | exact ⟨hs.1, hs.2, hs.3⟩

@[simp] theorem State.selectGrid_sound {s : State} {g : Grid} (hs : s.Sound) : (s.selectGrid g).Sound := by
  refine State.closeSlice_sound (State.openSlice_sound ?_)
  exact ⟨hs.1, hs.2, hs.3⟩

@[simp] theorem State.selectChild_sound {s : State} {p : Fin 12} {c : Child} (hs : s.Sound) :
    (State.selectChild s p c).Sound := by
  unfold State.selectChild
  try dsimp only
  repeat' split
  all_goals first
    | assumption
    | (simp [*]; done)
    | exact ⟨hs.1, hs.2, hs.3⟩

@[simp] theorem State.selectHead_sound {s : State} {p : Fin 12} {q : Fin 64} {x3 : Head} (hs : s.Sound) :
    (State.selectHead s p q x3).Sound := by
  unfold State.selectHead
  try dsimp only
  repeat' split
  all_goals first
    | assumption
    | (simp [*]; done)
    | exact ⟨hs.1, hs.2, hs.3⟩

/-! ### Sched -/

theorem State.onGroup_sound {s : State} {r : GroupRef} {f : Group → State} (hs : s.Sound) (hf : ∀ g, g.Sound → (f g).Sound) :
    (s.onGroup r f).Sound := by
  unfold State.onGroup
  split
  · exact hs
  · exact hf _ (hs.group ‹_›)

@[simp] theorem State.cacheLeaf_sound {s : State} {r : GroupRef} {g : Group} {block : Nat} {leaf : BitVec 64} {blocks : Nat} {pte : Nat} (hs : s.Sound) (hg : g.Sound) :
    (State.cacheLeaf s r g block leaf blocks pte).Sound := by
  unfold State.cacheLeaf
  try dsimp only
  repeat' split
  all_goals first
    | assumption
    | (simp [*]; done)
    | exact ⟨hs.1, hs.2, hs.3⟩

@[simp] theorem State.counterMet_sound {s : State} {r : GroupRef} {g : Group} (hs : s.Sound) (hg : g.Sound) :
    (State.counterMet s r g).Sound := by
  unfold State.counterMet
  try dsimp only
  repeat' split
  all_goals first
    | assumption
    | (simp [*]; done)
    | exact ⟨hs.1, hs.2, hs.3⟩

@[simp] theorem State.endCluster_sound {s : State} {grid : Nat} {clu : Nat} (hs : s.Sound) :
    (State.endCluster s grid clu).Sound := by
  unfold State.endCluster
  try dsimp only
  repeat' split
  all_goals first
    | assumption
    | (simp [*]; done)
    | exact ⟨hs.1, hs.2, hs.3⟩

@[simp] theorem State.retireGroup_sound {s : State} {r : GroupRef} {g : Group} (hs : s.Sound) : (s.retireGroup r g).Sound := by
  have h1 : ({ s with groups := Tbl.drop s.groups r } : State).Sound := ⟨hs.1, hs.groups_ok.drop, hs.3⟩
  unfold State.retireGroup
  split
  · exact hs
  · dsimp only
    split
    · exact State.endCluster_sound h1
    · exact h1

@[simp] theorem State.serviceGroup_sound {s : State} {gr : Grid} {m : Msg} {p : Fin 4} {off : Word} {w : Nat} {v : Nat} (hs : s.Sound) :
    (State.serviceGroup s gr m p off w v).Sound := by
  unfold State.serviceGroup
  try dsimp only
  repeat' split
  all_goals first
    | assumption
    | (simp [*]; done)
    | exact ⟨hs.1, hs.2, hs.3⟩

@[simp] theorem State.badService_sound {s : State} {m : Msg} {p : Fin 4} {c : Cause} {d : Nat} (hs : s.Sound) :
    (s.badService m p c d).Sound := ⟨hs.1, hs.2, hs.3⟩

@[simp] theorem State.startService_sound {s : State} {gr : Grid} {m : Msg} {p : Fin 4} (hs : s.Sound) :
    (State.startService s gr m p).Sound := by
  unfold State.startService
  extract_lets va s0 s1
  have h0 := State.devSeen_sound (tab := s.fgt gr.part) (p := gr.part) (va := va) (n := 2) hs
  have h1 : s1.Sound := ⟨h0.1, h0.2, h0.3⟩
  clear_value s1
  split
  · exact State.badService_sound h1
  · split
    · exact State.badService_sound h1
    · have h2 := State.acquire_sound (die := m.core.die) (part := gr.part) (p := .part) h1
      refine ⟨h2.1, h2.groups_ok.put ?_, h2.3⟩
      exact State.serviceGroup_sound hs

@[simp] theorem State.serviceStart_sound {s : State} {c : CoreRef} {p : Fin 4} (hs : s.Sound) :
    (State.serviceStart s c p).Sound := by
  unfold State.serviceStart
  try dsimp only
  repeat' split
  all_goals first
    | assumption
    | (simp [*]; done)
    | exact ⟨hs.1, hs.2, hs.3⟩

@[simp] theorem State.withdrawHeld_sound {s : State} {p : Fin 12} (hs : s.Sound) :
    (State.withdrawHeld s p).Sound := by
  unfold State.withdrawHeld
  refine State.foldl_sound hs fun t x hx h => ?_
  split
  · exact State.withdraw_sound h (hs.groups x hx)
  · exact h

@[simp] theorem Group.abandon_sound {g : Group} {clk : Nat} (hg : g.Sound) :
    (Group.abandon g clk).Sound := by
  unfold Group.abandon
  split
  · exact hg
  · exact hg
  · exact hg
  · have h : ({ g with hold := none } : Group).stopRun.Sound := Group.stopRun_sound ⟨hg.1, hg.2, hg.3⟩
    extract_lets top g1
    have h1 : g1.Sound := by
      simp only [g1]
      split
      · exact h
      · exact hg
    clear_value g1
    exact ⟨h1.1, h1.2, h1.3⟩

@[simp] theorem State.park_sound {s : State} {r : GroupRef} {g : Group} {swapped : Option Nat} (hs : s.Sound) (hg : g.Sound) :
    (State.park s r g swapped).Sound := by
  have h := State.writeArea_sound (g := g) (State.recordAll_sound hs hg)
  have ha := Group.abandon_sound (clk := s.clk) (Group.areaDone_soundAt g hg)
  exact ⟨h.1, h.groups_ok.drop, h.parked_ok.append (ParkedOk.one ⟨ha.1, ha.2, ha.3⟩)⟩

@[simp] theorem State.writeImages_sound {s : State} {lo len : Nat} {gs : List Group} {used : List (Nat × Nat)} (hs : s.Sound) :
    (s.writeImages lo len gs used).Sound := by
  induction gs generalizing s used with
  | nil => exact hs
  | cons g rest ih =>
    unfold State.writeImages
    extract_lets im
    split
    · exact ih hs
    · exact ih (State.putWords_sound hs)

@[simp] theorem State.writeSave_sound {s : State} {p : Fin 12} (hs : s.Sound) : (s.writeSave p).Sound := by
  unfold State.writeSave
  split
  · exact hs
  · extract_lets x
    refine State.writeImages_sound ?_
    exact ⟨Memory.scramble_wf x hs.1, hs.2, hs.3⟩

@[simp] theorem State.requestPreempt_sound {s : State} {p : Fin 12} {which : Grid → Bool} (hs : s.Sound) :
    (s.requestPreempt p which).Sound := by
  unfold State.requestPreempt
  dsimp only
  split
  · exact hs
  · refine State.withdrawHeld_sound (State.setPart_sound ?_)
    exact ⟨hs.1, hs.2, hs.3⟩

@[simp] theorem State.saveGrid_sound {s : State} {n : Nat} (hs : s.Sound) :
    (State.saveGrid s n).Sound := by
  unfold State.saveGrid
  split
  · exact hs
  · dsimp only
    split
    · exact State.setGrid_sound hs
    · refine State.closeSlice_sound (State.setGrid_sound ?_)
      exact State.foldl_sound hs fun t x hx h => State.park_sound h (hs.groups x (List.mem_filter.mp hx).1)

@[simp] theorem State.preemptSave_sound {s : State} {p : Fin 12} (hs : s.Sound) :
    (State.preemptSave s p).Sound := by
  unfold State.preemptSave
  split
  · exact hs
  · dsimp only
    have h1 := State.withdrawHeld_sound (p := p) hs
    split
    · exact h1
    · exact State.setPart_sound (State.writeSave_sound (State.foldl_sound h1 fun t x _ h => State.saveGrid_sound h))

@[simp] theorem State.comesBack_sound {s : State} {r : GroupRef} {g : Group} {x : Parked} (hs : s.Sound) (hg : g.Sound) :
    (s.comesBack r g x).Sound := ⟨hs.1, hs.groups_ok.put hg, hs.parked_ok.erase⟩

theorem State.unpark_sound {s : State} {resumed : Bool} {xs : List Parked} (hs : s.Sound) (hx : ∀ x ∈ xs, x.grp.Sound) :
    ∀ t, s.unpark resumed xs = some t → t.Sound := by
  induction xs generalizing s with
  | nil => intro t e; cases e; exact hs
  | cons x rest ih =>
    intro t e
    unfold State.unpark at e
    split at e
    · cases e
    · refine ih ?_ (fun y hy => hx y (by simp [hy])) t e
      have h := hx x (by simp)
      exact State.comesBack_sound hs ⟨h.1, h.2, h.3⟩

theorem State.unparkService_sound {s : State} {resumed : Bool} {xs : List Parked} (hs : s.Sound)
    (hx : ∀ x ∈ xs, x.grp.Sound) : ∀ t, s.unparkService resumed xs = some t → t.Sound := by
  suffices h : ∀ (xs : List Parked) (o : Option State), (∀ x ∈ xs, x.grp.Sound) → (∀ t, o = some t → t.Sound) →
      ∀ t, xs.foldl (fun acc x => acc.bind fun s =>
        if s.serving x.place.at then none
        else some (s.comesBack x.place { x.grp with resumed := x.grp.resumed || resumed } x)) o = some t → t.Sound from
    h xs (some s) hx fun t e => by cases e; exact hs
  intro xs
  induction xs with
  | nil => intro o _ ho t e; exact ho t e
  | cons x rest ih =>
    intro o hx ho t e
    refine ih _ (fun y hy => hx y (by simp [hy])) ?_ t e
    intro u eu
    obtain ⟨v, hv, e2⟩ := Option.bind_eq_some_iff.mp eu
    have h := hx x (by simp)
    have hv := ho v hv
    split at e2
    · cases e2
    · cases e2
      exact State.comesBack_sound hv ⟨h.1, h.2, h.3⟩

theorem State.restored_sound {s : State} {gr : Grid} (hs : s.Sound) : ∀ t, s.restored gr = some t → t.Sound := by
  intro t e
  unfold State.restored at e
  dsimp only at e
  have sub : ∀ f : Parked → Bool, ∀ x ∈ (s.parked.filter fun x => x.grp.grid == gr.id && x.swapped.isNone).filter f,
      x.grp.Sound := fun f x hx => hs.parked x (List.mem_filter.mp (List.mem_filter.mp hx).1).1
  split at e
  · cases e
  · obtain ⟨s1, e1, rfl⟩ := Option.map_eq_some_iff.mp e
    obtain ⟨s0, e0, e1⟩ := Option.bind_eq_some_iff.mp e1
    have h0 := State.unparkService_sound hs (sub _) s0 e0
    have h1 := State.unpark_sound h0 (sub _) s1 e1
    exact State.openSlice_sound (State.setGrid_sound (State.foldl_sound h1 fun t x _ h => State.setMatrix_sound h))

@[simp] theorem Group.resumeHalt_sound {g : Group} (hg : g.Sound) :
    (Group.resumeHalt g).Sound := by
  unfold Group.resumeHalt
  try dsimp only
  repeat' split
  all_goals first
    | assumption
    | (simp [*]; done)
    | exact ⟨hs.1, hs.2, hs.3⟩

@[simp] theorem State.sliceExpires_sound {s : State} {p : Fin 12} {q : Fin 64} (hs : s.Sound) :
    (State.sliceExpires s p q).Sound := by
  unfold State.sliceExpires
  try dsimp only
  repeat' split
  all_goals first
    | assumption
    | (simp [*]; done)
    | exact ⟨hs.1, hs.2, hs.3⟩

@[simp] theorem State.swapOut_sound {s : State} {c : CoreRef} {n : Nat} (hs : s.Sound) :
    (State.swapOut s c n).Sound := by
  unfold State.swapOut
  split
  · exact hs
  · dsimp only
    split
    · exact hs
    · split
      · rename_i r g e
        split
        · refine State.writeSave_sound (State.park_sound hs ?_)
          have hm : (r, g) ∈ (s.groupsAt c).filter fun x => x.2.grid == n && x.2.svc == .none && !x.2.ended := by
            have := List.mem_of_mem_head? (Option.mem_def.mpr e)
            exact mem_sortBy.mp this
          exact hs.groups (r, g) (List.mem_filter.mp (List.mem_filter.mp hm).1).1
        · exact hs
      · exact hs

@[simp] theorem State.swapIn_sound {s : State} {c : CoreRef} (hs : s.Sound) :
    (State.swapIn s c).Sound := by
  unfold State.swapIn
  split
  · exact hs
  · rename_i x e
    have hx := hs.parked x (List.mem_of_find?_eq_some e)
    cases e2 : s.unpark false [x] with
    | none => exact hs
    | some t =>
      refine State.unpark_sound hs (fun y hy => ?_) t e2
      rw [List.mem_singleton.mp hy]; exact hx

@[simp] theorem State.gridEnds_sound {s : State} {gr : Grid} (hs : s.Sound) :
    (State.gridEnds s gr).Sound := by
  unfold State.gridEnds
  split
  · exact hs
  · split
    · exact State.setGrid_sound (State.foldl_sound hs fun t x _ h => State.dieRelease_sound h)
    · split
      · exact hs
      · dsimp only
        refine State.closeSlice_sound ?_
        have h := State.putRecord_sound (p := gr.part) (crec := gr.crec)
          (st := if gr.term.isSome = true then .terminated else .complete) (detail := 0) (grid := gr.id) (t := gr.term) hs
        exact ⟨h.1, h.2, h.3⟩

/-! ### Errors -/

@[simp] theorem State.failBarriers_sound {s : State} {ps : List (Fin 12)} (hs : s.Sound) :
    (State.failBarriers s ps).Sound := by
  unfold State.failBarriers
  dsimp only
  refine State.foldl_sound ?_ fun t x _ h => State.foldl_sound h fun t y _ h => State.phaseDone_sound h
  exact ⟨hs.1, hs.2, hs.3⟩

@[simp] theorem State.dropWork_sound {s : State} {ps : List (Fin 12)} (hs : s.Sound) :
    (State.dropWork s ps).Sound := by
  unfold State.dropWork
  try dsimp only
  repeat' split
  all_goals first
    | assumption
    | (simp [*]; done)
    | exact ⟨hs.1, hs.2, hs.3⟩

@[simp] theorem State.reportLoss_sound {s : State} {die : Fin 12} {p : Fin 12} {crecs : List (Addr × Nat)} (hs : s.Sound) :
    (State.reportLoss s die p crecs).Sound := by
  unfold State.reportLoss
  dsimp only
  exact State.postRecovery_sound (State.setPart_sound (State.foldl_sound hs fun t x _ h => State.putRecord_sound h))

@[simp] theorem State.contain_sound {s : State} {die : Fin 12} {ps : List (Fin 12)} (hs : s.Sound) :
    (State.contain s die ps).Sound := by
  unfold State.contain
  exact State.foldl_sound (State.dropWork_sound (State.failBarriers_sound hs)) fun t x _ h => State.reportLoss_sound h

@[simp] theorem State.poisonTeam_sound {s : State} {c : CoreRef} {o : Nat} (hs : s.Sound) :
    (State.poisonTeam s c o).Sound := by
  unfold State.poisonTeam
  try dsimp only
  repeat' split
  all_goals first
    | assumption
    | (simp [*]; done)
    | exact ⟨hs.1, hs.2, hs.3⟩

@[simp] theorem State.poisonLine_sound {s : State} {a : Nat} (hs : s.Sound) :
    (State.poisonLine s a).Sound := by
  unfold State.poisonLine
  try dsimp only
  repeat' split
  all_goals first
    | assumption
    | (simp [*]; done)
    | exact ⟨hs.1, hs.2, hs.3⟩

@[simp] theorem State.loseData_sound {s : State} {r : GroupRef} {n : Nat} {l : Nat} (hs : s.Sound) :
    (State.loseData s r n l).Sound := by
  unfold State.loseData
  refine State.onGroup_sound hs fun g hg => ?_
  split
  · exact hs
  · split
    · exact hs
    · split
      all_goals first
        | exact hs
        | (split
           · exact State.moved_sound hs hg
           · exact hs)

@[simp] theorem State.loseGroup_sound {s : State} {r : GroupRef} (hs : s.Sound) :
    (State.loseGroup s r).Sound := by
  unfold State.loseGroup
  refine State.onGroup_sound hs fun g hg => ?_
  split
  · exact hs
  · exact State.terminate_sound (State.freeSlots_sound hs) ⟨hg.1, hg.2, hg.3⟩

@[simp] theorem State.rejoin_sound {s : State} {d : Fin 12} (hs : s.Sound) :
    (State.rejoin s d).Sound := by
  unfold State.rejoin
  try dsimp only
  repeat' split
  all_goals first
    | assumption
    | (simp [*]; done)
    | exact ⟨hs.1, hs.2, hs.3⟩

@[simp] theorem State.stepLink_sound {s : State} {k : Fin 46} {up : Bool} (hs : s.Sound) :
    (State.stepLink s k up).Sound := by
  unfold State.stepLink
  try dsimp only
  repeat' split
  all_goals first
    | assumption
    | (simp [*]; done)
    | exact ⟨hs.1, hs.2, hs.3⟩

@[simp] theorem State.loseMessage_sound {s : State} {c : CoreRef} {k : Nat} (hs : s.Sound) : (s.loseMessage c k).Sound := by
  unfold State.loseMessage
  exact ⟨hs.1, hs.2, hs.3⟩

@[simp] theorem Group.move_sound {v : PageMove} {g : Group} (hg : g.Sound) : (g.move v).Sound := ⟨hg.1, hg.2, hg.3⟩

@[simp] theorem State.rehome_sound {s : State} {v : PageMove} (hs : s.Sound) : (s.rehome v).Sound := by
  unfold State.rehome
  refine ⟨hs.1, hs.groups_ok.map fun x hx => ?_, hs.parked_ok.map fun x hx => ?_⟩
  · exact Group.move_sound hx
  · exact Group.move_sound hx

@[simp] theorem State.copyPage_sound {s : State} {v : PageMove} (hs : s.Sound) : (s.copyPage v).Sound := by
  have h : ∀ (ns : List Nat) (m : Memory), m.wf = true →
      (ns.foldl (fun m i => m.write (v.new * 65536 + i) (s.mem.read (v.old * 65536 + i))) m).wf = true := by
    intro ns
    induction ns with
    | nil => intro m h; exact h
    | cons n t ih => intro m h; exact ih _ (Memory.write_wf _ _ h)
  unfold State.copyPage
  have k := h (List.range (65536 * v.blocks)) s.mem hs.1
  generalize List.range (65536 * v.blocks) = ns at k ⊢
  exact ⟨k, hs.2, hs.3⟩

@[simp] theorem State.foldIn_sound {s : State} {d : Fin 12} {v : PageMove} (hs : s.Sound) : (s.foldIn d v).Sound := by
  unfold State.foldIn
  extract_lets s1 mine s2
  have h1 : s1.Sound := State.foldl_sound hs fun s x _ h => State.evictTwin_sound h
  clear_value s1
  have h2 : s2.Sound := by
    refine State.foldl_sound ?_ fun s x _ h => State.applyRecord_sound h
    exact ⟨h1.1, h1.2, h1.3⟩
  clear_value s2
  exact ⟨h2.1, h2.2, h2.3⟩

@[simp] theorem State.settleTwins_sound {s : State} (hs : s.Sound) : s.settleTwins.Sound := by
  unfold State.settleTwins
  extract_lets s1
  have h : s1.Sound := by
    simp only [s1]
    generalize List.finRange 12 = l
    exact State.foldl_sound hs fun s x _ h => State.trimDies_sound h
  clear_value s1
  exact ⟨h.1, h.2, h.3⟩

@[simp] theorem State.migrate_sound {s : State} {a : Nat} {b : Nat} (hs : s.Sound) :
    (State.migrate s a b).Sound := by
  unfold State.migrate
  split
  · exact hs
  · rename_i v _
    have h : ∀ (es : List (Nat × BitVec 64 × Nat)) (m : Memory), m.wf = true →
        (es.foldl (fun m x => m.write64 (v.pa x.1) (v.leaf x.2.1)) m).wf = true := by
      intro es
      induction es with
      | nil => intro m h; exact h
      | cons n t ih => intro m h; exact ih _ (Memory.write64_wf _ _ h)
    extract_lets s1 s2 mine
    have h2 : s2.Sound := State.rehome_sound (State.copyPage_sound (State.foldIn_sound hs))
    clear_value s2
    exact State.settleTwins_sound ⟨h _ _ h2.1, h2.2, h2.3⟩

end Sys2Proof.Machine
end

