-- ==== Sys2Proof/Laws/SoundExec.lean ====
section
/-! SUPPORT. The invariant of states and groups is kept by the meaning of every instruction, one lemma each. -/

namespace Sys2Proof.Machine

set_option Elab.async false

/-! ### Results of instructions that only compute registers -/

/-- Every result is one a group may have pending. -/
def RegsLegal (r : Result) : Prop := ∀ ws, r = .ok ws → ∀ x ∈ ws, x.2.legal = true

/-- A list of results is one a group may have pending. -/
def AllLegal (ws : List (Nat × Write)) : Prop := ∀ x ∈ ws, x.2.legal = true

theorem AllLegal.nil : AllLegal [] := fun _ h => absurd h (by simp)
theorem AllLegal.cons {x : Nat × Write} {ws : List (Nat × Write)} (h : x.2.legal = true) (hs : AllLegal ws) :
    AllLegal (x :: ws) := fun y hy => (List.mem_cons.mp hy).elim (fun e => e ▸ h) (hs y)
theorem AllLegal.one {x : Nat × Write} (h : x.2.legal = true) : AllLegal [x] := .cons h .nil

theorem AllLegal.flags {lat : Nat} {w : Write} {f : FFlags} (h : w.legal = true) : AllLegal (withFlags lat w f) := by
  unfold withFlags
  split
  · exact .one h
  · exact .cons h (.one rfl)

theorem AllLegal.pair {lat : Nat} {d : Reg} {x : Addr} : AllLegal (pairWrites lat d x) := .cons rfl (.one rfl)

theorem AllLegal.elems {c : Ctx} {lat : Nat} {d : Reg} {t : Tag} {w : Nat} {f : Nat → Nat → Nat × FFlags} :
    AllLegal (c.writeElems lat d t w f) := .flags rfl

theorem AllLegal.reg {wide : Bool} {d : Reg} {x : Addr} : AllLegal (regWrites wide d x) := by
  unfold regWrites
  split
  · exact .pair
  · exact .one rfl

theorem RegsLegal.error {e : Cause × Nat} : RegsLegal (.error e) := fun _ h => by cases h
theorem RegsLegal.ok {ws : List (Nat × Write)} (h : AllLegal ws) : RegsLegal (.ok ws) := fun _ e => by cases e; exact h

theorem RegsLegal.map {α : Type} {r : Except (Cause × Nat) α} {f : α → List (Nat × Write)} (h : ∀ a, AllLegal (f a)) :
    RegsLegal (r.map f) := by
  cases r with
  | error e => exact .error
  | ok a => exact .ok (h a)

theorem RegsLegal.uni {lat : Nat} {d : Reg} {v : Word} : RegsLegal (uniResult lat d v) := .ok (.one rfl)
theorem RegsLegal.lanes {lat : Nat} {t : Tag} {d : Reg} {f : Nat → Word} {c : Ctx} : RegsLegal (laneOp lat t d f c) :=
  .ok (.one rfl)

theorem RegsLegal.intOnly {lat : Nat} {k : Bool} {f : Tag → Nat → Nat → Int} {d a b : Reg} {c : Ctx} :
    RegsLegal (intOnly lat k f d a b c) := .map fun _ => .elems

theorem RegsLegal.intOrFlt {lat : Nat} {f : Int → Int → Int} {h : FFmt → Rnd → Nat → Nat → Nat × FFlags} {d a b : Reg}
    {c : Ctx} : RegsLegal (intOrFlt lat f h d a b c) := .map fun t => by
  split
  · exact .elems
  · exact .elems

theorem RegsLegal.shift {f : Nat → Nat → Nat → Nat} {d a b : Reg} {c : Ctx} : RegsLegal (shiftOp f d a b c) := .ok .elems
theorem RegsLegal.bits {f : Word → Word → Word} {d a b : Reg} {c : Ctx} : RegsLegal (bitwise f d a b c) := .ok (.one rfl)
theorem RegsLegal.shuffle {d a : Reg} {f : Nat → Int} {c : Ctx} : RegsLegal (shuffle d a f c) := .lanes

theorem RegsLegal.flt1 {lat : Nat} {f : Tag → Rnd → Nat → Nat × FFlags} {d a : Reg} {c : Ctx} :
    RegsLegal (flt1 lat f d a c) := .map fun _ => .elems
theorem RegsLegal.flt2 {lat : Nat} {f : FFmt → Rnd → Nat → Nat → Nat × FFlags} {d a b : Reg} {c : Ctx} :
    RegsLegal (flt2 lat f d a b c) := .map fun _ => .elems
theorem RegsLegal.flt3 {p q : Bool} {d a b z : Reg} {c : Ctx} : RegsLegal (flt3 p q d a b z c) := .map fun _ => .elems

theorem RegsLegal.convert {odd : Bool} {d a : Reg} {p : BitVec 3} {t : Tag} {c : Ctx} :
    RegsLegal (convertOp odd d a p t c) := by
  unfold convertOp
  extract_lets
  split
  · exact .error
  · exact .ok (.flags rfl)

theorem RegsLegal.pred {d : BitVec 3} {m : Mask} : RegsLegal (predAll d m) := .ok (.one rfl)
theorem RegsLegal.preds {f : Mask → Mask → Mask} {d a b : BitVec 3} {c : Ctx} : RegsLegal (predOp f d a b c) :=
  .ok (.one rfl)

/-- A register-only instruction keeps the invariant when its results are legal. -/
theorem regs_sound {i : Instr} {f : Ctx → Result} {s : State} (hs : s.Sound) (hf : ∀ c, RegsLegal (f c)) :
    OutSound (issueRegs i f s) := issueRegs_sound hs fun c ws e => hf c ws e

/-- An event of a group keeps the invariant when its function does. -/
theorem event_sound {t : State} (h : t.Sound) : OutSound (.next t) := OutSound.next.mpr h

theorem State.nextGrant_sound {s : State} {c : CoreRef} {p : Fin 4} {r : GroupRef} {g : Group} (hs : s.Sound)
    (e : s.nextGrant c p = some (r, g)) : g.Sound := by
  unfold State.nextGrant at e
  obtain ⟨k, -, hk⟩ := List.mem_filterMap.mp (List.mem_of_mem_head? e)
  dsimp only at hk
  obtain ⟨g', hg', he⟩ := Option.bind_eq_some_iff.mp hk
  split at he
  · cases he
    exact hs.group hg'
  · cases he

theorem Group.granted_sound {g : Group} (h : g.Sound) : g.granted.Sound := by
  unfold Group.granted
  split <;> exact ⟨h.1, h.2, h.3⟩

/-- The group that is granted a slot stays sound. -/
theorem State.claim_grant_sound {s : State} {c : CoreRef} {p : Fin 4} {r : GroupRef} {g : Group} {x : Fin 12}
    {so : Tbl (CoreRef × Fin 4 × Fin 2) (Fin 64)} {lg : Tbl (CoreRef × Fin 4) (Fin 64)} (hs : s.Sound)
    (e : s.nextGrant c p = some (r, g)) :
    State.Sound { (s.claimMatrix c x).setGroup r g.granted with slotOf := so, lastGrant := lg } := by
  have h := State.nextGrant_sound hs e
  have hm := State.setGroup_sound (r := r) (g := g.granted)
    (State.claimMatrix_sound (c := c) (p := x) hs) (Group.granted_sound h)
  exact ⟨hm.1, hm.2, hm.3⟩

/-! ### One lemma for each instruction -/

theorem execNop_sound {y : Bool} {s : State} (hs : s.Sound) :
    OutSound (execNop y s) := regs_sound hs fun _ => .ok .nil

theorem execBra_sound {y : Bool} {o : BitVec 18} {s : State} (hs : s.Sound) :
    OutSound (execBra y o s) := control_sound hs fun c hc => State.branch_sound hs hc.succ

theorem execBz_sound {y : Bool} {a : Reg} {o : BitVec 18} {s : State} (hs : s.Sound) :
    OutSound (execBz y a o s) := control_sound hs fun c hc => State.branch_sound hs hc.succ

theorem execBnz_sound {y : Bool} {a : Reg} {o : BitVec 18} {s : State} (hs : s.Sound) :
    OutSound (execBnz y a o s) := control_sound hs fun c hc => State.branch_sound hs hc.succ

theorem execBrp_sound {y : Bool} {n : Bool} {p : BitVec 3} {o : BitVec 18} {s : State} (hs : s.Sound) :
    OutSound (execBrp y n p o s) := control_sound hs fun c hc => State.split_sound hs hc

theorem execSetj_sound {y : Bool} {o : BitVec 18} {s : State} (hs : s.Sound) :
    OutSound (execSetj y o s) := control_sound hs fun c hc => by
    split
    · exact State.finish_sound hs hc.succ
    · split
      · exact State.restack_sound hs hc hc.succ
      · exact State.finish_sound hs hc.succ

theorem execJoin_sound {y : Bool} {s : State} (hs : s.Sound) :
    OutSound (execJoin y s) := control_sound hs fun c hc => State.finish_sound hs hc.succ

theorem execCall_sound {y : Bool} {o : BitVec 18} {s : State} (hs : s.Sound) :
    OutSound (execCall y o s) := control_sound hs fun c hc => State.callTo_sound hs hc

theorem execCalli_sound {y : Bool} {a : Reg} {s : State} (hs : s.Sound) :
    OutSound (execCalli y a s) := control_sound hs fun c hc => State.callTo_sound hs hc

theorem execCallv_sound {y : Bool} {d a : Reg} {s : State} (hs : s.Sound) :
    OutSound (execCallv y d a s) := control_sound hs fun c hc => by
    have h : (c.g.now c (c.write d .n32 fun _ => c.next)).SoundAt ((c.g.now c (c.write d .n32 fun _ => c.next)).seq + 1) := by
      rw [Group.now_seq]; exact Group.now_soundAt hc.succ rfl
    split
    · exact State.finish_sound hs h
    · split
      · exact State.restack_sound hs hc h
      · exact State.finish_sound hs hc.succ

theorem execRet_sound {y : Bool} {s : State} (hs : s.Sound) :
    OutSound (execRet y s) := control_sound hs fun c hc => by
    split
    · exact State.trapAll_sound hs hc
    · split
      · exact State.trapAll_sound hs hc
      · exact State.finish_sound hs ⟨hc.succ.1, hc.2, hc.3⟩

theorem execRetv_sound {y : Bool} {a : Reg} {s : State} (hs : s.Sound) :
    OutSound (execRetv y a s) := control_sound hs fun c hc => State.split_sound hs hc

theorem execExit_sound {y : Bool} {s : State} (hs : s.Sound) :
    OutSound (execExit y s) := control_sound hs fun c hc => by
    have h : (c.g.issued c true).Sound := Group.issued_sound hc.succ
    extract_lets
    split
    · exact State.endLane_sound hs hc
    · split
      · exact State.runEnds_sound hs ⟨h.1, h.2, h.3⟩
      · exact State.deliverMarks_sound hs ⟨h.1, h.2, h.3⟩

theorem execLoop_sound {y : Bool} {a : Reg} {o : BitVec 18} {s : State} (hs : s.Sound) :
    OutSound (execLoop y a o s) := control_sound hs fun c hc => State.branch_sound hs
      (by rw [Group.now_seq]; exact Group.now_soundAt hc.succ rfl)

theorem execElect_sound {y : Bool} {d : BitVec 3} {s : State} (hs : s.Sound) :
    OutSound (execElect y d s) := regs_sound hs fun _ => .pred

theorem execBallot_sound {y : Bool} {d a : Reg} {s : State} (hs : s.Sound) :
    OutSound (execBallot y d a s) := regs_sound hs fun _ => .ok .pair

theorem execVoteAny_sound {y : Bool} {d : Reg} {a : BitVec 3} {s : State} (hs : s.Sound) :
    OutSound (execVoteAny y d a s) := regs_sound hs fun _ => .uni

theorem execVoteAll_sound {y : Bool} {d : Reg} {a : BitVec 3} {s : State} (hs : s.Sound) :
    OutSound (execVoteAll y d a s) := regs_sound hs fun _ => .uni

theorem execActive_sound {y : Bool} {d : BitVec 3} {s : State} (hs : s.Sound) :
    OutSound (execActive y d s) := regs_sound hs fun _ => .pred

theorem execPmovs_sound {y : Bool} {d : Reg} {a : BitVec 3} {s : State} (hs : s.Sound) :
    OutSound (execPmovs y d a s) := regs_sound hs fun _ => .ok .pair

theorem execSmovp_sound {y : Bool} {d : BitVec 3} {a : Reg} {s : State} (hs : s.Sound) :
    OutSound (execSmovp y d a s) := regs_sound hs fun _ => .pred

theorem execPand_sound {y : Bool} {d a b : BitVec 3} {s : State} (hs : s.Sound) :
    OutSound (execPand y d a b s) := regs_sound hs fun _ => .preds

theorem execPor_sound {y : Bool} {d a b : BitVec 3} {s : State} (hs : s.Sound) :
    OutSound (execPor y d a b s) := regs_sound hs fun _ => .preds

theorem execPxor_sound {y : Bool} {d a b : BitVec 3} {s : State} (hs : s.Sound) :
    OutSound (execPxor y d a b s) := regs_sound hs fun _ => .preds

theorem execPnot_sound {y : Bool} {d a : BitVec 3} {s : State} (hs : s.Sound) :
    OutSound (execPnot y d a s) := regs_sound hs fun _ => .preds

theorem execPandn_sound {y : Bool} {d a b : BitVec 3} {s : State} (hs : s.Sound) :
    OutSound (execPandn y d a b s) := regs_sound hs fun _ => .preds

theorem execMatchK_sound {y : Bool} {d a : Reg} {s : State} (hs : s.Sound) :
    OutSound (execMatchK y d a s) := regs_sound hs fun c => .ok (.cons rfl (by split; exact .one rfl; exact .nil))

theorem execSadd_sound {y : Bool} {d : Reg} {a : Reg} {b : Reg} {s : State} (hs : s.Sound) :
    OutSound (execSadd y d a b s) := regs_sound hs fun _ => .uni

theorem execSsub_sound {y : Bool} {d : Reg} {a : Reg} {b : Reg} {s : State} (hs : s.Sound) :
    OutSound (execSsub y d a b s) := regs_sound hs fun _ => .uni

theorem execSand_sound {y : Bool} {d : Reg} {a : Reg} {b : Reg} {s : State} (hs : s.Sound) :
    OutSound (execSand y d a b s) := regs_sound hs fun _ => .uni

theorem execSor_sound {y : Bool} {d : Reg} {a : Reg} {b : Reg} {s : State} (hs : s.Sound) :
    OutSound (execSor y d a b s) := regs_sound hs fun _ => .uni

theorem execSxor_sound {y : Bool} {d : Reg} {a : Reg} {b : Reg} {s : State} (hs : s.Sound) :
    OutSound (execSxor y d a b s) := regs_sound hs fun _ => .uni

theorem execSandn_sound {y : Bool} {d : Reg} {a : Reg} {b : Reg} {s : State} (hs : s.Sound) :
    OutSound (execSandn y d a b s) := regs_sound hs fun _ => .uni

theorem execSshl_sound {y : Bool} {d : Reg} {a : Reg} {b : Reg} {s : State} (hs : s.Sound) :
    OutSound (execSshl y d a b s) := regs_sound hs fun _ => .uni

theorem execSshr_sound {y : Bool} {d : Reg} {a : Reg} {b : Reg} {s : State} (hs : s.Sound) :
    OutSound (execSshr y d a b s) := regs_sound hs fun _ => .uni

theorem execSsra_sound {y : Bool} {d : Reg} {a : Reg} {b : Reg} {s : State} (hs : s.Sound) :
    OutSound (execSsra y d a b s) := regs_sound hs fun _ => .uni

theorem execSmin_sound {y : Bool} {d : Reg} {a : Reg} {b : Reg} {s : State} (hs : s.Sound) :
    OutSound (execSmin y d a b s) := regs_sound hs fun _ => .uni

theorem execSmax_sound {y : Bool} {d : Reg} {a : Reg} {b : Reg} {s : State} (hs : s.Sound) :
    OutSound (execSmax y d a b s) := regs_sound hs fun _ => .uni

theorem execSminn_sound {y : Bool} {d : Reg} {a : Reg} {b : Reg} {s : State} (hs : s.Sound) :
    OutSound (execSminn y d a b s) := regs_sound hs fun _ => .uni

theorem execSmaxn_sound {y : Bool} {d : Reg} {a : Reg} {b : Reg} {s : State} (hs : s.Sound) :
    OutSound (execSmaxn y d a b s) := regs_sound hs fun _ => .uni

theorem execSmul_sound {y : Bool} {d : Reg} {a : Reg} {b : Reg} {s : State} (hs : s.Sound) :
    OutSound (execSmul y d a b s) := regs_sound hs fun _ => .uni

theorem execSmulh_sound {y : Bool} {d : Reg} {a : Reg} {b : Reg} {s : State} (hs : s.Sound) :
    OutSound (execSmulh y d a b s) := regs_sound hs fun _ => .uni

theorem execSmulhn_sound {y : Bool} {d : Reg} {a : Reg} {b : Reg} {s : State} (hs : s.Sound) :
    OutSound (execSmulhn y d a b s) := regs_sound hs fun _ => .uni

theorem execScmp_sound {y : Bool} {k : SCond} {d : Reg} {a : Reg} {b : Reg} {s : State} (hs : s.Sound) :
    OutSound (execScmp y k d a b s) := regs_sound hs fun _ => .uni

theorem execSsel_sound {y : Bool} {d : Reg} {a : Reg} {b : Reg} {c : Reg} {s : State} (hs : s.Sound) :
    OutSound (execSsel y d a b c s) := regs_sound hs fun _ => .uni

theorem execSseti_sound {y : Bool} {d : Reg} {i : BitVec 18} {s : State} (hs : s.Sound) :
    OutSound (execSseti y d i s) := regs_sound hs fun _ => .uni

theorem execSseth_sound {y : Bool} {d : Reg} {i : BitVec 18} {s : State} (hs : s.Sound) :
    OutSound (execSseth y d i s) := regs_sound hs fun _ => .uni

theorem execSaddi_sound {y : Bool} {d : Reg} {i : BitVec 18} {s : State} (hs : s.Sound) :
    OutSound (execSaddi y d i s) := regs_sound hs fun _ => .uni

theorem execSadd64_sound {y : Bool} {d : Reg} {a : Reg} {b : Reg} {s : State} (hs : s.Sound) :
    OutSound (execSadd64 y d a b s) := regs_sound hs fun _ => .ok .pair

theorem execSsub64_sound {y : Bool} {d : Reg} {a : Reg} {b : Reg} {s : State} (hs : s.Sound) :
    OutSound (execSsub64 y d a b s) := regs_sound hs fun _ => .ok .pair

theorem execSlea_sound {y : Bool} {k : BitVec 3} {d : Reg} {a : Reg} {b : Reg} {s : State} (hs : s.Sound) :
    OutSound (execSlea y k d a b s) := regs_sound hs fun _ => .ok .pair

theorem execSdiv_sound {y : Bool} {d : Reg} {a : Reg} {b : Reg} {s : State} (hs : s.Sound) :
    OutSound (execSdiv y d a b s) := regs_sound hs fun _ => .uni

theorem execSdivn_sound {y : Bool} {d : Reg} {a : Reg} {b : Reg} {s : State} (hs : s.Sound) :
    OutSound (execSdivn y d a b s) := regs_sound hs fun _ => .uni

theorem execSrem_sound {y : Bool} {d : Reg} {a : Reg} {b : Reg} {s : State} (hs : s.Sound) :
    OutSound (execSrem y d a b s) := regs_sound hs fun _ => .uni

theorem execSremn_sound {y : Bool} {d : Reg} {a : Reg} {b : Reg} {s : State} (hs : s.Sound) :
    OutSound (execSremn y d a b s) := regs_sound hs fun _ => .uni

theorem execSpopc_sound {y : Bool} {d : Reg} {a : Reg} {s : State} (hs : s.Sound) :
    OutSound (execSpopc y d a s) := regs_sound hs fun _ => .uni

theorem execSclz_sound {y : Bool} {d : Reg} {a : Reg} {s : State} (hs : s.Sound) :
    OutSound (execSclz y d a s) := regs_sound hs fun _ => .uni

theorem execSbrev_sound {y : Bool} {d : Reg} {a : Reg} {s : State} (hs : s.Sound) :
    OutSound (execSbrev y d a s) := regs_sound hs fun _ => .uni

theorem execSbfx_sound {y : Bool} {d : Reg} {a : Reg} {b : Reg} {s : State} (hs : s.Sound) :
    OutSound (execSbfx y d a b s) := regs_sound hs fun _ => .uni

theorem execSbfxn_sound {y : Bool} {d : Reg} {a : Reg} {b : Reg} {s : State} (hs : s.Sound) :
    OutSound (execSbfxn y d a b s) := regs_sound hs fun _ => .uni

theorem execSbfi_sound {y : Bool} {d : Reg} {a : Reg} {b : Reg} {c : Reg} {s : State} (hs : s.Sound) :
    OutSound (execSbfi y d a b c s) := regs_sound hs fun _ => .uni

theorem execSmov_sound {y : Bool} {d : Reg} {a : Reg} {s : State} (hs : s.Sound) :
    OutSound (execSmov y d a s) := regs_sound hs fun _ => .uni

theorem execSmovv_sound {y : Bool} {d : Reg} {a : Reg} {b : Reg} {s : State} (hs : s.Sound) :
    OutSound (execSmovv y d a b s) := regs_sound hs fun _ => .uni

theorem execSrdsr_sound {y : Bool} {d : Reg} {j : BitVec 10} {n : SReg} {s : State} (hs : s.Sound) :
    OutSound (execSrdsr y d j n s) := regs_sound hs fun c => by
    split
    · exact .ok (.one rfl)
    · exact .ok .reg

theorem execVadd_sound {y : Bool} {d : Reg} {a : Reg} {b : Reg} {s : State} (hs : s.Sound) :
    OutSound (execVadd y d a b s) := regs_sound hs fun _ => .intOrFlt

theorem execVsub_sound {y : Bool} {d : Reg} {a : Reg} {b : Reg} {s : State} (hs : s.Sound) :
    OutSound (execVsub y d a b s) := regs_sound hs fun _ => .intOrFlt

theorem execVmul_sound {y : Bool} {d : Reg} {a : Reg} {b : Reg} {s : State} (hs : s.Sound) :
    OutSound (execVmul y d a b s) := regs_sound hs fun _ => .intOrFlt

theorem execVmulh_sound {y : Bool} {d : Reg} {a : Reg} {b : Reg} {s : State} (hs : s.Sound) :
    OutSound (execVmulh y d a b s) := regs_sound hs fun _ => .intOnly

theorem execVmulhn_sound {y : Bool} {d : Reg} {a : Reg} {b : Reg} {s : State} (hs : s.Sound) :
    OutSound (execVmulhn y d a b s) := regs_sound hs fun _ => .intOnly

theorem execVmin_sound {y : Bool} {d : Reg} {a : Reg} {b : Reg} {s : State} (hs : s.Sound) :
    OutSound (execVmin y d a b s) := regs_sound hs fun _ => .intOnly

theorem execVmax_sound {y : Bool} {d : Reg} {a : Reg} {b : Reg} {s : State} (hs : s.Sound) :
    OutSound (execVmax y d a b s) := regs_sound hs fun _ => .intOnly

theorem execVminn_sound {y : Bool} {d : Reg} {a : Reg} {b : Reg} {s : State} (hs : s.Sound) :
    OutSound (execVminn y d a b s) := regs_sound hs fun _ => .intOnly

theorem execVmaxn_sound {y : Bool} {d : Reg} {a : Reg} {b : Reg} {s : State} (hs : s.Sound) :
    OutSound (execVmaxn y d a b s) := regs_sound hs fun _ => .intOnly

theorem execVand_sound {y : Bool} {d : Reg} {a : Reg} {b : Reg} {s : State} (hs : s.Sound) :
    OutSound (execVand y d a b s) := regs_sound hs fun _ => .bits

theorem execVor_sound {y : Bool} {d : Reg} {a : Reg} {b : Reg} {s : State} (hs : s.Sound) :
    OutSound (execVor y d a b s) := regs_sound hs fun _ => .bits

theorem execVxor_sound {y : Bool} {d : Reg} {a : Reg} {b : Reg} {s : State} (hs : s.Sound) :
    OutSound (execVxor y d a b s) := regs_sound hs fun _ => .bits

theorem execVandn_sound {y : Bool} {d : Reg} {a : Reg} {b : Reg} {s : State} (hs : s.Sound) :
    OutSound (execVandn y d a b s) := regs_sound hs fun _ => .bits

theorem execVshl_sound {y : Bool} {d : Reg} {a : Reg} {b : Reg} {s : State} (hs : s.Sound) :
    OutSound (execVshl y d a b s) := regs_sound hs fun _ => .shift

theorem execVshr_sound {y : Bool} {d : Reg} {a : Reg} {b : Reg} {s : State} (hs : s.Sound) :
    OutSound (execVshr y d a b s) := regs_sound hs fun _ => .shift

theorem execVsra_sound {y : Bool} {d : Reg} {a : Reg} {b : Reg} {s : State} (hs : s.Sound) :
    OutSound (execVsra y d a b s) := regs_sound hs fun _ => .shift

theorem execVabs_sound {y : Bool} {d : Reg} {a : Reg} {s : State} (hs : s.Sound) :
    OutSound (execVabs y d a s) := regs_sound hs fun _ => .intOnly

theorem execVneg_sound {y : Bool} {d : Reg} {a : Reg} {s : State} (hs : s.Sound) :
    OutSound (execVneg y d a s) := regs_sound hs fun _ => .intOnly

theorem execVnot_sound {y : Bool} {d : Reg} {a : Reg} {s : State} (hs : s.Sound) :
    OutSound (execVnot y d a s) := regs_sound hs fun _ => .bits

theorem execVmad_sound {y : Bool} {d : Reg} {a : Reg} {b : Reg} {c : Reg} {s : State} (hs : s.Sound) :
    OutSound (execVmad y d a b c s) := regs_sound hs fun c => .map fun _ => .elems

theorem execVdot4_sound {y : Bool} {d : Reg} {a : Reg} {b : Reg} {c : Reg} {s : State} (hs : s.Sound) :
    OutSound (execVdot4 y d a b c s) := regs_sound hs fun k => by
    extract_lets
    split
    · exact .lanes
    · exact .error

theorem execLog3_sound {y : Bool} {d : Reg} {a : Reg} {b : Reg} {c : Reg} {s : State} (hs : s.Sound) :
    OutSound (execLog3 y d a b c s) := regs_sound hs fun _ => .lanes

theorem execVbfx_sound {y : Bool} {d : Reg} {a : Reg} {b : Reg} {s : State} (hs : s.Sound) :
    OutSound (execVbfx y d a b s) := regs_sound hs fun _ => .lanes

theorem execVbfxn_sound {y : Bool} {d : Reg} {a : Reg} {b : Reg} {s : State} (hs : s.Sound) :
    OutSound (execVbfxn y d a b s) := regs_sound hs fun _ => .lanes

theorem execVbfi_sound {y : Bool} {d : Reg} {a : Reg} {b : Reg} {c : Reg} {s : State} (hs : s.Sound) :
    OutSound (execVbfi y d a b c s) := regs_sound hs fun _ => .lanes

theorem execVfsh_sound {y : Bool} {d : Reg} {a : Reg} {b : Reg} {c : Reg} {s : State} (hs : s.Sound) :
    OutSound (execVfsh y d a b c s) := regs_sound hs fun _ => .lanes

theorem execVfshl_sound {y : Bool} {d : Reg} {a : Reg} {b : Reg} {c : Reg} {s : State} (hs : s.Sound) :
    OutSound (execVfshl y d a b c s) := regs_sound hs fun _ => .lanes

theorem execVpopc_sound {y : Bool} {d : Reg} {a : Reg} {s : State} (hs : s.Sound) :
    OutSound (execVpopc y d a s) := regs_sound hs fun _ => .lanes

theorem execVclz_sound {y : Bool} {d : Reg} {a : Reg} {s : State} (hs : s.Sound) :
    OutSound (execVclz y d a s) := regs_sound hs fun _ => .lanes

theorem execVctz_sound {y : Bool} {d : Reg} {a : Reg} {s : State} (hs : s.Sound) :
    OutSound (execVctz y d a s) := regs_sound hs fun _ => .lanes

theorem execVbrev_sound {y : Bool} {d : Reg} {a : Reg} {s : State} (hs : s.Sound) :
    OutSound (execVbrev y d a s) := regs_sound hs fun _ => .lanes

theorem execVcmp_sound {y : Bool} {k : VCond} {d : BitVec 3} {a : Reg} {b : Reg} {s : State} (hs : s.Sound) :
    OutSound (execVcmp y k d a b s) := regs_sound hs fun c => .map fun _ => .one rfl

theorem execVsel_sound {y : Bool} {d : Reg} {a : Reg} {b : Reg} {c : BitVec 3} {s : State} (hs : s.Sound) :
    OutSound (execVsel y d a b c s) := regs_sound hs fun _ => .lanes

theorem execVmov_sound {y : Bool} {d : Reg} {a : Reg} {s : State} (hs : s.Sound) :
    OutSound (execVmov y d a s) := regs_sound hs fun _ => .lanes

theorem execVbcast_sound {y : Bool} {d : Reg} {a : Reg} {t : Tag} {s : State} (hs : s.Sound) :
    OutSound (execVbcast y d a t s) := regs_sound hs fun _ => .lanes

theorem execVlane_sound {y : Bool} {d : Reg} {a : Reg} {b : Reg} {s : State} (hs : s.Sound) :
    OutSound (execVlane y d a b s) := regs_sound hs fun _ => .lanes

theorem execVshfIdx_sound {y : Bool} {d : Reg} {a : Reg} {b : Reg} {s : State} (hs : s.Sound) :
    OutSound (execVshfIdx y d a b s) := regs_sound hs fun _ => .shuffle

theorem execVshfUp_sound {y : Bool} {d : Reg} {a : Reg} {b : Reg} {s : State} (hs : s.Sound) :
    OutSound (execVshfUp y d a b s) := regs_sound hs fun _ => .shuffle

theorem execVshfDn_sound {y : Bool} {d : Reg} {a : Reg} {b : Reg} {s : State} (hs : s.Sound) :
    OutSound (execVshfDn y d a b s) := regs_sound hs fun _ => .shuffle

theorem execVshfXor_sound {y : Bool} {d : Reg} {a : Reg} {b : Reg} {s : State} (hs : s.Sound) :
    OutSound (execVshfXor y d a b s) := regs_sound hs fun _ => .shuffle

theorem execVred_sound {y : Bool} {k : RedOp} {d : Reg} {a : Reg} {s : State} (hs : s.Sound) :
    OutSound (execVred y k d a s) := regs_sound hs fun c => .map fun _ => .flags rfl

theorem execVscan_sound {y : Bool} {e : Bool} {k : RedOp} {d : Reg} {a : Reg} {s : State} (hs : s.Sound) :
    OutSound (execVscan y e k d a s) := regs_sound hs fun c => .map fun _ => .flags rfl

theorem execFadd_sound {y : Bool} {d : Reg} {a : Reg} {b : Reg} {s : State} (hs : s.Sound) :
    OutSound (execFadd y d a b s) := regs_sound hs fun _ => .flt2

theorem execFsub_sound {y : Bool} {d : Reg} {a : Reg} {b : Reg} {s : State} (hs : s.Sound) :
    OutSound (execFsub y d a b s) := regs_sound hs fun _ => .flt2

theorem execFmul_sound {y : Bool} {d : Reg} {a : Reg} {b : Reg} {s : State} (hs : s.Sound) :
    OutSound (execFmul y d a b s) := regs_sound hs fun _ => .flt2

theorem execFmin_sound {y : Bool} {d : Reg} {a : Reg} {b : Reg} {s : State} (hs : s.Sound) :
    OutSound (execFmin y d a b s) := regs_sound hs fun _ => .flt2

theorem execFmax_sound {y : Bool} {d : Reg} {a : Reg} {b : Reg} {s : State} (hs : s.Sound) :
    OutSound (execFmax y d a b s) := regs_sound hs fun _ => .flt2

theorem execFabs_sound {y : Bool} {d : Reg} {a : Reg} {s : State} (hs : s.Sound) :
    OutSound (execFabs y d a s) := regs_sound hs fun _ => .flt1

theorem execFneg_sound {y : Bool} {d : Reg} {a : Reg} {s : State} (hs : s.Sound) :
    OutSound (execFneg y d a s) := regs_sound hs fun _ => .flt1

theorem execFcpsgn_sound {y : Bool} {d : Reg} {a : Reg} {b : Reg} {s : State} (hs : s.Sound) :
    OutSound (execFcpsgn y d a b s) := regs_sound hs fun _ => .flt2

theorem execFma_sound {y : Bool} {d : Reg} {a : Reg} {b : Reg} {c : Reg} {s : State} (hs : s.Sound) :
    OutSound (execFma y d a b c s) := regs_sound hs fun _ => .flt3

theorem execFms_sound {y : Bool} {d : Reg} {a : Reg} {b : Reg} {c : Reg} {s : State} (hs : s.Sound) :
    OutSound (execFms y d a b c s) := regs_sound hs fun _ => .flt3

theorem execFnma_sound {y : Bool} {d : Reg} {a : Reg} {b : Reg} {c : Reg} {s : State} (hs : s.Sound) :
    OutSound (execFnma y d a b c s) := regs_sound hs fun _ => .flt3

theorem execFcmp_sound {y : Bool} {k : FCond} {d : BitVec 3} {a : Reg} {b : Reg} {s : State} (hs : s.Sound) :
    OutSound (execFcmp y k d a b s) := regs_sound hs fun c => .map fun _ => .flags rfl

theorem execFrcp_sound {y : Bool} {d : Reg} {a : Reg} {s : State} (hs : s.Sound) :
    OutSound (execFrcp y d a s) := regs_sound hs fun _ => .flt1

theorem execFrsq_sound {y : Bool} {d : Reg} {a : Reg} {s : State} (hs : s.Sound) :
    OutSound (execFrsq y d a s) := regs_sound hs fun _ => .flt1

theorem execFsqrt_sound {y : Bool} {d : Reg} {a : Reg} {s : State} (hs : s.Sound) :
    OutSound (execFsqrt y d a s) := regs_sound hs fun _ => .flt1

theorem execFexp2_sound {y : Bool} {d : Reg} {a : Reg} {s : State} (hs : s.Sound) :
    OutSound (execFexp2 y d a s) := regs_sound hs fun _ => .flt1

theorem execFlog2_sound {y : Bool} {d : Reg} {a : Reg} {s : State} (hs : s.Sound) :
    OutSound (execFlog2 y d a s) := regs_sound hs fun _ => .flt1

theorem execFsin_sound {y : Bool} {d : Reg} {a : Reg} {s : State} (hs : s.Sound) :
    OutSound (execFsin y d a s) := regs_sound hs fun _ => .flt1

theorem execFcos_sound {y : Bool} {d : Reg} {a : Reg} {s : State} (hs : s.Sound) :
    OutSound (execFcos y d a s) := regs_sound hs fun _ => .flt1

theorem execFtanh_sound {y : Bool} {d : Reg} {a : Reg} {s : State} (hs : s.Sound) :
    OutSound (execFtanh y d a s) := regs_sound hs fun _ => .flt1

theorem execFsigm_sound {y : Bool} {d : Reg} {a : Reg} {s : State} (hs : s.Sound) :
    OutSound (execFsigm y d a s) := regs_sound hs fun _ => .flt1

theorem execFdiv_sound {y : Bool} {d : Reg} {a : Reg} {b : Reg} {s : State} (hs : s.Sound) :
    OutSound (execFdiv y d a b s) := regs_sound hs fun _ => .flt2

theorem execFclass_sound {y : Bool} {d : Reg} {a : Reg} {s : State} (hs : s.Sound) :
    OutSound (execFclass y d a s) := regs_sound hs fun c => .map fun _ => .elems

theorem execFscale_sound {y : Bool} {d : Reg} {a : Reg} {b : Reg} {s : State} (hs : s.Sound) :
    OutSound (execFscale y d a b s) := regs_sound hs fun c => by
    dsimp only
    cases tagFlt (c.tag a) && c.tag b == (if c.tag a = .f32 then .i32 else .i16x2)
    · exact .error
    · exact .ok .elems

theorem execFrint_sound {y : Bool} {d : Reg} {a : Reg} {s : State} (hs : s.Sound) :
    OutSound (execFrint y d a s) := regs_sound hs fun _ => .flt1

theorem execFfrac_sound {y : Bool} {d : Reg} {a : Reg} {s : State} (hs : s.Sound) :
    OutSound (execFfrac y d a s) := regs_sound hs fun _ => .flt1

theorem execFdot2_sound {y : Bool} {d : Reg} {a : Reg} {b : Reg} {c : Reg} {s : State} (hs : s.Sound) :
    OutSound (execFdot2 y d a b c s) := regs_sound hs fun k => by
    extract_lets
    split
    · exact .ok .elems
    · exact .error

theorem execCvt_sound {y : Bool} {d : Reg} {a : Reg} {p : BitVec 3} {t : Tag} {s : State} (hs : s.Sound) :
    OutSound (execCvt y d a p t s) := regs_sound hs fun _ => .convert

theorem execCvtn_sound {y : Bool} {d : Reg} {a : Reg} {p : BitVec 3} {t : Tag} {s : State} (hs : s.Sound) :
    OutSound (execCvtn y d a p t s) := regs_sound hs fun _ => .convert

theorem execCvtps_sound {y : Bool} {d : Reg} {a : Reg} {b : Reg} {p : BitVec 2} {s : State} (hs : s.Sound) :
    OutSound (execCvtps y d a b p s) := regs_sound hs fun c => by
    split
    · exact .ok (.flags rfl)
    · exact .error

theorem execPack_sound {y : Bool} {d : Reg} {a : Reg} {b : Reg} {t : Tag} {s : State} (hs : s.Sound) :
    OutSound (execPack y d a b t s) := regs_sound hs fun _ => .lanes

theorem execUnpk_sound {y : Bool} {d : Reg} {a : Reg} {j : BitVec 3} {s : State} (hs : s.Sound) :
    OutSound (execUnpk y d a j s) := regs_sound hs fun c => by
    extract_lets
    split
    · exact .ok .elems
    · exact .error

theorem execTagset_sound {y : Bool} {d : Reg} {t : Tag} {s : State} (hs : s.Sound) :
    OutSound (execTagset y d t s) := regs_sound hs fun c => .ok (.one rfl)

theorem execTagrd_sound {y : Bool} {d : Reg} {a : Reg} {s : State} (hs : s.Sound) :
    OutSound (execTagrd y d a s) := regs_sound hs fun _ => .uni

theorem execLdg_sound {y : Bool} {d b j : Reg} {q : Order} {p : Scope} {s : State} (hs : s.Sound) :
    OutSound (execLdg y d b j q p s) := memory_sound hs

theorem execStg_sound {y : Bool} {d b j : Reg} {q : Order} {p : Scope} {s : State} (hs : s.Sound) :
    OutSound (execStg y d b j q p s) := memory_sound hs

theorem execLdt_sound {y : Bool} {d b j : Reg} {q : Order} {p : Scope} {s : State} (hs : s.Sound) :
    OutSound (execLdt y d b j q p s) := memory_sound hs

theorem execStt_sound {y : Bool} {d b j : Reg} {q : Order} {p : Scope} {s : State} (hs : s.Sound) :
    OutSound (execStt y d b j q p s) := memory_sound hs

theorem execLdk_sound {y : Bool} {d b j : Reg} {q : Order} {p : Scope} {s : State} (hs : s.Sound) :
    OutSound (execLdk y d b j q p s) := memory_sound hs

theorem execStk_sound {y : Bool} {d b j : Reg} {q : Order} {p : Scope} {s : State} (hs : s.Sound) :
    OutSound (execStk y d b j q p s) := memory_sound hs

theorem execLdgw_sound {y : Bool} {d b j : Reg} {q : Order} {p : Scope} {s : State} (hs : s.Sound) :
    OutSound (execLdgw y d b j q p s) := memory_sound hs

theorem execStgw_sound {y : Bool} {d b j : Reg} {q : Order} {p : Scope} {s : State} (hs : s.Sound) :
    OutSound (execStgw y d b j q p s) := memory_sound hs

theorem execPref_sound {y l : Bool} {b j : Reg} {s : State} (hs : s.Sound) :
    OutSound (execPref y l b j s) := State.withCtx_sound hs fun c hc => by
    split
    · exact State.finish_sound hs hc.succ
    · extract_lets
      split
      · exact State.setGroup_sound hs ⟨hc.1, hc.2, hc.3⟩
      · exact State.finish_sound (State.foldl_sound hs fun s x _ h => State.prefetch_sound h hc) hc.succ

theorem execWaitc_sound {y : Bool} {a : Reg} {k : Path} {s : State} (hs : s.Sound) :
    OutSound (execWaitc y a k s) := State.withCtx_sound hs fun c hc => by
    extract_lets
    split
    · exact State.finish_sound hs hc.succ
    · split
      · split
        · exact State.finish_sound hs hc.succ
        · exact State.deliverMarks_sound hs (Group.issued_sound hc.succ)
      · exact State.beginWait_sound hs hc.succ

theorem execCvta_sound {y : Bool} {d a : Reg} {t : Window} {s : State} (hs : s.Sound) :
    OutSound (execCvta y d a t s) := regs_sound hs fun c => by
    cases t
    all_goals first
      | exact .ok (.one rfl)
      | exact .ok (.cons rfl (.one rfl))

theorem execSpace_sound {y : Bool} {d a : Reg} {s : State} (hs : s.Sound) :
    OutSound (execSpace y d a s) := regs_sound hs fun c => .ok (.one rfl)

theorem execFlushl_sound {y m : Bool} {b j : Reg} {p : Scope} {s : State} (hs : s.Sound) :
    OutSound (execFlushl y m b j p s) := memory_sound hs

theorem execAtom_sound {y : Bool} {d b j : Reg} {k : AtomOp} {q : Order} {s : State} (hs : s.Sound) :
    OutSound (execAtom y d b j k q s) := vectorAtomic_sound hs

theorem execAtomu_sound {y : Bool} {d b j : Reg} {k : AtomOp} {q : Order} {s : State} (hs : s.Sound) :
    OutSound (execAtomu y d b j k q s) := memory_sound hs

theorem execRed_sound {y : Bool} {d b j : Reg} {k : AtomOp} {q : Order} {s : State} (hs : s.Sound) :
    OutSound (execRed y d b j k q s) := vectorAtomic_sound hs

theorem execLck_sound {y : Bool} {d b j : Reg} {q : Order} {s : State} (hs : s.Sound) :
    OutSound (execLck y d b j q s) := requestLock_sound hs

theorem execUlck_sound {y : Bool} {d b j : Reg} {q : Order} {s : State} (hs : s.Sound) :
    OutSound (execUlck y d b j q s) := lockWordOp_sound hs fun c ea line at_ ts hc => by
    have h := State.holdFor_sound (q := q) (named := modeScope c.g.mode) (lines := [line]) hs hc
    split
    · exact State.stall_sound hs hc
    · split
      · exact State.finish_sound (State.touchAll_sound hs) ⟨hc.succ.1, hc.2, hc.3⟩
      · split
        · rename_i e
          rw [e] at h
          exact h
        · rename_i e
          rw [e] at h
          exact State.finish_sound (State.touchAll_sound h) ⟨hc.succ.1, hc.2, hc.3⟩

theorem execLckq_sound {y : Bool} {d b j : Reg} {q : Order} {s : State} (hs : s.Sound) :
    OutSound (execLckq y d b j q s) := requestLock_sound hs

theorem execFence_sound {y : Bool} {q : Order} {p : Scope} {s : State} (hs : s.Sound) :
    OutSound (execFence y q p s) := State.withCtx_sound hs fun c hc => by
    have h := State.holdFor_sound (q := q) (named := p) (lines := []) hs hc
    split
    · exact State.finish_sound hs hc.succ
    · split
      · rename_i e
        rw [e] at h
        exact h
      · rename_i t _ e
        rw [e] at h
        have ht : t.Sound := h
        split
        · refine State.setGroup_sound ht ?_
          have k : ((t.group c.r).getD c.g).Sound := by
            cases e1 : t.group c.r with
            | none => exact hc
            | some g => exact ht.group e1
          exact ⟨k.1, k.2, k.3⟩
        · refine State.finish_sound ?_ hc.succ
          split
          · exact State.acquire_sound ht
          · exact ht

theorem execBara_sound {y : Bool} {d n : Reg} {l : Level} {s : State} (hs : s.Sound) :
    OutSound (execBara y d n l s) := State.withCtx_sound hs fun c hc => by
    split
    · exact State.finish_sound hs hc.succ
    · exact State.arriving_sound hs hc fun t ph ht =>
        State.finish_sound ht (by
          simp only [Group.later_seq, Group.sendArrival_seq]
          exact Group.later_soundAt _ _ _ _ (Group.sendArrival_soundAt hc.succ) (Nat.lt_succ_self _) rfl)

theorem execBarw_sound {y : Bool} {d n b : Reg} {l : Level} {s : State} (hs : s.Sound) :
    OutSound (execBarw y d n b l s) := State.withCtx_sound hs fun c hc => by
    split
    · exact State.finish_sound hs hc.succ
    · exact State.awaitPhase_sound hs hc.succ

theorem execBar_sound {y : Bool} {d n : Reg} {l : Level} {s : State} (hs : s.Sound) :
    OutSound (execBar y d n l s) := State.withCtx_sound hs fun c hc => by
    extract_lets
    split
    · exact State.finish_sound hs hc.succ
    · split
      · split
        · exact State.awaitPhase_sound hs hc.succ
        · exact State.arriving_sound hs hc fun t ph ht =>
            State.awaitPhase_sound (State.arriveNow_sound ht hc) ⟨hc.succ.1, hc.2, hc.3⟩
      · exact State.arriving_sound hs hc fun t ph ht =>
          State.awaitPhase_sound (State.arriveNow_sound ht hc) ⟨hc.succ.1, hc.2, hc.3⟩

theorem execBarq_sound {y : Bool} {d n : Reg} {l : Level} {s : State} (hs : s.Sound) :
    OutSound (execBarq y d n l s) := State.withCtx_sound hs fun c hc => by
    split
    · exact State.finish_sound hs hc.succ
    · exact State.finish_sound hs (Group.later_soundAt _ _ _ _ hc.succ (Nat.lt_succ_self _) rfl)

theorem execSvdecl_sound {y : Bool} {d a b : Reg} {s : State} (hs : s.Sound) :
    OutSound (execSvdecl y d a b s) := memory_sound hs

theorem execSvdrop_sound {y : Bool} {d a : Reg} {s : State} (hs : s.Sound) :
    OutSound (execSvdrop y d a s) := memory_sound hs

theorem execGrfl_sound {y : Bool} {b j : Reg} {p : Scope} {s : State} (hs : s.Sound) :
    OutSound (execGrfl y b j p s) := memory_sound hs

theorem execBload_sound {y : Bool} {d a b : Reg} {n : Bool} {s : State} (hs : s.Sound) :
    OutSound (execBload y d a b n s) := matrixOp_sound hs

theorem execMma_sound {y : Bool} {d a b : Reg} {z : Bool} {t : Tag} {s : State} (hs : s.Sound) :
    OutSound (execMma y d a b z t s) := matrixOp_sound hs

theorem execMmap_sound {y : Bool} {d a b : Reg} {z : Bool} {t : Tag} {s : State} (hs : s.Sound) :
    OutSound (execMmap y d a b z t s) := matrixOp_sound hs

theorem execAccz_sound {y : Bool} {a : Reg} {s : State} (hs : s.Sound) :
    OutSound (execAccz y a s) := matrixOp_sound hs

theorem execAccrd_sound {y : Bool} {d a : Reg} {n : Bool} {t : Tag} {s : State} (hs : s.Sound) :
    OutSound (execAccrd y d a n t s) := matrixOp_sound hs

theorem execAccwr_sound {y : Bool} {d a : Reg} {s : State} (hs : s.Sound) :
    OutSound (execAccwr y d a s) := matrixOp_sound hs

theorem execAccscl_sound {y : Bool} {a b : Reg} {s : State} (hs : s.Sound) :
    OutSound (execAccscl y a b s) := matrixOp_sound hs

theorem execRank_sound {y : Bool} {d a b : Reg} {s : State} (hs : s.Sound) :
    OutSound (execRank y d a b s) := matrixOp_sound hs

theorem execRkld_sound {y : Bool} {a : Reg} {s : State} (hs : s.Sound) :
    OutSound (execRkld y a s) := matrixOp_sound hs

theorem execMmar_sound {y : Bool} {d a b : Reg} {p : Bool} {s : State} (hs : s.Sound) :
    OutSound (execMmar y d a b p s) := matrixOp_sound hs

theorem execRkval_sound {y : Bool} {d a b : Reg} {s : State} (hs : s.Sound) :
    OutSound (execRkval y d a b s) := matrixOp_sound hs

theorem execCpkick_sound {y : Bool} {d a : Reg} {s : State} (hs : s.Sound) :
    OutSound (execCpkick y d a s) := postOp_sound hs

theorem execWaita_sound {y : Bool} {d a b : Reg} {s : State} (hs : s.Sound) :
    OutSound (execWaita y d a b s) := State.withCtx_sound hs fun c hc => by
    split
    · exact State.finish_sound hs hc.succ
    · extract_lets
      split
      · exact State.trapAll_sound hs hc
      · split
        · exact State.trapAll_sound hs hc
        · split
          · exact hs
          · split
            · exact State.finish_sound (State.acquire_sound hs)
                ((Group.land_soundAt _ _ _ hc.succ rfl).of' (Group.land_seq _ _ _))
            · exact State.beginWait_sound hs hc.succ

theorem execBlend_sound {y : Bool} {d a : Reg} {s : State} (hs : s.Sound) :
    OutSound (execBlend y d a s) := postOp_sound hs

theorem execAmsend_sound {y : Bool} {d a b : Reg} {n : BitVec 5} {s : State} (hs : s.Sound) :
    OutSound (execAmsend y d a b n s) := postOp_sound hs

theorem execStmc_sound {y : Bool} {d b j : Reg} {q : Order} {p : Scope} {s : State} (hs : s.Sound) :
    OutSound (execStmc y d b j q p s) := memory_sound hs

theorem execLdred_sound {y : Bool} {d b j : Reg} {q : Order} {p : Scope} {s : State} (hs : s.Sound) :
    OutSound (execLdred y d b j q p s) := State.withCtx_sound hs fun c hc => by
    extract_lets
    split
    · exact State.finish_sound hs hc.succ
    · split
      · exact State.trapAll_sound hs hc
      · exact State.issueMem_sound hs hc

theorem execFatom_sound {y : Bool} {d b j : Reg} {k : AtomOp} {q : Order} {s : State} (hs : s.Sound) :
    OutSound (execFatom y d b j k q s) := vectorAtomic_sound hs

theorem execSeal_sound {y : Bool} {d a : Reg} {s : State} (hs : s.Sound) :
    OutSound (execSeal y d a s) := memory_sound hs

theorem execSealOpen_sound {y : Bool} {d a : Reg} {s : State} (hs : s.Sound) :
    OutSound (execSealOpen y d a s) := memory_sound hs

theorem execVintrd_sound {y : Bool} {d a : Reg} {s : State} (hs : s.Sound) :
    OutSound (execVintrd y d a s) := memory_sound hs

theorem execLaunch_sound {y : Bool} {d a b : Reg} {s : State} (hs : s.Sound) :
    OutSound (execLaunch y d a b s) := State.withCtx_sound hs fun c hc => by
    have h := State.holdFor_sound (q := .rel) (named := .part) (lines := []) hs hc
    split
    · exact State.finish_sound hs hc.succ
    · extract_lets
      split
      · exact State.setGroup_sound hs ⟨hc.1, hc.2, hc.3⟩
      · exact State.setGroup_sound hs ⟨hc.1, hc.2, hc.3⟩
      · exact State.trapAll_sound hs hc
      · exact State.trapAll_sound hs hc
      · split
        · exact State.stall_sound hs hc
        · split
          · rename_i e
            rw [e] at h
            exact h
          · rename_i t _ e
            rw [e] at h
            have ht : t.Sound := h
            exact State.finish_sound (State.launchChild_sound (State.touchAll_sound (State.touchAll_sound ht)) hc)
              ⟨hc.succ.1, hc.2, hc.3⟩

theorem execTilesig_sound {y : Bool} {d a b : Reg} {p : Scope} {s : State} (hs : s.Sound) :
    OutSound (execTilesig y d a b p s) := tileOp_sound hs fun c ea ps ts hc => by
    have fin (t : State) (ht : t.Sound) : ((t.touchAll ts true).finish c
        (c.g.addAccess (c.once .k .store .none ea (ps.drop 3) [c.g.uni d])) .falls []).Sound :=
      State.finish_sound (State.touchAll_sound ht) ⟨hc.succ.1, hc.2, hc.3⟩
    extract_lets st
    split
    · exact State.stall_sound hs hc
    · split
      · exact hs
      · split
        · split
          · exact fin _ hs
          · exact hs
        · split
          · exact State.stall_sound hs hc
          · split
            · exact fin _ hs
            · have h := State.spanRelease_sound (s := s) (die := c.r.die)
                (blocks := s.spanBlocks c.g.part (s.tileSpan c.r.die c.g.part ps).1 (s.tileSpan c.r.die c.g.part ps).2) hs
              show State.Sound (if _ then _ else _)
              split
              · exact fin _ h
              · exact State.setGroup_sound h ⟨hc.1, hc.2, hc.3⟩

theorem execTilew_sound {y : Bool} {d a b : Reg} {p : Scope} {s : State} (hs : s.Sound) :
    OutSound (execTilew y d a b p s) := tileOp_sound hs fun c ea ps ts hc => by
    split
    · exact hs
    · extract_lets s1
      have h1 : s1.Sound := State.touchAll_sound hs
      split
      · rename_i t w e
        exact State.finish_sound (State.genReady_sound h1 hc _ e)
          ((Group.land_soundAt _ _ _ hc.succ rfl).of' (Group.land_seq _ _ _))
      · exact State.beginWait_sound h1 hc.succ

theorem execSetmode_sound {y : Bool} {a : Reg} {s : State} (hs : s.Sound) :
    OutSound (execSetmode y a s) := State.withCtx_sound hs fun c hc => State.setMode_sound hs hc hc.succ rfl fun x h => absurd h (by simp)

theorem execModef_sound {y : Bool} {d a b : Reg} {s : State} (hs : s.Sound) :
    OutSound (execModef y d a b s) := State.withCtx_sound hs fun c hc => by
    have h := Group.clearFlags_sound hc
    exact State.setMode_sound hs hc h.succ rfl fun x hx => by simp at hx; subst hx; rfl

theorem execGetmode_sound {y : Bool} {d : Reg} {s : State} (hs : s.Sound) :
    OutSound (execGetmode y d s) := regs_sound hs fun _ => .uni

theorem execSysrd_sound {y : Bool} {d : Reg} {n : SysReg} {s : State} (hs : s.Sound) :
    OutSound (execSysrd y d n s) := regs_sound hs fun c => .ok .reg

theorem execSyswr_sound {y : Bool} {d : Reg} {n : SysReg} {s : State} (hs : s.Sound) :
    OutSound (execSyswr y d n s) := State.withCtx_sound hs fun c hc => State.finish_sound hs (Group.sysWrite_sound hc).succ

theorem execTlbinv_sound {y : Bool} {a : Reg} {s : State} (hs : s.Sound) :
    OutSound (execTlbinv y a s) := State.withCtx_sound hs fun c hc => by
    extract_lets
    split
    all_goals first
      | exact State.issueOnce_sound hs hc
      | exact State.trapAll_sound hs hc

theorem execTlbinvAll_sound {y : Bool} {s : State} (hs : s.Sound) :
    OutSound (execTlbinvAll y s) := State.withCtx_sound hs fun c hc => State.issueOnce_sound hs hc

theorem execCtxsv_sound {y : Bool} {d a : Reg} {s : State} (hs : s.Sound) :
    OutSound (execCtxsv y d a s) := imageOp_sound hs fun c ps ts hc =>
    State.finish_sound (State.storePlaces_sound (State.touchAll_sound (State.writeArea_sound hs)))
      ((Group.land_soundAt _ _ _ (Group.areaDone_soundAt _ hc.succ) rfl).of' (Group.land_seq _ _ _))

theorem execCtxld_sound {y : Bool} {a : Reg} {s : State} (hs : s.Sound) :
    OutSound (execCtxld y a s) := imageOp_sound hs fun c ps ts hc => by
    have h1 := State.loadPlaces_sound (die := c.r.die) (part := c.g.part) (x3 := ps) (State.touchAll_sound (ts := ts) (store := false) hs)
    dsimp only
    split
    · exact State.trapAll_sound h1 hc
    · split
      · exact State.takeImage_sound h1 ‹_›
      · exact State.trapAll_sound h1 hc

theorem execHalt_sound {y : Bool} {s : State} (hs : s.Sound) :
    OutSound (execHalt y s) := State.withCtx_sound hs fun c hc => State.haltGroup_sound hs hc

theorem execSleep_sound {y : Bool} {a : Reg} {s : State} (hs : s.Sound) :
    OutSound (execSleep y a s) := State.withCtx_sound hs fun c hc => by
    split
    · exact State.finish_sound hs hc.succ
    · exact State.beginWait_sound hs hc.succ

theorem execTrap_sound {y : Bool} {n : BitVec 6} {s : State} (hs : s.Sound) :
    OutSound (execTrap y n s) := control_sound hs fun c hc => State.trapAll_sound hs hc

theorem execRett_sound {y : Bool} {s : State} (hs : s.Sound) :
    OutSound (execRett y s) := State.withCtx_sound hs fun c hc => State.endLane_sound hs hc

theorem execRettNext_sound {y : Bool} {s : State} (hs : s.Sound) :
    OutSound (execRettNext y s) := State.withCtx_sound hs fun c hc => State.endLane_sound hs hc

theorem execRettKill_sound {y : Bool} {s : State} (hs : s.Sound) :
    OutSound (execRettKill y s) := State.withCtx_sound hs fun c hc => State.endLane_sound hs hc

theorem execYield_sound {y : Bool} {s : State} (hs : s.Sound) :
    OutSound (execYield y s) := control_sound hs fun c hc => State.finish_sound hs ⟨hc.succ.1, hc.2, hc.3⟩

theorem execBrkpt_sound {y : Bool} {n : BitVec 6} {s : State} (hs : s.Sound) :
    OutSound (execBrkpt y n s) := control_sound hs fun c hc => by
    split
    · exact State.haltGroup_sound hs hc
    · exact State.trapAll_sound hs hc

theorem execEmu_sound {y : Bool} {d a b c : Reg} {s : State} (hs : s.Sound) :
    OutSound (execEmu y d a b c s) := State.withCtx_sound hs fun c hc => State.trapIllegal_sound hs hc

theorem execIll_sound {y : Bool} {i : BitVec 24} {s : State} (hs : s.Sound) :
    OutSound (execIll y i s) := State.withCtx_sound hs fun c hc => State.trapIllegal_sound hs hc

theorem execIssueSlotGrant_sound {c : CoreRef} {p : Fin 4} {k : Fin 2} {s : State} (hs : s.Sound) :
    OutSound (execIssueSlotGrant c p k s) := event_sound <| by
    split
    · exact hs
    · split
      · exact hs
      · rename_i r g e
        exact State.claim_grant_sound hs e

theorem execDivergenceFill_sound {r : GroupRef} {s : State} (hs : s.Sound) :
    OutSound (execDivergenceFill r s) := event_sound <| State.onGroup_sound hs fun g hg => State.setGroup_sound hs ⟨hg.1, hg.2, hg.3⟩

theorem execTranslationWalk_sound {r : GroupRef} {s : State} (hs : s.Sound) :
    OutSound (execTranslationWalk r s) := event_sound <| State.onGroup_sound hs fun g hg => by
    split
    · exact hs
    · extract_lets found s1
      have h1 : s1.Sound := by
        show State.Sound (match found with
          | some (leaf, blocks, pte) => s.cacheLeaf r g _ leaf blocks pte
          | none => s)
        rcases found with - | ⟨leaf, blocks, pte⟩
        · exact hs
        · exact State.cacheLeaf_sound hs hg
      exact State.setGroup_sound h1 ⟨hg.1, hg.2, hg.3⟩

theorem execLoadDataLanding_sound {r : GroupRef} {n l : Nat} {s : State} (hs : s.Sound) :
    OutSound (execLoadDataLanding r n l s) := event_sound (State.landing_sound hs)

theorem execAccessCompletion_sound {r : GroupRef} {n l : Nat} {s : State} (hs : s.Sound) :
    OutSound (execAccessCompletion r n l s) := event_sound (State.accessStep_sound hs)

theorem execAtomicExecute_sound {r : GroupRef} {n l : Nat} {s : State} (hs : s.Sound) :
    OutSound (execAtomicExecute r n l s) := event_sound (State.atomicStep_sound hs)

theorem execWaitConditionMet_sound {r : GroupRef} {s : State} (hs : s.Sound) :
    OutSound (execWaitConditionMet r s) := event_sound <| State.onGroup_sound hs fun g hg => State.counterMet_sound hs hg

theorem execSleepExpiry_sound {r : GroupRef} {s : State} (hs : s.Sound) :
    OutSound (execSleepExpiry r s) := event_sound <| State.onGroup_sound hs fun g hg => by
    split
    · split
      · exact State.endWait_sound hs hg
      · exact hs
    · exact hs

theorem execYieldExpiry_sound {r : GroupRef} {s : State} (hs : s.Sound) :
    OutSound (execYieldExpiry r s) := event_sound <| State.onGroup_sound hs fun g hg => by
    split
    · exact State.setGroup_sound hs ⟨hg.1, hg.2, hg.3⟩
    · exact hs

theorem execGroupRetire_sound {r : GroupRef} {s : State} (hs : s.Sound) :
    OutSound (execGroupRetire r s) := event_sound <| State.onGroup_sound hs fun g _ => State.retireGroup_sound hs

theorem execLockRequestArrival_sound {k : Nat} {s : State} (hs : s.Sound) :
    OutSound (execLockRequestArrival k s) := event_sound (State.lockArrives_sound hs)

theorem execLockGrant_sound {a : Nat} {s : State} (hs : s.Sound) :
    OutSound (execLockGrant a s) := event_sound (State.passLock_sound hs)

theorem execLockTimeout_sound {r : GroupRef} {s : State} (hs : s.Sound) :
    OutSound (execLockTimeout r s) := event_sound (State.lockExpires_sound hs)

theorem execDiffRecordApply_sound {k : Nat} {s : State} (hs : s.Sound) :
    OutSound (execDiffRecordApply k s) := event_sound (State.recordArrives_sound hs)

theorem execStaleNotice_sound {k : Nat} {s : State} (hs : s.Sound) :
    OutSound (execStaleNotice k s) := event_sound (State.noticeArrives_sound hs)

theorem execBarrierPhaseComplete_sound {b : BarRef} {s : State} (hs : s.Sound) :
    OutSound (execBarrierPhaseComplete b s) := event_sound (State.completePhase_sound hs)

theorem execReplicaPush_sound {a : Nat} {h : BitVec 16} {s : State} (hs : s.Sound) :
    OutSound (execReplicaPush a h s) := event_sound <| by
    extract_lets
    split
    · exact hs
    · exact ⟨hs.1, hs.2, hs.3⟩

theorem execPageMigration_sound {a b : Nat} {s : State} (hs : s.Sound) :
    OutSound (execPageMigration a b s) := event_sound (State.migrate_sound hs)

theorem execPowerGate_sound {d : Fin 12} {u : Fin 52} {s : State} (hs : s.Sound) :
    OutSound (execPowerGate d u s) := event_sound <| by
    extract_lets
    split
    · exact ⟨hs.1, hs.2, hs.3⟩
    · split
      · exact hs
      · exact ⟨hs.1, hs.2, hs.3⟩

theorem execHostSnoop_sound {x0 : Nat} {s : State} (hs : s.Sound) :
    OutSound (execHostSnoop x0 s) := event_sound <| by
    split
    · exact State.hostHolds_sound hs
    · exact hs

theorem execHostMemoryAccess_sound {p : Fin 12} {a : BitVec 64} {w : Option (BitVec 32)} {s : State} (hs : s.Sound) :
    OutSound (execHostMemoryAccess p a w s) := event_sound <| by
    split
    case h_1 =>
      split
      · exact hs
      · extract_lets
        split
        · exact hs
        · split
          · split
            · exact hs
            · exact State.strayStore_sound hs
          · split
            · split
              · exact State.hostHolds_sound hs
              · exact hs
            · split
              · exact State.hostStore_sound hs
              · exact State.homeStore_sound hs
    all_goals exact hs

theorem execMatrixStart_sound {r : GroupRef} {s : State} (hs : s.Sound) :
    OutSound (execMatrixStart r s) := event_sound (State.mxStart_sound hs)

theorem execMatrixComplete_sound {c : CoreRef} {k : Nat} {s : State} (hs : s.Sound) :
    OutSound (execMatrixComplete c k s) := event_sound (State.mxComplete_sound hs)

theorem execCopyRequestAccept_sound {r : GroupRef} {n : Nat} {s : State} (hs : s.Sound) :
    OutSound (execCopyRequestAccept r n s) := event_sound (State.acceptRequest_sound hs)

theorem execArrivalUnitCount_sound {c : CoreRef} {k u : Nat} {s : State} (hs : s.Sound) :
    OutSound (execArrivalUnitCount c k u s) := event_sound (State.unitLands_sound hs)

theorem execWaitaSatisfied_sound {r : GroupRef} {s : State} (hs : s.Sound) :
    OutSound (execWaitaSatisfied r s) := event_sound (State.arrivalMet_sound hs)

theorem execBlendInstance_sound {p : Fin 12} {g : Fin 64} {s : State} (hs : s.Sound) :
    OutSound (execBlendInstance p g s) := event_sound (State.blendRuns_sound hs)

theorem execFabricRefusal_sound {r : GroupRef} {n l : Nat} {w : Bool} {s : State} (hs : s.Sound) :
    OutSound (execFabricRefusal r n l w s) := event_sound (State.refuse_sound hs)

theorem execMessageEnqueue_sound {r : GroupRef} {n : Nat} {s : State} (hs : s.Sound) :
    OutSound (execMessageEnqueue r n s) := event_sound (State.enqueueMessage_sound hs)

theorem execServiceGroupStart_sound {c : CoreRef} {p : Fin 4} {s : State} (hs : s.Sound) :
    OutSound (execServiceGroupStart c p s) := event_sound (State.serviceStart_sound hs)

theorem execTilewSatisfied_sound {r : GroupRef} {s : State} (hs : s.Sound) :
    OutSound (execTilewSatisfied r s) := event_sound (State.tileMet_sound hs)

theorem execPreemptRequest_sound {p : Fin 12} {s : State} (hs : s.Sound) :
    OutSound (execPreemptRequest p s) := event_sound (State.requestPreempt_sound hs)

theorem execPreemptSave_sound {p : Fin 12} {s : State} (hs : s.Sound) :
    OutSound (execPreemptSave p s) := event_sound (State.preemptSave_sound hs)

theorem execPreemptRestore_sound {p : Fin 12} {s : State} (hs : s.Sound) :
    OutSound (execPreemptRestore p s) := event_sound <| by
    cases h : (sortBy (fun a b => decide (a.order ≤ b.order))
        (s.grids.filter fun g => g.part == p && g.pre == .selected)).findSome? s.restored with
    | none => exact hs
    | some t =>
      obtain ⟨gr, -, e⟩ := List.exists_of_findSome?_eq_some h
      exact State.restored_sound hs t e

theorem execResumeHalted_sound {p : Fin 12} {s : State} (hs : s.Sound) :
    OutSound (execResumeHalted p s) := event_sound <| by
    split
    · refine ⟨hs.1, GroupsOk.map hs.groups_ok fun x hx => ?_, ParkedOk.map hs.parked_ok fun x hx => ?_⟩
      · split
        · exact Group.resumeHalt_sound hx
        · exact hx
      · split
        · exact Group.resumeHalt_sound hx
        · exact hx
    · exact hs

theorem execTimeSliceExpiry_sound {p : Fin 12} {q : Fin 64} {s : State} (hs : s.Sound) :
    OutSound (execTimeSliceExpiry p q s) := event_sound (State.sliceExpires_sound hs)

theorem execStarvationSwap_sound {c : CoreRef} {g : Nat} {s : State} (hs : s.Sound) :
    OutSound (execStarvationSwap c g s) := event_sound (State.swapOut_sound hs)

theorem execSwapReturn_sound {c : CoreRef} {s : State} (hs : s.Sound) :
    OutSound (execSwapReturn c s) := event_sound (State.swapIn_sound hs)

theorem execThrottleWindow_sound {t : Bool} {s : State} (hs : s.Sound) :
    OutSound (execThrottleWindow t s) := event_sound ⟨hs.1, hs.2, hs.3⟩

theorem execLinkStepUp_sound {k : Fin 46} {s : State} (hs : s.Sound) :
    OutSound (execLinkStepUp k s) := event_sound (State.stepLink_sound hs)

theorem execLinkStepDown_sound {k : Fin 46} {s : State} (hs : s.Sound) :
    OutSound (execLinkStepDown k s) := event_sound (State.stepLink_sound hs)

theorem execFlitErrorRetry_sound {x0 : Fin 46} {s : State} (hs : s.Sound) :
    OutSound (execFlitErrorRetry x0 s) := event_sound hs

theorem execFlitLost_sound {f : LostFlit} {s : State} (hs : s.Sound) :
    OutSound (execFlitLost f s) := event_sound <| by
    split
    · exact State.loseData_sound hs
    · exact State.poisonLine_sound hs
    · exact State.poisonTeam_sound hs
    · exact State.unitLands_sound hs
    · exact State.loseMessage_sound hs
    · exact State.contain_sound hs

theorem execEccCorrected_sound {s : State} (hs : s.Sound) :
    OutSound (execEccCorrected s) := event_sound ⟨hs.1, hs.2, hs.3⟩

theorem execEccUncorrectable_sound {w : EccPlace} {s : State} (hs : s.Sound) :
    OutSound (execEccUncorrectable w s) := event_sound <| by
    split
    · exact State.poisonLine_sound hs
    · exact State.poisonTeam_sound hs
    · exact State.loseGroup_sound hs
    · extract_lets
      split
      · exact State.setMatrix_sound hs
      · exact hs
    · split
      · exact State.setMatrix_sound hs
      · exact hs
    · split
      · exact State.setMatrix_sound hs
      · exact hs
    · exact State.setMatrix_sound hs
    · exact State.contain_sound hs

theorem execAgentRejoin_sound {d : Fin 12} {s : State} (hs : s.Sound) :
    OutSound (execAgentRejoin d s) := event_sound (State.rejoin_sound hs)

theorem execReset_sound {s : State} (hs : s.Sound) :
    OutSound (execReset s) := event_sound ⟨rfl, fun x h => absurd h (by simp [State.reset]), fun x h => absurd h (by simp [State.reset])⟩

theorem execSelftestPass_sound {u : Fin 14} {s : State} (hs : s.Sound) :
    OutSound (execSelftestPass u s) := event_sound <| by
    have h1 : ((if s.passedLate u then { s with phase := 14 } else s : State)).Sound := by
      split
      · exact ⟨hs.1, hs.2, hs.3⟩
      · exact hs
    refine State.joinDies_sound (State.bringUp_sound ?_)
    split
    · exact ⟨h1.1, h1.2, h1.3⟩
    · exact ⟨h1.1, h1.2, h1.3⟩

theorem execSelftestTimeout_sound {s : State} (hs : s.Sound) :
    OutSound (execSelftestTimeout s) := event_sound <| by
    split
    · exact ⟨hs.1, hs.2, hs.3⟩
    · exact hs

theorem execLinkTrained_sound {k : Fin 46} {s : State} (hs : s.Sound) :
    OutSound (execLinkTrained k s) := event_sound (State.joinDies_sound ⟨hs.1, hs.2, hs.3⟩)

theorem execLinkTrainFail_sound {k : Fin 46} {s : State} (hs : s.Sound) :
    OutSound (execLinkTrainFail k s) := event_sound <| by
    split
    · exact ⟨hs.1, hs.2, hs.3⟩
    · exact hs

theorem execFirmwareVerified_sound {k : Bool} {s : State} (hs : s.Sound) :
    OutSound (execFirmwareVerified k s) := event_sound <| by
    split
    · exact hs
    · split
      · exact hs
      · exact State.joinDies_sound (State.verified_sound hs)

theorem execPartitionEnable_sound {p : Fin 12} {v : BitVec 12} {s : State} (hs : s.Sound) :
    OutSound (execPartitionEnable p v s) := event_sound <| by
    split
    · extract_lets
      split
      · exact State.setPart_sound (State.rekey_sound (State.leaveDies_sound hs))
      · exact State.nextCid_sound (State.setPart_sound (State.rekey_sound hs))
    · exact hs

theorem execPartitionTeardown_sound {p : Fin 12} {v : BitVec 12} {s : State} (hs : s.Sound) :
    OutSound (execPartitionTeardown p v s) := event_sound <| by
    split
    · extract_lets
      split
      · exact State.setPart_sound (State.rekey_sound (State.dropPartition_sound hs))
      · exact State.setPart_sound hs
    · exact hs

theorem execPlimitWrite_sound {p : Fin 12} {v : BitVec 32} {s : State} (hs : s.Sound) :
    OutSound (execPlimitWrite p v s) := event_sound <| by
    split
    · exact State.trimDies_sound (State.setPart_sound hs)
    · exact State.setPart_sound hs

theorem execTbaseWrite_sound {p : Fin 12} {v : BitVec 64} {s : State} (hs : s.Sound) :
    OutSound (execTbaseWrite p v s) := event_sound <| by
    split
    · exact State.nextCid_sound (State.setPart_sound hs)
    · exact hs

theorem execQctlWrite_sound {p : Fin 12} {q : Fin 64} {v : BitVec 32} {s : State} (hs : s.Sound) :
    OutSound (execQctlWrite p q v s) := event_sound <| by
    split
    · exact State.setPart_sound hs
    · exact hs

theorem execPstatRecovClear_sound {p : Fin 12} {s : State} (hs : s.Sound) :
    OutSound (execPstatRecovClear p s) := event_sound (State.setPart_sound hs)

theorem execRegisterWrite_sound {w : WinSpace} {a : Nat} {v : BitVec 32} {s : State} (hs : s.Sound) :
    OutSound (execRegisterWrite w a v s) := event_sound <| by
    split
    · exact State.writeMgmt_sound hs
    · exact State.writeWin_sound hs

theorem execLaunchCommand_sound {p : Fin 12} {q : Fin 64} {s : State} (hs : s.Sound) :
    OutSound (execLaunchCommand p q s) := event_sound (State.commandStep_sound hs fun _ => hs)

theorem execMarker_sound {p : Fin 12} {q : Fin 64} {s : State} (hs : s.Sound) :
    OutSound (execMarker p q s) := event_sound <| State.commandStep_sound hs fun c => by
    split
    · exact State.completeCmd_sound hs
    · exact hs

theorem execEnumCmd_sound {p : Fin 12} {q : Fin 64} {s : State} (hs : s.Sound) :
    OutSound (execEnumCmd p q s) := event_sound <| State.commandStep_sound hs fun c => by
    split
    · exact State.completeCmd_sound (State.devPuts_sound hs)
    · exact hs

theorem execAttest_sound {p : Fin 12} {q : Fin 64} {s : State} (hs : s.Sound) :
    OutSound (execAttest p q s) := event_sound <| State.commandStep_sound hs fun c => by
    split
    · exact State.completeCmd_sound (State.devPuts_sound (State.devSeen_sound hs))
    · exact hs

theorem execFwload_sound {p : Fin 12} {q : Fin 64} {s : State} (hs : s.Sound) :
    OutSound (execFwload p q s) := event_sound <| State.commandStep_sound hs fun c => by
    split
    · exact hs
    · split
      · exact State.completeCmd_sound hs
      · split
        · exact hs
        · have h := State.devFetch_sound (p := p) (va := c.arg) (n := (c.len + 3) / 4) hs
          exact ⟨h.1, h.2, h.3⟩

theorem execDependenceMet_sound {p : Fin 12} {q : Fin 64} {s : State} (hs : s.Sound) :
    OutSound (execDependenceMet p q s) := event_sound <| by
    split
    · exact hs
    · extract_lets deps sts s1 s2
      have h1 : s1.Sound := State.foldl_sound hs fun s x _ h => State.devSeen_sound h
      have h2 : s2.Sound := State.acquireDies_sound h1
      clear_value s1 s2
      repeat' split
      all_goals first
        | exact hs
        | exact h1
        | exact State.completeCmd_sound h2
        | exact State.setHand_sound h2

theorem execCommandSelect_sound {p : Fin 12} {s : State} (hs : s.Sound) :
    OutSound (execCommandSelect p s) := event_sound <| by
    split
    · exact hs
    · split
      · exact hs
      · exact State.selectHead_sound hs
      · exact State.selectHead_sound (State.setPart_sound hs)
      · split
        · exact State.selectHead_sound hs
        · exact State.selectHead_sound (State.setPart_sound hs)

theorem execClusterPlace_sound {g : Nat} {d : Fin 12} {s : State} (hs : s.Sound) :
    OutSound (execClusterPlace g d s) := event_sound (State.clusterPlace_sound hs)

theorem execGridComplete_sound {g : Nat} {s : State} (hs : s.Sound) :
    OutSound (execGridComplete g s) := event_sound <| by
    split
    · exact hs
    · exact State.gridEnds_sound hs

theorem execFabricAccessArrival_sound {p : Fin 12} {g : Fin 64} {a : Nat} {w : FabAccess} {s : State} (hs : s.Sound) :
    OutSound (execFabricAccessArrival p g a w s) := event_sound (State.peerAccess_sound hs)

theorem execRetrainingComplete_sound {k : Fin 46} {t : Bool} {s : State} (hs : s.Sound) :
    OutSound (execRetrainingComplete k t s) := event_sound <| by
    extract_lets
    split
    · exact hs
    · split
      · exact ⟨hs.1, hs.2, hs.3⟩
      · exact State.contain_sound ⟨hs.1, hs.2, hs.3⟩

end Sys2Proof.Machine
end

