-- ==== Sys2Proof/Laws/State.lean ====
section
/-! SUPPORT. One lemma per field per named update of the state and of a group: what an update leaves alone. -/

namespace Sys2Proof.Machine

set_option Elab.async false

/-! ### State.setGroup -/

@[simp] theorem State.setGroup_tick (s : State) (r : GroupRef) (g : Group) : (s.setGroup r g).tick = s.tick := rfl
@[simp] theorem State.setGroup_turn (s : State) (r : GroupRef) (g : Group) : (s.setGroup r g).turn = s.turn := rfl
@[simp] theorem State.setGroup_clk (s : State) (r : GroupRef) (g : Group) : (s.setGroup r g).clk = s.clk := rfl
@[simp] theorem State.setGroup_phase (s : State) (r : GroupRef) (g : Group) : (s.setGroup r g).phase = s.phase := rfl
@[simp] theorem State.setGroup_bdie (s : State) (r : GroupRef) (g : Group) : (s.setGroup r g).bdie = s.bdie := rfl
@[simp] theorem State.setGroup_bdieAt (s : State) (r : GroupRef) (g : Group) : (s.setGroup r g).bdieAt = s.bdieAt := rfl
@[simp] theorem State.setGroup_dieok (s : State) (r : GroupRef) (g : Group) : (s.setGroup r g).dieok = s.dieok := rfl
@[simp] theorem State.setGroup_iook (s : State) (r : GroupRef) (g : Group) : (s.setGroup r g).iook = s.iook := rfl
@[simp] theorem State.setGroup_fwst (s : State) (r : GroupRef) (g : Group) : (s.setGroup r g).fwst = s.fwst := rfl
@[simp] theorem State.setGroup_links (s : State) (r : GroupRef) (g : Group) : (s.setGroup r g).links = s.links := rfl
@[simp] theorem State.setGroup_ecnt (s : State) (r : GroupRef) (g : Group) : (s.setGroup r g).ecnt = s.ecnt := rfl
@[simp] theorem State.setGroup_throttled (s : State) (r : GroupRef) (g : Group) : (s.setGroup r g).throttled = s.throttled := rfl
@[simp] theorem State.setGroup_harvest (s : State) (r : GroupRef) (g : Group) : (s.setGroup r g).harvest = s.harvest := rfl
@[simp] theorem State.setGroup_incs (s : State) (r : GroupRef) (g : Group) : (s.setGroup r g).incs = s.incs := rfl
@[simp] theorem State.setGroup_gated (s : State) (r : GroupRef) (g : Group) : (s.setGroup r g).gated = s.gated := rfl
@[simp] theorem State.setGroup_firmware (s : State) (r : GroupRef) (g : Group) : (s.setGroup r g).firmware = s.firmware := rfl
@[simp] theorem State.setGroup_mem (s : State) (r : GroupRef) (g : Group) : (s.setGroup r g).mem = s.mem := rfl
@[simp] theorem State.setGroup_poison (s : State) (r : GroupRef) (g : Group) : (s.setGroup r g).poison = s.poison := rfl
@[simp] theorem State.setGroup_tlb (s : State) (r : GroupRef) (g : Group) : (s.setGroup r g).tlb = s.tlb := rfl
@[simp] theorem State.setGroup_replicas (s : State) (r : GroupRef) (g : Group) : (s.setGroup r g).replicas = s.replicas := rfl
@[simp] theorem State.setGroup_copies (s : State) (r : GroupRef) (g : Group) : (s.setGroup r g).copies = s.copies := rfl
@[simp] theorem State.setGroup_twins (s : State) (r : GroupRef) (g : Group) : (s.setGroup r g).twins = s.twins := rfl
@[simp] theorem State.setGroup_versions (s : State) (r : GroupRef) (g : Group) : (s.setGroup r g).versions = s.versions := rfl
@[simp] theorem State.setGroup_relSeq (s : State) (r : GroupRef) (g : Group) : (s.setGroup r g).relSeq = s.relSeq := rfl
@[simp] theorem State.setGroup_records (s : State) (r : GroupRef) (g : Group) : (s.setGroup r g).records = s.records := rfl
@[simp] theorem State.setGroup_notices (s : State) (r : GroupRef) (g : Group) : (s.setGroup r g).notices = s.notices := rfl
@[simp] theorem State.setGroup_syncs (s : State) (r : GroupRef) (g : Group) : (s.setGroup r g).syncs = s.syncs := rfl
@[simp] theorem State.setGroup_lockTab (s : State) (r : GroupRef) (g : Group) : (s.setGroup r g).lockTab = s.lockTab := rfl
@[simp] theorem State.setGroup_lockReqs (s : State) (r : GroupRef) (g : Group) : (s.setGroup r g).lockReqs = s.lockReqs := rfl
@[simp] theorem State.setGroup_ports (s : State) (r : GroupRef) (g : Group) : (s.setGroup r g).ports = s.ports := rfl
@[simp] theorem State.setGroup_hostLines (s : State) (r : GroupRef) (g : Group) : (s.setGroup r g).hostLines = s.hostLines := rfl
@[simp] theorem State.setGroup_vints (s : State) (r : GroupRef) (g : Group) : (s.setGroup r g).vints = s.vints := rfl
@[simp] theorem State.setGroup_vcache (s : State) (r : GroupRef) (g : Group) : (s.setGroup r g).vcache = s.vcache := rfl
@[simp] theorem State.setGroup_nextId (s : State) (r : GroupRef) (g : Group) : (s.setGroup r g).nextId = s.nextId := rfl
@[simp] theorem State.setGroup_parts (s : State) (r : GroupRef) (g : Group) : (s.setGroup r g).parts = s.parts := rfl
@[simp] theorem State.setGroup_grids (s : State) (r : GroupRef) (g : Group) : (s.setGroup r g).grids = s.grids := rfl
@[simp] theorem State.setGroup_nextGrid (s : State) (r : GroupRef) (g : Group) : (s.setGroup r g).nextGrid = s.nextGrid := rfl
@[simp] theorem State.setGroup_teams (s : State) (r : GroupRef) (g : Group) : (s.setGroup r g).teams = s.teams := rfl
@[simp] theorem State.setGroup_matrix (s : State) (r : GroupRef) (g : Group) : (s.setGroup r g).matrix = s.matrix := rfl
@[simp] theorem State.setGroup_slotOf (s : State) (r : GroupRef) (g : Group) : (s.setGroup r g).slotOf = s.slotOf := rfl
@[simp] theorem State.setGroup_lastGrant (s : State) (r : GroupRef) (g : Group) : (s.setGroup r g).lastGrant = s.lastGrant := rfl
@[simp] theorem State.setGroup_parked (s : State) (r : GroupRef) (g : Group) : (s.setGroup r g).parked = s.parked := rfl
@[simp] theorem State.setGroup_jobs (s : State) (r : GroupRef) (g : Group) : (s.setGroup r g).jobs = s.jobs := rfl
@[simp] theorem State.setGroup_blends (s : State) (r : GroupRef) (g : Group) : (s.setGroup r g).blends = s.blends := rfl
@[simp] theorem State.setGroup_msgs (s : State) (r : GroupRef) (g : Group) : (s.setGroup r g).msgs = s.msgs := rfl

/-! ### State.setGrid -/

@[simp] theorem State.setGrid_tick (s : State) (g : Grid) : (s.setGrid g).tick = s.tick := rfl
@[simp] theorem State.setGrid_turn (s : State) (g : Grid) : (s.setGrid g).turn = s.turn := rfl
@[simp] theorem State.setGrid_clk (s : State) (g : Grid) : (s.setGrid g).clk = s.clk := rfl
@[simp] theorem State.setGrid_phase (s : State) (g : Grid) : (s.setGrid g).phase = s.phase := rfl
@[simp] theorem State.setGrid_bdie (s : State) (g : Grid) : (s.setGrid g).bdie = s.bdie := rfl
@[simp] theorem State.setGrid_bdieAt (s : State) (g : Grid) : (s.setGrid g).bdieAt = s.bdieAt := rfl
@[simp] theorem State.setGrid_dieok (s : State) (g : Grid) : (s.setGrid g).dieok = s.dieok := rfl
@[simp] theorem State.setGrid_iook (s : State) (g : Grid) : (s.setGrid g).iook = s.iook := rfl
@[simp] theorem State.setGrid_fwst (s : State) (g : Grid) : (s.setGrid g).fwst = s.fwst := rfl
@[simp] theorem State.setGrid_links (s : State) (g : Grid) : (s.setGrid g).links = s.links := rfl
@[simp] theorem State.setGrid_ecnt (s : State) (g : Grid) : (s.setGrid g).ecnt = s.ecnt := rfl
@[simp] theorem State.setGrid_throttled (s : State) (g : Grid) : (s.setGrid g).throttled = s.throttled := rfl
@[simp] theorem State.setGrid_harvest (s : State) (g : Grid) : (s.setGrid g).harvest = s.harvest := rfl
@[simp] theorem State.setGrid_incs (s : State) (g : Grid) : (s.setGrid g).incs = s.incs := rfl
@[simp] theorem State.setGrid_gated (s : State) (g : Grid) : (s.setGrid g).gated = s.gated := rfl
@[simp] theorem State.setGrid_firmware (s : State) (g : Grid) : (s.setGrid g).firmware = s.firmware := rfl
@[simp] theorem State.setGrid_mem (s : State) (g : Grid) : (s.setGrid g).mem = s.mem := rfl
@[simp] theorem State.setGrid_poison (s : State) (g : Grid) : (s.setGrid g).poison = s.poison := rfl
@[simp] theorem State.setGrid_tlb (s : State) (g : Grid) : (s.setGrid g).tlb = s.tlb := rfl
@[simp] theorem State.setGrid_replicas (s : State) (g : Grid) : (s.setGrid g).replicas = s.replicas := rfl
@[simp] theorem State.setGrid_copies (s : State) (g : Grid) : (s.setGrid g).copies = s.copies := rfl
@[simp] theorem State.setGrid_twins (s : State) (g : Grid) : (s.setGrid g).twins = s.twins := rfl
@[simp] theorem State.setGrid_versions (s : State) (g : Grid) : (s.setGrid g).versions = s.versions := rfl
@[simp] theorem State.setGrid_relSeq (s : State) (g : Grid) : (s.setGrid g).relSeq = s.relSeq := rfl
@[simp] theorem State.setGrid_records (s : State) (g : Grid) : (s.setGrid g).records = s.records := rfl
@[simp] theorem State.setGrid_notices (s : State) (g : Grid) : (s.setGrid g).notices = s.notices := rfl
@[simp] theorem State.setGrid_syncs (s : State) (g : Grid) : (s.setGrid g).syncs = s.syncs := rfl
@[simp] theorem State.setGrid_lockTab (s : State) (g : Grid) : (s.setGrid g).lockTab = s.lockTab := rfl
@[simp] theorem State.setGrid_lockReqs (s : State) (g : Grid) : (s.setGrid g).lockReqs = s.lockReqs := rfl
@[simp] theorem State.setGrid_ports (s : State) (g : Grid) : (s.setGrid g).ports = s.ports := rfl
@[simp] theorem State.setGrid_hostLines (s : State) (g : Grid) : (s.setGrid g).hostLines = s.hostLines := rfl
@[simp] theorem State.setGrid_vints (s : State) (g : Grid) : (s.setGrid g).vints = s.vints := rfl
@[simp] theorem State.setGrid_vcache (s : State) (g : Grid) : (s.setGrid g).vcache = s.vcache := rfl
@[simp] theorem State.setGrid_nextId (s : State) (g : Grid) : (s.setGrid g).nextId = s.nextId := rfl
@[simp] theorem State.setGrid_parts (s : State) (g : Grid) : (s.setGrid g).parts = s.parts := rfl
@[simp] theorem State.setGrid_nextGrid (s : State) (g : Grid) : (s.setGrid g).nextGrid = s.nextGrid := rfl
@[simp] theorem State.setGrid_teams (s : State) (g : Grid) : (s.setGrid g).teams = s.teams := rfl
@[simp] theorem State.setGrid_matrix (s : State) (g : Grid) : (s.setGrid g).matrix = s.matrix := rfl
@[simp] theorem State.setGrid_slotOf (s : State) (g : Grid) : (s.setGrid g).slotOf = s.slotOf := rfl
@[simp] theorem State.setGrid_lastGrant (s : State) (g : Grid) : (s.setGrid g).lastGrant = s.lastGrant := rfl
@[simp] theorem State.setGrid_groups (s : State) (g : Grid) : (s.setGrid g).groups = s.groups := rfl
@[simp] theorem State.setGrid_parked (s : State) (g : Grid) : (s.setGrid g).parked = s.parked := rfl
@[simp] theorem State.setGrid_jobs (s : State) (g : Grid) : (s.setGrid g).jobs = s.jobs := rfl
@[simp] theorem State.setGrid_blends (s : State) (g : Grid) : (s.setGrid g).blends = s.blends := rfl
@[simp] theorem State.setGrid_msgs (s : State) (g : Grid) : (s.setGrid g).msgs = s.msgs := rfl

/-! ### State.setPart -/

@[simp] theorem State.setPart_tick (s : State) (p : Fin 12) (x : Partition) : (s.setPart p x).tick = s.tick := rfl
@[simp] theorem State.setPart_turn (s : State) (p : Fin 12) (x : Partition) : (s.setPart p x).turn = s.turn := rfl
@[simp] theorem State.setPart_clk (s : State) (p : Fin 12) (x : Partition) : (s.setPart p x).clk = s.clk := rfl
@[simp] theorem State.setPart_phase (s : State) (p : Fin 12) (x : Partition) : (s.setPart p x).phase = s.phase := rfl
@[simp] theorem State.setPart_bdie (s : State) (p : Fin 12) (x : Partition) : (s.setPart p x).bdie = s.bdie := rfl
@[simp] theorem State.setPart_bdieAt (s : State) (p : Fin 12) (x : Partition) : (s.setPart p x).bdieAt = s.bdieAt := rfl
@[simp] theorem State.setPart_dieok (s : State) (p : Fin 12) (x : Partition) : (s.setPart p x).dieok = s.dieok := rfl
@[simp] theorem State.setPart_iook (s : State) (p : Fin 12) (x : Partition) : (s.setPart p x).iook = s.iook := rfl
@[simp] theorem State.setPart_fwst (s : State) (p : Fin 12) (x : Partition) : (s.setPart p x).fwst = s.fwst := rfl
@[simp] theorem State.setPart_links (s : State) (p : Fin 12) (x : Partition) : (s.setPart p x).links = s.links := rfl
@[simp] theorem State.setPart_ecnt (s : State) (p : Fin 12) (x : Partition) : (s.setPart p x).ecnt = s.ecnt := rfl
@[simp] theorem State.setPart_throttled (s : State) (p : Fin 12) (x : Partition) : (s.setPart p x).throttled = s.throttled := rfl
@[simp] theorem State.setPart_harvest (s : State) (p : Fin 12) (x : Partition) : (s.setPart p x).harvest = s.harvest := rfl
@[simp] theorem State.setPart_incs (s : State) (p : Fin 12) (x : Partition) : (s.setPart p x).incs = s.incs := rfl
@[simp] theorem State.setPart_gated (s : State) (p : Fin 12) (x : Partition) : (s.setPart p x).gated = s.gated := rfl
@[simp] theorem State.setPart_firmware (s : State) (p : Fin 12) (x : Partition) : (s.setPart p x).firmware = s.firmware := rfl
@[simp] theorem State.setPart_mem (s : State) (p : Fin 12) (x : Partition) : (s.setPart p x).mem = s.mem := rfl
@[simp] theorem State.setPart_poison (s : State) (p : Fin 12) (x : Partition) : (s.setPart p x).poison = s.poison := rfl
@[simp] theorem State.setPart_tlb (s : State) (p : Fin 12) (x : Partition) : (s.setPart p x).tlb = s.tlb := rfl
@[simp] theorem State.setPart_replicas (s : State) (p : Fin 12) (x : Partition) : (s.setPart p x).replicas = s.replicas := rfl
@[simp] theorem State.setPart_copies (s : State) (p : Fin 12) (x : Partition) : (s.setPart p x).copies = s.copies := rfl
@[simp] theorem State.setPart_twins (s : State) (p : Fin 12) (x : Partition) : (s.setPart p x).twins = s.twins := rfl
@[simp] theorem State.setPart_versions (s : State) (p : Fin 12) (x : Partition) : (s.setPart p x).versions = s.versions := rfl
@[simp] theorem State.setPart_relSeq (s : State) (p : Fin 12) (x : Partition) : (s.setPart p x).relSeq = s.relSeq := rfl
@[simp] theorem State.setPart_records (s : State) (p : Fin 12) (x : Partition) : (s.setPart p x).records = s.records := rfl
@[simp] theorem State.setPart_notices (s : State) (p : Fin 12) (x : Partition) : (s.setPart p x).notices = s.notices := rfl
@[simp] theorem State.setPart_syncs (s : State) (p : Fin 12) (x : Partition) : (s.setPart p x).syncs = s.syncs := rfl
@[simp] theorem State.setPart_lockTab (s : State) (p : Fin 12) (x : Partition) : (s.setPart p x).lockTab = s.lockTab := rfl
@[simp] theorem State.setPart_lockReqs (s : State) (p : Fin 12) (x : Partition) : (s.setPart p x).lockReqs = s.lockReqs := rfl
@[simp] theorem State.setPart_ports (s : State) (p : Fin 12) (x : Partition) : (s.setPart p x).ports = s.ports := rfl
@[simp] theorem State.setPart_hostLines (s : State) (p : Fin 12) (x : Partition) : (s.setPart p x).hostLines = s.hostLines := rfl
@[simp] theorem State.setPart_vints (s : State) (p : Fin 12) (x : Partition) : (s.setPart p x).vints = s.vints := rfl
@[simp] theorem State.setPart_vcache (s : State) (p : Fin 12) (x : Partition) : (s.setPart p x).vcache = s.vcache := rfl
@[simp] theorem State.setPart_nextId (s : State) (p : Fin 12) (x : Partition) : (s.setPart p x).nextId = s.nextId := rfl
@[simp] theorem State.setPart_grids (s : State) (p : Fin 12) (x : Partition) : (s.setPart p x).grids = s.grids := rfl
@[simp] theorem State.setPart_nextGrid (s : State) (p : Fin 12) (x : Partition) : (s.setPart p x).nextGrid = s.nextGrid := rfl
@[simp] theorem State.setPart_teams (s : State) (p : Fin 12) (x : Partition) : (s.setPart p x).teams = s.teams := rfl
@[simp] theorem State.setPart_matrix (s : State) (p : Fin 12) (x : Partition) : (s.setPart p x).matrix = s.matrix := rfl
@[simp] theorem State.setPart_slotOf (s : State) (p : Fin 12) (x : Partition) : (s.setPart p x).slotOf = s.slotOf := rfl
@[simp] theorem State.setPart_lastGrant (s : State) (p : Fin 12) (x : Partition) : (s.setPart p x).lastGrant = s.lastGrant := rfl
@[simp] theorem State.setPart_groups (s : State) (p : Fin 12) (x : Partition) : (s.setPart p x).groups = s.groups := rfl
@[simp] theorem State.setPart_parked (s : State) (p : Fin 12) (x : Partition) : (s.setPart p x).parked = s.parked := rfl
@[simp] theorem State.setPart_jobs (s : State) (p : Fin 12) (x : Partition) : (s.setPart p x).jobs = s.jobs := rfl
@[simp] theorem State.setPart_blends (s : State) (p : Fin 12) (x : Partition) : (s.setPart p x).blends = s.blends := rfl
@[simp] theorem State.setPart_msgs (s : State) (p : Fin 12) (x : Partition) : (s.setPart p x).msgs = s.msgs := rfl

/-! ### State.setMatrix -/

@[simp] theorem State.setMatrix_tick (s : State) (c : CoreRef) (m : Matrix) : (s.setMatrix c m).tick = s.tick := rfl
@[simp] theorem State.setMatrix_turn (s : State) (c : CoreRef) (m : Matrix) : (s.setMatrix c m).turn = s.turn := rfl
@[simp] theorem State.setMatrix_clk (s : State) (c : CoreRef) (m : Matrix) : (s.setMatrix c m).clk = s.clk := rfl
@[simp] theorem State.setMatrix_phase (s : State) (c : CoreRef) (m : Matrix) : (s.setMatrix c m).phase = s.phase := rfl
@[simp] theorem State.setMatrix_bdie (s : State) (c : CoreRef) (m : Matrix) : (s.setMatrix c m).bdie = s.bdie := rfl
@[simp] theorem State.setMatrix_bdieAt (s : State) (c : CoreRef) (m : Matrix) : (s.setMatrix c m).bdieAt = s.bdieAt := rfl
@[simp] theorem State.setMatrix_dieok (s : State) (c : CoreRef) (m : Matrix) : (s.setMatrix c m).dieok = s.dieok := rfl
@[simp] theorem State.setMatrix_iook (s : State) (c : CoreRef) (m : Matrix) : (s.setMatrix c m).iook = s.iook := rfl
@[simp] theorem State.setMatrix_fwst (s : State) (c : CoreRef) (m : Matrix) : (s.setMatrix c m).fwst = s.fwst := rfl
@[simp] theorem State.setMatrix_links (s : State) (c : CoreRef) (m : Matrix) : (s.setMatrix c m).links = s.links := rfl
@[simp] theorem State.setMatrix_ecnt (s : State) (c : CoreRef) (m : Matrix) : (s.setMatrix c m).ecnt = s.ecnt := rfl
@[simp] theorem State.setMatrix_throttled (s : State) (c : CoreRef) (m : Matrix) : (s.setMatrix c m).throttled = s.throttled := rfl
@[simp] theorem State.setMatrix_harvest (s : State) (c : CoreRef) (m : Matrix) : (s.setMatrix c m).harvest = s.harvest := rfl
@[simp] theorem State.setMatrix_incs (s : State) (c : CoreRef) (m : Matrix) : (s.setMatrix c m).incs = s.incs := rfl
@[simp] theorem State.setMatrix_gated (s : State) (c : CoreRef) (m : Matrix) : (s.setMatrix c m).gated = s.gated := rfl
@[simp] theorem State.setMatrix_firmware (s : State) (c : CoreRef) (m : Matrix) : (s.setMatrix c m).firmware = s.firmware := rfl
@[simp] theorem State.setMatrix_mem (s : State) (c : CoreRef) (m : Matrix) : (s.setMatrix c m).mem = s.mem := rfl
@[simp] theorem State.setMatrix_poison (s : State) (c : CoreRef) (m : Matrix) : (s.setMatrix c m).poison = s.poison := rfl
@[simp] theorem State.setMatrix_tlb (s : State) (c : CoreRef) (m : Matrix) : (s.setMatrix c m).tlb = s.tlb := rfl
@[simp] theorem State.setMatrix_replicas (s : State) (c : CoreRef) (m : Matrix) : (s.setMatrix c m).replicas = s.replicas := rfl
@[simp] theorem State.setMatrix_copies (s : State) (c : CoreRef) (m : Matrix) : (s.setMatrix c m).copies = s.copies := rfl
@[simp] theorem State.setMatrix_twins (s : State) (c : CoreRef) (m : Matrix) : (s.setMatrix c m).twins = s.twins := rfl
@[simp] theorem State.setMatrix_versions (s : State) (c : CoreRef) (m : Matrix) : (s.setMatrix c m).versions = s.versions := rfl
@[simp] theorem State.setMatrix_relSeq (s : State) (c : CoreRef) (m : Matrix) : (s.setMatrix c m).relSeq = s.relSeq := rfl
@[simp] theorem State.setMatrix_records (s : State) (c : CoreRef) (m : Matrix) : (s.setMatrix c m).records = s.records := rfl
@[simp] theorem State.setMatrix_notices (s : State) (c : CoreRef) (m : Matrix) : (s.setMatrix c m).notices = s.notices := rfl
@[simp] theorem State.setMatrix_syncs (s : State) (c : CoreRef) (m : Matrix) : (s.setMatrix c m).syncs = s.syncs := rfl
@[simp] theorem State.setMatrix_lockTab (s : State) (c : CoreRef) (m : Matrix) : (s.setMatrix c m).lockTab = s.lockTab := rfl
@[simp] theorem State.setMatrix_lockReqs (s : State) (c : CoreRef) (m : Matrix) : (s.setMatrix c m).lockReqs = s.lockReqs := rfl
@[simp] theorem State.setMatrix_ports (s : State) (c : CoreRef) (m : Matrix) : (s.setMatrix c m).ports = s.ports := rfl
@[simp] theorem State.setMatrix_hostLines (s : State) (c : CoreRef) (m : Matrix) : (s.setMatrix c m).hostLines = s.hostLines := rfl
@[simp] theorem State.setMatrix_vints (s : State) (c : CoreRef) (m : Matrix) : (s.setMatrix c m).vints = s.vints := rfl
@[simp] theorem State.setMatrix_vcache (s : State) (c : CoreRef) (m : Matrix) : (s.setMatrix c m).vcache = s.vcache := rfl
@[simp] theorem State.setMatrix_nextId (s : State) (c : CoreRef) (m : Matrix) : (s.setMatrix c m).nextId = s.nextId := rfl
@[simp] theorem State.setMatrix_parts (s : State) (c : CoreRef) (m : Matrix) : (s.setMatrix c m).parts = s.parts := rfl
@[simp] theorem State.setMatrix_grids (s : State) (c : CoreRef) (m : Matrix) : (s.setMatrix c m).grids = s.grids := rfl
@[simp] theorem State.setMatrix_nextGrid (s : State) (c : CoreRef) (m : Matrix) : (s.setMatrix c m).nextGrid = s.nextGrid := rfl
@[simp] theorem State.setMatrix_teams (s : State) (c : CoreRef) (m : Matrix) : (s.setMatrix c m).teams = s.teams := rfl
@[simp] theorem State.setMatrix_slotOf (s : State) (c : CoreRef) (m : Matrix) : (s.setMatrix c m).slotOf = s.slotOf := rfl
@[simp] theorem State.setMatrix_lastGrant (s : State) (c : CoreRef) (m : Matrix) : (s.setMatrix c m).lastGrant = s.lastGrant := rfl
@[simp] theorem State.setMatrix_groups (s : State) (c : CoreRef) (m : Matrix) : (s.setMatrix c m).groups = s.groups := rfl
@[simp] theorem State.setMatrix_parked (s : State) (c : CoreRef) (m : Matrix) : (s.setMatrix c m).parked = s.parked := rfl
@[simp] theorem State.setMatrix_jobs (s : State) (c : CoreRef) (m : Matrix) : (s.setMatrix c m).jobs = s.jobs := rfl
@[simp] theorem State.setMatrix_blends (s : State) (c : CoreRef) (m : Matrix) : (s.setMatrix c m).blends = s.blends := rfl
@[simp] theorem State.setMatrix_msgs (s : State) (c : CoreRef) (m : Matrix) : (s.setMatrix c m).msgs = s.msgs := rfl

/-! ### State.setTeam -/

@[simp] theorem State.setTeam_tick (s : State) (t : Team) : (s.setTeam t).tick = s.tick := rfl
@[simp] theorem State.setTeam_turn (s : State) (t : Team) : (s.setTeam t).turn = s.turn := rfl
@[simp] theorem State.setTeam_clk (s : State) (t : Team) : (s.setTeam t).clk = s.clk := rfl
@[simp] theorem State.setTeam_phase (s : State) (t : Team) : (s.setTeam t).phase = s.phase := rfl
@[simp] theorem State.setTeam_bdie (s : State) (t : Team) : (s.setTeam t).bdie = s.bdie := rfl
@[simp] theorem State.setTeam_bdieAt (s : State) (t : Team) : (s.setTeam t).bdieAt = s.bdieAt := rfl
@[simp] theorem State.setTeam_dieok (s : State) (t : Team) : (s.setTeam t).dieok = s.dieok := rfl
@[simp] theorem State.setTeam_iook (s : State) (t : Team) : (s.setTeam t).iook = s.iook := rfl
@[simp] theorem State.setTeam_fwst (s : State) (t : Team) : (s.setTeam t).fwst = s.fwst := rfl
@[simp] theorem State.setTeam_links (s : State) (t : Team) : (s.setTeam t).links = s.links := rfl
@[simp] theorem State.setTeam_ecnt (s : State) (t : Team) : (s.setTeam t).ecnt = s.ecnt := rfl
@[simp] theorem State.setTeam_throttled (s : State) (t : Team) : (s.setTeam t).throttled = s.throttled := rfl
@[simp] theorem State.setTeam_harvest (s : State) (t : Team) : (s.setTeam t).harvest = s.harvest := rfl
@[simp] theorem State.setTeam_incs (s : State) (t : Team) : (s.setTeam t).incs = s.incs := rfl
@[simp] theorem State.setTeam_gated (s : State) (t : Team) : (s.setTeam t).gated = s.gated := rfl
@[simp] theorem State.setTeam_firmware (s : State) (t : Team) : (s.setTeam t).firmware = s.firmware := rfl
@[simp] theorem State.setTeam_mem (s : State) (t : Team) : (s.setTeam t).mem = s.mem := rfl
@[simp] theorem State.setTeam_poison (s : State) (t : Team) : (s.setTeam t).poison = s.poison := rfl
@[simp] theorem State.setTeam_tlb (s : State) (t : Team) : (s.setTeam t).tlb = s.tlb := rfl
@[simp] theorem State.setTeam_replicas (s : State) (t : Team) : (s.setTeam t).replicas = s.replicas := rfl
@[simp] theorem State.setTeam_copies (s : State) (t : Team) : (s.setTeam t).copies = s.copies := rfl
@[simp] theorem State.setTeam_twins (s : State) (t : Team) : (s.setTeam t).twins = s.twins := rfl
@[simp] theorem State.setTeam_versions (s : State) (t : Team) : (s.setTeam t).versions = s.versions := rfl
@[simp] theorem State.setTeam_relSeq (s : State) (t : Team) : (s.setTeam t).relSeq = s.relSeq := rfl
@[simp] theorem State.setTeam_records (s : State) (t : Team) : (s.setTeam t).records = s.records := rfl
@[simp] theorem State.setTeam_notices (s : State) (t : Team) : (s.setTeam t).notices = s.notices := rfl
@[simp] theorem State.setTeam_syncs (s : State) (t : Team) : (s.setTeam t).syncs = s.syncs := rfl
@[simp] theorem State.setTeam_lockTab (s : State) (t : Team) : (s.setTeam t).lockTab = s.lockTab := rfl
@[simp] theorem State.setTeam_lockReqs (s : State) (t : Team) : (s.setTeam t).lockReqs = s.lockReqs := rfl
@[simp] theorem State.setTeam_ports (s : State) (t : Team) : (s.setTeam t).ports = s.ports := rfl
@[simp] theorem State.setTeam_hostLines (s : State) (t : Team) : (s.setTeam t).hostLines = s.hostLines := rfl
@[simp] theorem State.setTeam_vints (s : State) (t : Team) : (s.setTeam t).vints = s.vints := rfl
@[simp] theorem State.setTeam_vcache (s : State) (t : Team) : (s.setTeam t).vcache = s.vcache := rfl
@[simp] theorem State.setTeam_nextId (s : State) (t : Team) : (s.setTeam t).nextId = s.nextId := rfl
@[simp] theorem State.setTeam_parts (s : State) (t : Team) : (s.setTeam t).parts = s.parts := rfl
@[simp] theorem State.setTeam_grids (s : State) (t : Team) : (s.setTeam t).grids = s.grids := rfl
@[simp] theorem State.setTeam_nextGrid (s : State) (t : Team) : (s.setTeam t).nextGrid = s.nextGrid := rfl
@[simp] theorem State.setTeam_matrix (s : State) (t : Team) : (s.setTeam t).matrix = s.matrix := rfl
@[simp] theorem State.setTeam_slotOf (s : State) (t : Team) : (s.setTeam t).slotOf = s.slotOf := rfl
@[simp] theorem State.setTeam_lastGrant (s : State) (t : Team) : (s.setTeam t).lastGrant = s.lastGrant := rfl
@[simp] theorem State.setTeam_groups (s : State) (t : Team) : (s.setTeam t).groups = s.groups := rfl
@[simp] theorem State.setTeam_parked (s : State) (t : Team) : (s.setTeam t).parked = s.parked := rfl
@[simp] theorem State.setTeam_jobs (s : State) (t : Team) : (s.setTeam t).jobs = s.jobs := rfl
@[simp] theorem State.setTeam_blends (s : State) (t : Team) : (s.setTeam t).blends = s.blends := rfl
@[simp] theorem State.setTeam_msgs (s : State) (t : Team) : (s.setTeam t).msgs = s.msgs := rfl

/-! ### State.freeSlots -/

@[simp] theorem State.freeSlots_tick (s : State) (r : GroupRef) : (s.freeSlots r).tick = s.tick := rfl
@[simp] theorem State.freeSlots_turn (s : State) (r : GroupRef) : (s.freeSlots r).turn = s.turn := rfl
@[simp] theorem State.freeSlots_clk (s : State) (r : GroupRef) : (s.freeSlots r).clk = s.clk := rfl
@[simp] theorem State.freeSlots_phase (s : State) (r : GroupRef) : (s.freeSlots r).phase = s.phase := rfl
@[simp] theorem State.freeSlots_bdie (s : State) (r : GroupRef) : (s.freeSlots r).bdie = s.bdie := rfl
@[simp] theorem State.freeSlots_bdieAt (s : State) (r : GroupRef) : (s.freeSlots r).bdieAt = s.bdieAt := rfl
@[simp] theorem State.freeSlots_dieok (s : State) (r : GroupRef) : (s.freeSlots r).dieok = s.dieok := rfl
@[simp] theorem State.freeSlots_iook (s : State) (r : GroupRef) : (s.freeSlots r).iook = s.iook := rfl
@[simp] theorem State.freeSlots_fwst (s : State) (r : GroupRef) : (s.freeSlots r).fwst = s.fwst := rfl
@[simp] theorem State.freeSlots_links (s : State) (r : GroupRef) : (s.freeSlots r).links = s.links := rfl
@[simp] theorem State.freeSlots_ecnt (s : State) (r : GroupRef) : (s.freeSlots r).ecnt = s.ecnt := rfl
@[simp] theorem State.freeSlots_throttled (s : State) (r : GroupRef) : (s.freeSlots r).throttled = s.throttled := rfl
@[simp] theorem State.freeSlots_harvest (s : State) (r : GroupRef) : (s.freeSlots r).harvest = s.harvest := rfl
@[simp] theorem State.freeSlots_incs (s : State) (r : GroupRef) : (s.freeSlots r).incs = s.incs := rfl
@[simp] theorem State.freeSlots_gated (s : State) (r : GroupRef) : (s.freeSlots r).gated = s.gated := rfl
@[simp] theorem State.freeSlots_firmware (s : State) (r : GroupRef) : (s.freeSlots r).firmware = s.firmware := rfl
@[simp] theorem State.freeSlots_mem (s : State) (r : GroupRef) : (s.freeSlots r).mem = s.mem := rfl
@[simp] theorem State.freeSlots_poison (s : State) (r : GroupRef) : (s.freeSlots r).poison = s.poison := rfl
@[simp] theorem State.freeSlots_tlb (s : State) (r : GroupRef) : (s.freeSlots r).tlb = s.tlb := rfl
@[simp] theorem State.freeSlots_replicas (s : State) (r : GroupRef) : (s.freeSlots r).replicas = s.replicas := rfl
@[simp] theorem State.freeSlots_copies (s : State) (r : GroupRef) : (s.freeSlots r).copies = s.copies := rfl
@[simp] theorem State.freeSlots_twins (s : State) (r : GroupRef) : (s.freeSlots r).twins = s.twins := rfl
@[simp] theorem State.freeSlots_versions (s : State) (r : GroupRef) : (s.freeSlots r).versions = s.versions := rfl
@[simp] theorem State.freeSlots_relSeq (s : State) (r : GroupRef) : (s.freeSlots r).relSeq = s.relSeq := rfl
@[simp] theorem State.freeSlots_records (s : State) (r : GroupRef) : (s.freeSlots r).records = s.records := rfl
@[simp] theorem State.freeSlots_notices (s : State) (r : GroupRef) : (s.freeSlots r).notices = s.notices := rfl
@[simp] theorem State.freeSlots_syncs (s : State) (r : GroupRef) : (s.freeSlots r).syncs = s.syncs := rfl
@[simp] theorem State.freeSlots_lockTab (s : State) (r : GroupRef) : (s.freeSlots r).lockTab = s.lockTab := rfl
@[simp] theorem State.freeSlots_lockReqs (s : State) (r : GroupRef) : (s.freeSlots r).lockReqs = s.lockReqs := rfl
@[simp] theorem State.freeSlots_ports (s : State) (r : GroupRef) : (s.freeSlots r).ports = s.ports := rfl
@[simp] theorem State.freeSlots_hostLines (s : State) (r : GroupRef) : (s.freeSlots r).hostLines = s.hostLines := rfl
@[simp] theorem State.freeSlots_vints (s : State) (r : GroupRef) : (s.freeSlots r).vints = s.vints := rfl
@[simp] theorem State.freeSlots_vcache (s : State) (r : GroupRef) : (s.freeSlots r).vcache = s.vcache := rfl
@[simp] theorem State.freeSlots_nextId (s : State) (r : GroupRef) : (s.freeSlots r).nextId = s.nextId := rfl
@[simp] theorem State.freeSlots_parts (s : State) (r : GroupRef) : (s.freeSlots r).parts = s.parts := rfl
@[simp] theorem State.freeSlots_grids (s : State) (r : GroupRef) : (s.freeSlots r).grids = s.grids := rfl
@[simp] theorem State.freeSlots_nextGrid (s : State) (r : GroupRef) : (s.freeSlots r).nextGrid = s.nextGrid := rfl
@[simp] theorem State.freeSlots_teams (s : State) (r : GroupRef) : (s.freeSlots r).teams = s.teams := rfl
@[simp] theorem State.freeSlots_matrix (s : State) (r : GroupRef) : (s.freeSlots r).matrix = s.matrix := rfl
@[simp] theorem State.freeSlots_lastGrant (s : State) (r : GroupRef) : (s.freeSlots r).lastGrant = s.lastGrant := rfl
@[simp] theorem State.freeSlots_groups (s : State) (r : GroupRef) : (s.freeSlots r).groups = s.groups := rfl
@[simp] theorem State.freeSlots_parked (s : State) (r : GroupRef) : (s.freeSlots r).parked = s.parked := rfl
@[simp] theorem State.freeSlots_jobs (s : State) (r : GroupRef) : (s.freeSlots r).jobs = s.jobs := rfl
@[simp] theorem State.freeSlots_blends (s : State) (r : GroupRef) : (s.freeSlots r).blends = s.blends := rfl
@[simp] theorem State.freeSlots_msgs (s : State) (r : GroupRef) : (s.freeSlots r).msgs = s.msgs := rfl

/-! ### State.putWord -/

@[simp] theorem State.putWord_tick (s : State) (pa : Nat) (w : Word) : (s.putWord pa w).tick = s.tick := rfl
@[simp] theorem State.putWord_turn (s : State) (pa : Nat) (w : Word) : (s.putWord pa w).turn = s.turn := rfl
@[simp] theorem State.putWord_clk (s : State) (pa : Nat) (w : Word) : (s.putWord pa w).clk = s.clk := rfl
@[simp] theorem State.putWord_phase (s : State) (pa : Nat) (w : Word) : (s.putWord pa w).phase = s.phase := rfl
@[simp] theorem State.putWord_bdie (s : State) (pa : Nat) (w : Word) : (s.putWord pa w).bdie = s.bdie := rfl
@[simp] theorem State.putWord_bdieAt (s : State) (pa : Nat) (w : Word) : (s.putWord pa w).bdieAt = s.bdieAt := rfl
@[simp] theorem State.putWord_dieok (s : State) (pa : Nat) (w : Word) : (s.putWord pa w).dieok = s.dieok := rfl
@[simp] theorem State.putWord_iook (s : State) (pa : Nat) (w : Word) : (s.putWord pa w).iook = s.iook := rfl
@[simp] theorem State.putWord_fwst (s : State) (pa : Nat) (w : Word) : (s.putWord pa w).fwst = s.fwst := rfl
@[simp] theorem State.putWord_links (s : State) (pa : Nat) (w : Word) : (s.putWord pa w).links = s.links := rfl
@[simp] theorem State.putWord_ecnt (s : State) (pa : Nat) (w : Word) : (s.putWord pa w).ecnt = s.ecnt := rfl
@[simp] theorem State.putWord_throttled (s : State) (pa : Nat) (w : Word) : (s.putWord pa w).throttled = s.throttled := rfl
@[simp] theorem State.putWord_harvest (s : State) (pa : Nat) (w : Word) : (s.putWord pa w).harvest = s.harvest := rfl
@[simp] theorem State.putWord_incs (s : State) (pa : Nat) (w : Word) : (s.putWord pa w).incs = s.incs := rfl
@[simp] theorem State.putWord_gated (s : State) (pa : Nat) (w : Word) : (s.putWord pa w).gated = s.gated := rfl
@[simp] theorem State.putWord_firmware (s : State) (pa : Nat) (w : Word) : (s.putWord pa w).firmware = s.firmware := rfl
@[simp] theorem State.putWord_tlb (s : State) (pa : Nat) (w : Word) : (s.putWord pa w).tlb = s.tlb := rfl
@[simp] theorem State.putWord_replicas (s : State) (pa : Nat) (w : Word) : (s.putWord pa w).replicas = s.replicas := rfl
@[simp] theorem State.putWord_copies (s : State) (pa : Nat) (w : Word) : (s.putWord pa w).copies = s.copies := rfl
@[simp] theorem State.putWord_twins (s : State) (pa : Nat) (w : Word) : (s.putWord pa w).twins = s.twins := rfl
@[simp] theorem State.putWord_versions (s : State) (pa : Nat) (w : Word) : (s.putWord pa w).versions = s.versions := rfl
@[simp] theorem State.putWord_relSeq (s : State) (pa : Nat) (w : Word) : (s.putWord pa w).relSeq = s.relSeq := rfl
@[simp] theorem State.putWord_records (s : State) (pa : Nat) (w : Word) : (s.putWord pa w).records = s.records := rfl
@[simp] theorem State.putWord_notices (s : State) (pa : Nat) (w : Word) : (s.putWord pa w).notices = s.notices := rfl
@[simp] theorem State.putWord_syncs (s : State) (pa : Nat) (w : Word) : (s.putWord pa w).syncs = s.syncs := rfl
@[simp] theorem State.putWord_lockTab (s : State) (pa : Nat) (w : Word) : (s.putWord pa w).lockTab = s.lockTab := rfl
@[simp] theorem State.putWord_lockReqs (s : State) (pa : Nat) (w : Word) : (s.putWord pa w).lockReqs = s.lockReqs := rfl
@[simp] theorem State.putWord_ports (s : State) (pa : Nat) (w : Word) : (s.putWord pa w).ports = s.ports := rfl
@[simp] theorem State.putWord_hostLines (s : State) (pa : Nat) (w : Word) : (s.putWord pa w).hostLines = s.hostLines := rfl
@[simp] theorem State.putWord_vints (s : State) (pa : Nat) (w : Word) : (s.putWord pa w).vints = s.vints := rfl
@[simp] theorem State.putWord_vcache (s : State) (pa : Nat) (w : Word) : (s.putWord pa w).vcache = s.vcache := rfl
@[simp] theorem State.putWord_nextId (s : State) (pa : Nat) (w : Word) : (s.putWord pa w).nextId = s.nextId := rfl
@[simp] theorem State.putWord_parts (s : State) (pa : Nat) (w : Word) : (s.putWord pa w).parts = s.parts := rfl
@[simp] theorem State.putWord_grids (s : State) (pa : Nat) (w : Word) : (s.putWord pa w).grids = s.grids := rfl
@[simp] theorem State.putWord_nextGrid (s : State) (pa : Nat) (w : Word) : (s.putWord pa w).nextGrid = s.nextGrid := rfl
@[simp] theorem State.putWord_teams (s : State) (pa : Nat) (w : Word) : (s.putWord pa w).teams = s.teams := rfl
@[simp] theorem State.putWord_matrix (s : State) (pa : Nat) (w : Word) : (s.putWord pa w).matrix = s.matrix := rfl
@[simp] theorem State.putWord_slotOf (s : State) (pa : Nat) (w : Word) : (s.putWord pa w).slotOf = s.slotOf := rfl
@[simp] theorem State.putWord_lastGrant (s : State) (pa : Nat) (w : Word) : (s.putWord pa w).lastGrant = s.lastGrant := rfl
@[simp] theorem State.putWord_groups (s : State) (pa : Nat) (w : Word) : (s.putWord pa w).groups = s.groups := rfl
@[simp] theorem State.putWord_parked (s : State) (pa : Nat) (w : Word) : (s.putWord pa w).parked = s.parked := rfl
@[simp] theorem State.putWord_jobs (s : State) (pa : Nat) (w : Word) : (s.putWord pa w).jobs = s.jobs := rfl
@[simp] theorem State.putWord_blends (s : State) (pa : Nat) (w : Word) : (s.putWord pa w).blends = s.blends := rfl
@[simp] theorem State.putWord_msgs (s : State) (pa : Nat) (w : Word) : (s.putWord pa w).msgs = s.msgs := rfl

/-! ### State.touch -/

@[simp] theorem State.touch_tick (s : State) (pte : Nat) (st : Bool) : (s.touch pte st).tick = s.tick := rfl
@[simp] theorem State.touch_turn (s : State) (pte : Nat) (st : Bool) : (s.touch pte st).turn = s.turn := rfl
@[simp] theorem State.touch_clk (s : State) (pte : Nat) (st : Bool) : (s.touch pte st).clk = s.clk := rfl
@[simp] theorem State.touch_phase (s : State) (pte : Nat) (st : Bool) : (s.touch pte st).phase = s.phase := rfl
@[simp] theorem State.touch_bdie (s : State) (pte : Nat) (st : Bool) : (s.touch pte st).bdie = s.bdie := rfl
@[simp] theorem State.touch_bdieAt (s : State) (pte : Nat) (st : Bool) : (s.touch pte st).bdieAt = s.bdieAt := rfl
@[simp] theorem State.touch_dieok (s : State) (pte : Nat) (st : Bool) : (s.touch pte st).dieok = s.dieok := rfl
@[simp] theorem State.touch_iook (s : State) (pte : Nat) (st : Bool) : (s.touch pte st).iook = s.iook := rfl
@[simp] theorem State.touch_fwst (s : State) (pte : Nat) (st : Bool) : (s.touch pte st).fwst = s.fwst := rfl
@[simp] theorem State.touch_links (s : State) (pte : Nat) (st : Bool) : (s.touch pte st).links = s.links := rfl
@[simp] theorem State.touch_ecnt (s : State) (pte : Nat) (st : Bool) : (s.touch pte st).ecnt = s.ecnt := rfl
@[simp] theorem State.touch_throttled (s : State) (pte : Nat) (st : Bool) : (s.touch pte st).throttled = s.throttled := rfl
@[simp] theorem State.touch_harvest (s : State) (pte : Nat) (st : Bool) : (s.touch pte st).harvest = s.harvest := rfl
@[simp] theorem State.touch_incs (s : State) (pte : Nat) (st : Bool) : (s.touch pte st).incs = s.incs := rfl
@[simp] theorem State.touch_gated (s : State) (pte : Nat) (st : Bool) : (s.touch pte st).gated = s.gated := rfl
@[simp] theorem State.touch_firmware (s : State) (pte : Nat) (st : Bool) : (s.touch pte st).firmware = s.firmware := rfl
@[simp] theorem State.touch_poison (s : State) (pte : Nat) (st : Bool) : (s.touch pte st).poison = s.poison := rfl
@[simp] theorem State.touch_replicas (s : State) (pte : Nat) (st : Bool) : (s.touch pte st).replicas = s.replicas := rfl
@[simp] theorem State.touch_copies (s : State) (pte : Nat) (st : Bool) : (s.touch pte st).copies = s.copies := rfl
@[simp] theorem State.touch_twins (s : State) (pte : Nat) (st : Bool) : (s.touch pte st).twins = s.twins := rfl
@[simp] theorem State.touch_versions (s : State) (pte : Nat) (st : Bool) : (s.touch pte st).versions = s.versions := rfl
@[simp] theorem State.touch_relSeq (s : State) (pte : Nat) (st : Bool) : (s.touch pte st).relSeq = s.relSeq := rfl
@[simp] theorem State.touch_records (s : State) (pte : Nat) (st : Bool) : (s.touch pte st).records = s.records := rfl
@[simp] theorem State.touch_notices (s : State) (pte : Nat) (st : Bool) : (s.touch pte st).notices = s.notices := rfl
@[simp] theorem State.touch_syncs (s : State) (pte : Nat) (st : Bool) : (s.touch pte st).syncs = s.syncs := rfl
@[simp] theorem State.touch_lockTab (s : State) (pte : Nat) (st : Bool) : (s.touch pte st).lockTab = s.lockTab := rfl
@[simp] theorem State.touch_lockReqs (s : State) (pte : Nat) (st : Bool) : (s.touch pte st).lockReqs = s.lockReqs := rfl
@[simp] theorem State.touch_ports (s : State) (pte : Nat) (st : Bool) : (s.touch pte st).ports = s.ports := rfl
@[simp] theorem State.touch_hostLines (s : State) (pte : Nat) (st : Bool) : (s.touch pte st).hostLines = s.hostLines := rfl
@[simp] theorem State.touch_vints (s : State) (pte : Nat) (st : Bool) : (s.touch pte st).vints = s.vints := rfl
@[simp] theorem State.touch_vcache (s : State) (pte : Nat) (st : Bool) : (s.touch pte st).vcache = s.vcache := rfl
@[simp] theorem State.touch_nextId (s : State) (pte : Nat) (st : Bool) : (s.touch pte st).nextId = s.nextId := rfl
@[simp] theorem State.touch_parts (s : State) (pte : Nat) (st : Bool) : (s.touch pte st).parts = s.parts := rfl
@[simp] theorem State.touch_grids (s : State) (pte : Nat) (st : Bool) : (s.touch pte st).grids = s.grids := rfl
@[simp] theorem State.touch_nextGrid (s : State) (pte : Nat) (st : Bool) : (s.touch pte st).nextGrid = s.nextGrid := rfl
@[simp] theorem State.touch_teams (s : State) (pte : Nat) (st : Bool) : (s.touch pte st).teams = s.teams := rfl
@[simp] theorem State.touch_matrix (s : State) (pte : Nat) (st : Bool) : (s.touch pte st).matrix = s.matrix := rfl
@[simp] theorem State.touch_slotOf (s : State) (pte : Nat) (st : Bool) : (s.touch pte st).slotOf = s.slotOf := rfl
@[simp] theorem State.touch_lastGrant (s : State) (pte : Nat) (st : Bool) : (s.touch pte st).lastGrant = s.lastGrant := rfl
@[simp] theorem State.touch_groups (s : State) (pte : Nat) (st : Bool) : (s.touch pte st).groups = s.groups := rfl
@[simp] theorem State.touch_parked (s : State) (pte : Nat) (st : Bool) : (s.touch pte st).parked = s.parked := rfl
@[simp] theorem State.touch_jobs (s : State) (pte : Nat) (st : Bool) : (s.touch pte st).jobs = s.jobs := rfl
@[simp] theorem State.touch_blends (s : State) (pte : Nat) (st : Bool) : (s.touch pte st).blends = s.blends := rfl
@[simp] theorem State.touch_msgs (s : State) (pte : Nat) (st : Bool) : (s.touch pte st).msgs = s.msgs := rfl

/-! ### State.advance -/

@[simp] theorem State.advance_phase (s : State) : (s.advance).phase = s.phase := rfl
@[simp] theorem State.advance_bdie (s : State) : (s.advance).bdie = s.bdie := rfl
@[simp] theorem State.advance_bdieAt (s : State) : (s.advance).bdieAt = s.bdieAt := rfl
@[simp] theorem State.advance_dieok (s : State) : (s.advance).dieok = s.dieok := rfl
@[simp] theorem State.advance_iook (s : State) : (s.advance).iook = s.iook := rfl
@[simp] theorem State.advance_fwst (s : State) : (s.advance).fwst = s.fwst := rfl
@[simp] theorem State.advance_links (s : State) : (s.advance).links = s.links := rfl
@[simp] theorem State.advance_ecnt (s : State) : (s.advance).ecnt = s.ecnt := rfl
@[simp] theorem State.advance_throttled (s : State) : (s.advance).throttled = s.throttled := rfl
@[simp] theorem State.advance_harvest (s : State) : (s.advance).harvest = s.harvest := rfl
@[simp] theorem State.advance_incs (s : State) : (s.advance).incs = s.incs := rfl
@[simp] theorem State.advance_gated (s : State) : (s.advance).gated = s.gated := rfl
@[simp] theorem State.advance_firmware (s : State) : (s.advance).firmware = s.firmware := rfl
@[simp] theorem State.advance_mem (s : State) : (s.advance).mem = s.mem := rfl
@[simp] theorem State.advance_poison (s : State) : (s.advance).poison = s.poison := rfl
@[simp] theorem State.advance_twins (s : State) : (s.advance).twins = s.twins := rfl
@[simp] theorem State.advance_versions (s : State) : (s.advance).versions = s.versions := rfl
@[simp] theorem State.advance_relSeq (s : State) : (s.advance).relSeq = s.relSeq := rfl
@[simp] theorem State.advance_records (s : State) : (s.advance).records = s.records := rfl
@[simp] theorem State.advance_notices (s : State) : (s.advance).notices = s.notices := rfl
@[simp] theorem State.advance_syncs (s : State) : (s.advance).syncs = s.syncs := rfl
@[simp] theorem State.advance_lockTab (s : State) : (s.advance).lockTab = s.lockTab := rfl
@[simp] theorem State.advance_lockReqs (s : State) : (s.advance).lockReqs = s.lockReqs := rfl
@[simp] theorem State.advance_ports (s : State) : (s.advance).ports = s.ports := rfl
@[simp] theorem State.advance_hostLines (s : State) : (s.advance).hostLines = s.hostLines := rfl
@[simp] theorem State.advance_vints (s : State) : (s.advance).vints = s.vints := rfl
@[simp] theorem State.advance_nextId (s : State) : (s.advance).nextId = s.nextId := rfl
@[simp] theorem State.advance_parts (s : State) : (s.advance).parts = s.parts := rfl
@[simp] theorem State.advance_grids (s : State) : (s.advance).grids = s.grids := rfl
@[simp] theorem State.advance_nextGrid (s : State) : (s.advance).nextGrid = s.nextGrid := rfl
@[simp] theorem State.advance_teams (s : State) : (s.advance).teams = s.teams := rfl
@[simp] theorem State.advance_matrix (s : State) : (s.advance).matrix = s.matrix := rfl
@[simp] theorem State.advance_slotOf (s : State) : (s.advance).slotOf = s.slotOf := rfl
@[simp] theorem State.advance_lastGrant (s : State) : (s.advance).lastGrant = s.lastGrant := rfl
@[simp] theorem State.advance_groups (s : State) : (s.advance).groups = s.groups := rfl
@[simp] theorem State.advance_parked (s : State) : (s.advance).parked = s.parked := rfl
@[simp] theorem State.advance_jobs (s : State) : (s.advance).jobs = s.jobs := rfl
@[simp] theorem State.advance_blends (s : State) : (s.advance).blends = s.blends := rfl
@[simp] theorem State.advance_msgs (s : State) : (s.advance).msgs = s.msgs := rfl

/-! ### State.settleCaches -/

@[simp] theorem State.settleCaches_tick (s : State) : (s.settleCaches).tick = s.tick := rfl
@[simp] theorem State.settleCaches_turn (s : State) : (s.settleCaches).turn = s.turn := rfl
@[simp] theorem State.settleCaches_clk (s : State) : (s.settleCaches).clk = s.clk := rfl
@[simp] theorem State.settleCaches_phase (s : State) : (s.settleCaches).phase = s.phase := rfl
@[simp] theorem State.settleCaches_bdie (s : State) : (s.settleCaches).bdie = s.bdie := rfl
@[simp] theorem State.settleCaches_bdieAt (s : State) : (s.settleCaches).bdieAt = s.bdieAt := rfl
@[simp] theorem State.settleCaches_dieok (s : State) : (s.settleCaches).dieok = s.dieok := rfl
@[simp] theorem State.settleCaches_iook (s : State) : (s.settleCaches).iook = s.iook := rfl
@[simp] theorem State.settleCaches_fwst (s : State) : (s.settleCaches).fwst = s.fwst := rfl
@[simp] theorem State.settleCaches_links (s : State) : (s.settleCaches).links = s.links := rfl
@[simp] theorem State.settleCaches_ecnt (s : State) : (s.settleCaches).ecnt = s.ecnt := rfl
@[simp] theorem State.settleCaches_throttled (s : State) : (s.settleCaches).throttled = s.throttled := rfl
@[simp] theorem State.settleCaches_harvest (s : State) : (s.settleCaches).harvest = s.harvest := rfl
@[simp] theorem State.settleCaches_incs (s : State) : (s.settleCaches).incs = s.incs := rfl
@[simp] theorem State.settleCaches_gated (s : State) : (s.settleCaches).gated = s.gated := rfl
@[simp] theorem State.settleCaches_firmware (s : State) : (s.settleCaches).firmware = s.firmware := rfl
@[simp] theorem State.settleCaches_mem (s : State) : (s.settleCaches).mem = s.mem := rfl
@[simp] theorem State.settleCaches_poison (s : State) : (s.settleCaches).poison = s.poison := rfl
@[simp] theorem State.settleCaches_twins (s : State) : (s.settleCaches).twins = s.twins := rfl
@[simp] theorem State.settleCaches_versions (s : State) : (s.settleCaches).versions = s.versions := rfl
@[simp] theorem State.settleCaches_relSeq (s : State) : (s.settleCaches).relSeq = s.relSeq := rfl
@[simp] theorem State.settleCaches_records (s : State) : (s.settleCaches).records = s.records := rfl
@[simp] theorem State.settleCaches_notices (s : State) : (s.settleCaches).notices = s.notices := rfl
@[simp] theorem State.settleCaches_syncs (s : State) : (s.settleCaches).syncs = s.syncs := rfl
@[simp] theorem State.settleCaches_lockTab (s : State) : (s.settleCaches).lockTab = s.lockTab := rfl
@[simp] theorem State.settleCaches_lockReqs (s : State) : (s.settleCaches).lockReqs = s.lockReqs := rfl
@[simp] theorem State.settleCaches_ports (s : State) : (s.settleCaches).ports = s.ports := rfl
@[simp] theorem State.settleCaches_hostLines (s : State) : (s.settleCaches).hostLines = s.hostLines := rfl
@[simp] theorem State.settleCaches_vints (s : State) : (s.settleCaches).vints = s.vints := rfl
@[simp] theorem State.settleCaches_nextId (s : State) : (s.settleCaches).nextId = s.nextId := rfl
@[simp] theorem State.settleCaches_parts (s : State) : (s.settleCaches).parts = s.parts := rfl
@[simp] theorem State.settleCaches_grids (s : State) : (s.settleCaches).grids = s.grids := rfl
@[simp] theorem State.settleCaches_nextGrid (s : State) : (s.settleCaches).nextGrid = s.nextGrid := rfl
@[simp] theorem State.settleCaches_teams (s : State) : (s.settleCaches).teams = s.teams := rfl
@[simp] theorem State.settleCaches_matrix (s : State) : (s.settleCaches).matrix = s.matrix := rfl
@[simp] theorem State.settleCaches_slotOf (s : State) : (s.settleCaches).slotOf = s.slotOf := rfl
@[simp] theorem State.settleCaches_lastGrant (s : State) : (s.settleCaches).lastGrant = s.lastGrant := rfl
@[simp] theorem State.settleCaches_groups (s : State) : (s.settleCaches).groups = s.groups := rfl
@[simp] theorem State.settleCaches_parked (s : State) : (s.settleCaches).parked = s.parked := rfl
@[simp] theorem State.settleCaches_jobs (s : State) : (s.settleCaches).jobs = s.jobs := rfl
@[simp] theorem State.settleCaches_blends (s : State) : (s.settleCaches).blends = s.blends := rfl
@[simp] theorem State.settleCaches_msgs (s : State) : (s.settleCaches).msgs = s.msgs := rfl

@[simp] theorem State.setGroup_groups (s : State) (r : GroupRef) (g : Group) :
    (s.setGroup r g).groups = Tbl.put s.groups r g := rfl
@[simp] theorem State.setGrid_grids (s : State) (g : Grid) :
    (s.setGrid g).grids = s.grids.map fun x => if x.id = g.id then g else x := rfl
@[simp] theorem State.setPart_parts (s : State) (p : Fin 12) (x : Partition) : (s.setPart p x).parts = s.parts.set p x := rfl
@[simp] theorem State.setMatrix_matrix (s : State) (c : CoreRef) (m : Matrix) :
    (s.setMatrix c m).matrix = Tbl.put s.matrix c m := rfl
@[simp] theorem State.putWord_mem (s : State) (pa : Nat) (w : Word) : (s.putWord pa w).mem = s.mem.writeWord pa w := rfl
@[simp] theorem State.putWord_poison (s : State) (pa : Nat) (w : Word) :
    (s.putWord pa w).poison = cleanPoison s.poison pa := rfl
@[simp] theorem State.advance_tick (s : State) : s.advance.tick = s.tick + 1 := rfl
@[simp] theorem State.advance_clk (s : State) : s.advance.clk = s.clk + Config.clkAdvance s.tick := rfl
@[simp] theorem State.advance_turn (s : State) : s.advance.turn = Config.nextTurn s.tick := rfl

/-! ### Groups -/

@[simp] theorem Group.write_uni_uid (g : Group) (r : Reg) (v : Word) : (g.write (.uni r v)).uid = g.uid := rfl
@[simp] theorem Group.write_uni_grid (g : Group) (r : Reg) (v : Word) : (g.write (.uni r v)).grid = g.grid := rfl
@[simp] theorem Group.write_uni_part (g : Group) (r : Reg) (v : Word) : (g.write (.uni r v)).part = g.part := rfl
@[simp] theorem Group.write_uni_clu (g : Group) (r : Reg) (v : Word) : (g.write (.uni r v)).clu = g.clu := rfl
@[simp] theorem Group.write_uni_team (g : Group) (r : Reg) (v : Word) : (g.write (.uni r v)).team = g.team := rfl
@[simp] theorem Group.write_uni_idx (g : Group) (r : Reg) (v : Word) : (g.write (.uni r v)).idx = g.idx := rfl
@[simp] theorem Group.write_uni_gidx (g : Group) (r : Reg) (v : Word) : (g.write (.uni r v)).gidx = g.gidx := rfl
@[simp] theorem Group.write_uni_svc (g : Group) (r : Reg) (v : Word) : (g.write (.uni r v)).svc = g.svc := rfl
@[simp] theorem Group.write_uni_w (g : Group) (r : Reg) (v : Word) : (g.write (.uni r v)).w = g.w := rfl
@[simp] theorem Group.write_uni_nv (g : Group) (r : Reg) (v : Word) : (g.write (.uni r v)).nv = g.nv := rfl
@[simp] theorem Group.write_uni_depth (g : Group) (r : Reg) (v : Word) : (g.write (.uni r v)).depth = g.depth := rfl
@[simp] theorem Group.write_uni_priv (g : Group) (r : Reg) (v : Word) : (g.write (.uni r v)).priv = g.priv := rfl
@[simp] theorem Group.write_uni_exposePriv (g : Group) (r : Reg) (v : Word) : (g.write (.uni r v)).exposePriv = g.exposePriv := rfl
@[simp] theorem Group.write_uni_debug (g : Group) (r : Reg) (v : Word) : (g.write (.uni r v)).debug = g.debug := rfl
@[simp] theorem Group.write_uni_reduced (g : Group) (r : Reg) (v : Word) : (g.write (.uni r v)).reduced = g.reduced := rfl
@[simp] theorem Group.write_uni_codeBase (g : Group) (r : Reg) (v : Word) : (g.write (.uni r v)).codeBase = g.codeBase := rfl
@[simp] theorem Group.write_uni_cbase (g : Group) (r : Reg) (v : Word) : (g.write (.uni r v)).cbase = g.cbase := rfl
@[simp] theorem Group.write_uni_csize (g : Group) (r : Reg) (v : Word) : (g.write (.uni r v)).csize = g.csize := rfl
@[simp] theorem Group.write_uni_store (g : Group) (r : Reg) (v : Word) : (g.write (.uni r v)).store = g.store := rfl
@[simp] theorem Group.write_uni_v (g : Group) (r : Reg) (v : Word) : (g.write (.uni r v)).v = g.v := rfl
@[simp] theorem Group.write_uni_p (g : Group) (r : Reg) (v : Word) : (g.write (.uni r v)).p = g.p := rfl
@[simp] theorem Group.write_uni_mode (g : Group) (r : Reg) (v : Word) : (g.write (.uni r v)).mode = g.mode := rfl
@[simp] theorem Group.write_uni_fstat (g : Group) (r : Reg) (v : Word) : (g.write (.uni r v)).fstat = g.fstat := rfl
@[simp] theorem Group.write_uni_forcedB (g : Group) (r : Reg) (v : Word) : (g.write (.uni r v)).forcedB = g.forcedB := rfl
@[simp] theorem Group.write_uni_resumed (g : Group) (r : Reg) (v : Word) : (g.write (.uni r v)).resumed = g.resumed := rfl
@[simp] theorem Group.write_uni_handler (g : Group) (r : Reg) (v : Word) : (g.write (.uni r v)).handler = g.handler := rfl
@[simp] theorem Group.write_uni_hstart (g : Group) (r : Reg) (v : Word) : (g.write (.uni r v)).hstart = g.hstart := rfl
@[simp] theorem Group.write_uni_htpc (g : Group) (r : Reg) (v : Word) : (g.write (.uni r v)).htpc = g.htpc := rfl
@[simp] theorem Group.write_uni_trap (g : Group) (r : Reg) (v : Word) : (g.write (.uni r v)).trap = g.trap := rfl
@[simp] theorem Group.write_uni_laneTraps (g : Group) (r : Reg) (v : Word) : (g.write (.uni r v)).laneTraps = g.laneTraps := rfl
@[simp] theorem Group.write_uni_stack (g : Group) (r : Reg) (v : Word) : (g.write (.uni r v)).stack = g.stack := rfl
@[simp] theorem Group.write_uni_rets (g : Group) (r : Reg) (v : Word) : (g.write (.uni r v)).rets = g.rets := rfl
@[simp] theorem Group.write_uni_run (g : Group) (r : Reg) (v : Word) : (g.write (.uni r v)).run = g.run := rfl
@[simp] theorem Group.write_uni_topFirst (g : Group) (r : Reg) (v : Word) : (g.write (.uni r v)).topFirst = g.topFirst := rfl
@[simp] theorem Group.write_uni_seq (g : Group) (r : Reg) (v : Word) : (g.write (.uni r v)).seq = g.seq := rfl
@[simp] theorem Group.write_uni_pend (g : Group) (r : Reg) (v : Word) : (g.write (.uni r v)).pend = g.pend := rfl
@[simp] theorem Group.write_uni_acc (g : Group) (r : Reg) (v : Word) : (g.write (.uni r v)).acc = g.acc := rfl
@[simp] theorem Group.write_uni_marks (g : Group) (r : Reg) (v : Word) : (g.write (.uni r v)).marks = g.marks := rfl
@[simp] theorem Group.write_uni_endMark (g : Group) (r : Reg) (v : Word) : (g.write (.uni r v)).endMark = g.endMark := rfl
@[simp] theorem Group.write_uni_wait (g : Group) (r : Reg) (v : Word) : (g.write (.uni r v)).wait = g.wait := rfl
@[simp] theorem Group.write_uni_waitFrom (g : Group) (r : Reg) (v : Word) : (g.write (.uni r v)).waitFrom = g.waitFrom := rfl
@[simp] theorem Group.write_uni_arrived (g : Group) (r : Reg) (v : Word) : (g.write (.uni r v)).arrived = g.arrived := rfl
@[simp] theorem Group.write_uni_arrivals (g : Group) (r : Reg) (v : Word) : (g.write (.uni r v)).arrivals = g.arrivals := rfl
@[simp] theorem Group.write_uni_lockLeft (g : Group) (r : Reg) (v : Word) : (g.write (.uni r v)).lockLeft = g.lockLeft := rfl
@[simp] theorem Group.write_uni_stalled (g : Group) (r : Reg) (v : Word) : (g.write (.uni r v)).stalled = g.stalled := rfl
@[simp] theorem Group.write_uni_area (g : Group) (r : Reg) (v : Word) : (g.write (.uni r v)).area = g.area := rfl
@[simp] theorem Group.write_uni_hold (g : Group) (r : Reg) (v : Word) : (g.write (.uni r v)).hold = g.hold := rfl
@[simp] theorem Group.write_uni_xlate (g : Group) (r : Reg) (v : Word) : (g.write (.uni r v)).xlate = g.xlate := rfl
@[simp] theorem Group.write_uni_walks (g : Group) (r : Reg) (v : Word) : (g.write (.uni r v)).walks = g.walks := rfl
@[simp] theorem Group.write_uni_mxWait (g : Group) (r : Reg) (v : Word) : (g.write (.uni r v)).mxWait = g.mxWait := rfl
@[simp] theorem Group.write_uni_yieldUntil (g : Group) (r : Reg) (v : Word) : (g.write (.uni r v)).yieldUntil = g.yieldUntil := rfl
@[simp] theorem Group.write_uni_locks (g : Group) (r : Reg) (v : Word) : (g.write (.uni r v)).locks = g.locks := rfl
@[simp] theorem Group.write_uni_killed (g : Group) (r : Reg) (v : Word) : (g.write (.uni r v)).killed = g.killed := rfl
@[simp] theorem Group.write_uni_ended (g : Group) (r : Reg) (v : Word) : (g.write (.uni r v)).ended = g.ended := rfl

@[simp] theorem Group.write_pred_uid (g : Group) (p : BitVec 3) (m v : Mask) : (g.write (.pred p m v)).uid = g.uid := rfl
@[simp] theorem Group.write_pred_grid (g : Group) (p : BitVec 3) (m v : Mask) : (g.write (.pred p m v)).grid = g.grid := rfl
@[simp] theorem Group.write_pred_part (g : Group) (p : BitVec 3) (m v : Mask) : (g.write (.pred p m v)).part = g.part := rfl
@[simp] theorem Group.write_pred_clu (g : Group) (p : BitVec 3) (m v : Mask) : (g.write (.pred p m v)).clu = g.clu := rfl
@[simp] theorem Group.write_pred_team (g : Group) (p : BitVec 3) (m v : Mask) : (g.write (.pred p m v)).team = g.team := rfl
@[simp] theorem Group.write_pred_idx (g : Group) (p : BitVec 3) (m v : Mask) : (g.write (.pred p m v)).idx = g.idx := rfl
@[simp] theorem Group.write_pred_gidx (g : Group) (p : BitVec 3) (m v : Mask) : (g.write (.pred p m v)).gidx = g.gidx := rfl
@[simp] theorem Group.write_pred_svc (g : Group) (p : BitVec 3) (m v : Mask) : (g.write (.pred p m v)).svc = g.svc := rfl
@[simp] theorem Group.write_pred_w (g : Group) (p : BitVec 3) (m v : Mask) : (g.write (.pred p m v)).w = g.w := rfl
@[simp] theorem Group.write_pred_nv (g : Group) (p : BitVec 3) (m v : Mask) : (g.write (.pred p m v)).nv = g.nv := rfl
@[simp] theorem Group.write_pred_depth (g : Group) (p : BitVec 3) (m v : Mask) : (g.write (.pred p m v)).depth = g.depth := rfl
@[simp] theorem Group.write_pred_priv (g : Group) (p : BitVec 3) (m v : Mask) : (g.write (.pred p m v)).priv = g.priv := rfl
@[simp] theorem Group.write_pred_exposePriv (g : Group) (p : BitVec 3) (m v : Mask) : (g.write (.pred p m v)).exposePriv = g.exposePriv := rfl
@[simp] theorem Group.write_pred_debug (g : Group) (p : BitVec 3) (m v : Mask) : (g.write (.pred p m v)).debug = g.debug := rfl
@[simp] theorem Group.write_pred_reduced (g : Group) (p : BitVec 3) (m v : Mask) : (g.write (.pred p m v)).reduced = g.reduced := rfl
@[simp] theorem Group.write_pred_codeBase (g : Group) (p : BitVec 3) (m v : Mask) : (g.write (.pred p m v)).codeBase = g.codeBase := rfl
@[simp] theorem Group.write_pred_cbase (g : Group) (p : BitVec 3) (m v : Mask) : (g.write (.pred p m v)).cbase = g.cbase := rfl
@[simp] theorem Group.write_pred_csize (g : Group) (p : BitVec 3) (m v : Mask) : (g.write (.pred p m v)).csize = g.csize := rfl
@[simp] theorem Group.write_pred_store (g : Group) (p : BitVec 3) (m v : Mask) : (g.write (.pred p m v)).store = g.store := rfl
@[simp] theorem Group.write_pred_s (g : Group) (p : BitVec 3) (m v : Mask) : (g.write (.pred p m v)).s = g.s := rfl
@[simp] theorem Group.write_pred_v (g : Group) (p : BitVec 3) (m v : Mask) : (g.write (.pred p m v)).v = g.v := rfl
@[simp] theorem Group.write_pred_mode (g : Group) (p : BitVec 3) (m v : Mask) : (g.write (.pred p m v)).mode = g.mode := rfl
@[simp] theorem Group.write_pred_fstat (g : Group) (p : BitVec 3) (m v : Mask) : (g.write (.pred p m v)).fstat = g.fstat := rfl
@[simp] theorem Group.write_pred_forcedB (g : Group) (p : BitVec 3) (m v : Mask) : (g.write (.pred p m v)).forcedB = g.forcedB := rfl
@[simp] theorem Group.write_pred_resumed (g : Group) (p : BitVec 3) (m v : Mask) : (g.write (.pred p m v)).resumed = g.resumed := rfl
@[simp] theorem Group.write_pred_handler (g : Group) (p : BitVec 3) (m v : Mask) : (g.write (.pred p m v)).handler = g.handler := rfl
@[simp] theorem Group.write_pred_hstart (g : Group) (p : BitVec 3) (m v : Mask) : (g.write (.pred p m v)).hstart = g.hstart := rfl
@[simp] theorem Group.write_pred_htpc (g : Group) (p : BitVec 3) (m v : Mask) : (g.write (.pred p m v)).htpc = g.htpc := rfl
@[simp] theorem Group.write_pred_trap (g : Group) (p : BitVec 3) (m v : Mask) : (g.write (.pred p m v)).trap = g.trap := rfl
@[simp] theorem Group.write_pred_laneTraps (g : Group) (p : BitVec 3) (m v : Mask) : (g.write (.pred p m v)).laneTraps = g.laneTraps := rfl
@[simp] theorem Group.write_pred_stack (g : Group) (p : BitVec 3) (m v : Mask) : (g.write (.pred p m v)).stack = g.stack := rfl
@[simp] theorem Group.write_pred_rets (g : Group) (p : BitVec 3) (m v : Mask) : (g.write (.pred p m v)).rets = g.rets := rfl
@[simp] theorem Group.write_pred_run (g : Group) (p : BitVec 3) (m v : Mask) : (g.write (.pred p m v)).run = g.run := rfl
@[simp] theorem Group.write_pred_topFirst (g : Group) (p : BitVec 3) (m v : Mask) : (g.write (.pred p m v)).topFirst = g.topFirst := rfl
@[simp] theorem Group.write_pred_seq (g : Group) (p : BitVec 3) (m v : Mask) : (g.write (.pred p m v)).seq = g.seq := rfl
@[simp] theorem Group.write_pred_pend (g : Group) (p : BitVec 3) (m v : Mask) : (g.write (.pred p m v)).pend = g.pend := rfl
@[simp] theorem Group.write_pred_acc (g : Group) (p : BitVec 3) (m v : Mask) : (g.write (.pred p m v)).acc = g.acc := rfl
@[simp] theorem Group.write_pred_marks (g : Group) (p : BitVec 3) (m v : Mask) : (g.write (.pred p m v)).marks = g.marks := rfl
@[simp] theorem Group.write_pred_endMark (g : Group) (p : BitVec 3) (m v : Mask) : (g.write (.pred p m v)).endMark = g.endMark := rfl
@[simp] theorem Group.write_pred_wait (g : Group) (p : BitVec 3) (m v : Mask) : (g.write (.pred p m v)).wait = g.wait := rfl
@[simp] theorem Group.write_pred_waitFrom (g : Group) (p : BitVec 3) (m v : Mask) : (g.write (.pred p m v)).waitFrom = g.waitFrom := rfl
@[simp] theorem Group.write_pred_arrived (g : Group) (p : BitVec 3) (m v : Mask) : (g.write (.pred p m v)).arrived = g.arrived := rfl
@[simp] theorem Group.write_pred_arrivals (g : Group) (p : BitVec 3) (m v : Mask) : (g.write (.pred p m v)).arrivals = g.arrivals := rfl
@[simp] theorem Group.write_pred_lockLeft (g : Group) (p : BitVec 3) (m v : Mask) : (g.write (.pred p m v)).lockLeft = g.lockLeft := rfl
@[simp] theorem Group.write_pred_stalled (g : Group) (p : BitVec 3) (m v : Mask) : (g.write (.pred p m v)).stalled = g.stalled := rfl
@[simp] theorem Group.write_pred_area (g : Group) (p : BitVec 3) (m v : Mask) : (g.write (.pred p m v)).area = g.area := rfl
@[simp] theorem Group.write_pred_hold (g : Group) (p : BitVec 3) (m v : Mask) : (g.write (.pred p m v)).hold = g.hold := rfl
@[simp] theorem Group.write_pred_xlate (g : Group) (p : BitVec 3) (m v : Mask) : (g.write (.pred p m v)).xlate = g.xlate := rfl
@[simp] theorem Group.write_pred_walks (g : Group) (p : BitVec 3) (m v : Mask) : (g.write (.pred p m v)).walks = g.walks := rfl
@[simp] theorem Group.write_pred_mxWait (g : Group) (p : BitVec 3) (m v : Mask) : (g.write (.pred p m v)).mxWait = g.mxWait := rfl
@[simp] theorem Group.write_pred_yieldUntil (g : Group) (p : BitVec 3) (m v : Mask) : (g.write (.pred p m v)).yieldUntil = g.yieldUntil := rfl
@[simp] theorem Group.write_pred_locks (g : Group) (p : BitVec 3) (m v : Mask) : (g.write (.pred p m v)).locks = g.locks := rfl
@[simp] theorem Group.write_pred_killed (g : Group) (p : BitVec 3) (m v : Mask) : (g.write (.pred p m v)).killed = g.killed := rfl
@[simp] theorem Group.write_pred_ended (g : Group) (p : BitVec 3) (m v : Mask) : (g.write (.pred p m v)).ended = g.ended := rfl

@[simp] theorem Group.write_vec_uid (g : Group) (r : Reg) (t : Option Tag) (ws : List LaneWrite) : (g.write (.vec r t ws)).uid = g.uid := rfl
@[simp] theorem Group.write_vec_grid (g : Group) (r : Reg) (t : Option Tag) (ws : List LaneWrite) : (g.write (.vec r t ws)).grid = g.grid := rfl
@[simp] theorem Group.write_vec_part (g : Group) (r : Reg) (t : Option Tag) (ws : List LaneWrite) : (g.write (.vec r t ws)).part = g.part := rfl
@[simp] theorem Group.write_vec_clu (g : Group) (r : Reg) (t : Option Tag) (ws : List LaneWrite) : (g.write (.vec r t ws)).clu = g.clu := rfl
@[simp] theorem Group.write_vec_team (g : Group) (r : Reg) (t : Option Tag) (ws : List LaneWrite) : (g.write (.vec r t ws)).team = g.team := rfl
@[simp] theorem Group.write_vec_idx (g : Group) (r : Reg) (t : Option Tag) (ws : List LaneWrite) : (g.write (.vec r t ws)).idx = g.idx := rfl
@[simp] theorem Group.write_vec_gidx (g : Group) (r : Reg) (t : Option Tag) (ws : List LaneWrite) : (g.write (.vec r t ws)).gidx = g.gidx := rfl
@[simp] theorem Group.write_vec_svc (g : Group) (r : Reg) (t : Option Tag) (ws : List LaneWrite) : (g.write (.vec r t ws)).svc = g.svc := rfl
@[simp] theorem Group.write_vec_w (g : Group) (r : Reg) (t : Option Tag) (ws : List LaneWrite) : (g.write (.vec r t ws)).w = g.w := rfl
@[simp] theorem Group.write_vec_nv (g : Group) (r : Reg) (t : Option Tag) (ws : List LaneWrite) : (g.write (.vec r t ws)).nv = g.nv := rfl
@[simp] theorem Group.write_vec_depth (g : Group) (r : Reg) (t : Option Tag) (ws : List LaneWrite) : (g.write (.vec r t ws)).depth = g.depth := rfl
@[simp] theorem Group.write_vec_priv (g : Group) (r : Reg) (t : Option Tag) (ws : List LaneWrite) : (g.write (.vec r t ws)).priv = g.priv := rfl
@[simp] theorem Group.write_vec_exposePriv (g : Group) (r : Reg) (t : Option Tag) (ws : List LaneWrite) : (g.write (.vec r t ws)).exposePriv = g.exposePriv := rfl
@[simp] theorem Group.write_vec_debug (g : Group) (r : Reg) (t : Option Tag) (ws : List LaneWrite) : (g.write (.vec r t ws)).debug = g.debug := rfl
@[simp] theorem Group.write_vec_reduced (g : Group) (r : Reg) (t : Option Tag) (ws : List LaneWrite) : (g.write (.vec r t ws)).reduced = g.reduced := rfl
@[simp] theorem Group.write_vec_codeBase (g : Group) (r : Reg) (t : Option Tag) (ws : List LaneWrite) : (g.write (.vec r t ws)).codeBase = g.codeBase := rfl
@[simp] theorem Group.write_vec_cbase (g : Group) (r : Reg) (t : Option Tag) (ws : List LaneWrite) : (g.write (.vec r t ws)).cbase = g.cbase := rfl
@[simp] theorem Group.write_vec_csize (g : Group) (r : Reg) (t : Option Tag) (ws : List LaneWrite) : (g.write (.vec r t ws)).csize = g.csize := rfl
@[simp] theorem Group.write_vec_store (g : Group) (r : Reg) (t : Option Tag) (ws : List LaneWrite) : (g.write (.vec r t ws)).store = g.store := rfl
@[simp] theorem Group.write_vec_s (g : Group) (r : Reg) (t : Option Tag) (ws : List LaneWrite) : (g.write (.vec r t ws)).s = g.s := rfl
@[simp] theorem Group.write_vec_p (g : Group) (r : Reg) (t : Option Tag) (ws : List LaneWrite) : (g.write (.vec r t ws)).p = g.p := rfl
@[simp] theorem Group.write_vec_mode (g : Group) (r : Reg) (t : Option Tag) (ws : List LaneWrite) : (g.write (.vec r t ws)).mode = g.mode := rfl
@[simp] theorem Group.write_vec_fstat (g : Group) (r : Reg) (t : Option Tag) (ws : List LaneWrite) : (g.write (.vec r t ws)).fstat = g.fstat := rfl
@[simp] theorem Group.write_vec_forcedB (g : Group) (r : Reg) (t : Option Tag) (ws : List LaneWrite) : (g.write (.vec r t ws)).forcedB = g.forcedB := rfl
@[simp] theorem Group.write_vec_resumed (g : Group) (r : Reg) (t : Option Tag) (ws : List LaneWrite) : (g.write (.vec r t ws)).resumed = g.resumed := rfl
@[simp] theorem Group.write_vec_handler (g : Group) (r : Reg) (t : Option Tag) (ws : List LaneWrite) : (g.write (.vec r t ws)).handler = g.handler := rfl
@[simp] theorem Group.write_vec_hstart (g : Group) (r : Reg) (t : Option Tag) (ws : List LaneWrite) : (g.write (.vec r t ws)).hstart = g.hstart := rfl
@[simp] theorem Group.write_vec_htpc (g : Group) (r : Reg) (t : Option Tag) (ws : List LaneWrite) : (g.write (.vec r t ws)).htpc = g.htpc := rfl
@[simp] theorem Group.write_vec_trap (g : Group) (r : Reg) (t : Option Tag) (ws : List LaneWrite) : (g.write (.vec r t ws)).trap = g.trap := rfl
@[simp] theorem Group.write_vec_laneTraps (g : Group) (r : Reg) (t : Option Tag) (ws : List LaneWrite) : (g.write (.vec r t ws)).laneTraps = g.laneTraps := rfl
@[simp] theorem Group.write_vec_stack (g : Group) (r : Reg) (t : Option Tag) (ws : List LaneWrite) : (g.write (.vec r t ws)).stack = g.stack := rfl
@[simp] theorem Group.write_vec_rets (g : Group) (r : Reg) (t : Option Tag) (ws : List LaneWrite) : (g.write (.vec r t ws)).rets = g.rets := rfl
@[simp] theorem Group.write_vec_run (g : Group) (r : Reg) (t : Option Tag) (ws : List LaneWrite) : (g.write (.vec r t ws)).run = g.run := rfl
@[simp] theorem Group.write_vec_topFirst (g : Group) (r : Reg) (t : Option Tag) (ws : List LaneWrite) : (g.write (.vec r t ws)).topFirst = g.topFirst := rfl
@[simp] theorem Group.write_vec_seq (g : Group) (r : Reg) (t : Option Tag) (ws : List LaneWrite) : (g.write (.vec r t ws)).seq = g.seq := rfl
@[simp] theorem Group.write_vec_pend (g : Group) (r : Reg) (t : Option Tag) (ws : List LaneWrite) : (g.write (.vec r t ws)).pend = g.pend := rfl
@[simp] theorem Group.write_vec_acc (g : Group) (r : Reg) (t : Option Tag) (ws : List LaneWrite) : (g.write (.vec r t ws)).acc = g.acc := rfl
@[simp] theorem Group.write_vec_marks (g : Group) (r : Reg) (t : Option Tag) (ws : List LaneWrite) : (g.write (.vec r t ws)).marks = g.marks := rfl
@[simp] theorem Group.write_vec_endMark (g : Group) (r : Reg) (t : Option Tag) (ws : List LaneWrite) : (g.write (.vec r t ws)).endMark = g.endMark := rfl
@[simp] theorem Group.write_vec_wait (g : Group) (r : Reg) (t : Option Tag) (ws : List LaneWrite) : (g.write (.vec r t ws)).wait = g.wait := rfl
@[simp] theorem Group.write_vec_waitFrom (g : Group) (r : Reg) (t : Option Tag) (ws : List LaneWrite) : (g.write (.vec r t ws)).waitFrom = g.waitFrom := rfl
@[simp] theorem Group.write_vec_arrived (g : Group) (r : Reg) (t : Option Tag) (ws : List LaneWrite) : (g.write (.vec r t ws)).arrived = g.arrived := rfl
@[simp] theorem Group.write_vec_arrivals (g : Group) (r : Reg) (t : Option Tag) (ws : List LaneWrite) : (g.write (.vec r t ws)).arrivals = g.arrivals := rfl
@[simp] theorem Group.write_vec_lockLeft (g : Group) (r : Reg) (t : Option Tag) (ws : List LaneWrite) : (g.write (.vec r t ws)).lockLeft = g.lockLeft := rfl
@[simp] theorem Group.write_vec_stalled (g : Group) (r : Reg) (t : Option Tag) (ws : List LaneWrite) : (g.write (.vec r t ws)).stalled = g.stalled := rfl
@[simp] theorem Group.write_vec_area (g : Group) (r : Reg) (t : Option Tag) (ws : List LaneWrite) : (g.write (.vec r t ws)).area = g.area := rfl
@[simp] theorem Group.write_vec_hold (g : Group) (r : Reg) (t : Option Tag) (ws : List LaneWrite) : (g.write (.vec r t ws)).hold = g.hold := rfl
@[simp] theorem Group.write_vec_xlate (g : Group) (r : Reg) (t : Option Tag) (ws : List LaneWrite) : (g.write (.vec r t ws)).xlate = g.xlate := rfl
@[simp] theorem Group.write_vec_walks (g : Group) (r : Reg) (t : Option Tag) (ws : List LaneWrite) : (g.write (.vec r t ws)).walks = g.walks := rfl
@[simp] theorem Group.write_vec_mxWait (g : Group) (r : Reg) (t : Option Tag) (ws : List LaneWrite) : (g.write (.vec r t ws)).mxWait = g.mxWait := rfl
@[simp] theorem Group.write_vec_yieldUntil (g : Group) (r : Reg) (t : Option Tag) (ws : List LaneWrite) : (g.write (.vec r t ws)).yieldUntil = g.yieldUntil := rfl
@[simp] theorem Group.write_vec_locks (g : Group) (r : Reg) (t : Option Tag) (ws : List LaneWrite) : (g.write (.vec r t ws)).locks = g.locks := rfl
@[simp] theorem Group.write_vec_killed (g : Group) (r : Reg) (t : Option Tag) (ws : List LaneWrite) : (g.write (.vec r t ws)).killed = g.killed := rfl
@[simp] theorem Group.write_vec_ended (g : Group) (r : Reg) (t : Option Tag) (ws : List LaneWrite) : (g.write (.vec r t ws)).ended = g.ended := rfl

@[simp] theorem Group.write_mode_uid (g : Group) (v : Word) : (g.write (.mode v)).uid = g.uid := rfl
@[simp] theorem Group.write_mode_grid (g : Group) (v : Word) : (g.write (.mode v)).grid = g.grid := rfl
@[simp] theorem Group.write_mode_part (g : Group) (v : Word) : (g.write (.mode v)).part = g.part := rfl
@[simp] theorem Group.write_mode_clu (g : Group) (v : Word) : (g.write (.mode v)).clu = g.clu := rfl
@[simp] theorem Group.write_mode_team (g : Group) (v : Word) : (g.write (.mode v)).team = g.team := rfl
@[simp] theorem Group.write_mode_idx (g : Group) (v : Word) : (g.write (.mode v)).idx = g.idx := rfl
@[simp] theorem Group.write_mode_gidx (g : Group) (v : Word) : (g.write (.mode v)).gidx = g.gidx := rfl
@[simp] theorem Group.write_mode_svc (g : Group) (v : Word) : (g.write (.mode v)).svc = g.svc := rfl
@[simp] theorem Group.write_mode_w (g : Group) (v : Word) : (g.write (.mode v)).w = g.w := rfl
@[simp] theorem Group.write_mode_nv (g : Group) (v : Word) : (g.write (.mode v)).nv = g.nv := rfl
@[simp] theorem Group.write_mode_depth (g : Group) (v : Word) : (g.write (.mode v)).depth = g.depth := rfl
@[simp] theorem Group.write_mode_priv (g : Group) (v : Word) : (g.write (.mode v)).priv = g.priv := rfl
@[simp] theorem Group.write_mode_exposePriv (g : Group) (v : Word) : (g.write (.mode v)).exposePriv = g.exposePriv := rfl
@[simp] theorem Group.write_mode_debug (g : Group) (v : Word) : (g.write (.mode v)).debug = g.debug := rfl
@[simp] theorem Group.write_mode_reduced (g : Group) (v : Word) : (g.write (.mode v)).reduced = g.reduced := rfl
@[simp] theorem Group.write_mode_codeBase (g : Group) (v : Word) : (g.write (.mode v)).codeBase = g.codeBase := rfl
@[simp] theorem Group.write_mode_cbase (g : Group) (v : Word) : (g.write (.mode v)).cbase = g.cbase := rfl
@[simp] theorem Group.write_mode_csize (g : Group) (v : Word) : (g.write (.mode v)).csize = g.csize := rfl
@[simp] theorem Group.write_mode_store (g : Group) (v : Word) : (g.write (.mode v)).store = g.store := rfl
@[simp] theorem Group.write_mode_s (g : Group) (v : Word) : (g.write (.mode v)).s = g.s := rfl
@[simp] theorem Group.write_mode_v (g : Group) (v : Word) : (g.write (.mode v)).v = g.v := rfl
@[simp] theorem Group.write_mode_p (g : Group) (v : Word) : (g.write (.mode v)).p = g.p := rfl
@[simp] theorem Group.write_mode_fstat (g : Group) (v : Word) : (g.write (.mode v)).fstat = g.fstat := rfl
@[simp] theorem Group.write_mode_forcedB (g : Group) (v : Word) : (g.write (.mode v)).forcedB = g.forcedB := rfl
@[simp] theorem Group.write_mode_resumed (g : Group) (v : Word) : (g.write (.mode v)).resumed = g.resumed := rfl
@[simp] theorem Group.write_mode_handler (g : Group) (v : Word) : (g.write (.mode v)).handler = g.handler := rfl
@[simp] theorem Group.write_mode_hstart (g : Group) (v : Word) : (g.write (.mode v)).hstart = g.hstart := rfl
@[simp] theorem Group.write_mode_htpc (g : Group) (v : Word) : (g.write (.mode v)).htpc = g.htpc := rfl
@[simp] theorem Group.write_mode_trap (g : Group) (v : Word) : (g.write (.mode v)).trap = g.trap := rfl
@[simp] theorem Group.write_mode_laneTraps (g : Group) (v : Word) : (g.write (.mode v)).laneTraps = g.laneTraps := rfl
@[simp] theorem Group.write_mode_stack (g : Group) (v : Word) : (g.write (.mode v)).stack = g.stack := rfl
@[simp] theorem Group.write_mode_rets (g : Group) (v : Word) : (g.write (.mode v)).rets = g.rets := rfl
@[simp] theorem Group.write_mode_run (g : Group) (v : Word) : (g.write (.mode v)).run = g.run := rfl
@[simp] theorem Group.write_mode_topFirst (g : Group) (v : Word) : (g.write (.mode v)).topFirst = g.topFirst := rfl
@[simp] theorem Group.write_mode_seq (g : Group) (v : Word) : (g.write (.mode v)).seq = g.seq := rfl
@[simp] theorem Group.write_mode_pend (g : Group) (v : Word) : (g.write (.mode v)).pend = g.pend := rfl
@[simp] theorem Group.write_mode_acc (g : Group) (v : Word) : (g.write (.mode v)).acc = g.acc := rfl
@[simp] theorem Group.write_mode_marks (g : Group) (v : Word) : (g.write (.mode v)).marks = g.marks := rfl
@[simp] theorem Group.write_mode_endMark (g : Group) (v : Word) : (g.write (.mode v)).endMark = g.endMark := rfl
@[simp] theorem Group.write_mode_wait (g : Group) (v : Word) : (g.write (.mode v)).wait = g.wait := rfl
@[simp] theorem Group.write_mode_waitFrom (g : Group) (v : Word) : (g.write (.mode v)).waitFrom = g.waitFrom := rfl
@[simp] theorem Group.write_mode_arrived (g : Group) (v : Word) : (g.write (.mode v)).arrived = g.arrived := rfl
@[simp] theorem Group.write_mode_arrivals (g : Group) (v : Word) : (g.write (.mode v)).arrivals = g.arrivals := rfl
@[simp] theorem Group.write_mode_lockLeft (g : Group) (v : Word) : (g.write (.mode v)).lockLeft = g.lockLeft := rfl
@[simp] theorem Group.write_mode_stalled (g : Group) (v : Word) : (g.write (.mode v)).stalled = g.stalled := rfl
@[simp] theorem Group.write_mode_area (g : Group) (v : Word) : (g.write (.mode v)).area = g.area := rfl
@[simp] theorem Group.write_mode_hold (g : Group) (v : Word) : (g.write (.mode v)).hold = g.hold := rfl
@[simp] theorem Group.write_mode_xlate (g : Group) (v : Word) : (g.write (.mode v)).xlate = g.xlate := rfl
@[simp] theorem Group.write_mode_walks (g : Group) (v : Word) : (g.write (.mode v)).walks = g.walks := rfl
@[simp] theorem Group.write_mode_mxWait (g : Group) (v : Word) : (g.write (.mode v)).mxWait = g.mxWait := rfl
@[simp] theorem Group.write_mode_yieldUntil (g : Group) (v : Word) : (g.write (.mode v)).yieldUntil = g.yieldUntil := rfl
@[simp] theorem Group.write_mode_locks (g : Group) (v : Word) : (g.write (.mode v)).locks = g.locks := rfl
@[simp] theorem Group.write_mode_killed (g : Group) (v : Word) : (g.write (.mode v)).killed = g.killed := rfl
@[simp] theorem Group.write_mode_ended (g : Group) (v : Word) : (g.write (.mode v)).ended = g.ended := rfl

@[simp] theorem Group.write_flags_uid (g : Group) (f : BitVec 6) : (g.write (.flags f)).uid = g.uid := rfl
@[simp] theorem Group.write_flags_grid (g : Group) (f : BitVec 6) : (g.write (.flags f)).grid = g.grid := rfl
@[simp] theorem Group.write_flags_part (g : Group) (f : BitVec 6) : (g.write (.flags f)).part = g.part := rfl
@[simp] theorem Group.write_flags_clu (g : Group) (f : BitVec 6) : (g.write (.flags f)).clu = g.clu := rfl
@[simp] theorem Group.write_flags_team (g : Group) (f : BitVec 6) : (g.write (.flags f)).team = g.team := rfl
@[simp] theorem Group.write_flags_idx (g : Group) (f : BitVec 6) : (g.write (.flags f)).idx = g.idx := rfl
@[simp] theorem Group.write_flags_gidx (g : Group) (f : BitVec 6) : (g.write (.flags f)).gidx = g.gidx := rfl
@[simp] theorem Group.write_flags_svc (g : Group) (f : BitVec 6) : (g.write (.flags f)).svc = g.svc := rfl
@[simp] theorem Group.write_flags_w (g : Group) (f : BitVec 6) : (g.write (.flags f)).w = g.w := rfl
@[simp] theorem Group.write_flags_nv (g : Group) (f : BitVec 6) : (g.write (.flags f)).nv = g.nv := rfl
@[simp] theorem Group.write_flags_depth (g : Group) (f : BitVec 6) : (g.write (.flags f)).depth = g.depth := rfl
@[simp] theorem Group.write_flags_priv (g : Group) (f : BitVec 6) : (g.write (.flags f)).priv = g.priv := rfl
@[simp] theorem Group.write_flags_exposePriv (g : Group) (f : BitVec 6) : (g.write (.flags f)).exposePriv = g.exposePriv := rfl
@[simp] theorem Group.write_flags_debug (g : Group) (f : BitVec 6) : (g.write (.flags f)).debug = g.debug := rfl
@[simp] theorem Group.write_flags_reduced (g : Group) (f : BitVec 6) : (g.write (.flags f)).reduced = g.reduced := rfl
@[simp] theorem Group.write_flags_codeBase (g : Group) (f : BitVec 6) : (g.write (.flags f)).codeBase = g.codeBase := rfl
@[simp] theorem Group.write_flags_cbase (g : Group) (f : BitVec 6) : (g.write (.flags f)).cbase = g.cbase := rfl
@[simp] theorem Group.write_flags_csize (g : Group) (f : BitVec 6) : (g.write (.flags f)).csize = g.csize := rfl
@[simp] theorem Group.write_flags_store (g : Group) (f : BitVec 6) : (g.write (.flags f)).store = g.store := rfl
@[simp] theorem Group.write_flags_s (g : Group) (f : BitVec 6) : (g.write (.flags f)).s = g.s := rfl
@[simp] theorem Group.write_flags_v (g : Group) (f : BitVec 6) : (g.write (.flags f)).v = g.v := rfl
@[simp] theorem Group.write_flags_p (g : Group) (f : BitVec 6) : (g.write (.flags f)).p = g.p := rfl
@[simp] theorem Group.write_flags_mode (g : Group) (f : BitVec 6) : (g.write (.flags f)).mode = g.mode := rfl
@[simp] theorem Group.write_flags_forcedB (g : Group) (f : BitVec 6) : (g.write (.flags f)).forcedB = g.forcedB := rfl
@[simp] theorem Group.write_flags_resumed (g : Group) (f : BitVec 6) : (g.write (.flags f)).resumed = g.resumed := rfl
@[simp] theorem Group.write_flags_handler (g : Group) (f : BitVec 6) : (g.write (.flags f)).handler = g.handler := rfl
@[simp] theorem Group.write_flags_hstart (g : Group) (f : BitVec 6) : (g.write (.flags f)).hstart = g.hstart := rfl
@[simp] theorem Group.write_flags_htpc (g : Group) (f : BitVec 6) : (g.write (.flags f)).htpc = g.htpc := rfl
@[simp] theorem Group.write_flags_trap (g : Group) (f : BitVec 6) : (g.write (.flags f)).trap = g.trap := rfl
@[simp] theorem Group.write_flags_laneTraps (g : Group) (f : BitVec 6) : (g.write (.flags f)).laneTraps = g.laneTraps := rfl
@[simp] theorem Group.write_flags_stack (g : Group) (f : BitVec 6) : (g.write (.flags f)).stack = g.stack := rfl
@[simp] theorem Group.write_flags_rets (g : Group) (f : BitVec 6) : (g.write (.flags f)).rets = g.rets := rfl
@[simp] theorem Group.write_flags_run (g : Group) (f : BitVec 6) : (g.write (.flags f)).run = g.run := rfl
@[simp] theorem Group.write_flags_topFirst (g : Group) (f : BitVec 6) : (g.write (.flags f)).topFirst = g.topFirst := rfl
@[simp] theorem Group.write_flags_seq (g : Group) (f : BitVec 6) : (g.write (.flags f)).seq = g.seq := rfl
@[simp] theorem Group.write_flags_pend (g : Group) (f : BitVec 6) : (g.write (.flags f)).pend = g.pend := rfl
@[simp] theorem Group.write_flags_acc (g : Group) (f : BitVec 6) : (g.write (.flags f)).acc = g.acc := rfl
@[simp] theorem Group.write_flags_marks (g : Group) (f : BitVec 6) : (g.write (.flags f)).marks = g.marks := rfl
@[simp] theorem Group.write_flags_endMark (g : Group) (f : BitVec 6) : (g.write (.flags f)).endMark = g.endMark := rfl
@[simp] theorem Group.write_flags_wait (g : Group) (f : BitVec 6) : (g.write (.flags f)).wait = g.wait := rfl
@[simp] theorem Group.write_flags_waitFrom (g : Group) (f : BitVec 6) : (g.write (.flags f)).waitFrom = g.waitFrom := rfl
@[simp] theorem Group.write_flags_arrived (g : Group) (f : BitVec 6) : (g.write (.flags f)).arrived = g.arrived := rfl
@[simp] theorem Group.write_flags_arrivals (g : Group) (f : BitVec 6) : (g.write (.flags f)).arrivals = g.arrivals := rfl
@[simp] theorem Group.write_flags_lockLeft (g : Group) (f : BitVec 6) : (g.write (.flags f)).lockLeft = g.lockLeft := rfl
@[simp] theorem Group.write_flags_stalled (g : Group) (f : BitVec 6) : (g.write (.flags f)).stalled = g.stalled := rfl
@[simp] theorem Group.write_flags_area (g : Group) (f : BitVec 6) : (g.write (.flags f)).area = g.area := rfl
@[simp] theorem Group.write_flags_hold (g : Group) (f : BitVec 6) : (g.write (.flags f)).hold = g.hold := rfl
@[simp] theorem Group.write_flags_xlate (g : Group) (f : BitVec 6) : (g.write (.flags f)).xlate = g.xlate := rfl
@[simp] theorem Group.write_flags_walks (g : Group) (f : BitVec 6) : (g.write (.flags f)).walks = g.walks := rfl
@[simp] theorem Group.write_flags_mxWait (g : Group) (f : BitVec 6) : (g.write (.flags f)).mxWait = g.mxWait := rfl
@[simp] theorem Group.write_flags_yieldUntil (g : Group) (f : BitVec 6) : (g.write (.flags f)).yieldUntil = g.yieldUntil := rfl
@[simp] theorem Group.write_flags_locks (g : Group) (f : BitVec 6) : (g.write (.flags f)).locks = g.locks := rfl
@[simp] theorem Group.write_flags_killed (g : Group) (f : BitVec 6) : (g.write (.flags f)).killed = g.killed := rfl
@[simp] theorem Group.write_flags_ended (g : Group) (f : BitVec 6) : (g.write (.flags f)).ended = g.ended := rfl

end Sys2Proof.Machine
end

