-- ==== Sys2Proof/Tests/Slice0.lean ====
section
/-! SUPPORT. The model's own tests: states that meet the hypotheses of every statement, ill-formed instructions that are
refused, words written from the encodings of spec/, and single steps. Every expected value is from a rule of spec/. -/

namespace Sys2Proof.Tests
open Sys2Proof.Machine

/- The theorems of this file are checked one after the other: many at once would each take a thread's stack. -/
set_option Elab.async false

theorem test_reset_memory : MemoryCanonical State.reset := by unfold MemoryCanonical; decide

/-! ### A group that issues -/

/-- The path entry at code offset 0 with all 16 lanes of the group. -/
def top : Entry := pathEntry 0 (fullMask 16) none

/-- A 16-lane group issuing at code offset 0. -/
def demo : Group :=
  { startGroup 1 1 0 placedDesc 0 0 0 0 0x40000 false false with
    run := some ⟨0, 0⟩
    stack := [top] }

/-- A device in full service with a group in its first slot, whose turn it is. -/
def stage (g : Group) : State := (State.reset.boot 0).setGroup placedRef g

/-- What the statements about an issuing instruction assume. -/
def Ready (s : State) (g : Group) (run : Run) (e : Entry) (act : Mask) : Prop :=
  s.Sound ∧ Issuing s placedRef g run e act ∧ act ≠ 0

theorem stage_sound (g : Group) (h : g.Sound) : (stage g).Sound := by
  refine ⟨?_, ?_, ?_⟩
  · unfold MemoryCanonical
    show (State.reset.boot 0).mem.wf = true
    decide
  · intro x hx
    have : x = (placedRef, g) := by simpa [stage, State.boot, State.setGroup, Tbl.put, State.reset] using hx
    subst this
    exact h
  · intro x hx
    exact absurd hx (by simp [stage, State.boot, State.reset, State.setGroup])

theorem stage_ready (g : Group) (e : Entry) (act : Mask) (h : g.Sound) (hr : g.run = some ⟨0, 0⟩) (he : g.stack[0]? = some e)
    (hm : e.mask ≠ 0) (ha : activeLanes g e = act) (hn : act ≠ 0) : Ready (stage g) g ⟨0, 0⟩ e act :=
  ⟨stage_sound g h, ⟨rfl, rfl, hr, he, hm, ha⟩, hn⟩

theorem demo_sound : demo.Sound := ⟨by intro p hp; simp [demo, startGroup] at hp, by decide, by unfold PredicatesFit; decide⟩

/-- The group whose vector registers all hold a tag. -/
def tagged (t : Tag) : Group := { demo with v := Vector.replicate 64 ⟨t, Vector.replicate 64 0⟩ }

theorem tagged_sound (t : Tag) : (tagged t).Sound := ⟨demo_sound.pending, demo_sound.mode, demo_sound.preds⟩

theorem tagged_tag (t : Tag) (h : t ≠ .raw) (r : Reg) : (tagged t).tagOf r = t := by
  have : (tagged t).vreg r = ⟨t, Vector.replicate 64 0⟩ := by simp [tagged, Group.vreg]
  simp [Group.tagOf, this, effTag, h]

theorem tagged_ready (t : Tag) : Ready (stage (tagged t)) (tagged t) ⟨0, 0⟩ top (fullMask 16) :=
  stage_ready _ _ _ (tagged_sound t) rfl rfl (by decide) (by show activeLanes demo top = _; decide) (by decide)

/-- The hypotheses of `WhenActive`: every statement about an instruction that issues with an active lane. They are all of
UniformArithmetic, UniformBitsAndChoice, UniformPairsAndDivision, LaneSetsAndMatches, NopHasNoEffect, SselSelects. -/
theorem test_meets_WhenActive : Ready (stage demo) demo ⟨0, 0⟩ top (fullMask 16) :=
  stage_ready _ _ _ demo_sound rfl rfl (by decide) rfl (by decide)

/-- NothingWithoutLanes: a guard on predicate 0, which is empty, leaves no lane active. -/
def guarded : Group := { demo with mode := 1 }

theorem test_meets_NothingWithoutLanes :
    (stage guarded).Sound ∧ Issuing (stage guarded) placedRef guarded ⟨0, 0⟩ top 0 ∧
    (Instr.nop false).isEvent = false ∧ unguarded (.nop false) = false ∧ matrixWord (.nop false) = false ∧
    reservedMode guarded (.nop false) = false ∧ matrixWord (.accz false 0) = true ∧ activeLanes guarded.settled top = 0 :=
  ⟨stage_sound _ ⟨demo_sound.pending, by decide, demo_sound.preds⟩, ⟨rfl, rfl, rfl, rfl, by decide, by decide⟩, rfl, rfl, rfl, rfl,
    rfl, by decide⟩

/-- WordsRoundTrip: instructions at the edges of the conditions on serial mode and on reduced service. -/
theorem test_meets_WordsRoundTrip :
    let k : DecCtx := ⟨64, true, true, true⟩
    let i : Instr := .halt false
    i.isEvent = false ∧ i.wf = true ∧ i.fits k = true ∧ absentReduced (fldOp (encodeWord i)) = false ∧
    fldOp (encodeWord i) = 0x7C := by decide

/-! ### Steps -/

/-- StepRunsTheDecodedInstruction: a word that decodes, one that does not, a miss, a failing fetch. -/
theorem test_meets_StepRunsTheDecodedInstruction_word :
    (stage demo).fetch placedRef demo top = .word 0 ⟨0, 0x100FD, 0x20000, 0x10000⟩ ∧
    decode (decCtxOf demo top) 0 = .ok (.nop false) ∧ (stage demo).scoreboardStalls demo (.nop false) 0 = false ∧
    demo.issuing = some (⟨0, 0⟩, top) :=
  ⟨by decide, rfl, rfl, rfl⟩


/-- The same stage with another word at the fetched place, in another page, in a page that is absent. -/
theorem test_meets_StepRunsTheDecodedInstruction_others :
    (stage demo).turn = .issue placedRef ∧ (stage demo).group placedRef = some demo ∧
    decode (decCtxOf demo top) 0x7C000005 = .error .priv ∧
    (stage demo).fetch placedRef demo { top with pc := 0x10000 } = .miss 1 ∧
    (stage { demo with codeBase := 0x0200000000000000 }).fetch placedRef { demo with codeBase := 0x0200000000000000 } top =
      .fault .page 0x0200000000000000 ∧
    (State.reset.turn = .event .reset ∧ Instr.reset.isEvent = true) :=
  ⟨rfl, rfl, rfl, by decide, by decide, rfl, rfl⟩

/-- StepsGoOnSoundly: a sound state and a step from it. -/
theorem test_meets_StepsGoOnSoundly : (stage demo).Sound ∧ ∃ t, StepsTo (stage demo) t :=
  ⟨stage_sound _ demo_sound, _, rfl⟩

/-- MemoryReadsAsWritten: canonical memory, addresses before, in and after the word. -/
theorem test_meets_MemoryReadsAsWritten :
    State.reset.mem.wf = true ∧ (3 : Nat) < 4 ∧ 4 + 4 ≤ (8 : Nat) ∧ (2 : Nat) ≠ 3 :=
  ⟨by decide, by decide, by decide, by decide⟩

/-! ### Vector registers -/

/-- The group whose vector register `r` holds a tag, where the others hold `t`. -/
def mixed (t : Tag) (r : Nat) (u : Tag) : Group :=
  { demo with v := (Vector.replicate 64 ⟨t, Vector.replicate 64 0⟩).setIfInBounds r ⟨u, Vector.replicate 64 0⟩ }

theorem mixed_ready (t : Tag) (r : Nat) (u : Tag) : Ready (stage (mixed t r u)) (mixed t r u) ⟨0, 0⟩ top (fullMask 16) :=
  stage_ready _ _ _ ⟨demo_sound.pending, demo_sound.mode, demo_sound.preds⟩ rfl rfl (by decide)
    (by show activeLanes demo top = _; decide) (by decide)

theorem test_meets_VectorIntegers :
    Ready (stage (tagged .i8x4)) (tagged .i8x4) ⟨0, 0⟩ top (fullMask 16) ∧ tagInt .i8x4 = true ∧ tagInt .n32 = true ∧
    tagInt .i16x2 = true ∧ (∀ r, (tagged .i8x4).tagOf r = .i8x4) :=
  ⟨tagged_ready _, rfl, rfl, rfl, tagged_tag _ (by decide)⟩

theorem test_meets_VectorIntegers_dot :
    Ready (stage (mixed .n8x4 2 .i32)) (mixed .n8x4 2 .i32) ⟨0, 0⟩ top (fullMask 16) ∧ (mixed .n8x4 2 .i32).tagOf 0 = .n8x4 ∧
    (mixed .n8x4 2 .i32).tagOf 1 = .n8x4 ∧ (mixed .n8x4 2 .i32).tagOf 2 = .i32 :=
  ⟨mixed_ready _ _ _, rfl, rfl, rfl⟩

theorem test_meets_VectorBitsAndMoves :
    Ready (stage (tagged .n32)) (tagged .n32) ⟨0, 0⟩ top (fullMask 16) ∧ (∀ r, (tagged .n32).tagOf r = .n32) :=
  ⟨tagged_ready _, tagged_tag _ (by decide)⟩

theorem test_meets_VectorFolds :
    Ready (stage (tagged .f32)) (tagged .f32) ⟨0, 0⟩ top (fullMask 16) ∧ (∀ r, (tagged .f32).tagOf r = .f32) ∧
    tagFlt .f32 = true ∧ tagInt .f32 = false ∧ lanesOf 16 (fullMask 16) ≠ [] ∧ (tagged .f32).Holds (fullMask 16) ∧
    RedOp.minn ≠ .add ∧ RedOp.minn ≠ .min ∧ RedOp.minn ≠ .max :=
  ⟨tagged_ready _, tagged_tag _ (by decide), rfl, rfl, by decide, ⟨0, by decide, by decide⟩, by decide, by decide, by decide⟩

theorem test_meets_FloatArithmetic :
    Ready (stage (mixed .b16x2 2 .f32)) (mixed .b16x2 2 .f32) ⟨0, 0⟩ top (fullMask 16) ∧ tagFlt .b16x2 = true ∧
    (mixed .b16x2 2 .f32).tagOf 0 = .b16x2 ∧ (mixed .b16x2 2 .f32).tagOf 1 = .b16x2 ∧ (mixed .b16x2 2 .f32).tagOf 2 = .f32 ∧
    Ready (stage (tagged .f16x2)) (tagged .f16x2) ⟨0, 0⟩ top (fullMask 16) ∧ (∀ r, (tagged .f16x2).tagOf r = .f16x2) :=
  ⟨mixed_ready _ _ _, rfl, rfl, rfl, rfl, tagged_ready _, tagged_tag _ (by decide)⟩

/-- 1 as an element of F32 is the number 1. -/
theorem one_number : fmtF32.Number 0x3F800000 1 :=
  ⟨by decide, false, 8388608, -23, by decide +kernel, by norm_num⟩

/-- 1 as an element of F32 reads as the number 1. -/
theorem reads_one : fmtF32.Reads false 0x3F800000 (.num 1) := by
  refine ⟨by decide, fun h => absurd h (by decide), fun _ => ?_⟩
  have : fmtF32.value 0x3F800000 = .fin false 8388608 (-23) := by decide +kernel
  rw [this]
  simp only [FVal.Means]
  rw [if_neg (by decide)]
  exact ⟨1, ⟨false, 8388608, -23, rfl, by norm_num⟩, rfl⟩

/-- 1 as an element of F16. -/
theorem reads_half_one : fmtF16.Reads true 0x3C00 (.num 1) := by
  refine ⟨by decide, fun h => absurd h (by decide), fun _ => ?_⟩
  have : fmtF16.value 0x3C00 = .fin false 1024 (-10) := by decide +kernel
  rw [this]
  simp only [FVal.Means]
  rw [if_neg (by decide)]
  exact ⟨1, ⟨false, 1024, -10, rfl, by norm_num⟩, rfl⟩

/-- −0, an infinity, a NaN, a subnormal under FTZ. -/
theorem reads_others :
    fmtF32.Reads false 0x80000000 (.zero true) ∧ fmtF32.Reads false 0x7F800000 (.inf false) ∧ fmtF32.Reads false 0x7FC00000 .nan ∧
    fmtF32.Reads true 0x80000001 (.zero true) := by
  have h1 : fmtF32.value 0x80000000 = .fin true 0 (-149) := by decide +kernel
  have h2 : fmtF32.value 0x7F800000 = .inf false := by decide +kernel
  have h3 : fmtF32.value 0x7FC00000 = .nan false := by decide +kernel
  exact ⟨⟨by decide, fun h => absurd h (by decide), fun _ => by rw [h1]; rfl⟩,
    ⟨by decide, fun h => absurd h (by decide), fun _ => by rw [h2]; rfl⟩,
    ⟨by decide, fun h => absurd h (by decide), fun _ => by rw [h3]; rfl⟩, ⟨by decide, fun _ => rfl, fun h => absurd h (by decide)⟩⟩

theorem sum_two : SumIs 4 [.num 1, .num 1] (.num 2) where
  invalid h := by simp at h
  nan _ h := by simp at h
  unlike _ _ h := by simp at h
  inf _ _ _ h := by simp at h
  zeros s _ h := by simpa using h (.num 1)
  number xs h _ := by
    match xs, h with
    | [x, y], .cons hx (.cons hy .nil) =>
      have ex : x = 1 := by simpa [eq_comm] using hx
      have ey : y = 1 := by simpa [eq_comm] using hy
      subst ex ey
      refine ⟨fun h => ?_, fun _ => ?_⟩
      · norm_num at h
      · norm_num

theorem product_one : ProductIs (.num 1) (.num 1) (.num 1) where
  nan h := by simp at h
  invalid _ _ h := by simp at h
  inf _ _ _ _ h := by simp at h
  zero _ _ _ _ h := by simp at h
  number x y hx hy := by cases hx; cases hy; norm_num

theorem quotient_one : QuotientIs (.num 1) (.num 1) (.num 1) 0 where
  nan h := by simp at h
  invalid _ _ h := by simp at h
  infinite _ _ h := by simp at h
  byZero _ _ _ _ _ h := by simp at h
  zero _ _ _ _ h := by simp at h
  number x y hx hy := by cases hx; cases hy; exact ⟨by norm_num, rfl⟩

/-- FloatArithmetic, what is delivered: elements of every kind, their sum, product and quotient; the NaN of E4x4, the largest
exponent of F16 and its NaN and infinity. -/
theorem test_meets_FloatArithmetic_rounding :
    fmtF32 ∈ [fmtF32, fmtF16, fmtB16] ∧ fmtF16 ∈ [fmtF16, fmtB16] ∧ fmtE4 ∈ [fmtF32, fmtF16, fmtB16, fmtE5, fmtE4, fmtA48] ∧
    (⟨4, true, false⟩ : Rnd).rnd ≤ 4 ∧ fmtF32.Reads false 0x3F800000 (.num 1) ∧ fmtF16.Reads true 0x3C00 (.num 1) ∧
    fmtF32.Reads false 0x80000000 (.zero true) ∧ SumIs 4 [.num 1, .num 1] (.num 2) ∧ ProductIs (.num 1) (.num 1) (.num 1) ∧
    QuotientIs (.num 1) (.num 1) (.num 1) 0 ∧ (XVal.num 1).Neg (.num (-1)) ∧ (FVal.inf true).Means (.inf true) ∧
    (fmtE4.e4 = true ∧ 0x7F < 2 ^ fmtE4.width ∧ 0x7F / 2 ^ fmtE4.fb % 2 ^ fmtE4.eb = 15 ∧ 0x7F % 2 ^ fmtE4.fb = 7) ∧
    (fmtF16.e4 = false ∧ 0x7C00 / 2 ^ fmtF16.fb % 2 ^ fmtF16.eb = 2 ^ fmtF16.eb - 1) :=
  ⟨by simp, by simp, by simp, by decide, reads_one, reads_half_one, reads_others.1, sum_two, product_one, quotient_one, rfl, rfl,
    by decide, by decide⟩

theorem test_meets_FloatSignsAndTests :
    Ready (stage (mixed .f32 1 .i32)) (mixed .f32 1 .i32) ⟨0, 0⟩ top (fullMask 16) ∧ tagFlt .f32 = true ∧
    (mixed .f32 1 .i32).tagOf 0 = .f32 ∧ (mixed .f32 1 .i32).tagOf 1 = .i32 ∧ (mixed .f32 1 .i32).tagOf 2 = .f32 ∧
    (mixed .f16x2 1 .i16x2).tagOf 0 = .f16x2 ∧ (mixed .f16x2 1 .i16x2).tagOf 1 = .i16x2 :=
  ⟨mixed_ready _ _ _, rfl, rfl, rfl, rfl, rfl, rfl⟩

theorem test_meets_FloatFunctions :
    Ready (stage (tagged .f32)) (tagged .f32) ⟨0, 0⟩ top (fullMask 16) ∧ tagFlt .f32 = true ∧ (tagged .f32).tagOf 0 = .f32 :=
  ⟨tagged_ready _, rfl, tagged_tag _ (by decide) _⟩

/-- The sine of no number other than 0 is listed. -/
theorem sin_free (f : FFmt) (x : ℝ) : FsfOp.sin.Free f (.num x) := by intro r fl h; cases h

/-- FloatFunctions, the results: listed ones of a NaN, an infinity and a zero, and a value whose result no rule lists. -/
theorem test_meets_FloatFunctions_bound :
    fmtF32.Reads false 0x3F800000 (.num 1) ∧ FsfOp.sin.Free fmtF32 (.num 1) ∧
    (∀ u, (FVal.fin false 8388608 (-23)).Is u → FsfOp.sin.Free fmtF32 (.num u)) ∧
    fmtF32.value 0x3F800000 = .fin false 8388608 (-23) ∧ (0x3F800000 : Nat) < 2 ^ fmtF32.width ∧
    fmtF32.Reads false 0x80000000 (.zero true) ∧ FsfListed fmtF32 .rcp (.zero true) (.inf true) fDZ ∧
    fmtF32.Reads false 0x7F800000 (.inf false) ∧ FsfListed fmtF32 .sin (.inf false) .invalid 0 ∧
    fmtF32.Reads false 0x7FC00000 .nan ∧ FsfListed fmtF32 .exp2 .nan .nan 0 :=
  ⟨reads_one, sin_free _ _, fun _ _ => sin_free _ _, by decide +kernel, by decide, reads_others.1, .rcpZero _, reads_others.2.1,
    .sinInf _, reads_others.2.2.1, .ofNan _⟩

/-- TestResults and ConversionResults: elements of both formats, an integer element, and widened ones. -/
theorem test_meets_ConversionAndTags_results :
    fmtF32.Reads false 0x3F800000 (.num 1) ∧ fmtF32.Reads false 0x7FC00000 .nan ∧ ElemReads .i8x4 false 0x80 (.num (-128)) 0 ∧
    ElemReads .f32 false 0x3F800000 (.num 1) 0 ∧ Tag.i8x4 ≠ .raw ∧ Tag.i8x4 ≠ .rix ∧ tagInt .i8x4 = true ∧ tagInt .f32 = false ∧
    (-128 : Int) ≠ 0 ∧ XVal.num (-128) = .ofInt (-128) ∧ 4 ≤ Tag.i8x4.num.toNat := by
  refine ⟨reads_one, reads_others.2.2.1, ⟨by decide, fun h => absurd h (by decide), fun _ => ?_, fun h => absurd h (by decide)⟩,
    ⟨by decide, fun h => absurd h (by decide), fun h => absurd h (by decide), fun _ => ⟨reads_one, by decide +kernel⟩⟩,
    by decide, by decide, by decide, by decide, by decide, ?_, by decide⟩
  · refine ⟨?_, rfl⟩
    have : (if tagSigned .i8x4 then signedOf (tagWidth .i8x4) 0x80 else ((0x80 : Nat) : Int)) = -128 := by decide
    rw [this]
    simp [XVal.ofInt]
  · simp [XVal.ofInt]

/-- The part field at its bound: parts 0 to 3 of I8X4 into I32, part 0 alone of F32 into I32. -/
theorem test_meets_ConversionAndTags :
    Ready (stage (tagged .i8x4)) (tagged .i8x4) ⟨0, 0⟩ top (fullMask 16) ∧ (tagged .i8x4).tagOf 0 = .i8x4 ∧
    (3#3).toNat < max (tagCount .i8x4) (tagCount .i32) / min (tagCount .i8x4) (tagCount .i32) ∧
    (0#3).toNat < max (tagCount .f32) (tagCount .i32) / min (tagCount .f32) (tagCount .i32) ∧
    4 ≤ Tag.i8x4.num.toNat ∧ (3#3).toNat < tagCount .i8x4 ∧ (tagged .f32).tagOf 0 = .f32 ∧ (tagged .f32).tagOf 1 = .f32 :=
  ⟨tagged_ready _, tagged_tag _ (by decide) _, by decide, by decide, by decide, by decide, tagged_tag _ (by decide) _,
    tagged_tag _ (by decide) _⟩

/-! ### Control -/

/-- A group with other stacks. -/
def stacked (st : List Entry) (rets : List RetEntry) (depth : Nat) : Group := { demo with stack := st, rets := rets, depth := depth }

theorem stacked_ready (e : Entry) (st : List Entry) (rets : List RetEntry) (depth : Nat) (act : Mask) (hm : e.mask ≠ 0)
    (ha : activeLanes demo e = act) (hn : act ≠ 0) :
    Ready (stage (stacked (e :: st) rets depth)) (stacked (e :: st) rets depth) ⟨0, 0⟩ e act :=
  stage_ready _ _ _ ⟨demo_sound.pending, demo_sound.mode, demo_sound.preds⟩ rfl rfl hm ha hn

def serving (m : Mask) : Entry := { pathEntry 0x40 m none with kind := .handler }

theorem test_meets_TransfersOfControl :
    Ready (stage demo) demo ⟨0, 0⟩ top (fullMask 16) ∧ demo.Holds top.mask ∧ top.kind ≠ .handler ∧
    demo.fits 2 demo.rets.length = true ∧
    (let g := stacked [top, pathEntry 8 0xFFFF none, pathEntry 12 0xFFFF none] [] 0
     Ready (stage g) g ⟨0, 0⟩ top (fullMask 16) ∧ g.fits 4 g.rets.length = false) ∧
    (let g := stacked [serving 3] [] 64
     Ready (stage g) g ⟨0, 0⟩ (serving 3) 1 ∧ g.Holds (serving 3).mask) :=
  ⟨test_meets_WhenActive, ⟨0, by decide, by decide⟩, by decide, by decide,
    ⟨stacked_ready _ _ _ _ _ (by decide) (by decide) (by decide), by decide⟩,
    ⟨stacked_ready _ _ _ _ _ (by decide) (by decide) (by decide), ⟨0, by decide, by decide⟩⟩⟩

/-- A call with and without room, from the top entry and from the one below; returns at the right depth, at another, and
with no return entry. -/
theorem test_meets_CallsAndReturns :
    Ready (stage demo) demo ⟨0, 0⟩ top (fullMask 16) ∧ demo.Holds top.mask ∧ demo.stack = top :: [] ∧ demo.rets = [] ∧
    demo.fits 1 1 = true ∧ (stacked [top, top] [] 0).fits 3 0 = false ∧
    (let g := stacked [top] [⟨8, 0⟩] 64
     Ready (stage g) g ⟨0, 0⟩ top (fullMask 16) ∧ (0 : Nat) + 1 + 0 = g.stack.length) ∧
    (let g := stacked [top, top] [⟨8, 0⟩] 64
     Ready (stage g) g ⟨0, 0⟩ top (fullMask 16) ∧ (0 : Nat) + 1 + 0 ≠ g.stack.length) ∧
    (let g := { stacked [pathEntry 4 0xFF none, top] [] 64 with run := some ⟨1, 0⟩ }
     Issuing (stage g) placedRef g ⟨1, 0⟩ top (fullMask 16)) :=
  ⟨test_meets_WhenActive, ⟨0, by decide, by decide⟩, rfl, rfl, by decide, by decide,
    ⟨stacked_ready _ _ _ _ _ (by decide) (by decide) (by decide), rfl⟩,
    ⟨stacked_ready _ _ _ _ _ (by decide) (by decide) (by decide), by decide⟩, ⟨rfl, rfl, rfl, rfl, by decide, by decide⟩⟩

/-- The last lanes exit, and some of two entries' lanes. -/
theorem test_meets_LanesExit :
    Ready (stage demo) demo ⟨0, 0⟩ top (fullMask 16) ∧ demo.marks = [] ∧
    (∀ x ∈ (demo.stack.set 0 { top with pc := 4 }).map fun x => { x with mask := x.mask &&& ~~~(fullMask 16) }, x.mask = 0) ∧
    (let g := stacked [pathEntry 0 0xFF none, pathEntry 8 0xFF00 none] [] 64
     Ready (stage g) g ⟨0, 0⟩ (pathEntry 0 0xFF none) 0xFF ∧
     ∃ x ∈ (g.stack.set 0 { pathEntry 0 0xFF none with pc := 4 }).map fun x => { x with mask := x.mask &&& ~~~(0xFF : Mask) },
       x.mask ≠ 0) :=
  ⟨test_meets_WhenActive, rfl, by decide,
    ⟨stacked_ready _ _ _ _ _ (by decide) (by decide) (by decide), by decide⟩⟩

/-! ### Traps -/

/-- A group with a handler at code offset 0x40. -/
def handling (g : Group) : Group := { g with handler := 0x40 }

theorem handling_ready (e : Entry) (st : List Entry) (rets : List RetEntry) (depth : Nat) (act : Mask) (hm : e.mask ≠ 0)
    (ha : activeLanes demo e = act) (hn : act ≠ 0) :
    Ready (stage (handling (stacked (e :: st) rets depth))) (handling (stacked (e :: st) rets depth)) ⟨0, 0⟩ e act :=
  stage_ready _ _ _ ⟨demo_sound.pending, demo_sound.mode, demo_sound.preds⟩ rfl rfl hm ha hn

theorem test_meets_TrapsEnterTheHandler :
    let g := handling (stacked [top] [] 64)
    Ready (stage g) g ⟨0, 0⟩ top (fullMask 16) ∧ fullMask 16 &&& ~~~(fullMask g.w) = 0 ∧ top.mask &&& ~~~(fullMask g.w) = 0 ∧
    g.CanEnter ⟨0, 0⟩ top (fullMask 16) ∧ g.CanEnter ⟨0, 0⟩ top top.mask ∧ g.debug = false :=
  ⟨handling_ready _ _ _ _ _ (by decide) (by decide) (by decide), by decide, by decide, ⟨by decide, rfl, by decide, by decide⟩,
    ⟨by decide, rfl, by decide, by decide⟩, rfl⟩

/-- A handler entry stands below the issuing one; no handler; the issuing entry is the handler entry. -/
theorem test_meets_TrapsAreHeldOrTerminate :
    (let g := handling (stacked [pathEntry 8 0xFF00 none, serving 0xFF] [] 64)
     Ready (stage g) g ⟨0, 0⟩ (pathEntry 8 0xFF00 none) 0xFF00 ∧ g.handler ≠ 0 ∧ g.handlerEntry.isSome ∧ g.fits 2 0 = true) ∧
    (Ready (stage demo) demo ⟨0, 0⟩ top (fullMask 16) ∧ demo.handler = 0 ∧ ∃ gr, (stage demo).grid demo.grid = some gr) ∧
    (let g := handling (stacked [serving 0xFF] [] 64)
     Ready (stage g) g ⟨0, 0⟩ (serving 0xFF) 1 ∧ ∃ gr, (stage g).grid g.grid = some gr) :=
  ⟨⟨handling_ready _ _ _ _ _ (by decide) (by decide) (by decide), by decide, by decide, by decide⟩,
    ⟨test_meets_WhenActive, rfl, _, rfl⟩, ⟨handling_ready _ _ _ _ _ (by decide) (by decide) (by decide), _, rfl⟩⟩

/-- Service of two lanes, and of the last one with a lane that resumes, by each form of RETT. -/
theorem test_meets_HandlerService :
    (let g := stacked [serving 3] [] 64
     Ready (stage g) g ⟨0, 0⟩ (serving 3) 1 ∧ (serving 3).kind = .handler ∧
     (serving 3).mask &&& ~~~(laneBit (lowest (serving 3).mask)) ≠ 0) ∧
    (let g := stacked [serving 1, pathEntry 8 0xFFFE none] [] 64
     Ready (stage g) g ⟨0, 0⟩ (serving 1) 1 ∧ (serving 1).mask = laneBit (lowest (serving 1).mask) ∧
     g.fits 2 g.rets.length = true ∧ ∃ x ∈ [pathEntry 8 0xFFFE none], x.mask ≠ 0) :=
  ⟨⟨stacked_ready _ _ _ _ _ (by decide) (by decide) (by decide), rfl, by decide⟩,
    ⟨stacked_ready _ _ _ _ _ (by decide) (by decide) (by decide), by decide, by decide, by decide⟩⟩

theorem test_meets_FormatTraps :
    Ready (stage (mixed .f32 1 .i32)) (mixed .f32 1 .i32) ⟨0, 0⟩ top (fullMask 16) ∧ (mixed .f32 1 .i32).Holds (fullMask 16) ∧
    (mixed .f32 1 .i32).tagOf 0 ≠ (mixed .f32 1 .i32).tagOf 1 ∧ tagInt ((mixed .f32 1 .i32).tagOf 0) = false ∧
    tagFlt ((mixed .f32 1 .i32).tagOf 1) = false ∧
    tagInt ((mixed .raw 1 .i32).tagOf 0) = false ∧ tagFlt ((mixed .raw 1 .i32).tagOf 0) = false :=
  ⟨mixed_ready _ _ _, ⟨0, by decide, by decide⟩, by decide, rfl, rfl, rfl, rfl⟩

/-! ### System registers -/

/-- MODE values at the edges: a legal one with every field at its largest, one with a reserved rounding; a reserved value
where the guard leaves no lane active. -/
def refusing : Group := { guarded with s := demo.s.set 0 0xA0 }

theorem test_meets_ModeInstructions :
    Ready (stage demo) demo ⟨0, 0⟩ top (fullMask 16) ∧ demo.Holds top.mask ∧ modeLegal 0 = true ∧
    modeLegal ((1 <<< 22) + (9 <<< 18) + (14 <<< 14) + (14 <<< 10) + (4 <<< 5) + 8) = true ∧
    (stage refusing).Sound ∧ Issuing (stage refusing) placedRef refusing ⟨0, 0⟩ top 0 ∧ refusing.Holds top.mask ∧
    reservedMode refusing (.setmode false 0) = true ∧ reservedMode refusing (.modef false 1 0 0) = true :=
  ⟨test_meets_WhenActive, ⟨0, by decide, by decide⟩, by decide, by decide,
    stage_sound _ ⟨demo_sound.pending, by decide, demo_sound.preds⟩, ⟨rfl, rfl, rfl, rfl, by decide, by decide⟩,
    ⟨0, by decide, by decide⟩, by decide, by decide⟩

theorem test_meets_SpecialRegisters :
    Ready (stage demo) demo ⟨0, 0⟩ top (fullMask 16) ∧ (top.kind == .handler) = false ∧
    (let g := stacked [serving 3] [] 64
     Ready (stage g) g ⟨0, 0⟩ (serving 3) 1 ∧ ((serving 3).kind == .handler) = true) :=
  ⟨test_meets_WhenActive, rfl, stacked_ready _ _ _ _ _ (by decide) (by decide) (by decide), rfl⟩

/-- A group whose uniform pair 0 holds an address. -/
def addressed (a : Addr) : Group := { demo with s := (demo.s.set 0 (loWord a)).set 1 (hiWord a) }

theorem addressed_ready (a : Addr) : Ready (stage (addressed a)) (addressed a) ⟨0, 0⟩ top (fullMask 16) :=
  stage_ready _ _ _ ⟨demo_sound.pending, demo_sound.mode, demo_sound.preds⟩ rfl rfl (by decide)
    (by show activeLanes demo top = _; decide) (by decide)

/-- SLEEP at the edge of its condition, a grid that may be debugged, TLBINV at the edges of the global window. -/
theorem test_meets_WaitsHaltsAndDrops :
    Ready (stage (addressed 0)) (addressed 0) ⟨0, 0⟩ top (fullMask 16) ∧ ((addressed 0).pair 0).toNat ≤ (stage (addressed 0)).clk * 20 / 17 ∧
    (stage (addressed 1)).clk * 20 / 17 < ((addressed 1).pair 0).toNat ∧ ({ demo with debug := true } : Group).debug = true ∧
    demo.count .g < 63 ∧ ((addressed 0x01FFFFFFFFFFFFFF).pair 0).toNat < 2 ^ 57 ∧
    2 ^ 57 ≤ ((addressed 0x0200000000000000).pair 0).toNat ∧ (addressed 0x0200000000000000).Holds (fullMask 16) :=
  ⟨addressed_ready _, by decide, by decide, rfl, by decide, by decide, by decide, ⟨0, by decide, by decide⟩⟩
/-! ### Memory -/

/-- Cells of a good launch descriptor at 0x1000, of a good group image at 0x4000 and of page tables at 0x20000 that map the
first 1 GiB to itself. -/
def tables : List Host.Cell :=
  [(0x1001, 0x01), (0x1002, 0x04), (0x1003, 0x01), (0x1004, 0x40), (0x1006, 0x01), (0x1008, 0x10), (0x1009, 0x11), (0x100A, 0x10),
   (0x100B, 0x11), (0x100E, 0x10), (0x4001, 16), (0x4002, 8), (0x4003, 1), (0x4060, 0xFF), (0x4068, 2), (0x20000, 1), (0x20002, 3),
   (0x30000, 1), (0x30002, 4), (0x40000, 0xFD)]

/-- The stage behind page tables, with three pages cached beside them: blocks 0x10000 and 0x10001, of member 0 and of
all members of fabric entry 0, and block 0x10002, a D page. -/
def paged (g : Group) : State :=
  let s := stage g
  { s with
    mem := { s.mem with cells := tables }
    parts := s.parts.set 0 { s.parts[0] with tbase := 0x20000, fgt := (s.parts[0]).fgt.set 0 0x8000080000000000 }
    tlb := [⟨0, some 0, s.cid 0, 0, 16384, 0xFD, 0x40000⟩, ⟨0, some 0, s.cid 0, 0x10000, 1, 0x00080000000000FD, 0x50000⟩,
      ⟨0, some 0, s.cid 0, 0x10001, 1, 0x00081FF8000000FD, 0x50008⟩,
      ⟨0, some 0, s.cid 0, 0x10002, 1, 0x01000000000000FD, 0x50010⟩] }

theorem paged_sound (g : Group) (h : g.Sound) : (paged g).Sound :=
  ⟨by
    unfold MemoryCanonical
    show (paged demo).mem.wf = true
    decide, (stage_sound g h).groups, (stage_sound g h).parked⟩

/-- A change of partition 0. -/
def parted (f : Partition → Partition) (s : State) : State := { s with parts := s.parts.set 0 (f s.parts[0]) }

/-- The grids of a state at another point of a pre-emption. -/
def gridAt (p : GridPre) (s : State) : State := { s with grids := s.grids.map fun g => { g with pre := p } }

/-- What stays sound when other parts of the device change. -/
theorem sound_of {s t : State} (h : s.Sound) (hm : t.mem = s.mem) (hg : t.groups = s.groups) (hp : t.parked = s.parked) : t.Sound :=
  ⟨by unfold MemoryCanonical; rw [hm]; exact h.mem, by rw [hg]; exact h.groups, by rw [hp]; exact h.parked⟩

/-- A group whose uniform pair 0 holds an address, over the paged memory. -/
theorem paged_ready (a : Addr) : Ready (paged (addressed a)) (addressed a) ⟨0, 0⟩ top (fullMask 16) :=
  ⟨paged_sound _ ⟨demo_sound.pending, demo_sound.mode, demo_sound.preds⟩,
    ⟨rfl, rfl, rfl, rfl, by decide, by show activeLanes demo top = _; decide⟩, by decide⟩

/-- An instruction goes on past its ordering halves. -/
def goes : Held → Bool
  | .goes _ _ => true
  | .stays _ => false

/-- A check that passes with places, no ordering that holds, room on the counter and for the requests: what `IssuesLanes` and
`IssuesWhole` assume of an instruction whose 16 active lanes all use the address in uniform pair 0. -/
def passes (s : State) (g : Group) (i : Instr) (path : Path) (check : Nat → Checked) (q : Order) (sc : Scope) : Bool :=
  match check 0 with
  | .ok ps =>
    !ps.isEmpty && ((List.range 16).all fun l => check l == .ok ps) && decide (g.count path < 63) &&
    decide (s.requestsAt placedRef + (ps.map fun x => x.1.line).eraseDups.length ≤ 384) &&
    (ps.all fun x => !s.matrixHolds g.uid x.1) &&
    goes (s.holdFor (ctxOf i placedRef g ⟨0, 0⟩ top (fullMask 16)) q sc (lines ps))
  | .miss _ | .fault _ => false

/-- Loads and stores of device memory: plain, acquiring, releasing; of team memory; of every member of a fabric entry; a tag
LDRED does not take. -/
theorem test_meets_LoadsAndStoresIssue :
    Ready (paged (addressed 0x1000)) (addressed 0x1000) ⟨0, 0⟩ top (fullMask 16) ∧
    (let g := addressed 0x1000
     let s := paged g
     passes s g (.ldg false 0 0 0x3F .acq .die) .g (fun l => s.checkGeneric placedRef g loadNeed l (g.laneAt 0 0x3F l) 1 4 4) .acq .die ∧
     passes s g (.ldgw false 0 0 0x3F .none .grp) .g
       (fun l => s.checkGeneric placedRef g loadNeed l (g.laneAt 0 0x3F l) 4 16 16) .none .grp ∧
     passes s g (.stg false 0 0 0x3F .rel .sys) .g
       (fun l => s.checkGeneric placedRef g storeNeed l (g.laneAt 0 0x3F l) 1 4 4) .rel .sys ∧
     passes s g (.stgw false 0 0 0x3F .none .grp) .g
       (fun l => s.checkGeneric placedRef g storeNeed l (g.laneAt 0 0x3F l) 4 16 16) .none .grp ∧
     passes s g (.stk false 0 0 0x3F .rel .die) .k
       (fun _ => s.checkWhole (ctxOf (.stk false 0 0 0x3F .rel .die) placedRef g ⟨0, 0⟩ top (fullMask 16)) storeNeed (g.wholeAt 0 0x3F))
       .rel .die ∧
     passes s g (.ldk false 0 0 0x3F .none .grp) .k
       (fun _ => s.checkWhole (ctxOf (.ldk false 0 0 0x3F .none .grp) placedRef g ⟨0, 0⟩ top (fullMask 16)) loadNeed (g.wholeAt 0 0x3F))
       .none .grp) ∧
    (let g := addressed 0xFFFC
     let s := paged g
     passes s g (.ldt false 0 0 0x3F .none .grp) .t (fun l => s.checkTeam placedRef g (loWord ((g.teamAt 0 0x3F l).setWidth 64)) 4 4)
       .none .grp ∧
     passes s g (.stt false 0 0 0x3F .rel .team) .t (fun l => s.checkTeam placedRef g (loWord ((g.teamAt 0 0x3F l).setWidth 64)) 4 4)
       .rel .team) ∧
    (let g := addressed 0x100010000
     let s := paged g
     passes s g (.ldred false 0 0 0x3F .none .grp) .g
       (fun l => s.checkGeneric placedRef g ⟨false, false, 2⟩ l (g.laneAt 0 0x3F l) 1 4 4) .none .grp ∧
     passes s g (.stmc false 0 0 0x3F .none .grp) .g
       (fun l => s.checkGeneric placedRef g ⟨true, false, 2⟩ l (g.laneAt 0 0x3F l) 1 4 4) .none .grp) ∧
    reduceTag (modeLdfmt (3 <<< 10)) = true ∧ reduceTag (modeLdfmt 0) = false ∧ (addressed 0).Holds (fullMask 16) := by
  refine ⟨paged_ready _, ⟨?_, ?_, ?_, ?_, ?_, ?_⟩, ⟨?_, ?_⟩, ⟨?_, ?_⟩, ?_, ?_, ⟨0, by decide, by decide⟩⟩ <;> decide +kernel

/-- Atomics of device memory and of the fabric; a floating operation on a register that is not FLT. -/
theorem test_meets_AtomicsIssue :
    (let g := addressed 0x1000
     let s := paged g
     passes s g (.atom false 0 0 0x3F .add .none) .g (fun l => s.checkGeneric placedRef g ⟨true, true, 1⟩ l (g.laneAt 0 0x3F l) 1 4 4)
       .none (modeScope g.mode) ∧
     passes s g (.atomu false 0 0 0x3F .cas .acqrel) .k
       (fun _ => s.checkWhole (ctxOf (.atomu false 0 0 0x3F .cas .acqrel) placedRef g ⟨0, 0⟩ top (fullMask 16)) ⟨true, true, 1⟩
         (g.wholeAt 0 0x3F)) .acqrel (modeScope g.mode)) ∧
    (let g := addressed 0x100000000
     let s := paged g
     passes s g (.fatom false 0 0 0x3F .add .none) .g
       (fun l => s.checkGeneric placedRef g ⟨true, false, 3⟩ l (g.laneAt 0 0x3F l) 1 4 4) .none (modeScope g.mode)) ∧
    (tagged .f32).tagOf 0 = .f32 ∧ tagFlt ((tagged .i32).tagOf 0) = false ∧ (tagged .i32).Holds (fullMask 16) := by
  refine ⟨⟨?_, ?_⟩, ?_, tagged_tag _ (by decide) _, rfl, ⟨0, by decide, by decide⟩⟩ <;> decide +kernel

/-- A group whose lane 1 adds an index to the address in uniform pair 0. -/
def spread (a : Addr) (n : Word) : Group :=
  { addressed a with v := (addressed a).v.set 1 ⟨.raw, (Vector.replicate 64 0).set 1 n⟩ }

/-- The lanes below 16 whose check fails, when lane 0 passes and the others take its places. -/
def splits (s : State) (check : Nat → Checked) : List Nat :=
  match check 0 with
  | .ok ps => if ps.isEmpty then [] else (List.range 16).filter fun l => check l != .ok ps
  | .miss _ | .fault _ => []

/-- Misaligned addresses, at the first byte and at the last aligned place of the global window; lane 1 alone misaligned, out
of the team memory, in an absent page; whole accesses that fail; team offsets with a reserved bit, and off their alignment. -/
theorem test_meets_FailingLanesTrap :
    Ready (paged (addressed 0x1002)) (addressed 0x1002) ⟨0, 0⟩ top (fullMask 16) ∧
    (∀ l, l < 16 → (paged (addressed 0x1002)).checkGeneric placedRef (addressed 0x1002) loadNeed l ((addressed 0x1002).laneAt 0 0x3F l)
      1 4 4 = .fault .align) ∧
    (addressed 0x1002).Holds (fullMask 16) ∧ (0x1002#64).toNat + 4 * 1 ≤ 2 ^ 57 ∧ (0x1002#64).toNat % (4 * 1) ≠ 0 ∧
    (0x01FFFFFFFFFFFFEF#64).toNat + 4 * 4 ≤ 2 ^ 57 ∧ (0x01FFFFFFFFFFFFEF#64).toNat % (4 * 4) ≠ 0 ∧
    (let g := spread 0x1000 2
     let s := paged g
     splits s (fun l => s.checkGeneric placedRef g loadNeed l (g.laneAt 0 1 l) 1 4 4) = [1] ∧
     goes (s.holdFor (ctxOf (.ldg false 0 0 1 .acq .sys) placedRef g ⟨0, 0⟩ top (fullMask 16)) .acq .sys [0x1000]) = true) ∧
    (let g := spread 0x100010000 1
     splits (paged g) (fun l => (paged g).checkGeneric placedRef g ⟨true, false, 2⟩ l (g.laneAt 0 1 l) 1 4 4) = [1]) ∧
    (let g := spread 0 0x10000
     splits (paged g) (fun l => (paged g).checkTeam placedRef g (loWord ((g.teamAt 0 1 l).setWidth 64)) 4 4) = [1]) ∧
    (let g := addressed 0x0200000000000000
     (paged g).checkWhole (ctxOf (.ldk false 0 0 0x3F .none .grp) placedRef g ⟨0, 0⟩ top (fullMask 16)) loadNeed (g.wholeAt 0 0x3F) =
       .fault .range) ∧
    (0x00100000#32).extractLsb' 20 4 ≠ 0 ∧ (0xFFFE#32).toNat % 4 ≠ 0 := by
  refine ⟨paged_ready _, ?_, ⟨0, by decide, by decide⟩, ?_, ?_, ?_, ?_, ⟨?_, ?_⟩, ?_, ?_, ?_, ?_, ?_⟩ <;> decide +kernel

/-- Lines, pages and a D page in device memory; an address past the global window. -/
theorem test_meets_LineRequestsIssue :
    (let g := addressed 0x1000
     let s := paged g
     passes s g (.flushl false true 0 0x3F .die) .g
       (fun l => (s.checkGeneric placedRef g loadNeed l (g.laneAt 0 0x3F l) 1 1 4).onMemory) .none .grp ∧
     (∀ l, l < 16 → (s.checkGeneric placedRef g ⟨false, false, 4⟩ l (g.laneAt 0 0x3F l) 1 1 4).onD .die = .ok []) ∧
     passes s g (.svdecl false 0 0 1) .k (fun _ => s.checkPage placedRef g ⟨false, false, 1⟩ false 0x1000) .none .grp ∧
     passes s g (.sealPage false 0 0) .k (fun _ => s.checkPage placedRef g ⟨false, false, 1⟩ false 0x1000) .rel .fab ∧
     passes s g (.vintrd false 0 0) .k (fun _ => s.checkPage placedRef g ⟨false, false, 0⟩ false 0x1000) .none .fab) ∧
    (let g := addressed 0x100020000
     passes (paged g) g (.grfl false 0 0x3F .part) .g
       (fun l => ((paged g).checkGeneric placedRef g ⟨false, false, 4⟩ l (g.laneAt 0 0x3F l) 1 1 4).onD .part) .none .grp) ∧
    2 ^ 57 ≤ ((addressed 0x0200000000000000).pair 0).toNat ∧ (addressed 0x0200000000000000).Holds (fullMask 16) := by
  refine ⟨⟨?_, ?_, ?_, ?_, ?_⟩, ?_, ?_, ⟨0, by decide, by decide⟩⟩ <;> decide +kernel

/-- WAITC passes at its threshold and waits above it, with one access outstanding; PREF finds its lines mapped. -/
theorem test_meets_PrefetchWaitAndPointers :
    (let g := addressed 0x1000
     Ready (paged g) g ⟨0, 0⟩ top (fullMask 16) ∧
     (∀ x ∈ (lanesOf g.w (fullMask 16)).map fun l => (paged g).checkGeneric placedRef g loadNeed l (g.laneAt 0 0x3F l) 1 1 4,
       x.isMiss = false)) ∧
    demo.count .g ≤ 0 ∧ demo.marks = [] ∧
    0 < ({ demo with acc := [accessOf (.nop false) demo top 0 .g .load .none [] none] } : Group).count .g :=
  ⟨⟨paged_ready _, by decide +kernel⟩, by decide, rfl, by decide⟩

/-- A small group whose pair 0 holds the address of an image. -/
def small (a : Addr) : Group := { addressed a with nv := 8, acc := [] }

/-- The image that CTXLD of a small group finds in a state, if its address passes: its words, and whether they are poisoned. -/
def imageAt (s : State) (a : Addr) : Option (List Word × Bool) :=
  match s.checkImage (ctxOf (.ctxld false 0) placedRef (small a) ⟨0, 0⟩ top (fullMask 16)) ⟨false, false, 1⟩ ((small a).pair 0) with
  | .ok ps => some (((s.touchAll (ps.filterMap (·.2)) false).loadPlaces 0 0 (ps.map (·.1))).2,
      (ps.map (·.1)).any fun x => (placePa x).any (poisoned s.poison))
  | .miss _ | .fault _ => none

/-- Images at mapped addresses: one good with an entry that holds lanes, one not, one poisoned, one to store to; addresses out
of the global window and off their alignment; a group with an access outstanding. -/
theorem test_meets_GroupImages :
    ((imageAt (paged (small 0x4000)) 0x4000).any fun x => !x.2 && imageGood (small 0x4000) x.1 && (imDeep (small 0x4000) x.1 == (0, 0)) &&
      (loadImage (small 0x4000) x.1 [] []).stack.any fun e => e.mask != 0) = true ∧
    ((imageAt (paged (small 0x8000)) 0x8000).any fun x => !x.2 && !imageGood (small 0x8000) x.1) = true ∧
    ((imageAt { paged (small 0x4000) with poison := [(0x4080, 0)] } 0x4000).any fun x => x.2) = true ∧
    ((paged (small 0x8000)).checkImage (ctxOf (.ctxsv false 0 0) placedRef (small 0x8000) ⟨0, 0⟩ top (fullMask 16)) ⟨true, false, 1⟩
      ((small 0x8000).pair 0)).places ≠ [] ∧
    ((paged (small 0)).checkImage (ctxOf (.ctxsv false 0 0) placedRef (small 0) ⟨0, 0⟩ top (fullMask 16)) ⟨true, false, 1⟩
      0x0200000000000000).isFault = true ∧
    ((paged (small 0)).checkImage (ctxOf (.ctxld false 0) placedRef (small 0) ⟨0, 0⟩ top (fullMask 16)) ⟨false, false, 1⟩
      0x4001).isFault = true ∧
    (∀ x, (paged (small 0x4000)).ownedByEngine x = false) ∧ (small 0x4000).acc = [] ∧ (small 0x4000).Holds (fullMask 16) ∧
    ({ demo with acc := [accessOf (.nop false) demo top 0 .g .load .none [] none] } : Group).acc ≠ [] ∧
    (small 0).nv ≤ 64 ∧ (small 0).w ≤ 64 :=
  ⟨by decide +kernel, by decide +kernel, by decide +kernel, by decide +kernel, by decide +kernel, by decide +kernel,
    fun x => by unfold State.ownedByEngine; cases x.local_ <;> rfl, rfl, ⟨0, by decide, by decide⟩, by decide, by decide, by decide⟩

/-! ### Locks, fences and barriers -/

/-- The demo group in a wait. -/
def waiting (w : Wait) : Group := { demo with wait := some w }

theorem waiting_holds (s : State) (w : Wait) (hs : s.Sound) (hg : s.group placedRef = some (waiting w)) :
    Waiting s placedRef (waiting w) w ⟨0, 0⟩ top := ⟨hs, hg, rfl, rfl, rfl, by decide⟩

theorem waiting_sound (w : Wait) : (stage (waiting w)).Sound :=
  stage_sound _ ⟨demo_sound.pending, demo_sound.mode, demo_sound.preds⟩

/-- A lock line in a mapped page, on the held-lock list and not, with and without an acquire half, an ULCK of each; an abandoned
wait whose record stands, and one whose record is gone; an LCK whose first request is on its way. -/
theorem test_meets_LockInstructions :
    (let g := addressed 0x1000
     let s := paged g
     let c := ctxOf (.lck false 2 0 0x3F .acq) placedRef g ⟨0, 0⟩ top (fullMask 16)
     Ready s g ⟨0, 0⟩ top (fullMask 16) ∧
     (match s.checkLock c (g.wholeAt 0 0x3F) true, s.checkLock c (g.wholeAt 0 0x3F) false with
      | .ok l _ _, .ok m _ _ => l == 0x1000 && m == 0x1000
      | _, _ => false) = true ∧
     0x1000 ∉ g.locks ∧ g.lockLeft = none ∧ g.count .k < 63 ∧ s.requestsAt placedRef + 1 ≤ 384 ∧
     goes (s.holdFor c .none .grp [0x1000]) ∧ goes (s.holdFor c .acq .grp [0x1000])) ∧
    0x1000 ∈ ({ addressed 0x1000 with locks := [0x1000] } : Group).locks ∧
    (let g : Group := { addressed 0x1000 with lockLeft := some ⟨0x1000, 0x1000, 7⟩ }
     let s : State := { paged g with lockTab := [⟨0x1000, some 9, 0, [⟨0, 1⟩], false, 0⟩] }
     g.lockLeft = some ⟨0x1000, 0x1000, 7⟩ ∧ s.rejoins g.uid 0x1000 = true ∧ (paged g).rejoins g.uid 0x1000 = false ∧
     ∃ x ∈ ({ s with lockReqs := [⟨.take, 1, placedRef.at, 0, 0x1000, 0x1000, 0⟩] } : State).lockReqs, x.uid = g.uid ∧ x.line = 0x1000 ∧
       x.kind = .take) :=
  ⟨⟨paged_ready _, by decide +kernel, by decide, rfl, by decide, by decide, by decide +kernel, by decide +kernel⟩, by decide, rfl, by decide +kernel,
    by decide +kernel, _, List.mem_singleton.mpr rfl, rfl, rfl, rfl⟩

/-- A group that waits for line 0x80, with the requests and the lock entry of each clause. -/
def locking (timeout : Nat) (reqs : List LockReq) (tab : List Lock) (clk : Nat) : State :=
  { stage (waiting (.lock 2 0x80 0x80 none timeout)) with lockReqs := reqs, lockTab := tab, clk := clk }

theorem locking_waits (timeout : Nat) (reqs : List LockReq) (tab : List Lock) (clk : Nat) :
    Waiting (locking timeout reqs tab clk) placedRef (waiting (.lock 2 0x80 0x80 none timeout)) (.lock 2 0x80 0x80 none timeout)
      ⟨0, 0⟩ top ∧
    (locking timeout reqs tab clk).byUid 1 = some (placedRef, waiting (.lock 2 0x80 0x80 none timeout)) :=
  ⟨waiting_holds _ _ (sound_of (waiting_sound _) rfl rfl rfl) rfl, rfl⟩

/-- Requests of the waiting group: an LCK, an LCKQ. -/
def lockReq (k : LockReqKind) : LockReq := ⟨k, 1, ⟨0, 0⟩, 0, 0x80, 0x80, 0⟩

/-- A free line and a request that may arrive, one behind an earlier one; a held line, to wait for and to try; a free line with a
waiter, its timeout running and run out after the line became free; a timeout at its last moment, with and without a grant due. -/
theorem test_meets_LockEvents :
    (let s := locking 5 [lockReq .take] [] 0
     s.lockReqs[0]? = some (lockReq .take) ∧ s.earlierRequest 0 (lockReq .take) = false ∧ (s.portFor (lockReq .take)).isSome = true ∧
     (lockReq .take).inc = s.incs[(lockReq .take).src.die] ∧ s.lockOf 0x80 = none ∧ s.lockFull 0x80 = false) ∧
    (locking 5 [lockReq .release, lockReq .take] [] 0).earlierRequest 1 (lockReq .take) = true ∧
    (let k : Lock := ⟨0x80, some 7, 0, [], false, 0⟩
     let s := locking 5 [lockReq .try_, lockReq .take] [k] 0
     let s1 : State := { s with lockReqs := s.lockReqs.eraseIdx 0 }
     s.lockReqs[0]? = some (lockReq .try_) ∧ s.earlierRequest 0 (lockReq .try_) = false ∧
     s.lockOf 0x80 = some k ∧ k.holder.isSome ∧ k.holder ≠ some 1 ∧ (k.queue.any fun z => z.uid == 1) = false ∧
     s1.freeRecord 0x80 = some 0 ∧
     (k.holder.bind fun h => chase (s1.setLock { k with queue := k.queue ++ [⟨0, 1⟩] }).lockTab 1 16 1 h) = none) ∧
    (let k : Lock := ⟨0x80, none, 4000, [⟨0, 1⟩], true, 0⟩
     let s := locking 5 [] [k] 4251
     lineOf 0x80 = 0x80 ∧ s.lockOf 0x80 = some k ∧ k.holder = none ∧ (demo.ended = false) ∧ s.endedStores 0x80 = false ∧
     ¬ s.clk ≤ (waiting (.lock 2 0x80 0x80 none 5)).waitFrom + 850 * 5 ∧
     k.since ≤ (waiting (.lock 2 0x80 0x80 none 5)).waitFrom + 850 * 5 ∧ s.grantDue 0x80 1 = true) ∧
    ((waiting (.lock 2 0x80 0x80 none 5)).waitFrom + 850 * 5 ≤ (locking 5 [] [] 4250).clk ∧
      (locking 5 [] [] 4250).grantDue 0x80 1 = false) :=
  ⟨⟨rfl, by decide +kernel, by decide +kernel, by decide +kernel, rfl, by decide⟩, by decide +kernel,
    ⟨rfl, by decide +kernel, rfl, rfl, by decide, rfl, by decide +kernel, by decide +kernel⟩,
    ⟨by decide, rfl, rfl, rfl, by decide, by decide, by decide, by decide +kernel⟩, by decide, by decide +kernel⟩

/-- FENCE with nothing before it; a first arrival, one behind it, a phase that is complete and one that is open. -/
theorem test_meets_FencesAndBarriers :
    Ready (stage demo) demo ⟨0, 0⟩ top (fullMask 16) ∧
    (∃ u p, (stage demo).holdFor (ctxOf (.fence false .acqrel .sys) placedRef demo ⟨0, 0⟩ top (fullMask 16)) .acqrel .sys [] = .goes u p ∧
      u.startedOf demo.uid = []) ∧
    demo.valuesReturned = true ∧
    (let x : BarRef := ⟨1, .team, 0, 3⟩
     (∃ u p, (stage demo).holdFor (ctxOf (.bara false 2 3 .team) placedRef demo ⟨0, 0⟩ top (fullMask 16)) .rel
        ((stage demo).barScope demo .team) [] = .goes u p ∧ (u.barrier x).nextPhase demo.uid (demo.pendingAt x) = some 0) ∧
     demo.arrived = none ∧ ({ demo with arrived := some (x, 0) } : Group).arrived = some (x, 0) ∧
     ¬ (1 ≤ (((stage demo).barrier x).cur - 0).toNat ∧ (((stage demo).barrier x).cur - 0).toNat ≤ 32767) ∧
     (1 ≤ (((stage demo).barrier x).cur - 0xFFFF).toNat ∧ (((stage demo).barrier x).cur - 0xFFFF).toNat ≤ 32767) ∧
     (1 ≤ (((stage demo).barrier x).cur - 0x8001).toNat ∧ (((stage demo).barrier x).cur - 0x8001).toNat ≤ 32767)) :=
  ⟨test_meets_WhenActive, ⟨_, _, rfl, rfl⟩, rfl, ⟨_, _, rfl, rfl⟩, rfl, rfl, by decide, by decide, by decide⟩

/-- Arrivals: none, one, one ahead; two that a group sent and that are still to be recorded; a team barrier of one member with and without its arrival, and a waiter for its phase. -/
theorem test_meets_BarrierArrivalsAndPhases :
    (∃ gr, (stage demo).grid 1 = some gr) ∧ demo.svc = .none ∧ 1 ∉ (Barrier.idle).now ∧
    1 ∈ (⟨0, [1], [], false⟩ : Barrier).now ∧ 1 ∈ (⟨0, [1], [1], false⟩ : Barrier).ahead ∧
    (let b : BarRef := ⟨1, .team, 0, 3⟩
     let g : Group := { demo with seq := 9, arrivals := [(7, b), (8, b)] }
     (stage g).group placedRef = some g ∧ g.arrivals = [] ++ (7, b) :: [(8, b)] ∧ g.arrivals = [(7, b)] ++ (8, b) :: [] ∧
     (stage g).hasAccess placedRef 7 = false ∧ (stage g).hasAccess placedRef 8 = false ∧ demo.pendingAt b = 0 ∧
     ({ demo with arrivals := [(7, b)] } : Group).pendingAt b = 1) ∧
    (let b : BarRef := ⟨1, .team, 0, 3⟩
     let w : Wait := .barrier 2 b 0
     let g := waiting w
     let s := (stage g).arrive g b
     Waiting s placedRef g w ⟨0, 0⟩ top ∧ s.groups.map (·.1) = [placedRef] ∧
     ∃ gr, s.grid 1 = some gr ∧ gr.expected b = 1 ∧ (gr.barrier b).now.length = 1 ∧ 1 ≤ ((gr.barrier b).cur + 1 - 0).toNat) :=
  ⟨⟨_, rfl⟩, rfl, by decide, by decide, by decide, ⟨rfl, rfl, rfl, by decide, by decide, rfl, by decide⟩,
    waiting_holds _ _ (sound_of (waiting_sound _) rfl rfl rfl) rfl, rfl, _, rfl, by decide, by decide, by decide⟩

/-! ### The matrix unit -/

/-- All lanes, one lane, serial mode; all lanes once a pre-emption is requested. -/
theorem test_meets_MatrixInstructionsWait :
    (Ready (stage demo) demo ⟨0, 0⟩ top (fullMask 16) ∧ activeLanes demo.settled top = demo.settled.alive ∧
      demo.settled.Holds (fullMask 16)) ∧
    (let g := stacked [pathEntry 0 1 none, pathEntry 8 0xFFFE none] [] 64
     Ready (stage g) g ⟨0, 0⟩ (pathEntry 0 1 none) 1 ∧ (lanesOf g.settled.w 1).length = 1 ∧ (1 : Mask) ≠ g.settled.alive) ∧
    (let g := stacked [serving 3] [] 64
     Ready (stage g) g ⟨0, 0⟩ (serving 3) 1) ∧
    ((stage demo).parts[demo.settled.part]).halting = false ∧
    (let s := parted (fun x => { x with halting := true }) (stage demo)
     Ready s demo ⟨0, 0⟩ top (fullMask 16) ∧ (s.parts[demo.settled.part]).halting = true) :=
  ⟨⟨test_meets_WhenActive, by decide, ⟨0, by decide, by decide⟩⟩,
    ⟨stacked_ready _ _ _ _ _ (by decide) (by decide) (by decide), by decide, by decide⟩,
    stacked_ready _ _ _ _ _ (by decide) (by decide) (by decide), rfl,
    ⟨⟨sound_of test_meets_WhenActive.1 rfl rfl rfl, ⟨rfl, rfl, rfl, rfl, by decide, rfl⟩, by decide⟩, rfl⟩⟩

/-- A group whose matrix instruction waits to start. -/
def asking (i : Instr) (a : Word) : Group := { demo with mxWait := some ⟨i, 0, a, 0, 0, []⟩ }

/-- The group may start; its work is computed for a good rectangle, and its checks fail for one past the last row; another
group's turn. -/
theorem test_meets_MatrixInstructionsStart :
    (let g := asking (.accz false 0) 0
     (stage g).Sound ∧ (stage g).mxReady placedRef g = true ∧ ((stage g).parts[g.part]).halting = false ∧
     (stage g).mxTurn placedRef.at = some 0 ∧
     (match (stage g).mxCompute placedRef g ⟨.accz false 0, 0, 0, 0, 0, []⟩ ((stage g).mxPlan placedRef g ⟨.accz false 0, 0, 0, 0, 0, []⟩) with
      | .ok (_, us) => us.isEmpty
      | .error _ => false) = true) ∧
    (let g := asking (.accz false 0) 0x1FF
     (stage g).mxReady placedRef g = true ∧ g.Holds (fullMask 16) ∧
     (match (stage g).mxCompute placedRef g ⟨.accz false 0, 0, 0x1FF, 0, 0, []⟩
        ((stage g).mxPlan placedRef g ⟨.accz false 0, 0, 0x1FF, 0, 0, []⟩) with
      | .ok _ => false
      | .error x => x.1 == .desc) = true) ∧
    (stage demo).mxReady placedRef demo = false ∧
    (let g := asking (.accrd false 48 0 true .f32) 0x00000F00
     let s := (stage g).setMatrix ⟨0, 0⟩ { Matrix.reset with acc := [((3, 5), ⟨0, true⟩)] }
     s.mxReady placedRef g = true ∧ s.mxTurn placedRef.at = some 0 ∧
     (match s.mxCompute placedRef g ⟨.accrd false 48 0 true .f32, 0, 0x00000F00, 0, 0, []⟩
        (s.mxPlan placedRef g ⟨.accrd false 48 0 true .f32, 0, 0x00000F00, 0, 0, []⟩) with
      | .ok (_, fs) => fs.map (·.lane) == [5]
      | .error _ => false) = true) :=
  ⟨⟨stage_sound _ ⟨demo_sound.pending, demo_sound.mode, demo_sound.preds⟩, by decide +kernel, rfl, by decide +kernel, by decide +kernel⟩,
    ⟨by decide +kernel, ⟨0, by decide, by decide⟩, by decide +kernel⟩, rfl, by decide +kernel, by decide +kernel, by decide +kernel⟩

/-- Started work that writes 5 in one accumulator entry. -/
def written : Started :=
  ⟨placedRef, 1,
    { unit := .port, pair := false, usesTable := false, loadsTable := false, readsAcc := [], writesAcc := [], readsTeam := []
      writesTeam := [], regs := [], team := [], acc := [(⟨0, 0⟩, 0, 0, ⟨5, false⟩)], tiles := [], banks := [], table := none
      flags := 0 }⟩

/-- Rectangles at the edges: one entry block, all of them, one past the last row. -/
theorem test_meets_MatrixResults :
    (tileRect 0).isSome = true ∧ (tileRect 0x0FC0FF00).isSome = true ∧ tileRect 0x0FC0FF01 = none ∧ modeI48 (1 <<< 22) = true ∧
    modeSat (1 <<< 22) = false ∧ modeSat ((1 <<< 22) + (1 <<< 8)) = true ∧
    (let w := written
     let s := (stage demo).setMatrix ⟨0, 0⟩ { Matrix.reset with started := [w] }
     (s.matrixOf ⟨0, 0⟩).started[0]? = some w ∧ (w.work.acc.map fun x => (x.1, x.2.1, x.2.2.1)).Nodup) ∧
    (let ws := [RegWrite.vec 3 (some .f32) [⟨0, BitVec.allOnes 32, 1⟩, ⟨1, BitVec.allOnes 32, 2⟩]]
     ws[0]? = some (.vec 3 (some .f32) [⟨0, BitVec.allOnes 32, 1⟩, ⟨1, BitVec.allOnes 32, 2⟩]) ∧
     ([⟨0, BitVec.allOnes 32, 1⟩, ⟨1, BitVec.allOnes 32, 2⟩].map LaneWrite.lane).Nodup) ∧
    fmtF32.Number 0x3F800000 1 ∧ (FVal.fin false 1 0).Is 1 ∧ topExp [.fin false 0 5] = none ∧ topExp [.fin true 3 0] = some 1 :=
  ⟨by decide, by decide, by decide, by decide, by decide, by decide, ⟨rfl, by decide⟩, ⟨rfl, by decide⟩, one_number,
    ⟨false, 1, 0, rfl, by norm_num⟩, by decide, by decide⟩

/-- A check that passes with spans in which nothing is poisoned. -/
def clean {α : Type} (s : State) (x : Except MxFail α) (spans : α → List TeamSpan) : Bool :=
  match x with
  | .ok ts => !s.spansPoisoned (spans ts)
  | .error _ => false

/-- The stage's team memory with a record of one entry of four at 0, a table at 0x100, and 16 rows loaded. -/
def operands : State :=
  ((stage demo).putTeamWord ⟨1, 0, ⟨0, 0⟩⟩ 0 (1 * 2 ^ 21 + 4 * 2 ^ 10)).setMatrix ⟨0, 0⟩
    { Matrix.reset with tile := { Tile.reset with kb := 16 } }

/-- The operands of each instruction of the matrix unit: in the core's team memory, at its last byte, good descriptors at their
edges. -/
theorem test_meets_MatrixResults_operands :
    (cellFormat (8 <<< 10) = some .i8x4 ∧ cellFormat (13 <<< 10) = some .i4x8 ∧ bloadGood ((16 <<< 16) + 512) .i8x4 = true ∧
      bloadGood ((1024 <<< 16) + 1) .i8x4 = true ∧ bloadGood ((16 <<< 16) + 1024) .i4x8 = true ∧ operands.leads placedRef.at = true ∧
      clean operands (operands.needSpans placedRef demo [(0, weightBytes .i8x4 512 16), (0xFFE0, 2 * 16)]) id = true) ∧
    (mmaFormat (operands.matrixOf ⟨0, 0⟩).tile .f16x2 0 = false ∧ mmaFormat (operands.matrixOf ⟨0, 0⟩).tile .i8x4 (1 <<< 22) = false ∧
      clean operands (operands.needSpans placedRef demo ((strided 0 32 16).map fun o => (o, rowBytes .f16x2 (operands.mmaKb placedRef false))))
        id = true) ∧
    (clean operands (operands.rankRecords placedRef demo [0] 512 fun _ => []) Prod.snd = true ∧ modeI48 0 = false ∧
      clean operands (operands.rankRecords placedRef demo [0] 1024 fun hs => hs.map fun h => (0x200, 4 * h.2)) Prod.snd = true) ∧
    (clean operands (operands.needSpan placedRef demo 0x100 68) (fun t => [t]) = true ∧
      ((operands.needSpan placedRef demo 0x100 68).toOption.any fun t => (fmtF32.value (operands.spanWord t 64).toNat).isFinite) = true) ∧
    ((tileRect 0x00000F00).any fun rect => accShape demo rect false 48 && rect.rows == 16) = true ∧
    ((tileRect 0x00C01F00).any fun rect => accShape { demo with w := 64 } rect true 48 && rect.rows == 32) = true ∧
    clean operands (operands.needSpan placedRef demo 0xFFC0 (4 * 16)) (fun t => [t]) = true ∧
    (rankGood ((1024 <<< 16) + 1024) = true ∧ rankGood ((1 <<< 28) + 1) = true ∧
      clean operands (operands.needSpans placedRef demo [(0x1000, 4 * 1024), (0x3000, recordBytes 1024)]) id = true) := by
  refine ⟨⟨?_, ?_, ?_, ?_, ?_, ?_, ?_⟩, ⟨?_, ?_, ?_⟩, ⟨?_, ?_, ?_⟩, ⟨?_, ?_⟩, ?_, ?_, ?_, ?_, ?_, ?_⟩ <;> decide +kernel

/-! ### Posts, launches, waits of engines -/

/-- Posts with room; a good descriptor in its place, a bad one, one out of range. -/
theorem test_meets_PostsAndLaunches :
    (let g := addressed 0x1000
     let s := paged g
     Ready s g ⟨0, 0⟩ top (fullMask 16) ∧ g.count .e < 63 ∧ g.count .k < 63 ∧
     (∃ u p, s.holdFor (ctxOf (.cpkick false 2 0) placedRef g ⟨0, 0⟩ top (fullMask 16)) .rel .die [] = .goes u p) ∧
     (s.parts[g.part]).children.length < 256 ∧ s.descDetail 0xFFF 0 (s.devWords 0 0x1000 36) = 0 ∧
     s.descDetail 0xFFF 0 (s.devWords 0 0x8000 36) ≠ 0 ∧
     (match s.checkLaunch (ctxOf (.launch false 2 0 0) placedRef g ⟨0, 0⟩ top (fullMask 16)) 0x1000 0x2000 with
      | (.ok _, .ok _) => true
      | _ => false) = true ∧
     s.checkLaunch (ctxOf (.launch false 2 0 0) placedRef g ⟨0, 0⟩ top (fullMask 16)) 0x0200000000000000 0x2001 =
       (.fault .range, .fault .align)) :=
  ⟨paged_ready _, by decide, by decide, ⟨_, _, rfl⟩, by decide, by decide +kernel, by decide +kernel, by decide +kernel, by decide +kernel⟩

/-- The last object of the team memory, one beyond it, one off its alignment; a threshold met and not met; tile entries. -/
theorem test_meets_ArrivalAndTileWaits :
    (stage demo).teamPlace placedRef demo 0xFFF8 8 = some (⟨1, 0, ⟨0, 0⟩⟩, 0xFFF8) ∧
    (stage demo).teamPlace placedRef demo 0xFFFC 8 = none ∧
    (stage demo).teamPlace placedRef demo 0xFFF4 8 = some (⟨1, 0, ⟨0, 0⟩⟩, 0xFFF4) ∧
    (objPlaces ⟨1, 0, ⟨0, 0⟩⟩ 0xFFF8).any ((stage demo).matrixHolds demo.uid) = false ∧
    demo.clearFor (objPlaces ⟨1, 0, ⟨0, 0⟩⟩ 0xFFF8) = true ∧ ((stage demo).teamWord ⟨1, 0, ⟨0, 0⟩⟩ 0xFFF8).toInt = 0 ∧
    (let w : Wait := .arrival 2 ⟨1, 0, ⟨0, 0⟩⟩ 0xFFF8 0
     Waiting (stage (waiting w)) placedRef (waiting w) w ⟨0, 0⟩ top) ∧
    (let g := addressed 0x6000
     let s := paged g
     let c := ctxOf (.tilew false 2 0 2 .die) placedRef g ⟨0, 0⟩ top (fullMask 16)
     (match s.checkTile c 0x6000 false, s.checkTile c 0x6000 true with
      | .ok ps, .ok _ => (match (ps.map (·.1))[3]? with
        | some x => (s.genReady placedRef g x 0 .die).isSome && (s.genReady placedRef g x 0x80000001 .die).isSome &&
            (s.genReady placedRef g x 1 .die).isNone && ps.all fun y => !s.ownedByEngine y.1
        | none => false)
      | _, _ => false) = true ∧
     s.checkTile c 0x6008 true = .fault .align ∧ g.count .k < 63 ∧ s.requestsAt placedRef + 1 ≤ 384 ∧ g.hold = none ∧ s.earlierDone g = true) ∧
    (let w : Wait := .tile 2 (.mem 0x600C (attrOf false 0xFD)) 1 .die
     Waiting (stage (waiting w)) placedRef (waiting w) w ⟨0, 0⟩ top) :=
  ⟨by decide, by decide, by decide, by decide, by decide, by decide, waiting_holds _ _ (waiting_sound _) rfl,
    ⟨by decide +kernel, by decide +kernel, by decide, by decide, rfl, rfl⟩, waiting_holds _ _ (waiting_sound _) rfl⟩

/-! ### Memory events -/

/-- A group with one access of one lane outstanding. -/
def holding (path : Path) (kind : AccKind) (dest : Dest) (l : LaneAcc) : Group :=
  { demo with
    seq := 1
    acc := [{ accessOf (.nop false) demo top 1 path kind dest [l] none with mode := 0 }] }

def memAt : Attr := attrOf false 0xFD

/-- A load and a store of team memory and of device memory that may be performed; data that lands in a lane and in a uniform
register, poisoned data; an access to a peer. -/
theorem test_meets_AccessesPerformAndLand :
    (let x : LaneAcc := ⟨0, 0x1000, [.mem 0x1000 memAt], [], .waiting, 0⟩
     let g := holding .g .load (.vec 0 [some .n32]) x
     let s := paged g
     s.group placedRef = some g ∧ (∃ a, g.access 0 = some a ∧ a.laneAcc 0 = some x ∧ a.kind = .load ∧ s.mayPerform g a x = true) ∧
     poisoned s.poison 0x1000 = false ∧ remoteD placedRef.die memAt 0x1000 = false ∧ memAt.d = false ∧ s.foreign 0 0x1000 = false ∧
     poisoned [(0x1000, (0 : BitVec 32))] 0x1000 = true) ∧
    (let k : TeamKey := ⟨1, 0, ⟨0, 0⟩⟩
     let x : LaneAcc := ⟨0, 0, [.team k 0xFFFC], [7], .waiting, 0⟩
     let g := holding .t .store .none x
     let s := paged g
     (∃ a t, g.access 0 = some a ∧ a.laneAcc 0 = some x ∧ s.mayPerform g a x = true ∧ s.team k = some t ∧
       poisoned t.poison 0xFFFC = false)) ∧
    (let x : LaneAcc := ⟨0, 0x1000, [.mem 0x1000 memAt], [], .done [7], 0⟩
     let g := holding .g .load (.vec 0 [some .n32]) x
     ∃ a, g.access 0 = some a ∧ a.laneAcc 0 = some x ∧ x.performed = true ∧ a.id = 0 ∧ a.lanes = [x] ∧ g.ended = false ∧
       g.alive.getLsbD 0 = true ∧ a.dest = .vec 0 [some .n32]) ∧
    (let x : LaneAcc := ⟨wholeLane, 0x1000, [.mem 0x1000 memAt], [], .poisoned, 0⟩
     x.performed = true ∧ x.drop = 0) ∧
    (let x : LaneAcc := ⟨5, 0x100000000, [.fab ⟨true, 2, 0, 0, 1⟩ 0 1 0x100000], [], .refused .range, 0⟩
     let g := holding .g .load (.vec 0 [some .n32]) x
     x.performed = true ∧ x.st = .refused .range ∧ g.killed = false ∧ g.alive.getLsbD 5 = true ∧ x.drop = 0) ∧
    (let x : LaneAcc := ⟨0, 0x100000000, [.fab ⟨true, 2, 0, 0, 1⟩ 0 1 0], [], .waiting, 0⟩
     x.performed = false ∧ x.toPeer = true ∧ (AccKind.store).writes = true) :=
  ⟨⟨rfl, ⟨_, rfl, rfl, rfl, by decide +kernel⟩, rfl, by decide +kernel, rfl, by decide +kernel, by decide⟩,
    ⟨_, _, rfl, rfl, by decide +kernel, rfl, rfl⟩, ⟨_, rfl, rfl, rfl, rfl, rfl, rfl, by decide, rfl⟩, ⟨rfl, rfl⟩,
    ⟨rfl, rfl, rfl, by decide, rfl⟩, ⟨rfl, by decide +kernel, rfl⟩⟩

/-- One lane on a word of device memory; two lanes on one word of team memory, behind one on another; poisoned data. -/
theorem test_meets_AtomicsExecute :
    (let x : LaneAcc := ⟨0, 0x1000, [.mem 0x1000 memAt], [3, 4], .waiting, 0⟩
     let g := holding .g (.atomic .cas .raw) (.vec 0 [some .raw]) x
     (paged g).group placedRef = some g ∧ (paged g).foreign 0 0x1000 = false ∧ ∃ a, g.access 0 = some a ∧ a.laneAcc 0 = some x ∧
       a.kind = .atomic .cas .raw ∧ (a.lanes.map (·.lane)).Pairwise (· < ·) ∧ (paged g).mayPerform g a x = true ∧
       (({ paged g with poison := [(0x1000, 0)] } : State).mayPerform g a x = true ∧ poisoned [(0x1000, (0 : BitVec 32))] 0x1000 = true)) ∧
    (let k : TeamKey := ⟨1, 0, ⟨0, 0⟩⟩
     let x (l o : Nat) : LaneAcc := ⟨l, 0, [.team k o], [3], .waiting, 0⟩
     let a : Access := { accessOf (.nop false) demo top 0xFFFF .t (.atomic .add .raw) .none [x 0 8, x 1 4, x 2 4] none with mode := 0 }
     let g : Group := { demo with seq := 1, acc := [a] }
     let ls := a.lanes.filter fun y => y.st == .waiting && y.places.any fun p => (x 1 4).places.any p.sameWord
     ls = [x 1 4, x 2 4] ∧ (a.lanes.map (·.lane)).Pairwise (· < ·) ∧ a.laneAcc 1 = some (x 1 4) ∧
     (stage g).mayPerform g a (x 1 4) = true ∧ ((stage g).team k).isSome = true) ∧
    Tag.b16x2 ∈ [Tag.f32, .f16x2, .b16x2] ∧ 1 < tagCount .b16x2 :=
  ⟨⟨rfl, by decide +kernel, _, rfl, rfl, rfl, by decide, by decide +kernel, by decide +kernel, by decide⟩,
    ⟨by decide, by decide, rfl, by decide +kernel, by decide +kernel⟩, by decide, by decide⟩

/-! ### Engines -/

def teamKey : TeamKey := ⟨1, 0, ⟨0, 0⟩⟩

/-- A copy request at team offset 0: 4 bytes from 0x1000 to 0x2000, counted on object 1. -/
def copying (g : Group) : State :=
  let s := paged g
  ((((s.putTeamWord teamKey 0 0x1000).putTeamWord teamKey 8 0x2000).putTeamWord teamKey 16 4).putTeamWord teamKey 20 1)

/-- A fabric group table without entries. -/
def noTable : Vector (BitVec 128) 64 := Vector.replicate 64 0

def job : Job :=
  { id := 5, core := ⟨0, 0⟩, part := 0, grid := 1, key := teamKey, src := 0x1000, dst := 0x2000, len := 4, rows := 1, sstr := 0, dstr := 0
    obj := ⟨teamKey, 8⟩, cbase := 0, csize := 0, tab := noTable, data := none, err := 0, landed := [], due := [], counted := [] }

/-- Posts of no request, of too many, of a good one, of a bad one; a unit of a running request. -/
theorem test_meets_CopiesAndArrivals :
    (let g := holding .e (.copyPost noTable 0 1 0 0 none) (.uni 2) ⟨wholeLane, 0, [], [], .waiting, 0⟩
     let s := copying g
     s.group placedRef = some g ∧ (∃ a, g.access 0 = some a ∧ a.kind = .copyPost noTable 0 1 0 0 none ∧ a.lanes.all LaneAcc.performed = false) ∧
     (s.copyJobs placedRef.at).length < 64 ∧
     (match s.judgeRequest placedRef g noTable 0, s.judgeRequest placedRef g noTable 32 with
      | .ok j, .error c => j.len == 4 && c == 2
      | _, _ => false) = true) ∧
    (let s : State := { paged demo with jobs := [job] }
     (s.jobs.filter fun j => j.core == ⟨0, 0⟩)[0]? = some job ∧ (∃ x, job.units[0]? = some x) ∧ job.err = 0 ∧
     job.counted.contains 0 = false ∧ job.counted.length < job.units.length ∧ job.landed ++ job.due = [] ∧ s.jobPaused job = false ∧
     job.counted.length + 1 = job.units.length) :=
  ⟨⟨by decide +kernel, ⟨_, rfl, rfl, rfl⟩, by decide +kernel, by decide +kernel⟩,
    ⟨rfl, ⟨_, rfl⟩, rfl, rfl, by decide +kernel, rfl, by decide +kernel, by decide +kernel⟩⟩

/-- The one unit of a job once its bytes are written: the notices that the write sent and whether the grid of its object is out. -/
def lands (s : State) (j : Job) : Option (List Nat × Bool) :=
  j.units[0]?.map fun x =>
    let t := (s.jobSeen j x).writeUnit j (unitCode (s.unitMoves j x)) (s.unitMoves j x)
    (t.notices.map (·.cause), t.gridOut j.obj.key.grid)

/-- The page of the copy is a D page, of which die 1 holds a copy of the granule written. -/
def watched : State :=
  { paged demo with
    mem := { (paged demo).mem with
      cells := [(0x20000, 1), (0x20002, 3), (0x30000, 1), (0x30002, 4), (0x40000, 0xFD), (0x40007, 1)] }
    copies := [((1, 0x2000), ⟨List.replicate 16 0, none, false, 0, 0⟩)] }

/-- A write that sends no notice, by a copy and by a collective whose object's grid is out; one that sends a notice; a copy while
that grid is out. A unit written before: its notice in flight, acknowledged, its grid out, its decrement held. -/
theorem test_meets_CopiesAndArrivals_units :
    (let s : State := { paged demo with jobs := [job] }
     lands s job = some ([], false) ∧ (∀ i ∈ s.jobs, i.obj = job.obj → i.due = []) ∧ job.data = none ∧
     (gridAt (.out 0) s).gridOut job.obj.key.grid = true) ∧
    (let j : Job := { job with data := some [7] }
     let s := gridAt (.out 0) { paged demo with jobs := [j] }
     s.jobPaused j = false ∧ lands s j = some ([], true)) ∧
    (let s : State := { watched with jobs := [job] }
     ((lands s job).any fun x => x.1.any fun n => decide (s.nextId ≤ n)) = true) ∧
    (let y : Landed := ⟨0, 0, [9], 0⟩
     let j : Job := { job with landed := [y] }
     let s : State := { paged demo with jobs := [j], notices := [⟨8, 9, 0, 0, 1, 0x2000⟩] }
     ((j.landed ++ j.due).find? fun z => z.unit == 0) = some y ∧ s.allApplied y.ids = false ∧ (paged demo).allApplied y.ids = true ∧
     (∀ i ∈ [j], i.obj = job.obj → ∀ z ∈ i.due, (0 : Nat) ≤ z.since)) ∧
    (let y : Landed := ⟨0, 0, [], 4⟩
     let j : Job := { job with due := [y] }
     ((j.landed ++ j.due).find? fun z => z.unit == 0) = some y ∧ y ∈ j.due ∧ ∀ i ∈ [j], ∀ z ∈ i.due, y.since ≤ z.since) := by
  decide +kernel

/-- TileFlags: an engine owns the line of the entry's generation. -/
theorem test_meets_TileFlags_owned :
    let s : State := { paged (addressed 0x6000) with jobs := [{ job with dst := 0x6000, len := 16 }] }
    let c := ctxOf (.tilesig false 2 0 2 .die) placedRef (addressed 0x6000) ⟨0, 0⟩ top (fullMask 16)
    (match s.checkTile c 0x6000 true with
      | .ok ps => ps.any fun x => s.ownedByEngine x.1
      | _ => false) = true := by
  decide +kernel

def blend : Blend := ⟨0, ⟨0, 0⟩, 1, ⟨2, 0, .i32, 0, false, 1, 1, 0x1000, 0x2000⟩, ⟨teamKey, 8⟩,
  noTable.set 1 (0x8000040000000000 + 0x1 <<< 64)⟩

/-- A collective of one member; messages to a core of the cluster, to none, of a number below and at HCOUNT; a queue with room
and a full one; a handler entry; an aperture. -/
theorem test_meets_CollectivesAndMessages :
    (let s : State := { paged demo with
       parts := (paged demo).parts.set 0 { (paged demo).parts[0] with fgt := ((paged demo).parts[0]).fgt.set 1 (0x8000040000000000 + 0x1 <<< 64) }
       blends := [blend] }
     (s.blends.find? fun b => b.part == 0 && b.desc.fg == 1) = some blend ∧ (fgtIn blend.tab 1).nmbr = 1 ∧ (fgtIn blend.tab 1).self = 0 ∧
     s.foreign 0 0xFFFFC = false ∧ apertureOf (s.fgt 0 1) 0xFFFFC = some 0xFFFFC ∧ (s.fgt 0 1).valid = true ∧ s.engineOwns 0xFFFFC = false ∧
     s.isSealed 0xFFFFC = false) ∧
    (let g := holding .e (.message 0 0 16) (.uni 2) ⟨wholeLane, 0, [], [], .waiting, 0⟩
     let s := paged g
     (∃ a, g.access 0 = some a ∧ a.kind = .message 0 0 16 ∧ a.lanes.all LaneAcc.performed = false ∧ g.earlierMessage a 0 = false) ∧
     s.targetCore g 0 = some ⟨0, 0⟩ ∧ s.targetCore g 0x100 = none ∧ s.ownPlace placedRef g 0 64 4 = some (teamKey, 0) ∧
     s.ownPlace placedRef g 0xFFC4 64 4 = none ∧ (s.queued g.part ⟨0, 0⟩).length < 16) ∧
    (let m : Msg := ⟨0, 1, ⟨0, 0⟩, 0, 1, [7], 0, false, none, false⟩
     let s : State := { paged demo with
       groups := []
       msgs := [m]
       mem := ((paged demo).mem.writeWord 0x6000 0x40).writeWord 0x6004 0x800
       grids := (paged demo).grids.map fun g => { g with desc := { g.desc with htab := 0x6000 } } }
     (s.msgs.find? fun m => m.core == ⟨0, 0⟩) = some m ∧ (s.grid 1).any (fun gr => !gr.pre.away) = true ∧
     (s.parts[(0 : Fin 12)]).halting = false ∧ s.parked = [] ∧
     handlerEntryOf (s.devWord 0 0 0x6000) (s.devWord 0 1 0x6004) = some (0x40, 16, 8)) ∧
    handlerEntryOf 0x40 (8 * 256) = some (0x40, 16, 8) ∧ handlerEntryOf 0x40 (64 * 256 + 2) = some (0x40, 64, 64) ∧
    handlerEntryOf 0x40 (65 * 256) = none := by
  refine ⟨⟨?_, ?_, ?_, ?_, ?_, ?_, ?_, ?_⟩, ⟨⟨_, rfl, rfl, rfl, ?_⟩, ?_, ?_, ?_, ?_, ?_⟩, ⟨?_, ?_, ?_, ?_, ?_⟩, ?_, ?_, ?_⟩ <;> decide +kernel

/-! ### Scheduling -/

/-- Between runs; and ended with nothing outstanding. -/
def idle : Group := { demo with run := none, topFirst := true }

/-- A free slot and a group for it; a stalled translation that has a leaf and one that has none; waits at their thresholds; an
ended group. -/
theorem test_meets_SchedulingEvents :
    ((stage idle).group placedRef = some idle ∧ Tbl.find (stage idle).slotOf (placedRef.at, 0, 0) = none ∧
      (stage idle).throttled = false ∧ (stage idle).nextGrant placedRef.at 0 = some (placedRef, idle) ∧ idle.nextLive = some 0) ∧
    (let g := waiting (.ahead ⟨demo.grid, .team, 0, 5⟩)
     Tbl.find (stage g).slotOf (placedRef.at, 0, 0) = none ∧ (stage g).nextGrant placedRef.at 0 = some (placedRef, g)) ∧
    ((paged demo).walk 0 (65536 * 1) = some (0xFD, 16384, 0x40000) ∧ (paged demo).walk 0 (65536 * 0x4000) = none ∧
      ({ demo with xlate := [1] } : Group).xlate = 1 :: []) ∧
    (let w : Wait := .counter .g 0
     Waiting (stage (waiting w)) placedRef (waiting w) w ⟨0, 0⟩ top ∧ (waiting w).count .g ≤ 0 ∧ (waiting w).coveredMarks top .g 0 = []) ∧
    (let w : Wait := .sleep 0
     Waiting (stage (waiting w)) placedRef (waiting w) w ⟨0, 0⟩ top ∧ 0 ≤ (stage (waiting w)).time ∧ (stage (waiting w)).time < 1) ∧
    (demo.yieldUntil ≤ (stage demo).clk ∧ (stage demo).othersEligible placedRef = false) ∧
    (let g : Group := { demo with ended := true, stack := [], run := none }
     (stage g).group placedRef = some g ∧ g.ended = true ∧ g.acc = [] ∧ (stage g).startedOf g.uid = [] ∧ g.endMark = none) :=
  ⟨⟨rfl, rfl, rfl, by decide +kernel, by decide⟩, ⟨rfl, by decide +kernel⟩, ⟨by decide +kernel, by decide +kernel, rfl⟩,
    ⟨waiting_holds _ _ (waiting_sound _) rfl, by decide, rfl⟩, ⟨waiting_holds _ _ (waiting_sound _) rfl, by decide, by decide⟩,
    ⟨by decide, by decide⟩, ⟨rfl, rfl, rfl, rfl, rfl⟩⟩

/-! ### Coherence -/

/-- Block 0 mapped to block 0x17 by one leaf of a 64 KiB page, the tables in blocks 2 to 6. -/
def smallPage : State :=
  { paged demo with
    mem := { (paged demo).mem with
      cells := [(0x20000, 1), (0x20002, 3), (0x30000, 1), (0x30002, 4), (0x40000, 1), (0x40002, 5), (0x50000, 1), (0x50002, 6),
        (0x60000, 0xFD), (0x60002, 0x17)] }
    tlb := [] }

/-- The tables of that state: its entries, read by the first of each. -/
theorem blank_zero (m : Memory) (h : m.epochs = Vector.replicate 12 0) (ho : m.own = []) (a : Nat) : m.blank a = 0 := by
  unfold Memory.blank
  simp only [ho, List.find?_nil]
  split
  · simp [h]
  · rfl

theorem pteP_read (m : Memory) (a : Nat) : pteP (m.read64 a) = (m.read a).getLsbD 0 := by
  simp only [pteP, Memory.read64, Memory.readWord, wordOfBytes, BitVec.getLsbD_append]
  simp

/-- A table none of whose entries but the first is present. -/
theorem entries_first (own : Nat → Bool) (m : Memory) (t lo n blocks : Nat) (rest : List (Nat × Nat × Nat)) (ho : own t = true)
    (h : ∀ i, 0 < i → i < 2 ^ n → (m.read (t + 8 * i)).getLsbD 0 = false) :
    tableEntries own m t ((lo, n, blocks) :: rest) =
      (let e := m.read64 t
       if !pteP e then []
       else if pteLeaf e then (if blocks ≠ 0 ∧ leafGood e blocks then [(t, e, blocks)] else [])
       else if !rest.isEmpty && tableGood e then (t, e, 0) :: tableEntries own m (pteFrame e) rest
       else []) := by
  obtain ⟨k, hk⟩ : ∃ k, 2 ^ n = k + 1 := ⟨2 ^ n - 1, by have := Nat.one_le_two_pow (n := n); omega⟩
  rw [tableEntries, hk, List.range_succ_eq_map, List.flatMap_cons, List.flatMap_map]
  rw [List.flatMap_eq_nil_iff.mpr, List.append_nil]
  · simp only [Nat.mul_zero, Nat.add_zero, ho, Bool.not_true, Bool.false_or]
  · intro i hi
    have := h (i + 1) (by omega) (by rw [hk]; have := List.mem_range.mp hi; omega)
    simp only [Nat.succ_eq_add_one, pteP_read, this, Bool.not_false, Bool.or_true, if_true]

theorem small_read (i t : Nat) (h : 0 < i) (hi : i < 512) (ht : t ∈ [0x20000, 0x30000, 0x40000, 0x50000, 0x60000]) :
    (smallPage.mem.read (t + 8 * i)).getLsbD 0 = false := by
  have : smallPage.mem.read (t + 8 * i) = 0 := by
    show cellRead _ smallPage.mem.cells _ = 0
    simp only [List.mem_cons, List.not_mem_nil, or_false] at ht
    simp only [smallPage, cellRead]
    repeat rw [if_neg (by omega)]
    exact blank_zero _ rfl rfl _
  rw [this]; rfl

theorem small_entries : smallPage.allEntries =
    [(0x20000, 0x30001, 0), (0x30000, 0x40001, 0), (0x40000, 0x50001, 0), (0x50000, 0x60001, 0), (0x60000, 0x1700FD, 1)] := by
  have h0 : smallPage.allEntries = tableEntries (fun pa => !smallPage.foreign 0 pa) smallPage.mem 0x20000 walkLevels := by
    have : ((List.finRange 12).filter fun p => (smallPage.parts[p]).en) = [0] := by decide +kernel
    unfold State.allEntries
    rw [this]
    simp only [List.flatMap_cons, List.flatMap_nil, List.append_nil]
    unfold State.entriesOf
    rw [show smallPage.rootTable 0 = 0x20000 by decide +kernel]
  rw [h0, walkLevels, entries_first _ _ _ _ _ _ _ (by decide +kernel) (fun i a b => small_read i _ a (by omega) (by decide))]
  rw [show smallPage.mem.read64 0x20000 = 0x30001 by decide +kernel]
  show (0x20000, _, 0) :: tableEntries _ _ 0x30000 _ = _
  rw [entries_first _ _ _ _ _ _ _ (by decide +kernel) (fun i a b => small_read i _ a (by omega) (by decide)), show smallPage.mem.read64 0x30000 = 0x40001 by decide +kernel]
  show (0x20000, _, 0) :: (0x30000, _, 0) :: tableEntries _ _ 0x40000 _ = _
  rw [entries_first _ _ _ _ _ _ _ (by decide +kernel) (fun i a b => small_read i _ a (by omega) (by decide)), show smallPage.mem.read64 0x40000 = 0x50001 by decide +kernel]
  show (0x20000, _, 0) :: (0x30000, _, 0) :: (0x40000, _, 0) :: tableEntries _ _ 0x50000 _ = _
  rw [entries_first _ _ _ _ _ _ _ (by decide +kernel) (fun i a b => small_read i _ a (by omega) (by decide)), show smallPage.mem.read64 0x50000 = 0x60001 by decide +kernel]
  show (0x20000, _, 0) :: (0x30000, _, 0) :: (0x40000, _, 0) :: (0x50000, _, 0) :: tableEntries _ _ 0x60000 _ = _
  rw [entries_first _ _ _ _ _ _ _ (by decide +kernel) (fun i a b => small_read i _ a (by omega) (by decide)), show smallPage.mem.read64 0x60000 = 0x1700FD by decide +kernel]
  rfl

theorem small_moves : ∃ v, smallPage.pageMove 0x17 0x109 = some v ∧ v.old = 0x17 ∧ v.blocks = 1 := by
  have h : ((smallPage.pageMove 0x17 0x109).any fun v => v.old == 0x17 && v.blocks == 1) = true := by
    unfold State.pageMove
    rw [small_entries]
    decide +kernel
  cases hv : smallPage.pageMove 0x17 0x109 with
  | none => rw [hv] at h; exact absurd h (by decide)
  | some v => rw [hv] at h; exact ⟨v, rfl, by simpa using h⟩

/-- The page at block 0 of the identity map is an HS page of partition 0. -/
def sharedPage : State :=
  { paged demo with
    mem := { (paged demo).mem with
      cells := [(0x20000, 1), (0x20002, 3), (0x30000, 1), (0x30002, 4), (0x40000, 0xFD), (0x40007, 4)] } }

theorem shared_hs : sharedPage.hsPage 0x1000 = true := by
  have h : sharedPage.entriesOf 0 = [(0x20000, 0x30001, 0), (0x30000, 0x40001, 0), (0x40000, 0x04000000000000FD, 16384)] := by
    have hz : ∀ i t : Nat, 0 < i → i < 512 → t ∈ [0x20000, 0x30000, 0x40000] → (sharedPage.mem.read (t + 8 * i)).getLsbD 0 = false := by
      intro i t h hi ht
      have : sharedPage.mem.read (t + 8 * i) = 0 := by
        show cellRead _ sharedPage.mem.cells _ = 0
        simp only [List.mem_cons, List.not_mem_nil, or_false] at ht
        simp only [sharedPage, cellRead]
        repeat rw [if_neg (by omega)]
        exact blank_zero _ rfl rfl _
      rw [this]; rfl
    show tableEntries (fun pa => !sharedPage.foreign 0 pa) sharedPage.mem 0x20000 walkLevels = _
    rw [walkLevels, entries_first _ _ _ _ _ _ _ (by decide +kernel) (fun i a b => hz i _ a (by omega) (by decide))]
    rw [show sharedPage.mem.read64 0x20000 = 0x30001 by decide +kernel]
    show (0x20000, _, 0) :: tableEntries _ _ 0x30000 _ = _
    rw [entries_first _ _ _ _ _ _ _ (by decide +kernel) (fun i a b => hz i _ a (by omega) (by decide)),
      show sharedPage.mem.read64 0x30000 = 0x40001 by decide +kernel]
    show (0x20000, _, 0) :: (0x30000, _, 0) :: tableEntries _ _ 0x40000 _ = _
    rw [entries_first _ _ _ _ _ _ _ (by decide +kernel) (fun i a b => hz i _ a (by omega) (by decide)),
      show sharedPage.mem.read64 0x40000 = 0x04000000000000FD by decide +kernel]
    rfl
  unfold State.hsPage
  rw [List.any_eq_true]
  exact ⟨0, List.mem_finRange _, by rw [h]; decide +kernel⟩

/-- Records of the die's incarnation and of another, none; notices likewise; a line's helpers, none, its own slice, no plain page;
a page that moves to a free block, one that does not; units with and without work, gated and not; an HS page, its line taken and
not, and a page without HS. -/
theorem test_meets_CoherenceEvents :
    (let rec_ : Rec := ⟨1, 0, 0, 0, 1, false, 0x1000, false, [(3, [7])]⟩
     let s : State := { paged demo with records := [rec_, { rec_ with inc := 1, granule := 0x1040 }] }
     s.records[0]? = some rec_ ∧ rec_.inc = s.incs[rec_.die] ∧ (s.records.take 0) = [] ∧
     s.records[1]?.any (fun r => r.inc != s.incs[r.die]) = true ∧
     (s.records.take 1).all (fun x => x.granule != 0x1040) = true ∧ s.records[2]? = none) ∧
    (({ paged demo with notices := [⟨1, 1, 0, 0, 1, 0x1000⟩] } : State).notices[0]? = some ⟨1, 1, 0, 0, 1, 0x1000⟩ ∧
      (paged demo).notices[0]? = none) ∧
    ((stackOf 0x1000).isSome = true ∧ (paged demo).plainPage 0x1000 = true ∧ (0xE : BitVec 16) ≠ 0 ∧
      (0xE : BitVec 16).getLsbD (sliceOf 0x1000) = false ∧ ((List.range 16).filter fun i => (0xE : BitVec 16).getLsbD i).length ≤ 3 ∧
      (0x1 : BitVec 16).getLsbD (sliceOf 0x1000) = true ∧ (stage demo).plainPage 0x100000 = false) ∧
    (MemoryCanonical smallPage ∧ (∃ v, smallPage.pageMove 0x17 0x109 = some v ∧ v.old = 0x17 ∧ v.blocks = 1) ∧
      smallPage.pageMove 0x17 0xF0000 = none ∧ smallPage.copies = [] ∧ smallPage.records = []) ∧
    ((0, 1) ∉ (paged demo).gated ∧ (∀ x ∈ (paged demo).groups, ¬ (x.1.die = 0 ∧ x.1.core.val = 1)) ∧ (paged demo).twins = [] ∧
      (∃ x ∈ (paged demo).groups, x.1.die = 0 ∧ x.1.core.val = 0) ∧
      (0, 51) ∈ ({ paged demo with gated := [(0, 51)] } : State).gated) ∧
    (sharedPage.hsPage 0x1000 = true ∧ Tbl.find sharedPage.hostLines (lineOf 0x1000) = none ∧
      (Tbl.find [(0x1000, HostLine.shared)] (lineOf 0x1000)).isSome = true ∧
      sharedPage.walk 0 0x1000 = some (0x04000000000000FD, 16384, 0x40000) ∧ pteHs 0x04000000000000FD = true ∧
      fabricPa (leafPa 0x04000000000000FD 16384 0x1000 / 4 * 4) = false ∧ sharedPage.foreign 0 0x1000 = false) ∧
    ((paged demo).walk 0 0x1000 = some (0xFD, 16384, 0x40000) ∧ pteHs 0xFD = false) :=
  ⟨⟨rfl, rfl, rfl, by decide +kernel, by decide +kernel, rfl⟩, ⟨rfl, rfl⟩, by decide +kernel,
    ⟨by unfold MemoryCanonical; decide +kernel, small_moves, by unfold State.pageMove; rw [small_entries]; decide +kernel, rfl, rfl⟩,
    ⟨by decide, by decide, rfl, by decide, by decide⟩, ⟨shared_hs, by decide +kernel, by decide +kernel, by decide +kernel, by decide +kernel,
      by decide +kernel, by decide +kernel⟩, by decide +kernel⟩

/-! ### Pre-emption and swaps -/

/-- The stage's partition as it halts, its one grid marked, with a save area at a place. -/
def halting (psave : BitVec 64) : State := gridAt .marked (parted (fun x => { x with halting := true, psave := psave }) (stage idle))

/-- A grid selected again, its group parked. -/
def returning (g : Group) : State := gridAt .selected { stage demo with groups := [], parked := [⟨placedRef, g, none⟩] }

/-- A partition with and without a save area; one that halts with a marked grid whose one group stands still, with an area that
holds its image and with none; a grid that comes back, with and without a slot; a running grid's slice at its end; a starved
group; a parked group with and without a slot; what is left of a lock's timeout. -/
theorem test_meets_PreemptionEvents :
    (let s := parted (fun x => { x with psave := 65536 }) { stage demo with groups := [] }
     (s.parts[(0 : Fin 12)]).en = true ∧ 65536 ≤ (s.parts[(0 : Fin 12)]).psave.toNat ∧ s.groups = []) ∧
    ((halting 0).parts[(0 : Fin 12)].halting = true ∧ (halting 0).groups = [(placedRef, idle)] ∧ (halting 0).parked = [] ∧ idle.part = 0 ∧
      idle.run = none ∧ idle.wait = none ∧ idle.acc = [] ∧ idle.arrivals = [] ∧ (halting 0).jobs = [] ∧ idle.lockLeft = none ∧ idle.stack.length ≤ 2 ∧ idle.rets.length ≤ 8 ∧
      (halting 0).startedOf idle.uid = [] ∧ idle.ended = false ∧
      ∃ gr, (halting 0).grids = [gr] ∧ gr.id = idle.grid ∧ gr.part = 0 ∧ gr.pre = .marked) ∧
    (MemoryCanonical (halting 0x100000) ∧ (halting 0).saveArea 0 = none ∧
      ((halting 0x100000).saveArea 0).any (fun x => x.1 == 0x100000 && decide (4 * (idle.image false 0 0).length ≤ x.2)) = true) ∧
    (∃ gr, ((returning idle).grids.filter fun g => g.part == 0 && g.pre == .selected) = [gr] ∧
      ((returning idle).parts[(0 : Fin 12)]).halting = false ∧ (returning idle).teamsFit gr = true ∧
      (∀ c ∈ (returning idle).mxCores gr, (returning idle).startedAt c = []) ∧ idle.grid = gr.id ∧
      (returning idle).slotFor placedRef idle = some 0 ∧
      (returning { idle with nv := 4000 }).slotFor placedRef { idle with nv := 4000 } = none) ∧
    (let s := parted (fun x => { x with
         psave := 65535
         queues := x.queues.set 0 { x.queues[0] with slice := 1, sliceFrom := some 0 } }) { stage demo with clk := 850 }
     let q := (s.parts[(0 : Fin 12)]).queues[(0 : Fin 64)]
     q.sliceFrom = some 0 ∧ q.slice ≠ 0 ∧ 0 + 850 * q.slice.toNat ≤ s.clk ∧ (s.parts[(0 : Fin 12)]).halting = false ∧
     (s.parts[(0 : Fin 12)]).psave.toNat < 65536 ∧ ∃ g ∈ s.grids, g.part = 0 ∧ g.prioQueue = 0 ∧ g.runs = true) ∧
    (let w : Wait := .sleep 9
     let s := parted (fun x => { x with psave := 65536 })
       { stage (waiting w) with clk := 42501, grids := (stage demo).grids.map fun g => { g with desc := { g.desc with nclu := 2 } } }
     ∃ gr, s.groups = [(placedRef, waiting w)] ∧ s.grid 1 = some gr ∧ (waiting w).waitFrom + 850 * gr.desc.starve < s.clk ∧
       yieldable w = true ∧ s.askingOnce (waiting w) = false ∧ gr.placed.sum < gr.desc.nclu ∧ s.drained (waiting w) = true) ∧
    (let y : Parked := ⟨placedRef, idle, some 0⟩
     let s : State := { stage demo with groups := [], parked := [y], clk := 42500 }
     s.parked = [y] ∧ y.place.at = ⟨0, 0⟩ ∧ s.mayReturn y = true ∧ s.gridOut y.grp.grid = false ∧ s.slotFor y.place y.grp = some 0 ∧
     s.slotFor y.place { y.grp with nv := 4000 } = none) ∧
    ((waiting (.lock 2 0x80 0x80 none 5)).wait = some (.lock 2 0x80 0x80 none 5) ∧ (2 ^ 24 - 1 : Nat) < 2 ^ 24) := by
  refine ⟨⟨rfl, by decide +kernel, rfl⟩,
    ⟨rfl, rfl, rfl, rfl, rfl, rfl, rfl, rfl, rfl, rfl, by decide, by decide, rfl, rfl, _, rfl, rfl, rfl, rfl⟩,
    ⟨by unfold MemoryCanonical; decide +kernel, ?_, ?_⟩, ⟨_, rfl, rfl, ?_, ?_, rfl, ?_, ?_⟩,
    ⟨rfl, by decide, by decide, rfl, by decide, by decide⟩, ⟨_, rfl, rfl, by decide, rfl, rfl, by decide, rfl⟩,
    ⟨rfl, rfl, ?_, rfl, ?_, ?_⟩, rfl, by decide⟩ <;> decide +kernel

/-- A grid of one cluster of one group, which needs no store, not placed yet. -/
def oneGrid : Grid :=
  newGrid 1 0 (some 0) 0 0 1 { placedDesc with
    depth := 0
    priv := 0
    tmem := 0 } 0 false false none [0]

/-- A grid of queue 1 that was out and has no slot to come back to, beside the grid of queue 0 that runs. -/
def crowded (clk : Nat) : State :=
  parted (fun x => { x with
      psave := 65536
      queues := x.queues.set 0 { x.queues[0] with slice := 1, sliceFrom := some 0 } })
    { stage demo with
      clk := clk
      parked := [⟨placedRef, { idle with grid := 2, nv := 4000 }, none⟩]
      grids := (stage demo).grids ++ (stage demo).grids.map fun g =>
        { g with id := 2, queue := some 1, prioQueue := 1, pre := .selected, outFrom := 7 } }

/-- A request while one group has its matrix instruction and another stands between runs; an expired slice beside a grid that
waits, of equal and of lower counted priority, one not over, and one of a queue whose grids do not run; a grid's age from its
going out and from its command. -/
theorem test_meets_PreemptionEvents_requests :
    (let g : Group := { demo with mxWait := some ⟨.accz false 0, 0, 0, 0, 0, []⟩ }
     let s := parted (fun x => { x with psave := 65536 }) (stage g)
     (s.parts[(0 : Fin 12)]).en = true ∧ 65536 ≤ (s.parts[(0 : Fin 12)]).psave.toNat ∧ (s.groups.map (·.1)).Nodup ∧
     s.group placedRef = some g ∧ g.run = some ⟨0, 0⟩ ∧ g.wait = none ∧ g.mxWait ≠ none ∧ g.stack[0]? = some top ∧
     idle.run.isSome = false) ∧
    (let s := crowded 850
     let q := (s.parts[(0 : Fin 12)]).queues[(0 : Fin 64)]
     q.sliceFrom = some 0 ∧ q.slice ≠ 0 ∧ 0 + 850 * q.slice.toNat ≤ s.clk ∧ (s.parts[(0 : Fin 12)]).halting = false ∧
     (s.parts[(0 : Fin 12)]).en = true ∧ 65536 ≤ (s.parts[(0 : Fin 12)]).psave.toNat ∧ (s.groups.map (·.1)).Nodup ∧
     (∃ g ∈ s.grids, g.part = 0 ∧ g.prioQueue = 0 ∧ g.runs = true) ∧
     (∃ g ∈ s.grids, g.part = 0 ∧ g.prioQueue ≠ 0 ∧ s.stuck g = true ∧ q.prio.toNat ≤ s.waitingPrio g ∧ g.pre.away = true ∧
       g.queue = some 1) ∧
     ¬ 850 * q.slice.toNat ≤ (crowded 849).clk) ∧
    (let s := parted (fun x => { x with queues := x.queues.set 0 { x.queues[0] with prio := 1 } }) (crowded 850)
     ∀ g ∈ s.grids, g.part = 0 → g.prioQueue ≠ 0 → s.stuck g = true →
       s.waitingPrio g < ((s.parts[(0 : Fin 12)]).queues[(0 : Fin 64)]).prio.toNat) ∧
    (let s := gridAt (.out 0) (crowded 850)
     ∀ g ∈ s.grids, g.part = 0 → g.prioQueue = 0 → g.runs = false) ∧
    (oneGrid.queue = some 0 ∧ oneGrid.pre.away = false ∧ (0 : Nat) + 850000 ≤ ({ stage demo with clk := 850000 } : State).clk) := by
  decide +kernel

/-! ### Links, errors, bring-up -/

theorem test_meets_LinksAndErrors :
    (let l : Link := ⟨true, 0, false⟩
     let s : State := { stage demo with links := (stage demo).links.set 0 l }
     (s.links[(0 : Fin 46)]).trained = true ∧ (s.links[(0 : Fin 46)]).retraining = false ∧ (s.links[(0 : Fin 46)]).level ≠ 3) ∧
    (let l : Link := ⟨true, 1, true⟩
     l.retraining = true ∧ l.level ≠ 0) ∧
    (stackOf (2 ^ 36 * 11 + 0xBFFFFFFFF)).isSome = true ∧ (255 : Nat) < 256 ∧ (1023 : Nat) < 1024 ∧
    ((stage demo).group placedRef = some demo ∧ demo.ended = false) ∧ (((stage demo).parts[(0 : Fin 12)]).en = true ∧
      ((stage demo).parts[(0 : Fin 12)]).dies.getLsbD 0 = true) ∧ (∀ x ∈ (stage demo).groups, x.1.die ≠ 5) ∧
    (linkDies 0 = [0, 1] ∧ linkDies 45 = [8]) ∧
    (let s : State := { paged demo with jobs := [job] }
     (s.jobs.filter fun j => j.core == ⟨0, 0⟩)[0]? = some job ∧ (∃ x, job.units[0]? = some x) ∧ job.err = 0 ∧
     job.counted.contains 0 = false ∧ job.counted.length < job.units.length ∧ job.landed ++ job.due = [] ∧ s.jobPaused job = false ∧
     lands s job = some ([], false)) ∧
    (let m : Msg := ⟨0, 1, ⟨0, 0⟩, 0, 1, [7], 0, false, none, true⟩
     let s : State := { paged demo with groups := [], msgs := [m] }
     (s.msgs.find? fun m => m.core == ⟨0, 0⟩) = some m ∧ (s.grid 1).any (fun gr => !gr.pre.away) = true ∧ s.parked = [] ∧
     (s.parts[(0 : Fin 12)]).halting = false) :=
  ⟨⟨by decide, by decide, by decide⟩, ⟨rfl, by decide⟩, by decide +kernel, by decide, by decide, ⟨rfl, rfl⟩, ⟨rfl, by decide⟩, by decide,
    ⟨by decide +kernel, by decide +kernel⟩, ⟨rfl, ⟨_, rfl⟩, rfl, rfl, by decide +kernel, rfl, by decide +kernel,
      by decide +kernel⟩, by decide +kernel⟩

/-- The states of bring-up: at reset, in reduced service begun in this clk and before, with all but one unit up, at the timeout and
past it; an image to verify, without a command and with one in hand. -/
theorem test_meets_BringUp :
    (State.reset.phase = 0 ∧ (State.reset.parts[(0 : Fin 12)]).en = false) ∧
    (let s := parted (fun x => { x with en := true }) { State.reset with phase := 2, dieok := 0x7FF, iook := 3 }
     s.phase = 2 ∧ (s.parts[(0 : Fin 12)]).en = true ∧ s.dieok ≠ 0xFFF) ∧
    (let s := parted (fun x => { x with en := true }) { State.reset with phase := 1, dieok := 0x20, iook := 1, bdie := 5, bdieAt := some 0 }
     s.phase ≠ 3 ∧ (s.parts[(0 : Fin 12)]).en = true ∧ s.iook.getLsbD 0 = true ∧ 4 < s.bdie.toNat ∧
     (∀ e : Fin 12, e.val < 4 → s.dieok.getLsbD e.val = false) ∧ s.bdieAt = some s.clk ∧ s.bdieAt ≠ some (s.clk + 1)) ∧
    (let s : State := { State.reset with clk := 425000001, phase := 1 }
     425000000 < s.clk ∧ s.phase ≠ 3 ∧ s.dieok ≠ 0xFFF ∧ s.dieok.getLsbD 11 = false) ∧
    (let s : State := { State.reset with clk := 425000000 }
     s.clk ≤ 425000000) ∧
    (let s : State := { State.reset with fwst := 1, phase := 1, firmware := some ⟨3, [1, 2]⟩ }
     s.fwst = 1 ∧ s.firmware = some ⟨3, [1, 2]⟩ ∧ s.handOf 0 3 .fwload = none) ∧ (State.reset.links[(0 : Fin 46)]).trained = false :=
  ⟨⟨rfl, rfl⟩, ⟨rfl, rfl, by decide⟩, ⟨by decide, rfl, rfl, by decide, by decide, rfl, by decide⟩,
    ⟨by decide, by decide, by decide, by decide⟩, by decide, ⟨rfl, rfl, by decide +kernel⟩, rfl⟩

/-! ### The host -/

/-- Full service with a partition enabled and idle, a window, overlapping dies. -/
def served : State := { parted (fun x => { x with en := true, dies := 1, pwin := 0x100000 }) State.reset with phase := 3 }

theorem test_meets_HostRegisters :
    served.phase = 3 ∧ ((served.parts[(0 : Fin 12)]).queues.any (fun q => q.hand.isSome) = false ∧ (served.parts[(0 : Fin 12)]).children = [] ∧
      (served.parts[(0 : Fin 12)]).childSel = none ∧ served.grids = []) ∧
    (served.parts[(0 : Fin 12)]).en = true ∧ (served.parts[(1 : Fin 12)]).en = false ∧
    (served.parts[(0 : Fin 12)]).dies.getLsbD 0 = true ∧ (2 : BitVec 12).getLsbD 0 = false ∧
    (served.parts[(0 : Fin 12)]).dies &&& 3 ≠ 0 ∧ (∀ q : Fin 12, q ≠ 0 → (served.parts[q]).en = true → (served.parts[q]).dies &&& 3 = 0) ∧
    (served.parts[(0 : Fin 12)]).pwin.toNat / 2 ^ 20 % 2 ^ 32 ≠ 0 ∧ (∃ g ∈ (stage demo).grids, g.part = 0 ∧ g.runs = true) ∧
    (0x80000 ≤ (0xFFFFC : Nat) ∧ (0xFFFFC : Nat) < 0x100000 ∧ (0xFFFFC : Nat) % 4 = 0) :=
  ⟨rfl, ⟨by decide +kernel, rfl, rfl, rfl⟩, rfl, rfl, by decide, by decide, by decide, by decide +kernel, by decide +kernel, by decide,
    by decide⟩

/-- The paged stage without groups, whose queue 0 holds a command record: its first word, its argument at word 2, its
completion record at word 4. -/
def commanded (w0 arg crec : Word) : State :=
  parted (fun x => { x with
      queues := x.queues.set 0 { x.queues[0] with en := true }
      slots := [(0x20000, w0), (0x20002, arg), (0x20004, crec)] })
    { paged demo with
      groups := []
      grids := [] }

/-- What a record at the head of queue 0 is: its address, its fields, its other addresses pass. -/
def judged (s : State) (t : CmdType) : Bool × Bool × Bool :=
  match (s.parts[(0 : Fin 12)]).headRecord 0 with
  | none => (false, false, false)
  | some ws =>
    let c := cmdOf t ws s.clk 0 (s.phase != 3)
    (s.devOk 0 true c.crec 8 32 && decide (cmdType (wfield (ws[0]?.getD 0) 31 28) = some t), cmdFields c ws, s.cmdAddrs 0 c)

/-- A good LAUNCH and a good MARKER; a record address that fails, a field that is not zero, a report that does not fit. -/
theorem test_meets_CommandsAreTaken :
    judged (commanded 0x10000000 0x1000 0x2000) .launch = (true, true, true) ∧
    judged (commanded 0x20000000 0 0x2000) .marker = (true, true, true) ∧
    judged (commanded 0x20000000 0 0x2004) .marker = (false, true, true) ∧
    judged (commanded 0x20010000 0 0x2000) .marker = (true, false, true) ∧
    judged (commanded 0x30000000 0x40000000 0x2000) .enum = (true, true, false) := by
  decide +kernel

/-- The command in hand of queue 0. -/
def inHand (w0 arg : Word) (t : CmdType) (f : Cmd → Cmd) : State :=
  let s := commanded w0 arg 0x2000
  s.setHand 0 0 (((s.parts[(0 : Fin 12)]).headRecord 0).map fun ws => f (cmdOf t ws 0 0 false))

/-- BringUp: a FWLOAD in hand whose image is being verified. -/
theorem test_meets_BringUp_command :
    let s : State := { inHand 0x50000000 0 .fwload (fun c => { c with running := true }) with fwst := 1, phase := 1, firmware := some ⟨0, []⟩ }
    (s.handOf 0 0 .fwload).isSome = true ∧ s.twins = [] ∧ s.records = [] ∧ s.notices = [] := by
  decide +kernel

/-- A ready MARKER, running and not; commands that wait for their dependences, met, failed and not; running ENUM, ATTEST, FWLOAD, in
full service and out of it; a command whose end waits for records, applied and not. -/
theorem test_meets_CommandsRun :
    ((((inHand 0x20000000 0 .marker id).parts[(0 : Fin 12)]).queues[(0 : Fin 64)]).hand.any fun c =>
      c.typ == .marker && c.ready == some 0 && !c.running && c.fin.isNone) = true ∧
    ((((inHand 0x25000000 0 .marker id).parts[(0 : Fin 12)]).queues[(0 : Fin 64)]).hand.any fun c =>
      c.ready.isNone && c.strict && c.ndep == 1 && ((([c.dep0, c.dep1].take c.ndep).map ((inHand 0x25000000 0 .marker id).recordStatus 0)) == [0])) = true ∧
    ((([0x1000#64].take 1).map ((inHand 0x25000000 0 .marker id).recordStatus 0)) == [1]) = true ∧
    ((([0x1008#64].take 1).map ((inHand 0x25000000 0 .marker id).recordStatus 0)) == [0x11]) = true ∧
    ((((inHand 0x50000000 0 .fwload fun c => { c with running := true }).parts[(0 : Fin 12)]).queues[(0 : Fin 64)]).hand.any fun c =>
      c.typ == .fwload && c.running) = true ∧ (commanded 0 0 0).phase = 3 ∧
    (({ commanded 0 0 0 with phase := 2, fwst := 2 } : State).phase ≠ 3 ∧ ({ commanded 0 0 0 with phase := 1, fwst := 1 } : State).fwst = 1) ∧
    ((((inHand 0x20000000 0 .marker fun c => { c with running := true, fin := some ⟨.complete, 0, [3]⟩ }).parts[(0 : Fin 12)]).queues[
      (0 : Fin 64)]).hand.any fun c => c.fin == some ⟨.complete, 0, [3]⟩) = true ∧
    (commanded 0 0 0).allApplied [3] = true ∧
    ({ commanded 0 0 0 with records := [⟨3, 0, 0, 0, 1, false, 0x1000, false, []⟩] } : State).allApplied [3] = false ∧
    diesOf ((commanded 0 0 0).parts[(0 : Fin 12)]).dies ≠ [] ∧ ({ commanded 0 0 0 with fwst := 2, firmware := some ⟨0, []⟩ } : State).fwst = 2 := by
  decide +kernel

/-- A child whose parent's queue has priority 2. -/
def childState : State :=
  parted (fun x => { x with
      queues := x.queues.set 0 { x.queues[0] with prio := 2 }
      children := [⟨placedDesc, 0, 0, 0, false⟩] }) { stage demo with groups := [], grids := [] }

/-- A LAUNCH at the head of the only ready queue, with a good descriptor, a bad one, one that fails its checks; another command; a
head that waited 1 ms and one that did not; a disabled queue; a child, alone and beside a queue; a grid that is out; nothing to
select. -/
theorem test_meets_LaunchesAreSelected :
    (let s := inHand 0x10000000 0x1000 .launch id
     (s.parts[(0 : Fin 12)]).en = true ∧ (s.parts[(0 : Fin 12)]).halting = false ∧ (s.deviceHead 0).isNone = true ∧
     ((s.hostWinner 0).any fun x => x.1 == 0 && x.2.2 == 0) = true ∧ s.devOk 0 false 0x1000 36 64 = true ∧
     s.descDetail 0xFFF 0 (s.devWords 0 0x1000 36) = 0 ∧ s.descDetail 0xFFF 0 (s.devWords 0 0x8000 36) ≠ 0 ∧
     s.devOk 0 false 0x1004 36 64 = false ∧ s.returned 0 (some 0) = none ∧ 0 + 850000 ≤ ({ s with clk := 850000 } : State).clk ∧
     ¬ 0 + 850000 ≤ s.clk ∧ ((s.parts[(0 : Fin 12)]).queues[(1 : Fin 64)]).en = false) ∧
    ((inHand 0x30000000 0x1000 .enum id).hostWinner 0).isSome = true ∧
    (childState.returned 0 none = none ∧ (childState.parts[(0 : Fin 12)]).childSel = none ∧ childState.hostWinner 0 = none) ∧
    (let s := gridAt (.out 0) (parted (fun x => { x with queues := x.queues.set 0 { x.queues[0] with en := true } })
       { stage demo with groups := [] })
     (s.hostHead 0 0).isSome = true ∧ (match s.hostHead 0 0 with | some (.grid g, _) => g.id == 1 | _ => false) = true) ∧
    (let s : State := { stage demo with groups := [], grids := [] }
     s.deviceHead 0 = none ∧ s.hostWinner 0 = none) := by
  decide +kernel
/-! ### Grids -/

def unplaced : State :=
  { stage demo with
    groups := []
    teams := []
    grids := [oneGrid] }

/-- The device finds a base in a pool whose first byte is free, whatever it chooses. -/
theorem pick_some (lo len n choice : Nat) (used : List (Nat × Nat)) (b : Nat) (hb : b ∈ storeBases lo used)
    (hg : (decide (lo ≤ b ∧ b + n ≤ lo + len) && storeFree used b n) = true) : ∃ x, pickStore lo len n choice used = some x := by
  cases h : pickStore lo len n choice used with
  | some x => exact ⟨x, rfl⟩
  | none =>
    unfold pickStore at h
    simp only at h
    split at h
    · simp at h
    · rw [List.find?_eq_none] at h
      exact absurd hg (h b hb)

theorem unplaced_fits : ∃ pl, unplaced.placement oneGrid 0 = some pl := by
  obtain ⟨⟨cores, slots⟩, hr⟩ : ∃ x, unplaced.findRect oneGrid 0 = some x := by
    cases h : unplaced.findRect oneGrid 0 with
    | some x => exact ⟨x, rfl⟩
    | none => exact absurd (congrArg Option.isSome h) (by decide +kernel)
  have h1 : (oneGrid.dies.findIdx? (· == (0 : Fin 12))) = some 0 := by decide
  have h2 : oneGrid.nextCluster 0 = some 0 := by decide
  have h3 : (oneGrid.pre != .running || (unplaced.parts[oneGrid.part]).halting || !unplaced.tileReached oneGrid 0) = false := by decide +kernel
  unfold State.placement
  simp only [h1, h2, h3, hr, Bool.false_eq_true, if_false]
  exact ⟨_, rfl⟩

/-- A cluster that can be placed, and none; a store that finds a base; a grid with nothing left, before and after its release; one
with work left; a group of the grid that waits for the pool. -/
theorem test_meets_GridsAndClusters :
    (unplaced.grid oneGrid.id = some oneGrid ∧ (∃ pl, unplaced.placement oneGrid 0 = some pl) ∧
      unplaced.returnsFirst oneGrid.id 0 = false ∧ (∀ x ∈ unplaced.grids, ¬ x.order < oneGrid.order) ∧ oneGrid.tdep = none) ∧
    (let s : State := { stage demo with groups := [] }
     ∃ gr, s.grid 1 = some gr ∧ s.gridDone gr = true ∧ gr.rel = none ∧ s.twins = [] ∧ s.allApplied [] = true) ∧
    unplaced.placement oneGrid 1 = none ∧ unplaced.gridDone oneGrid = false ∧ (∀ x ∈ unplaced.groups, x.2.wait ≠ some .pool) ∧
    ∃ b, pickStore 0x10000 0x1000 0x800 (Config.freeNat 0 0) [(0x10000, 0x800)] = some b :=
  ⟨⟨rfl, unplaced_fits, rfl, by decide, rfl⟩, ⟨_, rfl, by decide +kernel, rfl, rfl, rfl⟩, by decide +kernel, by decide +kernel, by decide,
    pick_some _ _ _ _ _ 0x10800 (by decide) (by decide)⟩

/-! ### Encodings -/

/-- Every word decodes to its instruction, in serial mode where the opcode asks for it. -/
def allDecode (serial : Bool) (l : List (Word × Instr)) : Bool :=
  l.all fun x => match decode ⟨64, true, serial, false⟩ x.1 with
    | .ok i => i == x.2
    | .error _ => false

theorem test_decode_control : allDecode false [
    (0x80000000, .nop true), (0x8102ABCD, .bra true 0x2abcd), (0x821AABCD, .bz true 6 0x2abcd),
    (0x831AABCD, .bnz true 6 0x2abcd), (0x8436ABCD, .brp true true 5 0x2abcd), (0x8502ABCD, .setj true 0x2abcd),
    (0x86000000, .join true), (0x8702ABCD, .call true 0x2abcd), (0x88006000, .calli true 6), (0x89106000, .callv true 4 6),
    (0x8A000000, .ret true), (0x8B006000, .retv true 6), (0x8C000000, .exit true),
    (0x8D1AABCD, .loop true 6 0x2abcd)] = true := by
  decide +kernel

theorem test_decode_lane_sets : allDecode false [
    (0x8E140000, .elect true 5), (0x8E106001, .ballot true 4 6), (0x8E103002, .voteAny true 4 3),
    (0x8E107003, .voteAll true 4 7), (0x8E180004, .active true 6), (0x8E102005, .pmovs true 4 2), (0x8E046006, .smovp true 1 6),
    (0x8E0420C7, .pand true 1 2 3), (0x8E083108, .por true 2 3 4), (0x8E0C4149, .pxor true 3 4 5), (0x8E10500A, .pnot true 4 5),
    (0x8E1461CB, .pandn true 5 6 7), (0x8F106000, .matchK true 4 6)] = true := by
  decide +kernel

theorem test_decode_uniform : allDecode false [
    (0x90106200, .sadd true 4 6 8), (0x90106201, .ssub true 4 6 8), (0x90106202, .sand true 4 6 8),
    (0x90106203, .sor true 4 6 8), (0x90106204, .sxor true 4 6 8), (0x90106205, .sandn true 4 6 8),
    (0x90106206, .sshl true 4 6 8), (0x90106207, .sshr true 4 6 8), (0x90106208, .ssra true 4 6 8),
    (0x90106209, .smin true 4 6 8), (0x9010620A, .smax true 4 6 8), (0x9010620B, .sminn true 4 6 8),
    (0x9010620C, .smaxn true 4 6 8), (0x9010620D, .smul true 4 6 8), (0x9010620E, .smulh true 4 6 8),
    (0x9010620F, .smulhn true 4 6 8), (0x91106202, .scmp true .lt 4 6 8), (0x9210620A, .ssel true 4 6 8 10),
    (0x93115555, .sseti true 4 0x15555), (0x94115555, .sseth true 4 0x15555), (0x95115555, .saddi true 4 0x15555),
    (0x96106200, .sadd64 true 4 6 8), (0x96106201, .ssub64 true 4 6 8), (0x96106215, .slea true 5 4 6 8),
    (0x97106200, .sdiv true 4 6 8), (0x97106201, .sdivn true 4 6 8), (0x97106202, .srem true 4 6 8),
    (0x97106203, .sremn true 4 6 8), (0x98106000, .spopc true 4 6), (0x98106001, .sclz true 4 6), (0x98106002, .sbrev true 4 6),
    (0x98106203, .sbfx true 4 6 8), (0x98106204, .sbfxn true 4 6 8), (0x9910620A, .sbfi true 4 6 8 10),
    (0x9A106000, .smov true 4 6), (0x9A106201, .smovv true 4 6 8), (0x9B12C50D, .srdsr true 4 0x2c5 .lpt)] = true := by
  decide +kernel

theorem test_decode_vector : allDecode false [
    (0xA0106200, .vadd true 4 6 8), (0xA0106201, .vsub true 4 6 8), (0xA0106202, .vmul true 4 6 8),
    (0xA0106203, .vmulh true 4 6 8), (0xA0106204, .vmulhn true 4 6 8), (0xA0106205, .vmin true 4 6 8),
    (0xA0106206, .vmax true 4 6 8), (0xA0106207, .vminn true 4 6 8), (0xA0106208, .vmaxn true 4 6 8),
    (0xA0106209, .vand true 4 6 8), (0xA010620A, .vor true 4 6 8), (0xA010620B, .vxor true 4 6 8),
    (0xA010620C, .vandn true 4 6 8), (0xA010620D, .vshl true 4 6 8), (0xA010620E, .vshr true 4 6 8),
    (0xA010620F, .vsra true 4 6 8), (0xA0106010, .vabs true 4 6), (0xA0106011, .vneg true 4 6), (0xA0106012, .vnot true 4 6),
    (0xA110620A, .vmad true 4 6 8 10), (0xA210620A, .vdot4 true 4 6 8 10), (0xA310620A, .log3 true 4 6 8 10),
    (0xA4106200, .vbfx true 4 6 8), (0xA5106200, .vbfxn true 4 6 8), (0xA610620A, .vbfi true 4 6 8 10),
    (0xA710620A, .vfsh true 4 6 8 10), (0xA810620A, .vfshl true 4 6 8 10), (0xA9106000, .vpopc true 4 6),
    (0xA9106001, .vclz true 4 6), (0xA9106002, .vctz true 4 6), (0xA9106003, .vbrev true 4 6),
    (0xAA0C6205, .vcmp true .ge 3 6 8), (0xAB106205, .vsel true 4 6 8 5), (0xAC106000, .vmov true 4 6),
    (0xAC106201, .vbcast true 4 6 .i8x4), (0xAC106202, .vlane true 4 6 8), (0xAD106200, .vshfIdx true 4 6 8),
    (0xAD106201, .vshfUp true 4 6 8), (0xAD106202, .vshfDn true 4 6 8), (0xAD106203, .vshfXor true 4 6 8),
    (0xAE106004, .vred true .maxn 4 6), (0xAF106017, .vscan true true .xor 4 6)] = true := by
  decide +kernel

theorem test_decode_float : allDecode false [
    (0xB0106200, .fadd true 4 6 8), (0xB0106201, .fsub true 4 6 8), (0xB0106202, .fmul true 4 6 8),
    (0xB0106203, .fmin true 4 6 8), (0xB0106204, .fmax true 4 6 8), (0xB0106005, .fabs true 4 6), (0xB0106006, .fneg true 4 6),
    (0xB0106207, .fcpsgn true 4 6 8), (0xB110620A, .fma true 4 6 8 10), (0xB210620A, .fms true 4 6 8 10),
    (0xB310620A, .fnma true 4 6 8 10), (0xB40C6204, .fcmp true .un 3 6 8), (0xB5106000, .frcp true 4 6),
    (0xB5106001, .frsq true 4 6), (0xB5106002, .fsqrt true 4 6), (0xB5106003, .fexp2 true 4 6), (0xB5106004, .flog2 true 4 6),
    (0xB5106005, .fsin true 4 6), (0xB5106006, .fcos true 4 6), (0xB5106007, .ftanh true 4 6), (0xB5106008, .fsigm true 4 6),
    (0xB6106200, .fdiv true 4 6 8), (0xB7106000, .fclass true 4 6), (0xB8106200, .fscale true 4 6 8),
    (0xB9106000, .frint true 4 6), (0xB9106001, .ffrac true 4 6), (0xBA10620A, .fdot2 true 4 6 8 10)] = true := by
  decide +kernel

theorem test_decode_convert : allDecode false [
    (0xC010604D, .cvt true 4 6 1 .i4x8), (0xC1106081, .cvtn true 4 6 2 .i32), (0xC2106203, .cvtps true 4 6 8 3),
    (0xC310620E, .pack true 4 6 8 .rix), (0xC4106003, .unpk true 4 6 3), (0xC510000E, .tagset true 4 .rix),
    (0xC5106010, .tagrd true 4 6)] = true := by
  decide +kernel

theorem test_decode_memory : allDecode false [
    (0xC810C394, .ldg true 4 12 14 .acq .die), (0xC910C3A4, .stg true 4 12 14 .rel .die),
    (0xCA10C394, .ldt true 4 12 14 .acq .die), (0xCB10C3A4, .stt true 4 12 14 .rel .die),
    (0xCC10C394, .ldk true 4 12 14 .acq .die), (0xCD10C3A4, .stk true 4 12 14 .rel .die),
    (0xCE10C394, .ldgw true 4 12 14 .acq .die), (0xCF10C3A4, .stgw true 4 12 14 .rel .die), (0xD004C380, .pref true true 12 14),
    (0xD1006003, .waitc true 6 .e), (0xD2106002, .cvta true 4 6 .glob), (0xD3106000, .space true 4 6),
    (0xD404C384, .flushl true true 12 14 .die)] = true := by
  decide +kernel

theorem test_decode_atomics_locks : allDecode false [
    (0xD810C3AF, .atom true 4 12 14 .cas .acqrel), (0xD910C3A0, .atomu true 4 12 14 .xchg .none),
    (0xDA10C38E, .red true 4 12 14 .minn .rel), (0xDB10C390, .lck true 4 12 14 .acq), (0xDC10C3A0, .ulck true 4 12 14 .rel),
    (0xDD10C390, .lckq true 4 12 14 .acq)] = true := by
  decide +kernel

theorem test_decode_ordering : allDecode false [
    (0xE0000039, .fence true .acqrel .sys), (0xE1106000, .bara true 4 6 .team), (0xE1106214, .barw true 4 6 8 .clu),
    (0xE1103028, .bar true 4 3 .die), (0xE110303C, .barq true 4 3 .grid), (0xE2106200, .svdecl true 4 6 8),
    (0xE2106001, .svdrop true 4 6), (0xE300C385, .grfl true 12 14 .part)] = true := by
  decide +kernel

theorem test_decode_matrix : allDecode false [
    (0xE8106201, .bload true 4 6 8 true), (0xE910621A, .mma true 4 6 8 true .e4x4), (0xEA10621D, .mmap true 4 6 8 true .i4x8),
    (0xEB006000, .accz true 6), (0xEB1065C1, .accrd true 4 6 true .b16x2), (0xEB106002, .accwr true 4 6),
    (0xEB006203, .accscl true 6 8), (0xEC106200, .rank true 4 6 8), (0xED006000, .rkld true 6),
    (0xEE106201, .mmar true 4 6 8 true), (0xEF106200, .rkval true 4 6 8)] = true := by
  decide +kernel

theorem test_decode_posts_fabric : allDecode false [
    (0xF0106000, .cpkick true 4 6), (0xF1106200, .waita true 4 6 8), (0xF2106000, .blend true 4 6),
    (0xF3106210, .amsend true 4 6 8 16), (0xF410C3A4, .stmc true 4 12 14 .rel .die),
    (0xF510C394, .ldred true 4 12 14 .acq .die), (0xF610C3B1, .fatom true 4 12 14 .fadd .acq), (0xF7106000, .sealPage true 4 6),
    (0xF7106040, .sealOpen true 4 6), (0xF7106001, .vintrd true 4 6)] = true := by
  decide +kernel

theorem test_decode_launch_tiles : allDecode false [
    (0xF8106200, .launch true 4 6 8), (0xF9106209, .tilesig true 4 6 8 .sys),
    (0xFA106205, .tilew true 4 6 8 .part)] = true := by
  decide +kernel

theorem test_decode_system : allDecode false [
    (0xFB006000, .setmode true 6), (0xFB106201, .modef true 4 6 8), (0xFB100002, .getmode true 4), (0xFDA80000, .trap true 42),
    (0xFD000002, .yield true), (0xFD540003, .brkpt true 21), (0xFE10620A, .emu true 4 6 8 10),
    (0xFFABCDEF, .ill true 0xabcdef)] = true := by
  decide +kernel

theorem test_decode_serial : allDecode true [
    (0xFC101040, .sysrd true 4 .codebase), (0xFC1003C1, .syswr true 4 (.sr .handler)), (0xFC006002, .tlbinv true 6),
    (0xFC040002, .tlbinvAll true), (0xFC106003, .ctxsv true 4 6), (0xFC006004, .ctxld true 6), (0xFC000005, .halt true),
    (0xFC006006, .sleep true 6), (0xFD000001, .rett true), (0xFD040001, .rettNext true),
    (0xFD080001, .rettKill true)] = true := by
  decide +kernel

/-- The spec's own worked encoding (03 R44). -/
theorem test_decode_worked : decode ⟨8, false, false, false⟩ 0xA00C1080 = .ok (.vadd true 3 1 2) := rfl

/-- Words of 03 R45, by detail: unassigned opcodes, sub-operations and other fields; operands out of the group's limits; serial
mode; reduced service; EMU and ILL are decoded. -/
theorem test_decode_refusals :
    let k : DecCtx := ⟨16, false, false, false⟩
    decode k 0x1C000000 = .error .opcode ∧ decode k 0x3B000000 = .error .opcode ∧ decode k 0x67000000 = .error .opcode ∧
    decode k 0x0E00000C = .error .sub ∧ decode k 0x10000010 = .error .sub ∧ decode k 0x7D000004 = .error .sub ∧
    decode k 0x04400000 = .error .field ∧ decode k 0x48000001 = .error .field ∧ decode k 0x5A00003E = .error .field ∧
    decode k 0x20010000 = .error .limit ∧ decode k 0x200FFFC0 = .error .limit ∧ decode k 0x48001FC0 = .error .limit ∧
    decode k 0x48000FC0 = .ok (.ldg false 0 0 0x3F .none .grp) ∧ decode k 0x7C000005 = .error .priv ∧
    decode { k with reduced := true } 0x70000000 = .error .reduced :=
  ⟨rfl, rfl, rfl, rfl, rfl, rfl, rfl, rfl, rfl, rfl, rfl, rfl, rfl, rfl, rfl⟩

/-! ### Ill-formed instructions, one for each check of WellFormed -/

theorem test_refused_orders :
    (Instr.ldg false 0 0 0 .rel .grp).wf = false ∧ (Instr.ldt false 0 0 0 .none .die).wf = false ∧
    (Instr.ldk false 0 0 0 .acqrel .die).wf = false ∧ (Instr.ldgw false 0 0 0 .none .team).wf = false ∧
    (Instr.ldred false 0 0 0 .rel .grp).wf = false ∧ (Instr.stg false 0 0 0 .acq .grp).wf = false ∧
    (Instr.stt false 0 0 0 .none .sys).wf = false ∧ (Instr.stk false 0 0 0 .acqrel .grp).wf = false ∧
    (Instr.stgw false 0 0 0 .acq .sys).wf = false ∧ (Instr.stmc false 0 0 0 .none .core).wf = false ∧
    (Instr.red false 0 0 0 .xchg .none).wf = false ∧ (Instr.red false 0 0 0 .cas .rel).wf = false ∧
    (Instr.red false 0 0 0 .add .acq).wf = false ∧ (Instr.lck false 0 0 0 .rel).wf = false ∧
    (Instr.lckq false 0 0 0 .acqrel).wf = false ∧ (Instr.ulck false 0 0 0 .acq).wf = false ∧
    (Instr.fence false .none .sys).wf = false := by decide

theorem test_refused_values :
    (Instr.bara false 0 16 .team).wf = false ∧ (Instr.barw false 0 8 0 .clu).wf = false ∧ (Instr.bar false 0 4 .die).wf = false ∧
    (Instr.barq false 0 4 .grid).wf = false ∧ (Instr.barq false 0 15 .team).wf = true ∧ (Instr.cvt false 0 0 0 .raw).wf = false ∧
    (Instr.cvtn false 0 0 0 .rix).wf = false ∧ (Instr.cvt false 0 0 0 .ps8x4).wf = false ∧ (Instr.pack false 0 0 0 .f32).wf = false ∧
    (Instr.mma false 0 0 0 false .i32).wf = false ∧ (Instr.mmap false 0 0 0 false .rix).wf = false ∧
    (Instr.accrd false 0 0 false .n32).wf = false ∧ (Instr.amsend false 0 0 0 17).wf = false ∧
    (Instr.srdsr false 0 0x300 .lpt).wf = false ∧ (Instr.srdsr false 0 1 .width).wf = false ∧ (Instr.srdsr false 0 0x3FF .lpt).wf = true ∧
    (Instr.sysrd false 0 (.sr .lpt)).wf = false ∧ (Instr.syswr false 0 (.sr .tword)).wf = false ∧ (Instr.syswr false 0 .tbase).wf = false := by
  decide

/-- Vector registers at V, odd pairs, LDGW registers off their multiple of 4, MATCH at width 64, SRDSR of LANE, serial mode. -/
theorem test_refused_limits :
    let k : DecCtx := ⟨16, true, false, false⟩
    (Instr.vadd false 16 0 0).fits k = false ∧ (Instr.vadd false 15 15 15).fits k = true ∧ (Instr.callv false 0 16).fits k = false ∧
    (Instr.retv false 16).fits k = false ∧ (Instr.vmad false 0 0 0 16).fits k = false ∧ (Instr.vcmp false .eq 0 0 16).fits k = false ∧
    (Instr.vbcast false 16 0 .i32).fits k = false ∧ (Instr.ldg false 0 0 16 .none .grp).fits k = false ∧
    (Instr.ldg false 0 1 0x3F .none .grp).fits k = false ∧ (Instr.ldgw false 2 0 0x3F .none .grp).fits k = false ∧
    (Instr.ldgw false 12 0 0x3F .none .grp).fits k = true ∧ (Instr.stgw false 16 0 0x3F .none .grp).fits k = false ∧
    (Instr.pref false false 0 16).fits k = false ∧ (Instr.cvta false 0 15 .priv).fits k = false ∧ (Instr.cvta false 1 2 .glob).fits k = false ∧
    (Instr.space false 0 16).fits k = false ∧ (Instr.atom false 15 0 0x3F .cas .none).fits k = false ∧
    (Instr.atom false 3 0 0x3F .cas .none).fits k = false ∧ (Instr.sadd64 false 0 0 1).fits k = false ∧ (Instr.slea false 0 0 1 0).fits k = false ∧
    (Instr.ballot false 1 0).fits k = false ∧ (Instr.launch false 0 0 1).fits k = false ∧ (Instr.srdsr false 1 0 .clk).fits k = false ∧
    (Instr.matchK false 15 0).fits k = false ∧ (Instr.matchK false 1 0).fits k = false ∧ (Instr.matchK false 1 0).fits { k with wide := false } = true ∧
    (Instr.srdsr false 16 0 .lane).fits k = false ∧ (Instr.rett false).serialOnly = true := by decide

/-! ### Single steps -/

/-- What a group holds after one instruction, its results written. -/
def after (g : Group) (i : Instr) : Option Group :=
  match exec i (stage g) with
  | .next t => (t.group placedRef).map Group.settled
  | .fault _ | .refused _ => none

/-- A group with uniform registers set. -/
def uni (rs : List (Fin 64 × Word)) : Group := { demo with s := rs.foldl (fun v x => v.set x.1 x.2) demo.s }

/-- A group whose vector registers hold a tag and one word in every lane. -/
def vecs (rs : List (Fin 64 × Tag × Word)) : Group :=
  { demo with v := rs.foldl (fun v x => v.set x.1 ⟨x.2.1, Vector.replicate 64 x.2.2⟩) demo.v }

def seen (g : Option Group) (f : Group → List Word) : List Word := (g.map f).getD []

/-- Lane 3 of vector register d and its tag. -/
def lane3 (g : Option Group) (d : Reg) : List Word := seen g fun h => [h.lane d 3, (h.vreg d).tag.num.setWidth 32]

/-- 05, "For example": SSHL by 4 and by 40, SLEA with a carry and of a negative index, division, bit fields. -/
theorem test_uniform_examples :
    seen (after (uni [(7, 3), (2, 4)]) (.sshl true 7 7 2)) (fun h => [h.uni 7]) = [0x30] ∧
    seen (after (uni [(7, 3), (2, 40)]) (.sshl true 7 7 2)) (fun h => [h.uni 7]) = [0] ∧
    seen (after (uni [(4, 0xFFFFFFF0), (5, 0x41), (12, 5)]) (.slea true 3 8 4 12)) (fun h => [h.uni 8, h.uni 9]) = [0x18, 0x42] ∧
    seen (after (uni [(4, 0xFFFFFFF0), (5, 0x41), (12, 0xFFFFFFFD)]) (.slea true 3 8 4 12)) (fun h => [h.uni 8, h.uni 9]) =
      [0xFFFFFFD8, 0x41] ∧
    seen (after (uni [(1, 0xFFFFFFF9), (2, 2)]) (.sdiv true 3 1 2)) (fun h => [h.uni 3]) = [0xFFFFFFFD] ∧
    seen (after (uni [(1, 0xFFFFFFF9), (2, 2)]) (.srem true 3 1 2)) (fun h => [h.uni 3]) = [0xFFFFFFFF] ∧
    seen (after (uni [(1, 0xFFFFFFF9), (2, 2)]) (.sdivn true 3 1 2)) (fun h => [h.uni 3]) = [0x7FFFFFFC] ∧
    seen (after (uni [(1, 0xFFFFFFF9), (2, 2)]) (.sremn true 3 1 2)) (fun h => [h.uni 3]) = [1] ∧
    seen (after (uni [(1, 0xF35), (2, 0x804)]) (.sbfx true 3 1 2)) (fun h => [h.uni 3]) = [0xFFFFFFF3] ∧
    seen (after (uni [(1, 0xF35), (2, 0x804)]) (.sbfxn true 3 1 2)) (fun h => [h.uni 3]) = [0xF3] := by
  decide +kernel

/-- 06, "For example": VADD with and without SAT, VMAXN under SAT, VSRA of packed elements, the funnel shifts. -/
theorem test_vector_examples :
    lane3 (after (vecs [(1, .i8x4, 0x7F800105), (2, .i8x4, 0x01FF7F10)]) (.vadd true 3 1 2)) 3 = [0x807F8015, 8] ∧
    lane3 (after { vecs [(1, .i8x4, 0x7F800105), (2, .i8x4, 0x01FF7F10)] with mode := 0x100 } (.vadd true 3 1 2)) 3 = [0x7F807F15, 8] ∧
    lane3 (after { vecs [(1, .i32, 0xFFFFFFFF), (2, .i32, 1)] with mode := 0x100 } (.vmaxn true 3 1 2)) 3 = [0xFFFFFFFF, 1] ∧
    lane3 (after (vecs [(1, .i16x2, 0x00008004), (2, .raw, 2)]) (.vsra true 3 1 2)) 3 = [0x0000E001, 4] ∧
    lane3 (after (vecs [(1, .i16x2, 0x00008004), (2, .raw, 20)]) (.vsra true 3 1 2)) 3 = [0x0000FFFF, 4] ∧
    lane3 (after (vecs [(1, .i32, 0x12345678), (2, .f32, 0x9ABCDEF0), (4, .raw, 8)]) (.vfsh true 3 1 2 4)) 3 = [0x789ABCDE, 0] ∧
    lane3 (after (vecs [(1, .i32, 0x12345678), (2, .f32, 0x9ABCDEF0), (4, .raw, 8)]) (.vfshl true 3 1 2 4)) 3 = [0x3456789A, 0] := by
  decide +kernel

/-- 06, the worked example: v3.l = l + 1, six active lanes. -/
def scanning : Group :=
  { demo with
    mode := 1
    p := demo.p.set 0 0x00F5
    s := demo.s.set 2 2
    v := demo.v.set 3 ⟨.i32, Vector.ofFn fun l : Fin 64 => BitVec.ofNat 32 (l.val + 1)⟩ }

theorem test_scan_example :
    seen (after scanning (.vscan true true .add 4 3)) (fun h => (List.range 9).map (h.lane 4)) = [0, 0, 1, 0, 4, 9, 15, 22, 0] ∧
    seen (after scanning (.vscan true false .add 5 3)) (fun h => (List.range 9).map (h.lane 5)) = [1, 0, 4, 0, 9, 15, 22, 30, 0] ∧
    seen (after scanning (.vred true .add 6 3)) (fun h => [h.uni 6]) = [30] ∧
    seen (after scanning (.vshfUp true 9 3 2)) (fun h => (List.range 9).map (h.lane 9)) = [1, 0, 1, 0, 3, 4, 5, 6, 0] := by
  decide +kernel

/-- 04, "For example": MATCH with lanes 0 to 11 active; ELECT of lanes 4 to 9. -/
def matching : Group :=
  { demo with
    stack := [pathEntry 0 0x0FFF none]
    v := demo.v.set 1 ⟨.raw, Vector.ofFn fun l : Fin 64 => ([7, 3, 7, 7, 9, 3, 9, 7, 1, 3, 7, 9][l.val]?).getD 0⟩ }

theorem test_match_example :
    seen (after matching (.matchK true 2 1)) (fun h => (List.range 13).map (h.lane 2)) =
      [0x48D, 0x222, 0x48D, 0x48D, 0x850, 0x222, 0x850, 0x48D, 0x100, 0x222, 0x48D, 0x850, 0] ∧
    seen (after { demo with stack := [pathEntry 0 0x3F0 none] } (.elect true 1)) (fun h => [loWord (h.predicate 1)]) = [0x10] := by
  decide +kernel

/-- 04, the worked call: the stacks after CALLV, after RETV of the first callee, after RETV of the second, after EXIT. -/
def calling (st : List Entry) (v : Fin 64) (f : Nat → Word) (depth : Nat) : Group :=
  { demo with
    stack := st
    depth := depth
    v := demo.v.set v ⟨.n32, Vector.ofFn fun l : Fin 64 => f l.val⟩ }

/-- The stack from its top: the pc, the mask, the join (all ones for none) and the arrived mark of each entry. -/
def shape (g : Option Group) : List Word :=
  seen g fun h => h.stack.flatMap fun e => [e.pc, loWord e.mask, e.join.getD 0xFFFFFFFF, BitVec.ofNat 32 (bit e.arrived)]

def cont44 : Entry := { pathEntry 0x44 0xFFFF none with kind := .cont }

theorem test_call_example :
    shape (after (calling [pathEntry 0x40 0xFFFF none] 11 (fun l => if l < 6 then 0x100 else 0x140) 2) (.callv true 12 11)) =
      [0x100, 0x3F, 0x44, 0, 0x140, 0xFFC0, 0x44, 0, 0x44, 0xFFFF, 0xFFFFFFFF, 0] ∧
    shape (after (calling [pathEntry 0x104 0x3F (some 0x44), pathEntry 0x144 0xFFC0 (some 0x44), cont44] 12 (fun _ => 0x44) 2)
        (.retv true 12)) =
      [0x144, 0xFFC0, 0x44, 0, 0x44, 0x3F, 0x44, 1, 0x44, 0xFFFF, 0xFFFFFFFF, 0] ∧
    shape (after (calling [pathEntry 0x144 0xFFC0 (some 0x44), { pathEntry 0x44 0x3F (some 0x44) with arrived := true }, cont44] 12
        (fun l => if l < 12 then 0x44 else 0x80) 2) (.retv true 12)) =
      [0x80, 0xF000, 0x44, 0, 0x44, 0xFC0, 0x44, 1, 0x44, 0x3F, 0x44, 1, 0x44, 0xFFFF, 0xFFFFFFFF, 0] ∧
    shape (after { demo with stack := [pathEntry 0x80 0xF000 (some 0x44), { pathEntry 0x44 0xFC0 (some 0x44) with arrived := true },
        { pathEntry 0x44 0x3F (some 0x44) with arrived := true }, cont44] } (.exit true)) = [0x44, 0xFFF, 0xFFFFFFFF, 0] := by
  decide +kernel

/-- The same CALLV with D = 0 raises STACKOVF (cause 3) and, without a handler, ends the group. -/
theorem test_call_overflow :
    seen (after (calling [pathEntry 0x40 0xFFFF none] 11 (fun l => if l < 6 then 0x100 else 0x140) 0) (.callv true 12 11))
      (fun h => [h.trap.tcause &&& 0xFFFF &&& 0xFF, (bit h.ended : Nat)]) = [3, 1] := by
  decide +kernel

/-- 07, the worked example: CVTN and CVT to E4x4, and an overflow under toward-zero. -/
theorem test_convert_example :
    ([0x3F800000, 0xC0200000, 0x3F880800, 0x43FA0000].map fun x => (convert true .f32 .e4x4 (rndOf 0) x).1) = [0x38, 0xC2, 0x39, 0x7F] ∧
    ([0x3F800000, 0xC0200000, 0x3F880800, 0x43FA0000].map fun x => (convert false .f32 .e4x4 (rndOf 0) x).1) = [0x38, 0xC2, 0x38, 0x7F] := by
  decide +kernel

/-- 07 R121: 1 plus 2 to the power -24 lies halfway and rounds to even, or up in its mode; infinity times zero is invalid, also
beside a NaN. -/
theorem test_float_sums :
    lane3 (after (vecs [(1, .f32, 0x3F800000), (2, .f32, 0x33800000)]) (.fadd true 3 1 2)) 3 = [0x3F800000, 3] ∧
    lane3 (after { vecs [(1, .f32, 0x3F800000), (2, .f32, 0x33800000)] with mode := 0x40 } (.fadd true 3 1 2)) 3 = [0x3F800001, 3] ∧
    lane3 (after (vecs [(1, .f32, 0x7F800000), (2, .f32, 0), (4, .f32, 0x7FC00000)]) (.fma true 3 1 2 4)) 3 = [0x7FC00000, 3] ∧
    seen (after (vecs [(1, .f32, 0x7F800000), (2, .f32, 0), (4, .f32, 0x7FC00000)]) (.fma true 3 1 2 4)) (fun h => [h.fstat.setWidth 32]) = [1] := by
  decide +kernel

/-- 09, the worked handler: the stacks after RETT.KILL for lane 3 and after RETT.NEXT for lane 9, and TCAUSE after the first. -/
def serving39 (m : Mask) : Entry := { pathEntry 0x800 m (some 0x240) with kind := .handler }
def service (m left : Mask) (st : BitVec 2) : Group :=
  { demo with
    handler := 0x800
    hstart := 0x800
    htpc := demo.codeBase + 0x200
    depth := 2
    stack := [serving39 m, pathEntry 0x204 0xFDF7 (some 0x240), { pathEntry 0x240 left none with kind := .cont }]
    laneTraps := (demo.laneTraps.set 3 ⟨0x00030007, st, 0, 0⟩).set 9 ⟨0x00090008, 2, 0, 0x1234⟩
    trap := { demo.trap with tpc := demo.codeBase + 0x200 } }

theorem test_handler_example :
    shape (after (service 0x208 0xFFFF 2) (.rettKill true)) =
      [0x800, 0x200, 0x240, 0, 0x204, 0xFDF7, 0x240, 0, 0x240, 0xFFF7, 0xFFFFFFFF, 0] ∧
    seen (after (service 0x208 0xFFFF 2) (.rettKill true)) (fun h => [h.trap.tcause, loWord h.trap.taddr]) = [0x00090008, 0x1234] ∧
    shape (after (service 0x200 0xFFF7 3) (.rettNext true)) =
      [0x204, 0x200, 0x240, 0, 0x204, 0xFDF7, 0x240, 0, 0x240, 0xFFF7, 0xFFFFFFFF, 0] := by
  decide +kernel

/-- 12, the record of die 2 at incarnation 1, its 35th release: words 0, 1, 7 and 15 of the granule differ. -/
theorem test_difference_example :
    Rec.words { id := 0, part := 0, die := 2, inc := 1, seq := 0x23, evict := false, granule := 0x4012345680, big := false,
                runs := diffRuns 0 none [0x11, 0x22, 0, 0, 0, 0, 0, 0x77, 0, 0, 0, 0, 0, 0, 0, 0xFFFFFFFF] (List.replicate 16 0) } =
      [0x12345680, 0x40, 0x20030000, 0x10023, 0x40, 0x11, 0x22, 0x2800, 0x77, 0x3800, 0xFFFFFFFF] := by
  decide +kernel

/-- 16 R261, the worked alignment: 3.0, 1.25, −0.296875 and 2 to the power −10 in B16. -/
theorem test_align_example :
    alignA ([0x4040, 0x3FA0, 0xBE98, 0x3A80, 0].map fmtB16.value) = ([1536, 640, -152, 1, 0], 1) := by
  decide +kernel

/-- 16, the worked example: the ranking, the synthesised row, the entries of columns 0 to 2 scaled to F32, and the
accumulation of the pass. -/
def rankMatrix : Matrix :=
  { Matrix.reset with
    table := [240, 160, 96, 32] ++ List.replicate 60 16
    tscale := 0x3F000000
    tile := { Tile.reset with
              kb := 12
              nb := 16
              cells := [[], [4, 1, 0], [], [], [0, 3, 0], [], [2, 0, -3], [], [], [], [], [-1, 0, 0]] } }

theorem test_rank_order_example :
    rankOrder ([0x3F000000, 0x40000000, 0x7FC00000, 0xBF800000, 0x40000000, 0, 0x40600000, 0x80000000, 0x3F000000, 0x7FC00000,
      0x3F800000, 0x40600000].map fmtF32.value) = [6, 11, 1, 4, 10, 0, 8, 5, 7, 3] ∧
    packHalves [6, 11, 1, 4, 10, 0, 8, 5, 7] = [0x000B0006, 0x00040001, 0x0000000A, 0x00050008, 0x00000007] := by
  decide +kernel

theorem test_rank_layer_example :
    rankRow rankMatrix 12 [6, 11, 1, 4] = [0, 96, 0, 0, 32, 0, 240, 0, 0, 0, 0, 160] ∧
    ([(0, 0x4000), (1, 0x3C00), (2, 0x3400), (3, 0x3C00)].map fun x =>
      (accElem 0 false .f32 (rankEntry rankMatrix.tile rankMatrix (rankRow rankMatrix 12 [6, 11, 1, 4]) ⟨0, false⟩ x.1).val x.2).1) =
      [0x40300000, 0x3EC00000, 0xBEB40000, 0] := by
  decide +kernel

/-- 01 R10: along the sender's row, then the column; to an I/O die along the row; the links of an odd die and of an I/O die. -/
theorem test_routes :
    route (.die 1) (.die 10) = [.die 2, .die 6, .die 10] ∧ entryPort (.die 1) 10 = 1 ∧
    route (.die 5) (.io 1) = [.die 6, .die 7, .io 1] ∧ route (.io 0) (.die 6) = [.die 4, .die 5, .die 6] ∧
    entryPort (.io 0) 6 = 6 ∧ entryPort (.die 7) 4 = 3 := by
  decide +kernel

end Sys2Proof.Tests
end

section
/-! PROOFS. Control: NOP (04 R69), and the length of a run after an instruction that passes to the next word (03 R34). -/

namespace Sys2Proof.Machine

/-! ### The words of opcode 0 (03 R45, 04 R69) -/

theorem parse_of_op_zero {w : Word} (h : fldOp w = 0) :
    parse w = if fld24 w = 0 then .ok (.nop (fldB31 w)) else .error .field := by
  simp [parse, parseControl, h]

@[simp] theorem nop_fits (k : DecCtx) (y : Bool) : (Instr.nop y).fits k = true := by
  simp [Instr.fits, Instr.vectors, Instr.evens]

/-- No context refuses NOP, and none accepts another word of its opcode. -/
theorem decode_of_op_zero (k : DecCtx) {w : Word} (h : fldOp w = 0) :
    decode k w = if fld24 w = 0 then .ok (.nop (fldB31 w)) else .error .field := by
  unfold decode
  rw [parse_of_op_zero h, h, if_neg (by simp)]
  by_cases hw : fld24 w = 0
  · rw [if_pos hw]
    simp [Instr.serialOnly, absentReduced]
  · rw [if_neg hw]

/-! ### The run of a group after an instruction (03 R34) -/

@[simp] theorem Group.stopRun_run (g : Group) : g.stopRun.run = none :=
  (congrArg Group.run (Group.flush_lands { g with run := none }).group :)

/-- The run of a group whose stack is not empty is one instruction longer, or it is over; where the word or the position
ends it, it is over. -/
theorem State.goOn_run {s : State} {c : Ctx} {g k : Group} {flow : Flow} (hne : stackAfter (flow.move c g).stack ≠ [])
    (hk : (s.goOn c g flow).group c.r = some k) :
    (∀ x, k.run = some x → x = ⟨flow.live c, c.run.pos + 1⟩) ∧ (endsRun c.word (c.run.pos + 1) = true → k.run = none) := by
  unfold State.goOn State.runEnds at hk
  dsimp only at hk
  split at hk
  next hgo =>
    rw [State.setGroup_group, Option.some_inj] at hk
    subst hk
    exact ⟨fun x hx => (Option.some_inj.mp hx).symm, fun he => by simp [he] at hgo⟩
  next =>
    rw [if_neg (by simpa using hne), State.setGroup_group, Option.some_inj] at hk
    subst hk
    simp

/-- The run after an instruction that leaves its entry, which holds lanes, at the next word. -/
theorem State.finish_falls_run {s : State} {c : Ctx} {g k : Group} {v : Bool} (hi : c.run.live < g.stack.length)
    (hm : c.e.mask ≠ 0) (hk : (s.finish c g .falls [] v).group c.r = some k) :
    (∀ x, k.run = some x → x = ⟨c.run.live, c.run.pos + 1⟩) ∧ (endsRun c.word (c.run.pos + 1) = true → k.run = none) := by
  obtain ⟨-, hst, -⟩ := Group.issued_goes g c v
  have hmem : { c.e with pc := c.e.pc + 4 } ∈ (Flow.falls.move c (g.issued c v)).stack := by
    show _ ∈ (g.issued c v).stack.set c.run.live _
    rw [hst]
    exact List.mem_set hi _
  exact State.goOn_run (stackAfter_ne_nil ⟨_, hmem, hm⟩) hk

/-! ### NOP (04 R69) -/

theorem Group.laters_nil (g : Group) (n : Nat) : g.laters n [] = g := by simp [Group.laters]

/-- With or without an active lane, NOP is the end of an instruction for its group as it stands. -/
theorem exec_nop {s : State} {r : GroupRef} {g : Group} {run : Run} {e : Entry} {act : Mask} (y : Bool)
    (h : Issuing s r g run e act) : exec (.nop y) s =
      .next (s.finish ⟨r, g, run, e, act, e.kind == .handler, encodeWord (.nop y)⟩ g .falls []) := by
  show issueRegs (.nop y) (fun _ => .ok []) s = _
  unfold issueRegs State.withCtx
  rw [h.ctx]
  dsimp only
  rw [Group.laters_nil, ite_self]

theorem endsRun_nop {y : Bool} {pos : Nat} (h : y = true ∨ pos = 23) :
    endsRun (encodeWord (.nop y)) (pos + 1) = true := by
  rcases h with rfl | rfl
  · simp [endsRun, encodeWord]
  · simp [endsRun]

/-- NOP passes to the next word, and its run is one instruction longer or over. -/
theorem nop_passes_and_counts {s : State} {r : GroupRef} {g : Group} {run : Run} {e : Entry} {act : Mask} (y : Bool)
    (h : Issuing s r g run e act) :
    ∃ t k, exec (.nop y) s = .next t ∧ t.group r = some k ∧
      Frame s t r g k [] (g.stack.set run.live { e with pc := e.pc + 4 }) g.rets ∧
      (∀ x, k.run = some x → x = ⟨run.live, run.pos + 1⟩) ∧ (y = true ∨ run.pos = 23 → k.run = none) := by
  obtain ⟨k, hk, hframe⟩ := passes_goes (i := .nop y) h
  obtain ⟨hlive, -⟩ := List.getElem?_eq_some_iff.mp h.entry
  obtain ⟨hlonger, hover⟩ := State.finish_falls_run hlive h.lanes hk
  exact ⟨_, k, exec_nop y h, hk, hframe, hlonger, fun hy => hover (endsRun_nop hy)⟩

/-- Settles O8: every word of opcode 0 is NOP or is refused, and NOP is the end of an instruction for an unchanged group. -/
theorem nopHasNoEffect : Obligations.NopHasNoEffect := by
  unfold Obligations.NopHasNoEffect
  refine ⟨fun k => ⟨decode_of_op_zero k rfl, decode_of_op_zero k rfl, fun w hop hw => ?_⟩, ?_⟩
  · rw [decode_of_op_zero k hop]
    exact if_neg hw
  · intro s r g run e act y _ h
    obtain ⟨t, k, hexec, hk, hframe, hlonger, hover⟩ := nop_passes_and_counts y h
    exact ⟨⟨t, k, hexec, hk, hframe, trivial⟩, t, k, hexec, hk, hlonger, hover⟩

end Sys2Proof.Machine
end
section
/-! PROOFS. Uniform integer: SSEL (05 R77). -/

namespace Sys2Proof.Machine

/-! ### The words of opcode 0x12 (03 R45, 05 R77) -/

/-- The parser checks no field of the opcode. -/
theorem parse_of_op_ssel {w : Word} (h : fldOp w = 0x12) :
    parse w = .ok (.ssel (fldB31 w) (fldD w) (fldA w) (fldB w) (fldC w)) := by
  simp [parse, parseUniform, h]

/-- SSEL names neither a vector register nor a pair. -/
@[simp] theorem ssel_fits (k : DecCtx) (y : Bool) (d a b c : Reg) : (Instr.ssel y d a b c).fits k = true := by
  simp [Instr.fits, Instr.vectors, Instr.evens]

/-- No context refuses a word of the opcode. -/
theorem decode_of_op_ssel (k : DecCtx) {w : Word} (h : fldOp w = 0x12) :
    decode k w = .ok (.ssel (fldB31 w) (fldD w) (fldA w) (fldB w) (fldC w)) := by
  unfold decode
  rw [parse_of_op_ssel h, h, if_neg (by simp)]
  simp [Instr.serialOnly, absentReduced]

/-! ### The result (05 R77) -/

/-- With an active lane, SSEL writes its one uniform register, which in the end holds the selected word. -/
theorem ssel_completes {s : State} {r : GroupRef} {g : Group} {run : Run} {e : Entry} {act : Mask} (hs : s.Sound)
    (h : Issuing s r g run e act) (ha : act ≠ 0) (y : Bool) (d a b c : Reg) :
    Completes (.ssel y d a b c) s r g run e [.uni d] fun k => k.uni d = if g.uni c ≠ 0 then g.uni a else g.uni b := by
  have hexec : exec (.ssel y d a b c) s = issueRegs (.ssel y d a b c)
      (fun x => uniResult 2 d (if x.g.uni c ≠ 0 then x.g.uni a else x.g.uni b)) s := rfl
  exact uni_completes hexec hs h ha rfl

/-- Settles O9: every word of opcode 0x12 is SSEL with its fields as operands, and SSEL completes with the selected word. -/
theorem sselSelects : Obligations.SselSelects := by
  unfold Obligations.SselSelects
  exact ⟨fun k _ hop => decode_of_op_ssel k hop, fun _ _ _ _ _ _ hs h ha => ssel_completes hs h ha⟩

end Sys2Proof.Machine
end
